-- ==== Sys2Proof/Word.lean ====
section
/-! DEFINITION. The machine's words, and the shape of a sparse table. -/

namespace Sys2Proof

/-- A scalar register, state register or address: 64 bits (R17, R19). -/
abbrev Word := BitVec 64

/-- One byte of memory. -/
abbrev Byte := BitVec 8

/-- A sparse table keyed by number, kept in rising key order: what is not listed has the value its reader names. -/
abbrev Tab (α : Type) := List (Nat × α)

end Sys2Proof
end

