-- ==== Sys2Proof/Config.lean ====
section
/-! DEFINITION. The device's fixed figures (Table 0-1, R2) and the values the manual leaves open: opaque constants,
applied to the plain counter `State.fresh` or to what the manual makes them depend on, so that no proof can rest on
one. -/

namespace Sys2Proof.Config

open Sys2Proof

/-- A word the manual leaves open: the n-th one drawn (log entry 5). -/
opaque freeWord : Nat → Word

/-- SHA-512 of a string of bytes written as a number, which the manual names and does not define (log entry 10). -/
opaque sha512 : Nat → Nat

/-- The two results between which the error bound of VFEXPF chooses (R195): true takes the upper one. The operand's
bits decide, so that equal operands give equal results (log entry 9). -/
opaque expUpper : Nat → Bool

/-- Harts of the device (R2). -/
def harts : Nat := 512
/-- Addressable cores (R2). -/
def cores : Nat := 128
/-- Core pairs, arrays and islands (R2). -/
def pairs : Nat := 64
/-- Clusters (R2). -/
def clusters : Nat := 4
/-- Bytes of HBM (R36). -/
def hbmBytes : Nat := 0x8000000000
/-- Base of the clusters' SRAM (R36). -/
def sramBase : Nat := 0x10000000000
/-- Bytes of one cluster's SRAM (R36). -/
def sramBytes : Nat := 0x4000000
/-- Base of the pool windows (R36). -/
def poolBase : Nat := 0x10100000000
/-- Bytes of one pool window (R36). -/
def poolBytes : Nat := 0x400000
/-- Base of the far window (R36). -/
def farBase : Nat := 0x20000000000
/-- Base of the Braid peer window (R36). -/
def braidBase : Nat := 0x30000000000
/-- End of the Braid peer window (R36). -/
def braidEnd : Nat := 0x40000000000
/-- Base of the device registers (R36). -/
def devBase : Nat := 0xF0000000000
/-- Largest physical address, plus one. -/
def physEnd : Nat := 0x100000000000

end Sys2Proof.Config
end

