-- ==== Sys2Proof/Machine/Bits.lean ====
section
/-! DEFINITION. Bit fields, byte strings and sparse tables: the small operations that every meaning uses. Numbers are
used where the manual packs fields; `bits v hi lo` is its helper of that name (Table 1-14). -/

namespace Sys2Proof.Machine

open Sys2Proof

/-! ### Sparse tables -/

/-- The value of key k, or the reader's default. -/
def tget {α : Type} : Tab α → Nat → α → α
  | [], _, d => d
  | (j, v) :: r, k, d => if j = k then v else tget r k d

/-- The value of key k, when it is listed. -/
def tfind {α : Type} : Tab α → Nat → Option α
  | [], _ => none
  | (j, v) :: r, k => if j = k then some v else tfind r k

/-- Give key k a value, keeping the keys in rising order. -/
def tput {α : Type} : Tab α → Nat → α → Tab α
  | [], k, v => [(k, v)]
  | (j, w) :: r, k, v =>
    if k < j then (k, v) :: (j, w) :: r
    else if k = j then (k, v) :: r
    else (j, w) :: tput r k v

/-- Remove key k. -/
def tdel {α : Type} (t : Tab α) (k : Nat) : Tab α := t.filter (fun p => p.1 != k)

/-! ### Bit fields of numbers -/

/-- Bits [hi:lo] of a number (Table 1-14). -/
def bits (v hi lo : Nat) : Nat := (v >>> lo) % 2 ^ (hi + 1 - lo)

/-- Bit i of a number. -/
def bit (v i : Nat) : Bool := v.testBit i

/-- The n bits from `lo` of a number replaced by those of x. -/
def putBits (v lo n x : Nat) : Nat :=
  v % 2 ^ lo + (x % 2 ^ n) * 2 ^ lo + (v >>> (lo + n)) * 2 ^ (lo + n)

/-- Element i, of w bits, of a packed register. -/
def elem (v w i : Nat) : Nat := (v >>> (w * i)) % 2 ^ w

/-- A packed register with element i, of w bits, replaced. -/
def setElem (v w i x : Nat) : Nat := putBits v (w * i) w x

/-- Pack elements of w bits, the first lowest. -/
def packElems (w : Nat) : List Nat → Nat
  | [] => 0
  | x :: r => x % 2 ^ w + packElems w r * 2 ^ w

/-- The low n bits of v as a signed number. -/
def signed (n v : Nat) : Int :=
  if v % 2 ^ n < 2 ^ (n - 1) then (v % 2 ^ n : Nat) else ((v % 2 ^ n : Nat) : Int) - (2 ^ n : Nat)

/-- A number modulo 2^n. -/
def wrap (n : Nat) (i : Int) : Nat := (i % ((2 ^ n : Nat) : Int)).toNat

/-- sext(v, n) as a 64-bit register value (Table 1-14). -/
def sext (n v : Nat) : Word := BitVec.ofNat 64 (wrap 64 (signed n v))

/-- zext(v, n) as a 64-bit register value (Table 1-14). -/
def zext (n v : Nat) : Word := BitVec.ofNat 64 (v % 2 ^ n)

/-- sat(v, lo, hi) (Table 1-14). -/
def sat (v lo hi : Int) : Int := if v < lo then lo else if hi < v then hi else v

/-- Count of set bits among the low n. -/
def popc : Nat → Nat → Nat
  | 0, _ => 0
  | n + 1, v => (if bit v n then 1 else 0) + popc n v

/-- Lowest set bit among bits i, i + 1, … of n. -/
def lowestBit (v : Nat) : Nat → Nat → Option Nat
  | 0, _ => none
  | n + 1, i => if bit v i then some i else lowestBit v n (i + 1)

/-- Floor of the base-2 logarithm; 0 for 0. -/
def log2 (v : Nat) : Nat := v.log2

/-! ### Byte strings, little-endian (R4) -/

/-- The n low bytes of a number, the lowest first. -/
def leBytes : Nat → Nat → List Byte
  | 0, _ => []
  | n + 1, v => BitVec.ofNat 8 v :: leBytes n (v / 256)

/-- The number of a byte string. -/
def ofLe : List Byte → Nat
  | [] => 0
  | b :: r => b.toNat + 256 * ofLe r

/-- n zero bytes. -/
def zeros (n : Nat) : List Byte := List.replicate n 0

/-- The field of n bytes at an offset of a byte string. -/
def field (bs : List Byte) (off n : Nat) : Nat := ofLe ((bs.drop off).take n)

/-- Whether n divides a. -/
def aligned (a n : Nat) : Bool := a % n == 0

/-- The least number from lo, of n candidates, that satisfies a test. -/
def leastFrom (p : Nat → Bool) : Nat → Nat → Option Nat
  | 0, _ => none
  | n + 1, lo => if p lo then some lo else leastFrom p n (lo + 1)

end Sys2Proof.Machine
end

