-- ==== Sys2Proof/Machine/Memory.lean ====
section
/-! DEFINITION. Memory as a list of address and byte pairs in one canonical form: addresses strictly rising, no zero
byte listed, since an unlisted byte reads as zero (log entry 3). Every write goes through `writeBytes` or
`eraseBytes`, which keep the form. -/

namespace Sys2Proof.Machine

open Sys2Proof

/-- Memory: physical address and byte. -/
abbrev Memory := List Host.Cell

/-- What an unlisted address reads as (log entry 3). -/
def unlistedByte : Byte := 0

/-- The byte at a physical address. -/
def readByte (m : Memory) (a : Nat) : Byte := tget m a unlistedByte

/-- The n bytes from a. -/
def readBytes (m : Memory) : Nat → Nat → List Byte
  | _, 0 => []
  | a, n + 1 => readByte m a :: readBytes m (a + 1) n

/-- The little-endian number of the n bytes from a. -/
def readNat (m : Memory) (a n : Nat) : Nat := ofLe (readBytes m a n)

/-- The cells of a byte string from a, zero bytes left out. -/
def cellsOf : Nat → List Byte → Memory
  | _, [] => []
  | a, b :: r => if b = unlistedByte then cellsOf (a + 1) r else (a, b) :: cellsOf (a + 1) r

/-- Make the n bytes from a read as zero. -/
def eraseBytes (m : Memory) (a n : Nat) : Memory := m.filter (fun c => decide (c.1 < a ∨ a + n ≤ c.1))

/-- Write a byte string from a. -/
def writeBytes (m : Memory) (a : Nat) (bs : List Byte) : Memory :=
  m.filter (fun c => decide (c.1 < a)) ++ cellsOf a bs ++ m.filter (fun c => decide (a + bs.length ≤ c.1))

/-- Write the n low bytes of a number from a. -/
def writeNat (m : Memory) (a n v : Nat) : Memory := writeBytes m a (leBytes n v)

/-- Canonical form from a least address on: rising addresses, no zero byte. -/
def Memory.wfFrom (lo : Nat) : Memory → Bool
  | [] => true
  | (a, b) :: r => decide (lo ≤ a) && b != unlistedByte && wfFrom (a + 1) r

/-- The canonical form. -/
def Memory.wf (m : Memory) : Bool := m.wfFrom 0

end Sys2Proof.Machine
end

