-- ==== Sys2Proof/Syntax/Parts.lean ====
section
/-! DEFINITION. The operand types of the syntax: register numbers, and what the device's operations and events
carry. -/

namespace Sys2Proof

/-- Number of a scalar register x0 to x31 (R17). -/
abbrev XReg := BitVec 5
/-- Number of a vector register v0 to v63 (R17). -/
abbrev VReg := BitVec 6
/-- Number of a mask register; 0 is "unmasked" in a mask field (R17). -/
abbrev MReg := BitVec 3
/-- Number of a stream register s0 to s15 (R17). -/
abbrev SReg := BitVec 4

/-- What the dispatcher does with an absent page that a job meets (R96, R336, R440): it supplies a zeroed page at
the physical address given, or it declines. `none` means that no page is asked for in this event. -/
inductive PageSupply where
  | absent
  | supply (pa : Nat)
  | decline
  deriving DecidableEq, Repr

/-- What a scrub or a checked HBM access found in a block (R47, R48): nothing, one wrong symbol, two, or an error of three or more
that the code takes for other bytes. -/
inductive EccOutcome where
  | clean
  | corrected (symbol : Nat)
  | uncorrectable
  | undetected (data : List Byte)
  deriving DecidableEq, Repr

/-- A strip sent by SEND (R296): the element width in bits, the element count and the packed element bits. -/
structure Strip where
  ew   : Nat
  n    : Nat
  bits : Nat
  deriving DecidableEq, Repr

/-- A peer's access through this device's aperture (R292, R293, R365): its Braid group, the aperture offset and what
it does there. -/
inductive BraidOp where
  | load (len : Nat)
  | store (data : List Byte)
  | sigdec
  deriving DecidableEq, Repr

structure BraidAccess where
  gid    : Nat
  offset : Nat
  op     : BraidOp
  deriving DecidableEq, Repr

/-- A firmware image as the root of trust sees it (R410, R411): the digest of its bytes, its security version, and
whether its signature chain verifies; `handover` says whether it accepts the handover structure's version (R416). -/
structure Image where
  digest   : Nat
  version  : Nat
  sigOk    : Bool
  handover : Bool
  deriving DecidableEq, Repr

/-- A signed configuration block (R410, R412): its version, the minimum security version it sets, the digest of the
owner certificate, the trims, the Ethernet ports' MAC addresses, BRAIDPOS, and whether its signature verifies. -/
structure ConfigBlock where
  digest     : Nat
  version    : Nat
  minVersion : Nat
  owner      : Nat
  trims      : List Nat := []
  macs       : List (BitVec 48) := []
  braidpos   : BitVec 64
  sigOk      : Bool
  deriving DecidableEq, Repr

/-- What a requester's certificate chain leads to (R406, R413). -/
structure CertChain where
  owner   : Nat
  toRoot  : Bool
  deriving DecidableEq, Repr

end Sys2Proof
end

