-- ==== Sys2Proof/Syntax.lean ====
section
/-! DEFINITION. The abstract syntax: one constructor per row of spec/opcode_table.json. The rows that the
Kloca encoding gives words (R11 to R15) carry their operand fields, destination first; a 64-bit instruction carries the
fields of its E word beside those of the first word. The rows that no word encodes are the device's operations
and events (spec/95_what_each_step_holds.md); they carry what the event acts on and what only the outside world
can decide (whether a test passed, what a host sent). -/

namespace Sys2Proof

/-- One instruction, operation or event of the opcode table. -/
inductive Instr where
  -- integer register instructions (R306)
  | add (d : XReg) (a : XReg) (b : XReg)
  | sub (d : XReg) (a : XReg) (b : XReg)
  | and (d : XReg) (a : XReg) (b : XReg)
  | or (d : XReg) (a : XReg) (b : XReg)
  | xor (d : XReg) (a : XReg) (b : XReg)
  | andn (d : XReg) (a : XReg) (b : XReg)
  | orn (d : XReg) (a : XReg) (b : XReg)
  | sll (d : XReg) (a : XReg) (b : XReg)
  | srl (d : XReg) (a : XReg) (b : XReg)
  | sra (d : XReg) (a : XReg) (b : XReg)
  | rol (d : XReg) (a : XReg) (b : XReg)
  | ror (d : XReg) (a : XReg) (b : XReg)
  | slt (d : XReg) (a : XReg) (b : XReg)
  | sltu (d : XReg) (a : XReg) (b : XReg)
  | min (d : XReg) (a : XReg) (b : XReg)
  | max (d : XReg) (a : XReg) (b : XReg)
  | minu (d : XReg) (a : XReg) (b : XReg)
  | maxu (d : XReg) (a : XReg) (b : XReg)
  | mul (d : XReg) (a : XReg) (b : XReg)
  | mulh (d : XReg) (a : XReg) (b : XReg)
  | mulhu (d : XReg) (a : XReg) (b : XReg)
  | div (d : XReg) (a : XReg) (b : XReg)
  | divu (d : XReg) (a : XReg) (b : XReg)
  | rem (d : XReg) (a : XReg) (b : XReg)
  | remu (d : XReg) (a : XReg) (b : XReg)
  | clz (d : XReg) (a : XReg)
  | ctz (d : XReg) (a : XReg)
  | popc (d : XReg) (a : XReg)
  | sexb (d : XReg) (a : XReg)
  | sexh (d : XReg) (a : XReg)
  | sexw (d : XReg) (a : XReg)
  | zexw (d : XReg) (a : XReg)
  -- immediates and shifts (R307, R308)
  | addi (d : XReg) (a : XReg) (i : BitVec 14)
  | andi (d : XReg) (a : XReg) (i : BitVec 14)
  | ori (d : XReg) (a : XReg) (i : BitVec 14)
  | xori (d : XReg) (a : XReg) (i : BitVec 14)
  | slti (d : XReg) (a : XReg) (i : BitVec 14)
  | sltiu (d : XReg) (a : XReg) (i : BitVec 14)
  | slli (d : XReg) (a : XReg) (h : BitVec 6)
  | srli (d : XReg) (a : XReg) (h : BitVec 6)
  | srai (d : XReg) (a : XReg) (h : BitVec 6)
  | rori (d : XReg) (a : XReg) (h : BitVec 6)
  -- constants (R309, R310)
  | lui (d : XReg) (i : BitVec 19)
  | addpc (d : XReg) (i : BitVec 19)
  | lix (d : XReg) (imm : BitVec 32)
  | lixh (d : XReg) (imm : BitVec 32)
  -- scalar loads and stores (R126, R127)
  | lb (d : XReg) (a : XReg) (i : BitVec 14)
  | lh (d : XReg) (a : XReg) (i : BitVec 14)
  | lw (d : XReg) (a : XReg) (i : BitVec 14)
  | ld (d : XReg) (a : XReg) (i : BitVec 14)
  | lbu (d : XReg) (a : XReg) (i : BitVec 14)
  | lhu (d : XReg) (a : XReg) (i : BitVec 14)
  | lwu (d : XReg) (a : XReg) (i : BitVec 14)
  | sb (a : XReg) (b : XReg) (i : BitVec 14)
  | sh (a : XReg) (b : XReg) (i : BitVec 14)
  | sw (a : XReg) (b : XReg) (i : BitVec 14)
  | sd (a : XReg) (b : XReg) (i : BitVec 14)
  -- branches and jumps (R311, R312)
  | beq (a : XReg) (b : XReg) (o : BitVec 11)
  | bne (a : XReg) (b : XReg) (o : BitVec 11)
  | blt (a : XReg) (b : XReg) (o : BitVec 11)
  | bge (a : XReg) (b : XReg) (o : BitVec 11)
  | bltu (a : XReg) (b : XReg) (o : BitVec 11)
  | bgeu (a : XReg) (b : XReg) (o : BitVec 11)
  | j (o : BitVec 24)
  | jl (o : BitVec 24)
  | jlr (d : XReg) (a : XReg) (i : BitVec 14)
  -- atomics (R128 to R130)
  | amoswap (d : XReg) (a : XReg) (b : XReg) (w : BitVec 1)
  | amoadd (d : XReg) (a : XReg) (b : XReg) (w : BitVec 1)
  | amoand (d : XReg) (a : XReg) (b : XReg) (w : BitVec 1)
  | amoor (d : XReg) (a : XReg) (b : XReg) (w : BitVec 1)
  | amoxor (d : XReg) (a : XReg) (b : XReg) (w : BitVec 1)
  | amomin (d : XReg) (a : XReg) (b : XReg) (w : BitVec 1)
  | amomax (d : XReg) (a : XReg) (b : XReg) (w : BitVec 1)
  | amominu (d : XReg) (a : XReg) (b : XReg) (w : BitVec 1)
  | amomaxu (d : XReg) (a : XReg) (b : XReg) (w : BitVec 1)
  | amocas (d : XReg) (a : XReg) (b : XReg) (w : BitVec 1)
  | amofadd (d : XReg) (a : XReg) (b : XReg)
  -- scalar floating point (R313 to R315)
  | faddF (d : XReg) (a : XReg) (b : XReg) (r : BitVec 3)
  | fsubF (d : XReg) (a : XReg) (b : XReg) (r : BitVec 3)
  | fmulF (d : XReg) (a : XReg) (b : XReg) (r : BitVec 3)
  | fdivF (d : XReg) (a : XReg) (b : XReg) (r : BitVec 3)
  | fsqrtF (d : XReg) (a : XReg) (r : BitVec 3)
  | fminF (d : XReg) (a : XReg) (b : XReg)
  | fmaxF (d : XReg) (a : XReg) (b : XReg)
  | feqF (d : XReg) (a : XReg) (b : XReg)
  | fltF (d : XReg) (a : XReg) (b : XReg)
  | fleF (d : XReg) (a : XReg) (b : XReg)
  | fclassF (d : XReg) (a : XReg)
  | fcvtWF (d : XReg) (a : XReg) (r : BitVec 3)
  | fcvtLF (d : XReg) (a : XReg) (r : BitVec 3)
  | fcvtFW (d : XReg) (a : XReg) (r : BitVec 3)
  | fcvtFL (d : XReg) (a : XReg) (r : BitVec 3)
  | fcvtBF (d : XReg) (a : XReg) (r : BitVec 3)
  | fcvtFB (d : XReg) (a : XReg)
  | fsgnj (d : XReg) (a : XReg) (b : XReg)
  | fsgnjn (d : XReg) (a : XReg) (b : XReg)
  | fsgnjx (d : XReg) (a : XReg) (b : XReg)
  | fmaddF (d : XReg) (a : XReg) (b : XReg) (c : XReg) (r : BitVec 3)
  | fmsubF (d : XReg) (a : XReg) (b : XReg) (c : XReg) (r : BitVec 3)
  | fnmaddF (d : XReg) (a : XReg) (b : XReg) (c : XReg) (r : BitVec 3)
  | fnmsubF (d : XReg) (a : XReg) (b : XReg) (c : XReg) (r : BitVec 3)
  -- fences, arrival, barrier, signal and waiting instructions (R359, R103, R105, R109, R318)
  | fenceSv
  | fenceVs
  | fenceAll
  | fenceX
  | ifence
  | waitany (d : XReg) (a : XReg)
  | waitall (d : XReg) (a : XReg)
  | ffr (d : XReg) (a : XReg)
  | tagclr (a : XReg)
  | bar (d : XReg) (a : XReg)
  | barexp (a : XReg) (b : XReg)
  | bararr (d : XReg) (a : XReg)
  | barwt (d : XReg) (a : XReg) (b : XReg)
  | sigdec (d : XReg) (a : XReg)
  | sigwait (d : XReg) (a : XReg) (b : XReg)
  | wfe
  | yield
  -- state registers (R316)
  | csrr (d : XReg) (c : BitVec 12)
  | csrw (d : XReg) (a : XReg) (c : BitVec 12)
  | csrs (d : XReg) (a : XReg) (c : BitVec 12)
  | csrc (d : XReg) (a : XReg) (c : BitVec 12)
  -- system instructions (R321)
  | trapi (c : BitVec 10)
  | eret
  | brk
  | halt
  | tlbinv (a : XReg) (b : XReg)
  | vcfg (d : XReg) (ew : BitVec 2) (nr : BitVec 2) (lanes : BitVec 5) (gc : BitVec 2) (lam : BitVec 1)
  -- vector length (R163)
  | vsetl (d : XReg) (a : XReg)
  -- vector floating point (R189 to R197)
  | vfaddVV (d : VReg) (a : VReg) (b : VReg) (m : MReg)
  | vfsubVV (d : VReg) (a : VReg) (b : VReg) (m : MReg)
  | vfmulVV (d : VReg) (a : VReg) (b : VReg) (m : MReg)
  | vfdivVV (d : VReg) (a : VReg) (b : VReg) (m : MReg)
  | vfminVV (d : VReg) (a : VReg) (b : VReg) (m : MReg)
  | vfmaxVV (d : VReg) (a : VReg) (b : VReg) (m : MReg)
  | vfsgnjVV (d : VReg) (a : VReg) (b : VReg) (m : MReg)
  | vfsgnjnVV (d : VReg) (a : VReg) (b : VReg) (m : MReg)
  | vfaddVX (d : VReg) (a : VReg) (x : XReg) (m : MReg)
  | vfsubVX (d : VReg) (a : VReg) (x : XReg) (m : MReg)
  | vfmulVX (d : VReg) (a : VReg) (x : XReg) (m : MReg)
  | vfdivVX (d : VReg) (a : VReg) (x : XReg) (m : MReg)
  | vfminVX (d : VReg) (a : VReg) (x : XReg) (m : MReg)
  | vfmaxVX (d : VReg) (a : VReg) (x : XReg) (m : MReg)
  | vfsgnjVX (d : VReg) (a : VReg) (x : XReg) (m : MReg)
  | vfsgnjnVX (d : VReg) (a : VReg) (x : XReg) (m : MReg)
  | vfmaVV (d : VReg) (a : VReg) (b : VReg) (m : MReg)
  | vfmsVV (d : VReg) (a : VReg) (b : VReg) (m : MReg)
  | vfnmaVV (d : VReg) (a : VReg) (b : VReg) (m : MReg)
  | vfnmsVV (d : VReg) (a : VReg) (b : VReg) (m : MReg)
  | vfceqVV (d : MReg) (a : VReg) (b : VReg) (m : MReg)
  | vfcltVV (d : MReg) (a : VReg) (b : VReg) (m : MReg)
  | vfcleVV (d : MReg) (a : VReg) (b : VReg) (m : MReg)
  | vfcneVV (d : MReg) (a : VReg) (b : VReg) (m : MReg)
  | vfmaVX (d : VReg) (a : VReg) (x : XReg) (m : MReg)
  | vfmsVX (d : VReg) (a : VReg) (x : XReg) (m : MReg)
  | vfnmaVX (d : VReg) (a : VReg) (x : XReg) (m : MReg)
  | vfnmsVX (d : VReg) (a : VReg) (x : XReg) (m : MReg)
  | vfceqVX (d : MReg) (a : VReg) (x : XReg) (m : MReg)
  | vfcltVX (d : MReg) (a : VReg) (x : XReg) (m : MReg)
  | vfcleVX (d : MReg) (a : VReg) (x : XReg) (m : MReg)
  | vfcneVX (d : MReg) (a : VReg) (x : XReg) (m : MReg)
  | vfsqrt (d : VReg) (a : VReg) (r : BitVec 3) (m : MReg)
  | vfrec (d : VReg) (a : VReg) (m : MReg)
  | vfrsq (d : VReg) (a : VReg) (m : MReg)
  | vfexpf (d : VReg) (a : VReg) (m : MReg)
  | vfrint (d : VReg) (a : VReg) (r : BitVec 3) (m : MReg)
  | vfclass (d : VReg) (a : VReg) (m : MReg)
  | vfabs (d : VReg) (a : VReg) (m : MReg)
  | vfneg (d : VReg) (a : VReg) (m : MReg)
  | vfcvtWF (d : VReg) (a : VReg) (r : BitVec 3) (m : MReg)
  | vfcvtFW (d : VReg) (a : VReg) (r : BitVec 3) (m : MReg)
  | vfcvtBF (d : VReg) (a : VReg) (r : BitVec 3) (m : MReg)
  | vfcvtFB (d : VReg) (a : VReg) (m : MReg)
  | vfgetexp (d : VReg) (a : VReg) (m : MReg)
  | vfgetmant (d : VReg) (a : VReg) (m : MReg)
  | vfscaleVV (d : VReg) (a : VReg) (b : VReg) (m : MReg)
  | vfscaleVX (d : VReg) (a : VReg) (x : XReg) (m : MReg)
  -- vector integer (R198, R199)
  | vaddVV (d : VReg) (a : VReg) (b : VReg) (m : MReg)
  | vsubVV (d : VReg) (a : VReg) (b : VReg) (m : MReg)
  | vmulVV (d : VReg) (a : VReg) (b : VReg) (m : MReg)
  | vandVV (d : VReg) (a : VReg) (b : VReg) (m : MReg)
  | vorVV (d : VReg) (a : VReg) (b : VReg) (m : MReg)
  | vxorVV (d : VReg) (a : VReg) (b : VReg) (m : MReg)
  | vminVV (d : VReg) (a : VReg) (b : VReg) (m : MReg)
  | vmaxVV (d : VReg) (a : VReg) (b : VReg) (m : MReg)
  | vaddVX (d : VReg) (a : VReg) (x : XReg) (m : MReg)
  | vsubVX (d : VReg) (a : VReg) (x : XReg) (m : MReg)
  | vmulVX (d : VReg) (a : VReg) (x : XReg) (m : MReg)
  | vandVX (d : VReg) (a : VReg) (x : XReg) (m : MReg)
  | vorVX (d : VReg) (a : VReg) (x : XReg) (m : MReg)
  | vxorVX (d : VReg) (a : VReg) (x : XReg) (m : MReg)
  | vminVX (d : VReg) (a : VReg) (x : XReg) (m : MReg)
  | vmaxVX (d : VReg) (a : VReg) (x : XReg) (m : MReg)
  | vsllVV (d : VReg) (a : VReg) (b : VReg) (m : MReg)
  | vsrlVV (d : VReg) (a : VReg) (b : VReg) (m : MReg)
  | vsraVV (d : VReg) (a : VReg) (b : VReg) (m : MReg)
  | vminuVV (d : VReg) (a : VReg) (b : VReg) (m : MReg)
  | vmaxuVV (d : VReg) (a : VReg) (b : VReg) (m : MReg)
  | vmulhVV (d : VReg) (a : VReg) (b : VReg) (m : MReg)
  | vceqVV (d : MReg) (a : VReg) (b : VReg) (m : MReg)
  | vcltVV (d : MReg) (a : VReg) (b : VReg) (m : MReg)
  | vsllVX (d : VReg) (a : VReg) (x : XReg) (m : MReg)
  | vsrlVX (d : VReg) (a : VReg) (x : XReg) (m : MReg)
  | vsraVX (d : VReg) (a : VReg) (x : XReg) (m : MReg)
  | vminuVX (d : VReg) (a : VReg) (x : XReg) (m : MReg)
  | vmaxuVX (d : VReg) (a : VReg) (x : XReg) (m : MReg)
  | vmulhVX (d : VReg) (a : VReg) (x : XReg) (m : MReg)
  | vceqVX (d : MReg) (a : VReg) (x : XReg) (m : MReg)
  | vcltVX (d : MReg) (a : VReg) (x : XReg) (m : MReg)
  -- masks (R200)
  | vmand (d : MReg) (a : MReg) (b : MReg) (m : MReg)
  | vmor (d : MReg) (a : MReg) (b : MReg) (m : MReg)
  | vmxor (d : MReg) (a : MReg) (b : MReg) (m : MReg)
  | vmandn (d : MReg) (a : MReg) (b : MReg) (m : MReg)
  | vmnot (d : MReg) (a : MReg) (m : MReg)
  | vmset (d : MReg) (m : MReg)
  | vmpopc (d : XReg) (a : MReg) (m : MReg)
  | vmfirst (d : XReg) (a : MReg) (m : MReg)
  -- permutations (R203)
  | vslideup (d : VReg) (a : VReg) (x : XReg) (m : MReg)
  | vslidedn (d : VReg) (a : VReg) (x : XReg) (m : MReg)
  | vgather (d : VReg) (a : VReg) (b : VReg) (m : MReg)
  | vcompress (d : VReg) (a : VReg) (m : MReg)
  | vexpand (d : VReg) (a : VReg) (m : MReg)
  | vmerge (d : VReg) (a : VReg) (b : VReg) (m : MReg)
  | vbcast (d : VReg) (x : XReg) (m : MReg)
  | vextract (d : XReg) (a : VReg) (x : XReg)
  -- reductions (R209)
  | vfredsum (d : VReg) (a : VReg) (b : VReg) (m : MReg)
  | vfredmax (d : VReg) (a : VReg) (b : VReg) (m : MReg)
  | vfredmin (d : VReg) (a : VReg) (b : VReg) (m : MReg)
  | vredsum (d : VReg) (a : VReg) (b : VReg) (m : MReg)
  | vredmax (d : VReg) (a : VReg) (b : VReg) (m : MReg)
  | vredmin (d : VReg) (a : VReg) (b : VReg) (m : MReg)
  | vfredosum (d : VReg) (a : VReg) (b : VReg) (m : MReg)
  | vseq (m : MReg) (d : VReg) (start : BitVec 16) (inc : BitVec 16)
  | vfbcasti (m : MReg) (d : VReg) (imm : BitVec 32)
  | vbcasti (m : MReg) (d : VReg) (imm : BitVec 32)
  | vrand (m : MReg) (x : XReg) (d : VReg) (sid : BitVec 16) (kind : BitVec 2)
  -- vector memory (R176, R283, R286, R287)
  | vld (d : VReg) (s : SReg) (m : MReg)
  | vldx (d : VReg) (b : VReg) (s : SReg) (m : MReg)
  | vst (d : VReg) (s : SReg) (m : MReg)
  | vstx (d : VReg) (b : VReg) (s : SReg) (m : MReg)
  | vsld (d : VReg) (s : SReg) (m : MReg)
  | vldSeq (d : VReg) (s : SReg) (m : MReg)
  | vstSeq (d : VReg) (s : SReg) (m : MReg)
  | vstn (d : VReg) (s : SReg) (m : MReg)
  | vamoaddF (d : VReg) (b : VReg) (s : SReg) (m : MReg)
  | vamoaddW (d : VReg) (b : VReg) (s : SReg) (m : MReg)
  | vamominF (d : VReg) (b : VReg) (s : SReg) (m : MReg)
  | vamomaxF (d : VReg) (b : VReg) (s : SReg) (m : MReg)
  | vamominW (d : VReg) (b : VReg) (s : SReg) (m : MReg)
  | vamomaxW (d : VReg) (b : VReg) (s : SReg) (m : MReg)
  | vstp (d : VReg) (t : SReg) (s : SReg) (m : MReg)
  -- stream registers (R79)
  | sdesc (b : XReg) (s : SReg)
  | sbase (b : XReg) (s : SReg)
  | spos (d : XReg) (s : SReg)
  | sseek (b : XReg) (s : SReg)
  | srel (s : SReg)
  | ssave (b : XReg) (s : SReg)
  -- held rows (R49)
  | hold (d : XReg) (a : XReg)
  | hrel (d : XReg) (a : XReg)
  | hqry (d : XReg) (a : XReg)
  | copy (d : XReg) (a : XReg) (b : XReg) (src : SReg) (dst : SReg) (tag : BitVec 6) (fl : BitVec 4)
  | copyf (d : XReg) (a : XReg) (b : XReg) (dst : SReg) (tag : BitVec 6) (fl : BitVec 4)
  | copystat (d : XReg) (tag : BitVec 6)
  -- leases, buffers and operations (R268)
  | lease (d : XReg) (a : XReg)
  | lrenew (d : XReg) (a : XReg)
  | lrel (d : XReg) (a : XReg)
  | lqry (d : XReg) (a : XReg)
  | cbdef (d : XReg) (a : XReg) (b : XReg)
  | cbadv (a : XReg) (b : XReg)
  | cbtake (d : XReg) (a : XReg)
  | cbret (a : XReg) (b : XReg)
  | eop (d : XReg) (a : XReg) (b : XReg)
  | mldb (a : XReg) (b : XReg) (fmt : BitVec 8) (n : BitVec 8) (k : BitVec 9) (slot : BitVec 1)
  | mldbFf (a : XReg) (b : XReg) (fmt : BitVec 8) (n : BitVec 8) (k : BitVec 9) (slot : BitVec 1)
  | mma (a : VReg) (d : VReg) (mm : BitVec 8) (n : BitVec 8) (k : BitVec 9) (acc : BitVec 1) (slot : BitVec 1)
  | mprog (d : XReg) (slot : BitVec 1)
  | msync
  | mchk (d : XReg) (clr : BitVec 1)
  -- millrace (R251)
  | mrun (d : XReg) (x : XReg)
  | mstop
  | mfeed (a : VReg) (x : XReg)
  | mdrain (d : VReg) (x : XReg)
  | mlah (d : XReg) (s : BitVec 6)
  | mwaitd (d : XReg) (x : XReg)
  -- register transfers (R294)
  | send (a : VReg) (x : XReg)
  | recv (d : XReg) (v : VReg) (x : XReg)
  | rsig (x : XReg)
  -- packets (R339)
  | launch (d : XReg) (a : XReg) (b : XReg)
  | pktget (d : XReg) (a : XReg)
  | pktemit (d : XReg) (a : XReg) (b : XReg)
  | pktdone (a : XReg)
  -- operations and events of the device that no word encodes; each names what it acts on, and the State's agenda says which comes next
  | vectorProbe (g : Nat)
  | vectorAdmission (g : Nat) (k : Nat) (upto : Nat)
  | loadDataArrival (g : Nat) (k : Nat)
  | streamPrefetch (g : Nat) (sn : Nat)
  | laneAllocatorServe (n : Nat)
  | reshapeComplete (g : Nat)
  | parityRebuild (g : Nat) (lane : Nat) (second : Bool)
  | laneGroupReexecution (n : Nat) (lane : Nat) (rebuilt : Bool)
  | weirLowerAlanes (n : Nat) (steps : Nat)
  | weirRaiseAlanes (n : Nat)
  | weirLowerEngawake (c : Nat) (steps : Nat)
  | weirRaiseEngawake (c : Nat)
  | arrayAdmission (p : Nat)
  | mldbRowArrival (p : Nat) (slot : Nat)
  | cRowWriteBack (p : Nat) (mismatch : Bool)
  | millraceOperandEvent (p : Nat)
  | beatStart (p : Nat)
  | bTileLoadComplete (p : Nat)
  | millraceOutputRow (p : Nat) (mismatch : Bool)
  | millraceEnd (p : Nat) (supply : PageSupply)
  | copyIssue (g : Nat)
  | copyBlockWrite (id : Nat) (supply : PageSupply)
  | copyComplete (id : Nat) (supply : PageSupply)
  | leaseQueueAdvance (c : Nat) (kind : Nat)
  | engineWakeComplete (c : Nat) (e : Nat) (pass : Bool)
  | engineZeroingComplete (c : Nat) (e : Nat)
  | engineIdleTimeout (c : Nat) (e : Nat)
  | leaseWaitTimeout (asid : Nat) (c : Nat) (entry : Nat)
  | engineOpFire (asid : Nat) (c : Nat) (entry : Nat)
  | engineOpComplete (asid : Nat) (c : Nat) (entry : Nat) (supply : PageSupply)
  | receiveSlotGrant (g : Nat) (slot : Nat)
  | stripDelivery (g : Nat) (slot : Nat) (strip : Strip)
  | braidFlitReceive (port : Nat) (ok : Bool)
  | braidRetrainTimeout (port : Nat)
  | braidPortUp (port : Nat)
  | braidIncomingAccess (acc : BraidAccess)
  | rdmaWrite (qp : Nat) (rkey : Nat) (va : Word) (data : List Byte)
  | rdmaRead (qp : Nat) (rkey : Nat) (va : Word) (len : Nat)
  | rdmaFetchAndAdd (qp : Nat) (rkey : Nat) (va : Word) (add : Word)
  | rdmaCompareAndSwap (qp : Nat) (rkey : Nat) (va : Word) (expect : Word) (swap : Word)
  | rdmaInvalidRequest (qp : Nat)
  | packetIntake (q : Nat) (supply : PageSupply)
  | gangPlacement
  | taskLevelAging (task : Nat)
  | reservationPreemption
  | copyTaskStart (task : Nat) (supply : PageSupply)
  | waitTaskSatisfied (task : Nat)
  | taskComplete (task : Nat) (supply : PageSupply)
  | cascadeRebalance (task : Nat)
  | compactionFlush (task : Nat)
  | preemptionRequest (task : Nat) (gang : Nat)
  | trapEntry (g : Nat)
  | budgetExhausted (g : Nat)
  | impreciseCauseDelivery (g : Nat) (cause : Nat) (addr : Word)
  | contextEnd (asid : Nat)
  | eventLatchTick
  | yieldExpiry (g : Nat)
  | refreshWindow (bank : Nat) (behind : Bool)
  | refreshWindowClose (bank : Nat)
  | scrub (block : Nat) (found : EccOutcome)
  | thermalEmergency
  | thermalRetentionTimeout
  | thermalRecovery
  | retentionSweep (n : Nat) (mismatch : Bool)
  | logicTestComplete (n : Nat) (pass : Bool)
  | islandopWrite (i : Nat) (v : Word)
  | opChangeComplete (i : Nat)
  | energyUpdate (microjoules : Nat)
  | energyloRead
  | energyWrapClear (v : Word)
  | holdctlWrite (v : Word)
  | migqbaseWrite (v : Word)
  | errorBankClear (b : Nat)
  | deviceRegisterWrite (addr : Nat) (v : Word)
  | createContext (root : Word) (minCheck : Nat) (endRec : Word) (units : List Nat) (fixed : Bool)
  | endContext (asid : Nat)
  | createQueue (asid : Nat) (ring : Word) (size : Nat) (quantum : Nat) (device : Bool) (mirror : Word)
  | expose (asid : Nat) (base : Word) (len : Nat) (rd : Bool) (wr : Bool)
  | registerMirror (sig : Word) (record : Word)
  | joinGroup (asid : Nat) (gid : Nat) (rank : Nat) (size : Nat)
  | mapAperture (asid : Nat) (page : Nat) (va : Word)
  | readHealth (banks : List Nat) (session : Bool)
  | clearBank (b : Nat)
  | update (img : Image)
  | updateConfig (cfg : ConfigBlock)
  | updateRot (img : Image)
  | destroyQueue (q : Nat)
  | unexpose (rkey : Nat)
  | unregisterMirror (sig : Word)
  | leaveGroup (asid : Nat) (gid : Nat)
  | unmapAperture (asid : Nat) (page : Nat)
  | spdmChallenge (nonce : Nat)
  | sessionKeyExchange (chain : CertChain)
  | updateHeartbeat
  | updateHeartbeatTimeout
  | deviceReset (puf : Bool)
  | schedulerFirstHeartbeat
  | junctionTemperature85C (above : Bool)
  | braidPortRetrained (port : Nat)
  | powerLoss
  | poolZeroingComplete (n : Nat)
  | ethernetLinkError (port : Nat) (uncorrectable : Bool) (info : Word)
  deriving DecidableEq, Repr

end Sys2Proof
end

