-- ==== Sys2Proof/Syntax/Queued.lean ====
section
/-! DEFINITION. The operations that a hart's vector and matrix queues hold (R300): the instructions of those two queue
classes, grouped by what they compute. Scalar source registers are named here and captured as values when the
instruction is posted. -/

namespace Sys2Proof

/-- The second source of a vector operation: a vector register or a broadcast scalar. -/
inductive VSrc where
  | vec (b : VReg)
  | sc (x : XReg)
  deriving DecidableEq, Repr

/-- Two-source element operations (R189, R198, R194). -/
inductive BinOp where
  | fadd | fsub | fmul | fdiv | fmin | fmax | fsgnj | fsgnjn | fscale
  | add | sub | mul | and | or | xor | min | max | sll | srl | sra | minu | maxu | mulh
  deriving DecidableEq, Repr

/-- Fused multiply-adds (R190). -/
inductive FmaOp where
  | fma | fms | fnma | fnms
  deriving DecidableEq, Repr

/-- Compares into a mask register (R191, R199). -/
inductive CmpOp where
  | fceq | fclt | fcle | fcne | ceq | clt
  deriving DecidableEq, Repr

/-- One-source element operations (R192 to R197). -/
inductive UnOp where
  | sqrt | recip | rsq | expf | rint | cls | abs | neg | cvtWF | cvtFW | cvtBF | cvtFB | getexp | getmant
  deriving DecidableEq, Repr

/-- Mask logic of two sources (R200). -/
inductive MaskOp where
  | and | or | xor | andn
  deriving DecidableEq, Repr

/-- Reductions (R209). -/
inductive RedOp where
  | fsum | fmax | fmin | sum | max | min | fosum
  deriving DecidableEq, Repr

/-- Vector atomics (R283, R284). -/
inductive VAmoOp where
  | addF | addW | minF | maxF | minW | maxW
  deriving DecidableEq, Repr

/-- One operation of a vector or matrix queue. -/
inductive QOp where
  | bin (op : BinOp) (d : VReg) (a : VReg) (b : VSrc) (m : MReg)
  | fma (op : FmaOp) (d : VReg) (a : VReg) (b : VSrc) (m : MReg)
  | cmp (op : CmpOp) (d : MReg) (a : VReg) (b : VSrc) (m : MReg)
  | un (op : UnOp) (d : VReg) (a : VReg) (r : BitVec 3) (m : MReg)
  | mask2 (op : MaskOp) (d : MReg) (a : MReg) (b : MReg) (m : MReg)
  | maskNot (d : MReg) (a : MReg) (m : MReg)
  | maskSet (d : MReg) (m : MReg)
  | maskPopc (d : XReg) (a : MReg) (m : MReg)
  | maskFirst (d : XReg) (a : MReg) (m : MReg)
  | slideUp (d : VReg) (a : VReg) (x : XReg) (m : MReg)
  | slideDn (d : VReg) (a : VReg) (x : XReg) (m : MReg)
  | gather (d : VReg) (a : VReg) (b : VReg) (m : MReg)
  | compress (d : VReg) (a : VReg) (m : MReg)
  | expand (d : VReg) (a : VReg) (m : MReg)
  | merge (d : VReg) (a : VReg) (b : VReg) (m : MReg)
  | bcast (d : VReg) (x : XReg) (m : MReg)
  | extract (d : XReg) (a : VReg) (x : XReg)
  | red (op : RedOp) (d : VReg) (a : VReg) (b : VReg) (m : MReg)
  | seq (m : MReg) (d : VReg) (start : BitVec 16) (inc : BitVec 16)
  | fbcasti (m : MReg) (d : VReg) (imm : BitVec 32)
  | bcasti (m : MReg) (d : VReg) (imm : BitVec 32)
  | rand (m : MReg) (x : XReg) (d : VReg) (sid : BitVec 16) (kind : BitVec 2)
  | ld (d : VReg) (s : SReg) (m : MReg)
  | ldx (d : VReg) (b : VReg) (s : SReg) (m : MReg)
  | st (d : VReg) (s : SReg) (m : MReg)
  | stx (d : VReg) (b : VReg) (s : SReg) (m : MReg)
  | sld (d : VReg) (s : SReg) (m : MReg)
  | ldSeq (d : VReg) (s : SReg) (m : MReg)
  | stSeq (d : VReg) (s : SReg) (m : MReg)
  | stn (d : VReg) (s : SReg) (m : MReg)
  | amo (op : VAmoOp) (d : VReg) (b : VReg) (s : SReg) (m : MReg)
  | stp (d : VReg) (t : SReg) (s : SReg) (m : MReg)
  | sdesc (b : XReg) (s : SReg)
  | sbase (b : XReg) (s : SReg)
  | spos (d : XReg) (s : SReg)
  | sseek (b : XReg) (s : SReg)
  | srel (s : SReg)
  | ssave (b : XReg) (s : SReg)
  | copy (d : XReg) (a : XReg) (b : XReg) (src : SReg) (dst : SReg) (tag : BitVec 6) (fl : BitVec 4)
  | copyf (d : XReg) (a : XReg) (b : XReg) (dst : SReg) (tag : BitVec 6) (fl : BitVec 4)
  | copystat (d : XReg) (tag : BitVec 6)
  | mfeed (a : VReg) (x : XReg)
  | mdrain (d : VReg) (x : XReg)
  | send (a : VReg) (x : XReg)
  | recv (d : XReg) (v : VReg) (x : XReg)
  | rsig (x : XReg)
  | mldb (ff : Bool) (a : XReg) (b : XReg) (fmt : BitVec 8) (n : BitVec 8) (k : BitVec 9) (slot : BitVec 1)
  | mma (a : VReg) (d : VReg) (mm : BitVec 8) (n : BitVec 8) (k : BitVec 9) (acc : BitVec 1) (slot : BitVec 1)
  | mprog (d : XReg) (slot : BitVec 1)
  | msync
  | mchk (d : XReg) (clr : BitVec 1)
  | mrun (d : XReg) (x : XReg)
  deriving DecidableEq, Repr

end Sys2Proof
end

