-- ==== Sys2Proof/Machine/State.lean ====
section
/-! DEFINITION. The state of one Meltus device as plain data: every register, buffer, queue and table the manual
names, and the agenda, which says in plain data which agent moves next. Structures hold their reset values as field
defaults; a table lists only what differs from its reader's default. -/

namespace Sys2Proof.Machine

open Sys2Proof

/-! ### Harts -/

/-- Privilege levels of a hart (R3); PL2 is the root-of-trust core, which runs no instruction of this model. -/
inductive Level where
  | pl0
  | pl1
  deriving DecidableEq, Repr

/-- What a hart is doing: no work, running, ended by HALT, following the lead core's hart under check mode 2 (R388), or
stopped by a trap raised at PL1, which is a firmware fault to PL2 (R373). -/
inductive HartRun where
  | idle
  | running
  | halted
  | shadow
  | firmwareFault
  deriving DecidableEq, Repr

/-- Four 32-bit fields of a stream descriptor, for dimensions 0 to 3 (Table 3-4). -/
structure Quad where
  d0 : BitVec 32 := 0
  d1 : BitVec 32 := 0
  d2 : BitVec 32 := 0
  d3 : BitVec 32 := 0
  deriving DecidableEq, Repr

/-- A stream descriptor (R72, Table 3-4). -/
structure Desc where
  base   : Word := 0
  fmt    : Byte := 0
  kind   : Byte := 0
  slide  : BitVec 16 := 0
  fill   : BitVec 32 := 0
  count  : Quad := {}
  stride : Quad := {}
  bound  : Quad := {}
  deriving DecidableEq, Repr

/-- A stream register (R76); `ahead` lists the pages whose translations the stream engine holds ready and `prefetched`
counts positions fetched into the stream buffer (R82), both of which affect timing only. -/
structure StreamReg where
  bound      : Bool := false
  desc       : Desc := {}
  pos        : BitVec 48 := 0
  ahead      : List Nat := []
  prefetched : Nat := 0
  deriving DecidableEq, Repr

/-- A leaf that maps `size` bytes at virtual address `base`, read from physical address `entryAt` (R66). -/
structure Leaf where
  entry   : Nat
  entryAt : Nat
  base    : Nat
  size    : Nat
  deriving DecidableEq, Repr

/-- What an access reaches: bytes that are there, or a window that reads zero and discards writes (R118). `taint` is the
physical address of a poisoned block that the walk read an entry from (R48). -/
structure Reach where
  pa    : Nat
  leaf  : Option Leaf
  void  : Bool := false
  taint : Option Nat := none
  deriving DecidableEq, Repr

/-- A part of an element's range within one granule, as it was translated; `second` marks the second stream of a VSTP and
the progress word of a VSTN. -/
structure Piece where
  i      : Nat
  va     : Nat
  len    : Nat
  reach  : Reach
  second : Bool := false
  deriving DecidableEq, Repr

/-- An entry of the vector or matrix queue (Table 17-5). `seq` is its place in the hart's program order; `probed`
and `landed` say that its pages are probed (R84), with the translations in `pieces`, and that its load data have arrived
(R171, R172). `stored` says that a VSTN's first event has taken place (R287), or that a SEND's request has left for a peer (R296), and `codeFar` lists the far granules that its
words were fetched from (R87). -/
structure Entry where
  pc       : Word
  op       : QOp
  ops      : List Word
  vl       : Nat
  eidx     : Nat := 0
  vconf    : Word
  rm       : BitVec 3
  admitted : Bool := false
  probed   : Bool := false
  pieces   : List Piece := []
  landed   : Bool := false
  stored   : Bool := false
  codeFar  : List Nat := []
  seq      : Nat
  deriving DecidableEq, Repr

/-- An undelivered millrace event (R245, Table 11-4): kind 1 OPERAND, 2 DRAIN, 3 END. -/
structure MillEvent where
  kind   : Nat
  status : Nat
  beat   : Nat
  deriving DecidableEq, Repr

/-- The sender of a strip: a hart of this device, or one of a peer device. -/
inductive Sender where
  | hart (g : Nat)
  | peer (pos : Nat) (hart : Nat)
  deriving DecidableEq, Repr

/-- State of a receive slot (R295). A GRANTED slot names the sender whose SEND holds the grant. -/
inductive RecvState where
  | free
  | granted (sender : Sender)
  | full (strip : Strip)
  deriving DecidableEq, Repr

/-- A receive slot with the SEND requests that wait for it, in order of arrival (R296). -/
structure RecvSlot where
  st      : RecvState := .free
  waiters : List Sender := []
  deriving DecidableEq, Repr

/-- Where the reported instruction of a trap stood (TRAPSTAT.WHERE, Table 17-1). -/
inductive TrapWhere where
  | scalar
  | vector
  | matrix
  deriving DecidableEq, Repr

/-- What a trap records (Tables 17-1, 17-2 and 3-7). -/
structure TrapRec where
  cause     : Nat
  pc        : Word
  addr      : Word := 0
  eidx      : Nat := 0
  info      : Word := 0
  fplist    : List Word := []
  whereAt   : TrapWhere := .scalar
  preempt   : Bool := false
  imprecise : Bool := false
  fatal     : Bool := false
  deriving DecidableEq, Repr

/-- A VCFG request that waits for the lane allocator or for its reshape (R160, R161). -/
structure LaneReq where
  rd    : XReg
  ew    : Nat
  nr    : Nat
  lanes : Nat
  gc    : Nat
  lam   : Bool
  grant : Option Nat := none
  deriving DecidableEq, Repr

/-- The version of a rename group that a write replaced while earlier instructions still read it (R167): the values of its four
registers, and the place in program order of the instruction that the group was renamed for. Instructions before that place
see this version. `whole` lists which of the four that instruction overwrites in full, so that no row of them is copied. -/
structure OldVersion where
  regs  : List Nat
  since : Nat
  whole : List Nat := []
  deriving DecidableEq, Repr

/-- What a scalar access of n bytes whose event is still to come does at it (R303, R358): a load or an atomic with the table's
number of its member writes x[d], a store has its bytes as a number, a SIGDEC writes the old value to x[d], and a TAGCLR clears
ARRIVE bits. -/
inductive LateOp where
  | load (d : XReg) (signed : Bool)
  | store (v : Nat)
  | amo (d : XReg) (b e member : Nat)
  | sigdec (d : XReg)
  | tagclr (mask : Word)
  deriving DecidableEq, Repr

/-- A scalar access that its hart has committed, translated, and not yet performed in the global order (R358), with the far
granules that the instruction's words were fetched from. -/
structure LateAccess where
  op      : LateOp
  va      : Nat
  n       : Nat
  reach   : Reach
  codeFar : List Nat
  deriving DecidableEq, Repr

/-- One hart (R300, R333, Tables 6-5, 6-6, 7-2, 15-2, 17-1, 17-8, 17-9). `barWait` is the token and record of a BAR
whose arrival is done (R108); `waitsOn` is the physical address of the barrier record it waits on (R319).
`runId` numbers the run from the hart's launch to its end, wherever it is placed; `fixed` is the fixed-timing flag of its
launch (R125) and `millKeeps` its non-preemptible millrace flag (R250), and `codeFar` lists the far granules that the current instruction's words were fetched from (R87).
`old` holds the old versions of rename groups. `yielding` lists, while a YIELD holds the hart, the harts of its core whose turn
has come since (R320). `late` lists the scalar accesses whose events later vector events may still overtake, oldest first, and `savedEvents` counts the
OPERAND and DRAIN events that stand in the image while the hart is at PL1 (R245). -/
structure Hart where
  run        : HartRun := .idle
  level      : Level := .pl0
  pc         : Word := 0
  x          : Tab Word := []
  fpctl      : BitVec 3 := 0
  fpstat     : BitVec 6 := 0
  vconf      : Word := 0x808
  vl         : BitVec 32 := 0
  lshare     : BitVec 5 := 0
  eidx       : BitVec 32 := 0
  asid       : BitVec 16 := 0
  ptbase     : Word := 0
  checkmode  : BitVec 2 := 0
  checkNext  : BitVec 2 := 0
  tbudget    : Word := 0
  budgetDue  : Bool := false
  tagown     : Word := 0
  gangpos    : Word := 0
  gangsize   : Word := 0
  launchidx  : Word := 0
  clusterReg : Word := 0
  trapvec    : Word := 0
  trappc     : Word := 0
  trapcause  : Word := 0
  trapaddr   : Word := 0
  trapeidx   : Word := 0
  trapinfo   : Word := 0
  trapstat   : Word := 0
  scalarpc   : Word := 0
  fplist     : Tab Word := []
  streams    : Tab StreamReg := []
  vregs      : Tab Nat := []
  old        : Tab OldVersion := []
  masks      : Tab Nat := []
  vq         : List Entry := []
  mq         : List Entry := []
  posted     : Nat := 0
  latch      : Bool := false
  yielding   : Option (List Nat) := none
  events     : List MillEvent := []
  recv       : Tab RecvSlot := []
  barWait    : Option (Word × Word) := none
  waitsOn    : Option Nat := none
  trapDue    : Option TrapRec := none
  imprecise  : Option TrapRec := none
  preemptDue : Bool := false
  laneReq    : Option LaneReq := none
  ibuf       : Tab (BitVec 32) := []
  task       : Option (Nat × Nat) := none
  runId      : Nat := 0
  fixed      : Bool := false
  millKeeps  : Bool := false
  codeFar    : List Nat := []
  late       : List LateAccess := []
  savedEvents : Nat := 0
  deriving DecidableEq, Repr

/-! ### Cores, pairs and clusters -/

/-- A cached translation (R71): of one context's granule of `size` bytes at `va`, with the leaf entry and the address
it was read from. -/
structure TlbEntry where
  asid  : Nat
  va    : Nat
  size  : Nat
  leaf  : Word
  leafAt : Nat
  deriving DecidableEq, Repr

/-- Whether a core is offered for placement (R116, R395, R401). -/
inductive CoreHealth where
  | offered
  | zeroing
  | testing
  | retired
  deriving DecidableEq, Repr

/-- One core (R112 to R120, R102, R161, R173). Boundaries count 64 KiB units. `dcache` lists each set's lines, most
recently used first, with their dirty bits; `fatalAt` lists the times of context-fatal errors attributed to it
(R395); `sweep` says that its retention sweep is due (R401). `endedRuns` lists the runs that have ended there with copies in flight,
each with its task's place in intake order and the number of its gang's placement (R100, R324). -/
structure Core where
  owner      : Option Nat := none
  vrb        : Nat := 32
  spb        : Nat := 48
  ccb        : Nat := 56
  alanes     : Nat := 16
  arrive     : Word := 0
  endedRuns  : List (Nat × Nat × Nat) := []
  division   : BitVec 32 := 0
  tags       : Tab Nat := []
  laneQ      : List Nat := []
  health     : CoreHealth := .offered
  fatalAt    : List Nat := []
  sweep      : Bool := false
  tlb        : List TlbEntry := []
  dcache     : Tab (List (Nat × Bool)) := []
  deriving DecidableEq, Repr

/-- A B slot (R220, Table 10-1): `tile` packs position (k, j) as BF16 at bit 16 × (256 k + j). -/
structure BSlot where
  k     : Nat := 0
  n     : Nat := 0
  fmt   : Nat := 0
  short : Bool := false
  tile  : Nat := 0
  deriving DecidableEq, Repr

/-- A millrace declaration (R240, Table 11-1). -/
structure Decl where
  bbase     : Word := 0
  endsig    : Word := 0
  bstride   : Word := 0
  kstride   : Word := 0
  nstride   : Word := 0
  period    : Nat := 0
  mb        : Nat := 0
  nb        : Nat := 0
  kb        : Nat := 0
  bfmt      : Nat := 0
  lookahead : Nat := 0
  policy    : Nat := 0
  feeder    : Nat := 0
  drainer   : Nat := 0
  start     : Nat := 0
  deriving DecidableEq, Repr

/-- An A tile in a landing slot: the beat it belongs to, the rows fed so far and their packed BF16 values (R246). -/
structure ATile where
  beat : Nat
  rows : Nat
  bits : Nat
  deriving DecidableEq, Repr

/-- An output block in the accumulator store: its first beat, whether its final beat has started, whether its DRAIN event
has been raised, the rows taken by MDRAIN, and the packed FP32 values (R243, R247). -/
structure Block where
  first    : Nat
  finished : Bool := false
  raised   : Bool := false
  taken    : Nat := 0
  bits     : Nat := 0
  deriving DecidableEq, Repr

/-- A beat that has started (R243): the cycle of the schedule at which it did, its A and B tiles, whether all its A rows have
entered the array, the output rows written, and whether the checker column has found a first mismatch in it. -/
structure RunBeat where
  beat    : Nat
  start   : Nat
  aTile   : Nat
  bTile   : Nat
  entered : Bool := false
  outRow  : Nat := 0
  redone  : Bool := false
  deriving DecidableEq, Repr

/-- The millrace of one array (R242 to R250): the declaration, the record of Table 11-2 and MLAH, and the progress of
the running schedule. `nextOperand` is the next beat whose OPERAND event is due and `nextBeat` the next to start, at cycle
`tick` of the schedule, which counts from the admission and leaves out stalls; `runs` lists the beats that have started and
have rows to write, oldest first. `bBeat` is the next beat whose B tile is to be loaded, `bLoaded` the column and depth block of
the latest one, in slot `bSlot`; `bFault` says that the load for `bBeat` faulted. `keeps` is the non-preemptible millrace flag of the
launch that issued MRUN, and `gang` that hart's gang (R250, R381). `endStage` is 1 once END has been raised and 2
once the end signal's decrement has been discarded (R249, R440). -/
structure Mill where
  status      : Nat := 0
  decl        : Decl := {}
  asid        : Nat := 0
  hart        : Nat := 0
  ptbase      : Word := 0
  fixed       : Bool := false
  keeps       : Bool := false
  gang        : Option (Nat × Nat) := none
  resume      : Nat := 0
  miss        : Nat := 0
  beatNow     : Nat := 0
  faultVa     : Word := 0
  faultCause  : Nat := 0
  faultBeat   : Nat := 0
  faultCode   : Nat := 0
  nextOperand : Nat := 0
  nextBeat    : Nat := 0
  tick        : Nat := 0
  runs        : List RunBeat := []
  bBeat       : Nat := 0
  bLoaded     : Option (Nat × Nat) := none
  bSlot       : Nat := 0
  bFault      : Bool := false
  tiles       : List ATile := []
  blocks      : List Block := []
  flags       : BitVec 6 := 0
  stopReq     : Bool := false
  endStage    : Nat := 0
  ended       : Bool := true
  deriving DecidableEq, Repr

/-- A B tile on its way into a slot: the load's hart and place in program order, the rows that passed its probe, their
packed values and flags row by row, and what its first faulting row traps with (R224 to R226). -/
structure LoadBuf where
  hart  : Nat
  seq   : Nat
  reach : Nat
  tile  : Nat
  flags : List Nat
  fault : Option TrapRec
  deriving DecidableEq, Repr

/-- An instruction in the matrix array: the hart and its place in that hart's program order, the B slot, whether it is an
MLDB or an MLDB.FF, and whether the checker column has found a first mismatch in it (R232). -/
structure ArrayUse where
  hart   : Nat
  seq    : Nat
  slot   : Nat
  load   : Bool
  redone : Bool := false
  deriving DecidableEq, Repr

/-- One core pair: its matrix array and its body-bias-and-clock island (R219, R232, R398). `admitted` lists the matrix
entries in the array, oldest first, with those that a trap has stopped half way and that resume there (R238); `cycle` counts hundredths of island cycles; `owner` is the
context whose B tiles and millrace state it holds. -/
structure Pair where
  b0       : BSlot := {}
  b1       : BSlot := {}
  pass     : Nat := 0
  rr       : Nat := 0
  admitted : List ArrayUse := []
  loads    : Tab LoadBuf := []
  mill     : Mill := {}
  target   : Nat := 0
  current  : Nat := 0
  busy     : Bool := false
  cycle    : Nat := 0
  owner    : Option Nat := none
  deriving DecidableEq, Repr

/-- Power state of a tributary engine (R258 to R265). `zeroing` and `waking` hold the lease that took it. -/
inductive EngineState where
  | asleep
  | waking
  | zeroing
  | leased
  | unleased
  | retired
  deriving DecidableEq, Repr

/-- A tributary engine with the lease that holds it, as context and entry. -/
structure Engine where
  st    : EngineState := .asleep
  lease : Option (Nat × Nat) := none
  deriving DecidableEq, Repr

/-- A request in a lease queue (R264): context, entry and priority. A queue lists its requests in order. -/
structure LeaseWait where
  asid  : Nat
  entry : Nat
  prio  : Nat
  deriving DecidableEq, Repr

/-- One cluster: the awake budget, the 24 engines numbered 8 × kind + e, and the lease queues (R258, R259, R264). -/
structure Cluster where
  engawake : Nat := 6
  engines  : Tab Engine := []
  waiting  : Tab (List LeaseWait) := []
  deriving DecidableEq, Repr

/-! ### Contexts -/

/-- States of a lease (Table 12-4). -/
inductive LeaseState where
  | pending
  | waking
  | ready
  | evicted
  | ended
  deriving DecidableEq, Repr

/-- An operation descriptor (R275, Table 12-10). -/
structure OpDesc where
  opcode  : Nat
  vfmt    : Nat
  flags   : Nat
  inBuf   : Nat
  in2     : Nat
  outBuf  : Nat
  count   : Nat
  param   : Nat
  donesig : Word
  record  : Word
  gid     : Nat
  rank    : Nat
  size    : Nat
  fbase   : Word
  flen    : Nat
  fright  : Nat
  deriving DecidableEq, Repr

/-- What an operation produces: the bytes and number of its output entries, its flags and OUTRANGE. -/
structure OpOutput where
  data     : List Byte
  count    : Nat
  flags    : Nat
  outRange : Nat
  deriving DecidableEq, Repr

/-- An operation posted by EOP and not yet completed (R277, R278). `start` holds CONS of IN and IN2 and PROD of OUT as
they stood when it fired; `run` is the run of the hart that posted it; `output` is what it has computed and `written` how many
bytes of it are in memory (R357); `told` says that the peers have the entries of this rank (R299). -/
structure EngineOp where
  seq   : Nat
  desc  : OpDesc
  fired : Bool := false
  start : List Nat := []
  order : Nat
  run     : Nat
  fixed   : Bool := false
  output  : Option OpOutput := none
  written : Nat := 0
  told    : Bool := false
  deriving DecidableEq, Repr

/-- An operation that has ended and has yet to make its record and its decrement (R280): its lease, its status and what the
record reports. -/
structure OpEnd where
  cluster  : Nat
  entry    : Nat
  gen      : Nat
  op       : EngineOp
  status   : Nat
  flags    : Nat := 0
  out      : Nat := 0
  outRange : Nat := 0
  acts     : Nat := 0
  deriving DecidableEq, Repr

/-- A lease entry of a context in a cluster (R262, R263, Table 12-8). `grantAt` numbers the engines' grants in order (R259), and
`moved` says that the lease has left PENDING since its request (R270). -/
structure Lease where
  gen     : Nat := 0
  kind    : Nat := 0
  live    : Bool := false
  st      : LeaseState := .pending
  reason  : Nat := 0
  engine  : Nat := 0
  done    : Nat := 0
  nextSeq : Nat := 0
  ops     : List EngineOp := []
  word    : Word := 0
  askedAt : Nat := 0
  grantAt : Nat := 0
  readyAt : Nat := 0
  moved   : Bool := false
  deriving DecidableEq, Repr

/-- A bound circular buffer (R271, R272); `pages` fixes the translations made when it was bound (R273), as granule and
physical address, and `leaves` the leaves they came from. -/
structure CircBuf where
  base    : Word
  entries : Nat
  esize   : Nat
  output  : Bool
  pages   : List (Nat × Nat)
  leaves  : List TlbEntry
  prod    : Nat := 0
  cons    : Nat := 0
  deriving DecidableEq, Repr

/-- An exposed region (R404, R407). -/
structure Region where
  asid : Nat
  base : Nat
  len  : Nat
  rd   : Bool
  wr   : Bool
  deriving DecidableEq, Repr

/-- Membership of a Braid group (R292, R299). -/
structure Member where
  gid  : Nat
  rank : Nat
  size : Nat
  deriving DecidableEq, Repr

/-- The first context-ending event, kept until the end record is written (R377, Table 17-3). -/
structure EndEvent where
  cause     : Nat
  imprecise : Bool
  more      : Bool
  hart      : Nat
  eidx      : Nat
  task      : Nat
  pc        : Word
  addr      : Word
  info      : Word
  page      : Word
  deriving DecidableEq, Repr

/-- A program context (R64, R55, R56, R267, R407, Table 17-9). Leases and buffers are keyed 64 × cluster + number. -/
structure Ctx where
  live       : Bool := false
  root       : Word := 0
  minCheck   : Nat := 0
  endRec     : Nat := 0
  sram       : List (Nat × Nat) := []
  fixed      : Bool := false
  holdQuota  : Nat := 0
  holdCount  : Nat := 0
  lostovf    : Bool := false
  lost       : List Word := []
  holdkeep   : Bool := false
  leaseQuota : Nat := 0
  leaseCount : Nat := 0
  leases     : Tab Lease := []
  bufs       : Tab CircBuf := []
  opOrder    : Nat := 0
  opEnds     : List OpEnd := []
  checker    : Nat := 0
  members    : List Member := []
  apertures  : Tab Nat := []
  ending     : Option EndEvent := none
  deriving DecidableEq, Repr

/-! ### Jobs, tasks and queues -/

/-- Status of a copy (R95, R96, R101, Table 4-3). -/
inductive CopyState where
  | running
  | done
  | fault
  deriving DecidableEq, Repr

/-- A copy from its issue on (R95 to R101), which `runId` ties to the run of the hart that issued it. `sr` is absent for a
fill. Every position below `pos` is handled; `written` lists the 64-byte blocks of the destination, by virtual address, that
have been written, `heldWords` the source words of 8 bytes that a block still to be written shares with one that has been,
and `counted` the far granules counted (R87), twice their number for the source and one more for the destination. `clipped`
counts the positions handled that are clipped in either stream; `acts` counts completion actions performed; `task` names the
copy task it runs for. -/
structure Copy where
  core     : Nat
  runId    : Nat := 0
  fixed    : Bool := false
  asid     : Nat
  ptbase   : Word
  tag      : Nat
  flags    : BitVec 4
  sigAddr  : Word
  barAddr  : Word
  depTask  : Nat
  sr       : Option Desc
  dst      : Desc
  declared : Nat
  pos      : Nat := 0
  written  : List Nat := []
  heldWords : Tab Nat := []
  counted  : List Nat := []
  clipped  : Nat := 0
  st       : CopyState := .running
  landed   : Bool := false
  cause    : Nat := 0
  code     : Nat := 0
  faultPos : Nat := 0
  fside    : Bool := false
  depmiss  : Bool := false
  credited : Nat := 0
  acts     : Nat := 0
  task     : Option Nat := none
  deriving DecidableEq, Repr

/-- Progress of a task (R329, R335, R338). -/
inductive TaskState where
  | posted
  | waiting
  | ready
  | running
  | done
  | discarded
  deriving DecidableEq, Repr

/-- A placed gang (R326, R342, R345): its index, its cores in position order and its harts, its stage in a cascade, the
level it was placed at and the order of its placement. `withdrawn` names the stage that a withdrawn gang makes room for
(R352); `taken` lists packet sequences it took and has not finished. -/
structure Gang where
  idx       : Nat
  cores     : List Nat
  harts     : List Nat
  stage     : Option Nat := none
  level     : Nat := 0
  placedAt  : Nat := 0
  preempted : Bool := false
  withdrawn : Option Nat := none
  taken     : List Nat := []
  deriving DecidableEq, Repr

/-- What a save keeps of a core of a pre-empted gang (Table 17-9), with the gang's runs that had ended there (R100). -/
structure SavedCore where
  arrive  : Word
  endedRuns : List Nat
  vrb     : Nat
  spb     : Nat
  ccb     : Nat
  scratch : List Host.Cell
  deriving DecidableEq, Repr

/-- The save of a pre-empted gang (R384, Table 17-9). -/
structure SavedGang where
  gang    : Gang
  cluster : Nat
  harts   : List Hart
  images  : List (List Byte)
  cores   : List SavedCore
  pairs   : List Pair
  deriving DecidableEq, Repr

/-- A region of a footprint card (R336, Table 15-7). -/
structure Footprint where
  base : Nat
  len  : Nat
  rd   : Bool
  wr   : Bool
  deriving DecidableEq, Repr

/-- A packet held by a compacting stage: its sequence, its bytes and the items not yet taken (R351). -/
structure HeldPacket where
  seq  : Nat
  data : List Byte
  left : Nat
  deriving DecidableEq, Repr

/-- A cascade stage (R347, R350 to R353), with the launch descriptor that shapes its gangs, the level it is offered at
and the time it became ready there (R341). `waited` says that one of its gangs waited for room at an emission since the
last tick, `placed`
counts its gangs so far and `wanted` those still to be placed. -/
structure Stage where
  shape   : List Byte
  level   : Nat := 0
  readyAt : Nat := 0
  cap     : Nat
  ming    : Nat
  maxg    : Nat
  thresh  : Nat
  nextSeq : Nat := 0
  queue   : List (Nat × List Byte) := []
  held    : List HeldPacket := []
  closed  : Bool := false
  waited  : Bool := false
  placed  : Nat := 0
  wanted  : Nat := 0
  deriving DecidableEq, Repr

/-- A task of the Confluence (R329, R335, R337, R341). `edges` names the tasks it still waits for; `early` lists
the copies whose dependence decrements reached it before its packet was read; `balancedAt` and `flushedAt` name the latest 10 µs
ticks of its rebalancing and its flush (R351, R352). -/
structure Task where
  id      : Nat
  queue   : Nat
  pos     : Nat
  asid    : Nat
  order   : Nat
  st      : TaskState := .posted
  pkt     : List Byte := []
  typ     : Nat := 0
  dep     : Nat := 0
  early   : List Nat := []
  edges   : List Nat := []
  level   : Nat := 0
  readyAt : Nat := 0
  next    : Nat := 0
  gangs   : List Gang := []
  saved   : List SavedGang := []
  regions : List Footprint := []
  reason  : Nat := 0
  copy    : Option Nat := none
  stages  : List Stage := []
  balancedAt : Nat := 0
  flushedAt  : Nat := 0
  deriving DecidableEq, Repr

/-- What the hardware keeps of a work queue beside its control block in HBM (R328, R342, R407): RING, SIZE and QUANTUM as firmware
set the queue up, which no poster's write of the control block changes (R5), and `posted`, which counts the positions that
have become tasks (R329). `asked` says that DESTROY_QUEUE's response is due when the queue becomes free. -/
structure WorkQueue where
  live      : Bool := false
  asid      : Nat := 0
  ctl       : Nat := 0
  ring      : Nat := 0
  size      : Nat := 0
  quantum   : Nat := 0
  asked     : Bool := false
  deficit   : Nat := 0
  posted    : Nat := 0
  mirror    : Nat := 0
  closing   : Bool := false
  deriving DecidableEq, Repr

/-- A reservation of a cluster for a candidate (R344): the task by its place in intake order, the stage of a cascade, and
the level it is offered at. -/
structure Reservation where
  task    : Nat
  stage   : Option Nat
  level   : Nat
  cluster : Nat
  since   : Nat
  deriving DecidableEq, Repr

/-! ### Memory, Braid, reliability and trust -/

/-- A resident line of the memory-side cache (R41): the line address, its dirty bit, its form, its physical line and
the segments it occupies. A set's list runs from the most to the least recently used. -/
structure MscLine where
  line  : Nat
  dirty : Bool
  form  : Nat
  phys  : Nat
  mask  : Nat
  deriving DecidableEq, Repr

/-- A hold slot (R50): its generation, and the context and row it holds. -/
structure HoldSlot where
  gen  : Nat := 0
  held : Option (Nat × Nat) := none
  deriving DecidableEq, Repr

/-- A far-page counter (R87, R89): the 64 KiB granule, its count and the queue entry it remembers. -/
structure FarCounter where
  granule : Nat
  count   : Nat
  entry   : Option Nat := none
  deriving DecidableEq, Repr

/-- A bank's refresh (R59). -/
inductive Refresh where
  | closed
  | deferred
  | opened
  deriving DecidableEq, Repr

/-- A mirror registration (R110, R409): the signal word, the record, and the task that registered it for its launch. -/
structure Mirror where
  sig    : Nat
  record : Nat
  task   : Option Nat := none
  deriving DecidableEq, Repr

/-- A rank of a REDUCE group whose operation has fired on a peer device (R299): what it asks for and its entries, or that
its lease is lost. -/
structure PeerRank where
  gid    : Nat
  rank   : Nat
  opcode : Nat
  vfmt   : Nat
  oper   : Nat
  count  : Nat
  data   : List Byte
  lost   : Bool := false
  deriving DecidableEq, Repr

/-- A peer device as this one knows it: the groups its contexts run and the aperture pages it maps for them (R292), its ranks
that have fired (R299), the receive slots it has granted to SENDs of this device, as sending hart, receiving hart and slot
and the SENDs whose request it has refused (R296), and, of the ways beyond this device's own ports, whether none leads there and the dimensions in which traffic takes
the longer one (R291). -/
structure Peer where
  pos     : Nat
  groups  : List (Nat × List Nat)
  harts   : List Nat
  ranks   : List PeerRank := []
  granted : List (Nat × Nat × Nat) := []
  refused : List (Nat × Nat × Nat) := []
  cut     : Bool := false
  around  : List Nat := []
  deriving DecidableEq, Repr

/-- An error bank (R392, Table 18-2). -/
structure ErrBank where
  v      : Bool := false
  uc     : Bool := false
  ovf    : Bool := false
  source : Nat := 0
  count  : Nat := 0
  addr   : Nat := 0
  info   : Nat := 0
  time   : Nat := 0
  deriving DecidableEq, Repr

/-- Thermal state of the device (R399, R400). -/
inductive Thermal where
  | normal
  | gated
  | retention
  deriving DecidableEq, Repr

/-- Where the boot chain stands (R410, R414). -/
inductive BootStage where
  | rom
  | scheduler
  | open
  | recovery
  deriving DecidableEq, Repr

/-- A copy of the security state record (R412). -/
structure SecRecord where
  seq        : Nat
  cfgVersion : Nat
  minVersion : Nat
  owner      : Nat
  deriving DecidableEq, Repr

/-- A flash write that a loss of supply would interrupt (R412, R416): into copy or slot B, or A. -/
inductive FlashWrite where
  | record (r : SecRecord) (toB : Bool)
  | scheduler (img : Image) (toB : Bool)
  | rot (img : Image) (toB : Bool)
  | config (c : ConfigBlock)
  deriving DecidableEq, Repr

/-- The handover structure of a live update (R416): its version, which fills its first 8 bytes, and where the heartbeat word of the
new image stands. -/
structure Handover where
  version     : Word
  heartbeatAt : Word
  deriving DecidableEq, Repr

/-- The root of trust (R406, R410 to R416, Table 19-4). `sessions` lists the SPDM sessions whose requesters are authorised, and
`asking` is the session in which the request being performed travels; `handover` is the structure that the last image to stop
wrote and `heartbeat` the heartbeat word of the image that it was written for. -/
structure Trust where
  stage     : BootStage := .rom
  rotA      : Option Image := none
  rotB      : Option Image := none
  rotMarkB  : Bool := false
  rotBooted : Option Bool := none
  schedA    : Option Image := none
  schedB    : Option Image := none
  activeB   : Bool := false
  schedNow  : Option Image := none
  config    : Option ConfigBlock := none
  recA      : Option SecRecord := none
  recB      : Option SecRecord := none
  recBroken : Bool := false
  writing   : Option FlashWrite := none
  sessions  : List Nat := []
  nextSession : Nat := 0
  asking    : Option Nat := none
  identity  : Bool := true
  updating  : Option Image := none
  handover  : Option Handover := none
  heartbeat : Word := 0
  m1        : Nat := 0
  m2        : Nat := 0
  m3        : Nat := 0
  m4        : Nat := 0
  m5        : Nat := 0
  deriving DecidableEq, Repr

/-- What leaves the device: answers to RDMA, management and SPDM requests, mirror writes, strips and signals to peers,
answers to peers, and the firmware fault of R373. -/
inductive Message where
  | rdmaAck (qp : Nat)
  | rdmaAccessError (qp : Nat)
  | rdmaInvalid (qp : Nat)
  | rdmaData (qp : Nat) (data : List Byte)
  | rdmaValue (qp : Nat) (v : Word)
  | mirrorWrite (raddr : Word) (rkey : Nat) (qpn : Nat) (payload : List Byte)
  | status (code : Int) (value : Nat)
  | health (v : Word) (banks : List (Nat × List Word))
  | spdm (ok : Bool) (measurements : List Nat)
  | reduceRank (peer : Nat) (gid : Nat) (rank : Nat) (opcode : Nat) (vfmt : Nat) (oper : Nat) (count : Nat) (data : List Byte)
  | reduceGroup (peer : Nat) (gid : Nat)
  | slotRequest (peer : Nat) (hart : Nat) (slot : Nat) (sender : Nat)
  | slotReturned (peer : Nat) (hart : Nat) (slot : Nat) (sender : Nat)
  | slotGranted (peer : Nat) (sender : Nat) (hart : Nat) (slot : Nat)
  | slotRefused (peer : Nat) (sender : Nat) (hart : Nat) (slot : Nat)
  | strip (peer : Nat) (hart : Nat) (slot : Nat) (s : Strip)
  | peerSignal (pa : Nat)
  | braidData (data : List Byte)
  | braidDone
  | braidRefused
  | braidPoisoned
  | energyLow (v : Nat)
  | firmwareFault (g : Nat) (cause : Nat)
  deriving DecidableEq, Repr

/-- A Braid port (R291): up, retraining or down. -/
inductive PortState where
  | up
  | retraining
  | down
  deriving DecidableEq, Repr

/-- A step of what arrives by RDMA while it is performed word by word (R365, R366): the queue pair and rkey, the context, the parts
of its range as they were translated, its address and bytes, and the aligned words still to come. For a read, `data` collects
what is read. -/
structure Incoming where
  qp     : Nat
  rkey   : Nat
  asid   : Nat
  read   : Bool
  pieces : List Piece
  va     : Nat
  data   : List Byte
  left   : List Nat
  deriving DecidableEq, Repr

/-- A port with its consecutive failed flits, and the messages that wait while it retrains, each with its peer. -/
structure Port where
  st    : PortState := .up
  fails : Nat := 0
  held  : List (Nat × Message) := []
  deriving DecidableEq, Repr

/-- Where a hardware error is found that no event of the table makes (R47, R48, R387, R390): in a block of HBM by an access, in the
memory-side cache's copy of a block, in a word of 8 bytes of a core's pool or of a cluster's SRAM, or in an element group of a
hart by a shift check, with the bits in which each of its three runs differs from the right result. `event` is an error that an
event of the table makes, found in the same cycle as the others (R393). -/
inductive HwError where
  | block (b : Nat) (found : EccOutcome)
  | msc (b bitAt : Nat) (uc : Bool)
  | pool (core word bitAt : Nat) (uc : Bool)
  | sram (word bitAt : Nat) (uc : Bool)
  | shift (g lane first second third : Nat)
  | event (i : Instr)
  deriving DecidableEq, Repr

/-- What moves next, when it is not the hart whose turn it is: an operation or event of the table, another hart's turn, an access
of a hart that is put off, or that is performed after it was (R358), a request that travels in an SPDM session (R406),
the passing of time, a word fetched ahead (R362), a translation cached (R71), what an outside party did to memory it owns (the
far window and the Braid peer window), what dispatch firmware, its loader among it (R438), wrote to HBM, hardware errors found in
one cycle (R393), a stack that runs degraded or no longer does (R51), a core that leaves full power gating (R401), a word of
what arrives by RDMA (R365, R366), a word of an engine's output (R357), what dispatch firmware does about a trap (Table 17-2) and
with pages (R90, R91, R396), a peer's request for a receive slot, or its return (R296, R297), and what is known of a peer device. -/
inductive Agenda where
  | event (i : Instr)
  | turn (g : Nat)
  | defer (g : Nat)
  | settle (g : Nat)
  | request (session : Nat) (i : Instr)
  | pass (ns : Nat)
  | prefetchWord (g : Nat) (va : Word)
  | cacheTranslation (g : Nat) (va : Word)
  | outside (pa : Nat) (data : List Byte)
  | loaded (pa : Nat) (data : List Byte)
  | hwErrors (l : List HwError)
  | stackDegraded (stack : Nat) (on : Bool)
  | coreUngated (n : Nat)
  | rdmaWord (qp word : Nat)
  | engineWrite (asid cluster entry : Nat)
  | firmware (g : Nat) (pages : List (Nat × Nat))
  | consumeMigration
  | migratePage (asid : Nat) (va : Nat) (fresh : Nat)
  | retirePage (asid : Nat) (va : Nat) (fresh : Nat) (force : Bool)
  | slotRequest (gid pos sender g slot : Nat)
  | slotReturn (pos sender g slot : Nat)
  | peer (p : Peer)
  deriving DecidableEq, Repr

/-! ### The device -/

/-- One Meltus device. `turn` is the hart whose scalar stream moves when the agenda is empty, numbered as
HARTID[8:0]; `poison` lists blocks of 64 bytes (R48) and `poisonWords` words of 8 bytes of the SRAMs (R390); `corrected` lists the page and the time of each corrected error of HBM and `ucPages` the pages that have held an uncorrectable one, and `retiredAt` those that have been retired (R396); `eager` says that posted work runs as soon as it can, where otherwise it waits for its events; `fresh`
counts the free values drawn. -/
structure State where
  agenda     : List Agenda := []
  turn       : Nat := 0
  eager      : Bool := true
  fresh      : Nat := 0
  mem        : List Host.Cell := []
  farHost    : List Host.Cell := []
  poison     : List Nat := []
  poisonWords : List Nat := []
  msc        : Tab (List MscLine) := []
  harts      : Tab Hart := []
  cores      : Tab Core := []
  pairs      : Tab Pair := []
  clusters   : Tab Cluster := []
  ctxs       : Tab Ctx := []
  holds      : Tab HoldSlot := []
  holdctl    : Word := 0xFF
  degraded   : List Nat := []
  refresh    : Tab Refresh := []
  hot        : Bool := false
  farCounts  : Tab (List FarCounter) := []
  migqbase   : Word := 0
  posbase    : Word := 0
  braidpos   : Word := 0
  trims      : List Nat := []
  macs       : List (BitVec 48) := []
  devRegs    : Tab Word := []
  ports      : Tab Port := []
  peers      : List Peer := []
  mirrors    : List Mirror := []
  copies     : Tab Copy := []
  nextCopy   : Nat := 0
  nextRun    : Nat := 0
  grants     : Nat := 0
  tasks      : List Task := []
  queues     : Tab WorkQueue := []
  lastQueue  : Nat := 0
  lastCluster : Nat := 0
  placeCount : Nat := 0
  intake     : Nat := 0
  intakeOpen : Bool := false
  reserved   : Option Reservation := none
  regions    : Tab Region := []
  nextRkey   : Nat := 0
  qpErrors   : List Nat := []
  incoming   : List Incoming := []
  banks      : Tab ErrBank := []
  replace    : Bool := false
  engRetired : Nat := 0
  pagesRetired : Nat := 0
  retiredAt  : List Nat := []
  corrected  : List (Nat × Nat) := []
  ucPages    : List Nat := []
  spares     : BitVec 8 := 0xAA
  coresLeft  : BitVec 24 := 0x820820
  thermal    : Thermal := .normal
  time       : Nat := 0
  paused     : Nat := 0
  energy     : Word := 0
  energyHi   : BitVec 32 := 0
  energyWrap : Bool := false
  trust      : Trust := {}
  out        : List Message := []
  deriving DecidableEq, Repr

/-- Why the machine stops with a fault. -/
inductive Fault where
  /-- Raised by the entry of a trap or pre-emption, and by ERET, when POSBASE does not lie in HBM, which R371 requires
  of what PL2 writes there; safe: the manual says nothing of the device then. -/
  | imageOutsideHbm
  deriving DecidableEq, Repr

/-- Why an instruction has no meaning here. -/
inductive Refusal where
  /-- Raised by an arm of `exec` whose instruction has no meaning yet; safe. -/
  | notModelled (mnemonic : String)
  deriving DecidableEq, Repr

/-- The device right after reset: no context, no task, every hart idle, every register at its reset value. -/
def State.reset : State := {}

end Sys2Proof.Machine
end

