-- ==== Sys2Proof/Machine/Cells.lean ====
section
/-! DEFINITION. Readers and writers of the state's parts: harts, cores, pairs, clusters, contexts, and the scalar
registers, where x0 reads as zero and discards writes (R17). A part a table does not list has its reset value. -/

namespace Sys2Proof.Machine

open Sys2Proof

/-! ### Causes (Tables 17-2, 3-11, 3-5) -/

def causeIllegal : Nat := 0x01
def causeVill : Nat := 0x02
def causePriv : Nat := 0x03
def causeMisalign : Nat := 0x04
def causeFetchAbsent : Nat := 0x05
def causeFetchNoexec : Nat := 0x06
def causeLoadAbsent : Nat := 0x07
def causeStoreAbsent : Nat := 0x08
def causePerm : Nat := 0x09
def causeStream : Nat := 0x0A
def causeTrapi : Nat := 0x0B
def causeBrk : Nat := 0x0C
def causeMatrixOperand : Nat := 0x0D
def causeLease : Nat := 0x0E
def causeTag : Nat := 0x0F
def causeBarrier : Nat := 0x10
def causeBudget : Nat := 0x11
def causeUncorrectable : Nat := 0x18
def causeRetentionLoss : Nat := 0x19
def causeSilentError : Nat := 0x1A
def causePairMismatch : Nat := 0x1B

/-! ### Lists and parts -/

/-- An element put before the first that it need not follow. -/
def insertBy {α : Type} (le : α → α → Bool) (x : α) : List α → List α
  | [] => [x]
  | y :: r => if le x y then x :: y :: r else y :: insertBy le x r

/-- A list in the order `le`, equals as they stood. -/
def sortBy {α : Type} (le : α → α → Bool) (l : List α) : List α := l.foldr (insertBy le) []

/-- Hart g, numbered as HARTID[8:0]. -/
def State.hart (s : State) (g : Nat) : Hart := tget s.harts g {}

/-- The state with hart g replaced. -/
def State.setHart (s : State) (g : Nat) (h : Hart) : State := { s with harts := tput s.harts g h }

/-- Core n = 32 × cluster + core. -/
def State.core (s : State) (n : Nat) : Core := tget s.cores n {}

def State.setCore (s : State) (n : Nat) (c : Core) : State := { s with cores := tput s.cores n c }

/-- Core pair p = 16 × cluster + pair. -/
def State.pair (s : State) (p : Nat) : Pair := tget s.pairs p {}

def State.setPair (s : State) (p : Nat) (x : Pair) : State := { s with pairs := tput s.pairs p x }

/-- Cluster c. -/
def State.cluster (s : State) (c : Nat) : Cluster := tget s.clusters c {}

def State.setCluster (s : State) (c : Nat) (x : Cluster) : State := { s with clusters := tput s.clusters c x }

/-- The context with a given ASID. -/
def State.ctx (s : State) (a : Nat) : Ctx := tget s.ctxs a {}

def State.setCtx (s : State) (a : Nat) (x : Ctx) : State := { s with ctxs := tput s.ctxs a x }

/-- Memory replaced. -/
def State.setMem (s : State) (m : Memory) : State := { s with mem := m }

/-- A message that leaves the device. -/
def State.emit (s : State) (m : Message) : State := { s with out := s.out ++ [m] }

/-- The core, pair and cluster of a hart (R2, R327). -/
def coreOf (g : Nat) : Nat := g / 4
def pairOf (g : Nat) : Nat := g / 8
def clusterOf (g : Nat) : Nat := g / 128

/-- x[r]; x0 reads as zero (R17). -/
def Hart.getX (h : Hart) (r : XReg) : Word := if r = 0 then 0 else tget h.x r.toNat 0

/-- The hart after a write of x[r]; x0 discards (R17). -/
def Hart.setX (h : Hart) (r : XReg) (v : Word) : Hart := if r = 0 then h else { h with x := tput h.x r.toNat v }

/-- The hart continuing at another address: its instruction has committed, and those whose words lay in far memory have been told
apart by then (R87). -/
def Hart.setPc (h : Hart) (pc : Word) : Hart := { h with pc := pc, codeFar := [] }

/-- The hart past an instruction of n bytes. -/
def Hart.advance (h : Hart) (n : Nat) : Hart := h.setPc (h.pc + BitVec.ofNat 64 n)

/-- Flags raised (Table 1-14); the order is NX, UF, OF, DZ, NV, NF from bit 0 (R142). -/
def Hart.raise (h : Hart) (fl : BitVec 6) : Hart := { h with fpstat := h.fpstat ||| fl }

/-- Stream register sn of a hart. -/
def Hart.stream (h : Hart) (sn : Nat) : StreamReg := tget h.streams sn {}

def Hart.setStream (h : Hart) (sn : Nat) (r : StreamReg) : Hart := { h with streams := tput h.streams sn r }

/-- Vector register v, packed. -/
def Hart.vreg (h : Hart) (v : Nat) : Nat := tget h.vregs v 0

def Hart.setVreg (h : Hart) (v x : Nat) : Hart := { h with vregs := tput h.vregs v x }

/-- Mask register m, packed. -/
def Hart.mreg (h : Hart) (m : Nat) : Nat := tget h.masks m 0

def Hart.setMreg (h : Hart) (m x : Nat) : Hart := { h with masks := tput h.masks m x }

/-- Receive slot k of a hart. -/
def Hart.slot (h : Hart) (k : Nat) : RecvSlot := tget h.recv k {}

def Hart.setSlot (h : Hart) (k : Nat) (r : RecvSlot) : Hart := { h with recv := tput h.recv k r }

/-- The hart whose scalar stream moves. -/
def State.cur (s : State) : Hart := s.hart s.turn

def State.setCur (s : State) (h : Hart) : State := s.setHart s.turn h

/-- The next free value, and the state that has drawn it (log entry 5). -/
def State.drawWord (s : State) : Word × State := (Config.freeWord s.fresh, { s with fresh := s.fresh + 1 })

/-- What a step answers. -/
abbrev Out := Host.Outcome State Fault Refusal

/-- Whether a hart enters PL1 at its next boundary at PL0: an imprecise cause, an exhausted budget or a pre-emption is due (R375,
R382, R383). -/
def Hart.entryDue (h : Hart) : Bool := h.imprecise.isSome || h.budgetDue || h.preemptDue

/-- Whether a check of what the hart does has failed: a comparison with its shadow, whose compared event is not performed, at
either level (R388), or one of three runs of an element group, whose row is not written (R387). -/
def Hart.mismatched (h : Hart) : Bool := h.imprecise.any (fun r => r.cause == causePairMismatch || r.cause == causeSilentError)

/-- A hart is placed on a core when it runs, follows a lead (R388), or has stopped with a firmware fault. -/
def Hart.placed (h : Hart) : Bool := h.run == .running || h.run == .shadow || h.run == .firmwareFault

/-- Whether core n is the shadow of the core below it (R388). -/
def State.shadowCore (s : State) (n : Nat) : Bool :=
  (s.hart (4 * n)).run == .shadow || (s.hart (4 * n + 1)).run == .shadow || (s.hart (4 * n + 2)).run == .shadow ||
    (s.hart (4 * n + 3)).run == .shadow

/-- The hart whose instructions hart g runs: its own, or its lead's, whose state and number a shadow has (R388). -/
def State.leadOf (s : State) (g : Nat) : Nat := if (s.hart g).run = .shadow then g - 4 else g

/-- What hart g's core holds as its state. A shadow runs its lead's harts from the same state: what the lead loads, what its atomics
return and the C rows that the array writes stand in both, so the model keeps one copy, and HARTID on the shadow reads the
lead's value with the rest (R388). -/
def State.stateAt (s : State) (g : Nat) : Hart := s.hart (s.leadOf g)

/-- A core whose four harts have no work is idle (R115). -/
def State.coreIdle (s : State) (n : Nat) : Bool :=
  !((s.hart (4 * n)).placed || (s.hart (4 * n + 1)).placed || (s.hart (4 * n + 2)).placed || (s.hart (4 * n + 3)).placed)

/-- Whether the clock of pair p's island stands still: a thermal emergency (R399), or an island that changes its operating point
or stands at OP3 (R398). -/
def State.islandStopped (s : State) (p : Nat) : Bool :=
  s.thermal != .normal || (s.pair p).busy || (s.pair p).current == 3

/-- What an event of the device comes to in a state: nothing during a thermal emergency, in which every compute clock is gated, the
HBM refreshes itself, and the timers stand still (R399, R400). -/
def State.whenCool (s t : State) : Out := .next (if s.thermal != .normal then s else t)

/-- Whether hart g's core stands still or is not in use: its island's clock, a pool being zeroed (R116), or a retention sweep that
is due (R401). -/
def State.stopped (s : State) (g : Nat) : Bool :=
  s.islandStopped (pairOf g) || (s.core (coreOf g)).health == .zeroing || (s.core (coreOf g)).sweep

end Sys2Proof.Machine
end

