-- ==== Sys2Proof/Machine/Errors.lean ====
section
/-! DEFINITION. The error banks (R392 to R394, Tables 18-2 to 18-4). -/

namespace Sys2Proof.Machine

open Sys2Proof

/-- Bank b as it stands. -/
def State.bank (s : State) (b : Nat) : ErrBank := tget s.banks b {}

/-- A bank after an error of a kind, with the record's fields (R393, Table 18-4). -/
def ErrBank.add (k : ErrBank) (uc : Bool) (source addr info time : Nat) : ErrBank :=
  let n := min (k.count + 1) (2 ^ 32 - 1)
  if !k.v then { v := true, uc := uc, ovf := k.ovf, source := source, count := n, addr := addr, info := info, time := time }
  else if uc && !k.uc then
    { v := true, uc := true, ovf := true, source := source, count := n, addr := addr, info := info, time := time }
  else { k with ovf := true, count := n }

/-- INFO of a record: the context in [47:32], a lane in [15:8], a symbol or bit position in [7:0]. -/
def errInfo (asid lane position : Nat) : Nat := asid % 65536 * 2 ^ 32 + lane % 256 * 256 + position % 256

/-- An error logged in bank b. -/
def State.logError (s : State) (b : Nat) (uc : Bool) (source addr info : Nat) : State :=
  { s with banks := tput s.banks b ((s.bank b).add uc source addr info s.time) }

/-- The four doublewords of a bank as PL2 reads them (Table 18-2); CLR reads 0. -/
def ErrBank.words (k : ErrBank) : List Word :=
  [BitVec.ofNat 64 ((if k.v then 2 ^ 63 else 0) + (if k.uc then 2 ^ 62 else 0) + (if k.ovf then 2 ^ 61 else 0) +
     k.source % 256 * 2 ^ 48 + k.count % 2 ^ 32), BitVec.ofNat 64 k.addr, BitVec.ofNat 64 k.info, BitVec.ofNat 64 k.time]

/-- ERRBASE, and the address of bank b (R392). -/
def errBase : Nat := 0xF0000040000
def bankAddr (b : Nat) : Nat := errBase + 32 * b

/-- CLR written to bank b (R394). -/
def State.clearBank (s : State) (b : Nat) : State := { s with banks := tput s.banks b {} }

/-! ### Retirement of cores (R395, R397) -/

/-- A core is retired: a spare of its cluster takes its number, or it is removed and HEALTH asks for replacement. -/
def State.retireCore (s : State) (n : Nat) : State :=
  let c := n / 32
  let left := bits s.spares.toNat (2 * c + 1) (2 * c)
  if 0 < left then
    ({ s with spares := BitVec.ofNat 8 (putBits s.spares.toNat (2 * c) 2 (left - 1)) }).setCore n
      { s.core n with health := .offered, fatalAt := [] }
  else if (s.core n).health = .retired then s
  else
    let work := bits s.coresLeft.toNat (6 * c + 5) (6 * c)
    ({ s with coresLeft := BitVec.ofNat 24 (putBits s.coresLeft.toNat (6 * c) 6 (work - 1)), replace := true }).setCore n
      { s.core n with health := .retired }

/-- Nanoseconds of 24 hours. -/
def dayNs : Nat := 86400000000000

/-- A context-fatal hardware error attributed to core n: the second within 24 hours retires it. -/
def State.attributeFatal (s : State) (n : Nat) : State :=
  let c := s.core n
  let s' := s.setCore n { c with fatalAt := s.time :: c.fatalAt }
  if c.fatalAt.any (fun t => decide (s.time - t ≤ dayNs)) then s'.retireCore n else s'

end Sys2Proof.Machine
end

