-- ==== Sys2Proof/Machine/Msc.lean ====
section
/-! DEFINITION. The memory-side cache (R40 to R45) and the core's data cache (R120): which lines are resident, in what
form and in what order of use. Neither ever holds a value of its own: memory is read and written where it lives, and
these functions change nothing but their own tables. -/

namespace Sys2Proof.Machine

open Sys2Proof

/-! ### Storage forms (R42, Table 2-3) -/

/-- The n little-endian words of w bytes of a line. -/
def lineWords (w : Nat) : Nat → List Byte → List Nat
  | 0, _ => []
  | n + 1, bs => ofLe (bs.take w) :: lineWords w n (bs.drop w)

/-- Whether every difference from the first word sign-extends from d bits, in words of w bits. -/
def deltasFit (w d : Nat) (ws : List Nat) : Bool :=
  match ws with
  | [] => true
  | b :: r => r.all (fun x =>
      let diff := (x + 2 ^ w - b) % 2 ^ w
      wrap w (signed d diff) == diff)

/-- Map M of a ZRUN image: bit i is set when word i is not zero. -/
def nonzeroMap (ws : List Nat) : Nat := packElems 1 (ws.map (fun x => if x = 0 then 0 else 1))

/-- The image of a base and differences: the first of the words of w bytes, then every difference from it in d bytes. -/
def deltaImage (w d : Nat) (ws : List Nat) : List Byte :=
  match ws with
  | [] => []
  | b :: r => leBytes w b ++ r.flatMap (fun x => leBytes d ((x + 2 ^ (8 * w) - b) % 2 ^ (8 * w)))

/-- The forms of Table 2-3 that a line of 128 bytes admits, in code order, each with its stored image. -/
def lineImages (bs : List Byte) : List (Nat × List Byte) :=
  let w4 := lineWords 4 32 bs
  let w8 := lineWords 8 16 bs
  let nz := w4.filter (· != 0)
  let delta := fun (code w d : Nat) (ws : List Nat) => if deltasFit (8 * w) (8 * d) ws then [(code, deltaImage w d ws)] else []
  (0, bs) :: (if nz.length ≤ 23 then [(1, leBytes 4 (nonzeroMap w4) ++ nz.flatMap (leBytes 4))] else []) ++
    delta 2 8 1 w8 ++ delta 3 8 2 w8 ++ delta 4 8 4 w8 ++ delta 5 4 1 w4 ++ delta 6 4 2 w4

/-- Segments of 32 bytes that an image takes. -/
def segmentsOf (image : List Byte) : Nat := (image.length + 31) / 32

/-- The form that a line is stored in, with its image: the fewest segments, ties to the lowest code. -/
def lineChoice (bs : List Byte) : Nat × List Byte :=
  (lineImages bs).foldl (fun best c => if segmentsOf c.2 < segmentsOf best.2 then c else best) (0, bs)

/-- What the segments of a resident line hold: its image, the unused bytes of the last segment zero. -/
def lineStored (bs : List Byte) : List Byte :=
  let image := (lineChoice bs).2
  image ++ zeros (32 * segmentsOf image - image.length)

/-- Segments of a line of 128 bytes and its form code. -/
def lineForm (bs : List Byte) : Nat × Nat := ((lineStored bs).length / 32, (lineChoice bs).1)

/-! ### Sets of the memory-side cache (R41, R43, R44) -/

/-- Stack of an HBM address (Table 2-2). -/
def stackOf (pa : Nat) : Nat := bits pa 10 8

/-- The number of a line among those of its stack: its address without the stack's bits (Table 2-2). -/
def lineInStack (line : Nat) : Nat := line / 2048 * 2 + line / 128 % 2

/-- Key of the set that a line address falls in: the manual does not say which. A stack's 32 MiB are 16,384 sets of 16 lines (Table
0-1, R41), and the model numbers them by the line's number in its stack modulo 16,384 (log entry 7, DESIGN CHOICE). -/
def mscSet (line : Nat) : Nat := stackOf line * 16384 + lineInStack line % 16384

/-- Segments that a set's lines occupy in one physical line, as a mask. -/
def physMask (set : List MscLine) (p : Nat) : Nat :=
  set.foldl (fun acc l => if l.phys = p then acc ||| l.mask else acc) 0

/-- The mask of the n lowest segments free beside `used`. -/
def takeSegments (used n : Nat) : Nat → Nat → Nat
  | 0, _ => 0
  | fuel + 1, i =>
    if n = 0 then 0
    else if bit used i then takeSegments used n fuel (i + 1)
    else 2 ^ i + takeSegments used (n - 1) fuel (i + 1)

/-- Drop the last line of a list that satisfies a test. -/
def dropLastWhere (p : MscLine → Bool) (set : List MscLine) : List MscLine := (set.reverse.eraseP p).reverse

/-- Evict, in least-recently-used order, lines of one physical line until n segments are free; `keep` stays. -/
def makeRoom (p n keep : Nat) : Nat → List MscLine → List MscLine
  | 0, set => set
  | fuel + 1, set =>
    if n ≤ 4 - popc 4 (physMask set p) then set
    else makeRoom p n keep fuel (dropLastWhere (fun l => l.phys == p && l.line != keep) set)

/-- A fill (R43): a tag, a physical line with room, free segments of it. Which of several such lines and segments it takes the
manual does not say; the model takes the lowest-numbered of each (log entry 79, DESIGN CHOICE). -/
def mscFill (line : Nat) (dirty : Bool) (bs : List Byte) (set0 : List MscLine) : List MscLine :=
  let (n, form) := lineForm bs
  let set1 := if 32 ≤ set0.length then set0.dropLast else set0
  let fits := leastFrom (fun p => decide (n ≤ 4 - popc 4 (physMask set1 p))) 16 0
  let p := match fits with
    | some p => p
    | none => match set1.getLast? with
      | some l => l.phys
      | none => 0
  let set2 := makeRoom p n line 5 set1
  ⟨line, dirty, form, p, takeSegments (physMask set2 p) n 4 0⟩ :: set2

/-- A use of a resident line, which becomes the most recently used; a write may change its form (R44). Which segments of its
physical line it occupies after a write the manual does not say; the model packs it into the lowest free ones (log entry
79, DESIGN CHOICE). -/
def mscUse (l : MscLine) (write : Bool) (bs : List Byte) (set : List MscLine) : List MscLine :=
  let rest := set.filter (fun x => x.line != l.line)
  if write then
    let (n, form) := lineForm bs
    let room := makeRoom l.phys n l.line 5 rest
    { l with dirty := true, form := form, mask := takeSegments (physMask room l.phys) n 4 0 } :: room
  else l :: rest

/-- Key of the row of an HBM address: row, bank, bank group, pseudo-channel and stack (Table 2-2). -/
def rowOf (pa : Nat) : Nat := bits pa 38 23 * 16384 + bits pa 20 17 * 512 + bits pa 10 8 * 64 + bits pa 16 11

/-- Whether some context holds the row (R58). -/
def State.rowHeld (s : State) (row : Nat) : Bool :=
  s.holds.any (fun p => match p.2.held with
    | some (_, r) => r == row
    | none => false)

/-- One access to the line at `line`. `alloc` is false for accesses that bypass allocation (R45, R58). -/
def State.mscLine (s : State) (line : Nat) (write alloc : Bool) : State :=
  let key := mscSet line
  let set := tget s.msc key []
  let bs := readBytes s.mem line 128
  match set.find? (fun l => l.line == line) with
  | some l => { s with msc := tput s.msc key (mscUse l write bs set) }
  | none =>
    if alloc && !s.rowHeld (rowOf line) then { s with msc := tput s.msc key (mscFill line write bs set) } else s

/-- The accesses that n bytes from pa make to the memory-side cache, which caches HBM addresses alone. -/
def State.mscTouch (s : State) (pa n : Nat) (write alloc : Bool) : State :=
  if pa < Config.hbmBytes then
    (List.range ((pa % 128 + n + 127) / 128)).foldl
      (fun s i => s.mscLine ((pa / 128 + i) * 128) write alloc) s
  else s

/-- The resident lines that hold some of the n bytes from pa, by set. -/
def State.mscHits (s : State) (pa n : Nat) : List Nat :=
  s.msc.flatMap (fun p => (p.2.filter (fun l => decide (l.line < pa + n) && decide (pa < l.line + 128))).map (·.line))

/-- Bytes of HBM have been written: the resident lines among them take the new bytes, and none is allocated (R44). -/
def State.mscWritten (s : State) (pa n : Nat) : State := (s.mscHits pa n).foldl (fun s l => s.mscLine l true false) s

/-- Invalidate the lines of a row (R52). -/
def State.mscDropRow (s : State) (row : Nat) : State :=
  { s with msc := s.msc.map (fun p => (p.1, p.2.filter (fun l => rowOf l.line != row))) }

/-! ### The data cache (R120) -/

/-- Sets of a core's data cache: (CCB − SPB) / 1,024, boundaries in units of 64 KiB. -/
def Core.dcacheSets (c : Core) : Nat := (c.ccb - c.spb) * 64

/-- A use of a line: the set after it and the dirty line that left it, if any. -/
def Core.dcacheUse (c : Core) (line : Nat) (write alloc : Bool) : Core × Option Nat :=
  if c.dcacheSets = 0 then (c, none)
  else
    let key := line / 128 % c.dcacheSets
    let set := tget c.dcache key []
    match set.find? (fun p => p.1 == line) with
    | some (_, d) =>
      ({ c with dcache := tput c.dcache key ((line, d || write) :: set.filter (fun p => p.1 != line)) }, none)
    | none =>
      if alloc then
        ({ c with dcache := tput c.dcache key (((line, write) :: set).take 8) },
         match (set.drop 7).head? with
         | some (l, true) => some l
         | _ => none)
      else (c, none)

/-- Whether a core's data cache holds the line. -/
def Core.dcacheHas (c : Core) (line : Nat) : Bool :=
  decide (c.dcacheSets ≠ 0) && (tget c.dcache (line / 128 % c.dcacheSets) []).any (fun p => p.1 == line)

/-- Whether a physical address lies in the far window. -/
def isFar (pa : Nat) : Bool := decide (Config.farBase ≤ pa) && decide (pa < Config.braidBase)

/-- HBM addresses and far pages are cached, nothing else (R120). -/
def dcacheable (pa : Nat) : Bool := decide (pa < Config.hbmBytes) || isFar pa

/-- Bytes of the far window reach the far memory, where their owner sees them (R288, R367). -/
def State.farWriteBack (s : State) (pa n : Nat) : State :=
  if isFar pa then { s with farHost := writeBytes s.farHost pa (readBytes s.mem pa n) } else s

/-- A dirty line leaves a data cache for its HBM or far address (R288). -/
def State.lineOut (s : State) (line : Nat) : State := (s.farWriteBack line 128).mscTouch line 128 true true

/-- A core's use of a line in its data cache; a dirty line that it replaces is written back. -/
def State.dcacheTouch (s : State) (n pa : Nat) (write alloc : Bool) : State :=
  if dcacheable pa then
    let (c, out) := (s.core n).dcacheUse (pa / 128 * 128) write alloc
    let s := s.setCore n c
    match out with
    | some l => s.lineOut l
    | none => s
  else s

/-- A scalar access of core n to a line: through its data cache, which fetches a line that misses from the memory-side cache,
or, where it has none or the place is not cached, to memory itself (R120). `alloc` is false under fixed timing (R125). -/
def State.scalarLine (s : State) (n pa len : Nat) (write alloc : Bool) : State :=
  if (s.core n).dcacheSets = 0 || !dcacheable pa then
    let s := s.mscTouch pa len write alloc
    if write then s.farWriteBack pa len else s
  else
    let line := pa / 128 * 128
    ((if (s.core n).dcacheHas line then s else s.mscTouch line 128 false alloc)).dcacheTouch n pa write true

/-- The dirty lines of a core's data cache. -/
def Core.dirtyLines (c : Core) : List Nat :=
  c.dcache.flatMap (fun q => (q.2.filter (fun l => l.2)).map (·.1))

/-- A core's data cache with some of its lines no longer dirty. -/
def Core.cleanLines (c : Core) (p : Nat → Bool) : Core :=
  { c with dcache := c.dcache.map (fun q => (q.1, q.2.map (fun l => if p l.1 then (l.1, false) else l))) }

/-- All lines of a core's data cache written back (R117, R288, R361). -/
def State.dcacheCleanCore (s : State) (n : Nat) : State :=
  let s' := (s.core n).dirtyLines.foldl (fun s l => s.lineOut l) s
  s'.setCore n ((s'.core n).cleanLines (fun _ => true))

/-- The dirty lines of every data cache that hold some of the n bytes from pa. -/
def State.dirtyIn (s : State) (pa n : Nat) : List Nat :=
  ((s.cores.flatMap (fun p => p.2.dirtyLines)).filter (fun l => decide (l < pa + n) && decide (pa < l + 128))).eraseDups

/-- The n bytes from pa written back from whatever data caches hold them dirty: a copy, an engine, an atomic unit or an
external observer reads or writes them (R288). -/
def State.dcacheClean (s : State) (pa n : Nat) : State :=
  let ls := s.dirtyIn pa n
  let s' := ls.foldl (fun s l => s.lineOut l) s
  { s' with cores := s'.cores.map (fun p => (p.1, p.2.cleanLines ls.contains)) }

/-- Every dirty line of the far window written back, as the visibility of far writes asks (R110, R367). -/
def State.farClean (s : State) : State := s.dcacheClean Config.farBase (Config.braidBase - Config.farBase)

/-- What an access of n bytes at pa by a job, an atomic unit or an external observer does to the caches: data caches supply
what they hold (R288), the memory-side cache is used (R41, R45), and a far write reaches the far memory. -/
def State.homeTouched (s : State) (pa n : Nat) (write alloc : Bool) : State :=
  let s := (s.dcacheClean pa n).mscTouch pa n write alloc
  if write then s.farWriteBack pa n else s

end Sys2Proof.Machine
end

