-- ==== Sys2Proof/Machine/Torus.lean ====
section
/-! DEFINITION. The Braid torus as this device sees it (R289 to R291): its six ports, the ways that traffic to a peer takes, and
the messages that wait at a port while it retrains. -/

namespace Sys2Proof.Machine

open Sys2Proof

def State.port (s : State) (p : Nat) : Port := tget s.ports p {}

def State.setPort (s : State) (p : Nat) (x : Port) : State := { s with ports := tput s.ports p x }

/-- Steps and port of the shorter way in one dimension of extent d from a to b, ties in the + direction (R290). -/
def braidWay (d a b : Nat) : Nat × Bool :=
  let up := (b + d - a) % d
  if up ≤ d - up then (up, true) else (d - up, false)

/-- Whether a hop in a dimension can leave this device by either way: ports 2 × dim for + and 2 × dim + 1 for −; a port that
is down makes the traffic take the other way round (R291). -/
def State.dimReachable (s : State) (dim d a b : Nat) : Bool :=
  a == b || ((tget s.ports (2 * dim) {}).st != .down) || ((tget s.ports (2 * dim + 1) {}).st != .down) || d == 0

/-- The dimensions in routing order: their extents and the coordinates of this device and of a peer (Table 13-2). -/
def State.dims (s : State) (peer : Nat) : List (Nat × Nat × Nat × Nat) :=
  let b := s.braidpos.toNat
  [(0, bits b 11 8 + 1, bits b 27 24, bits peer 11 8), (1, bits b 7 4 + 1, bits b 23 20, bits peer 7 4),
   (2, bits b 3 0 + 1, bits b 19 16, bits peer 3 0)]

/-- What is known of the peer at a position. -/
def State.peerAt (s : State) (peer : Nat) : Option Peer := s.peers.find? (fun p => p.pos == peer)

/-- Whether a peer can be reached from here (R290, R291): out of this device by the first dimension in which the two differ, and
then on from device to device. -/
def State.peerReachable (s : State) (peer : Nat) : Bool :=
  (match (s.dims peer).find? (fun q => q.2.2.1 != q.2.2.2) with
   | none => true
   | some (k, d, a, b) => s.dimReachable k d a b) &&
    (match s.peerAt peer with
     | some p => !p.cut
     | none => true)

/-- The port of each hop of a route to a peer, at the device that the hop leaves (R290): dimension by dimension, the shorter way
round, or the other way where the port for it is down (R291), at this device by its own ports, beyond it as the peer is known
to be reached. Port 2 × dim leads in the + direction. -/
def State.route (s : State) (peer : Nat) : List Nat :=
  let away := (s.dims peer).filter (fun q => q.2.2.1 != q.2.2.2)
  away.zipIdx.flatMap (fun z =>
    let (k, d, x, y) := z.1
    let way := braidWay d x y
    let turned := if z.2 = 0 then (s.port (2 * k + (if way.2 then 0 else 1))).st == .down
      else match s.peerAt peer with
        | some p => p.around.contains k
        | none => false
    let plus := way.2 != turned
    List.replicate (if plus then (y + d - x) % d else (x + d - y) % d) (2 * k + (if plus then 0 else 1)))

/-- The virtual channel of a packet after each hop of a dimension of extent d, starting from coordinate x: 0 up to the
dateline between d − 1 and 0, and 1 from there on (R290). -/
def channels (d : Nat) (plus : Bool) : (hops x chan : Nat) → List Nat
  | 0, _, _ => []
  | n + 1, x, chan =>
    let y := if plus then (x + 1) % d else (x + d - 1) % d
    let chan := if (plus && x + 1 == d) || (!plus && x == 0) then 1 else chan
    chan :: channels d plus n y chan

/-- Whether traffic to a peer waits: the port that it leaves by retrains (R291). -/
def State.pathWaits (s : State) (peer : Nat) : Bool :=
  match (s.route peer).head? with
  | none => false
  | some p => (s.port p).st == .retraining

/-- A message to a peer: it leaves by the first port of the route, or waits there, behind those that wait already, while the port
retrains (R291). -/
def State.toPeer (s : State) (peer : Nat) (m : Message) : State :=
  match (s.route peer).head? with
  | none => s.emit m
  | some p =>
    let x := s.port p
    if x.st == .retraining || !x.held.isEmpty then s.setPort p { x with held := x.held ++ [(peer, m)] } else s.emit m

/-- A port in a new state: what waits at any port is returned and leaves again, in its order, by the way that the routes take now,
ahead of whatever is sent later (R290, R291). -/
def State.portBecomes (s : State) (p : Nat) (st : PortState) : State :=
  let waiting := s.ports.flatMap (fun (q : Nat × Port) => q.2.held)
  let cleared := { s with ports := s.ports.map (fun (q : Nat × Port) => (q.1, { q.2 with held := [] })) }
  waiting.foldl (fun s q => s.toPeer q.1 q.2) (cleared.setPort p { st := st })

end Sys2Proof.Machine
end

