-- ==== Sys2Proof/Machine/Translate.lean ====
section
/-! DEFINITION. Address translation (R64 to R71), the regions a physical address reaches (R36, R37, R118, R122, R292),
the page-table bits an access sets (R69, R70), zero-on-assign (R68), the far-page counters and the migration and
victim queues (R87 to R91), and poisoned blocks (R48). -/

namespace Sys2Proof.Machine

open Sys2Proof

/-- Kinds of access (R67). -/
inductive AccKind where
  | fetch
  | read
  | write
  | atomic
  deriving DecidableEq, Repr

/-- A fault of an access: its cause, the virtual address at fault, and the PERM code or 0. -/
structure AFault where
  cause : Nat
  addr  : Nat
  code  : Nat := 0
  deriving DecidableEq, Repr

/-- How a walk ends (R67). -/
inductive WalkEnd where
  | absent
  | malformed
  | found (l : Leaf)
  deriving DecidableEq, Repr

/-- What accesses are made for: the address space, the core whose cached translations serve it, and its cluster;
`virt` is false for accesses at PL1, which this model leaves untranslated (log entry 6); `fixed` accesses bypass allocation
in the memory-side cache (R45, R125). -/
structure Space where
  asid    : Nat
  root    : Nat
  core    : Option Nat
  cluster : Nat
  virt    : Bool := true
  anySram : Bool := false
  fixed   : Bool := false
  deriving DecidableEq, Repr

/-- What a physical address lies in (Table 2-1). -/
inductive Place where
  | hbm
  | sram (c : Nat)
  | pool (n : Nat)
  | far
  | braid
  | device
  | hole
  deriving DecidableEq, Repr

/-- The range of Table 2-1 that holds a physical address, or the window of a Braid group's memory. -/
def placeOf (pa : Nat) : Place :=
  if 2 ^ 64 ≤ pa then .braid
  else if pa < Config.hbmBytes then .hbm
  else if pa < Config.sramBase then .hole
  else if pa < Config.sramBase + Config.clusters * Config.sramBytes then .sram ((pa - Config.sramBase) / Config.sramBytes)
  else if pa < Config.poolBase then .hole
  else if pa < Config.poolBase + Config.cores * Config.poolBytes then .pool ((pa - Config.poolBase) / Config.poolBytes)
  else if pa < Config.farBase then .hole
  else if pa < Config.braidBase then .far
  else if pa < Config.braidEnd then .braid
  else if pa < Config.devBase then .hole
  else .device

/-! ### Page-table entries (Table 3-3) -/

def pteV (e : Nat) : Bool := bit e 0
def pteT (e : Nat) : Bool := bit e 1
def pteR (e : Nat) : Bool := bit e 2
def pteW (e : Nat) : Bool := bit e 3
def pteX (e : Nat) : Bool := bit e 4
def pteUO (e : Nat) : Bool := bit e 7
def pteGR (e : Nat) : Bool := bit e 8
def pteF (e : Nat) : Bool := bit e 9
def pteZA (e : Nat) : Nat := bits e 11 10
/-- Physical address of an entry's node or page. -/
def ptePA (e : Nat) : Nat := bits e 43 12 * 4096

/-- A pointer is malformed (R66, R67). -/
def pointerBad (level e : Nat) : Bool :=
  level == 3 || bits e 63 44 != 0 || pteF e || decide (2 ≤ pteZA e) || decide (Config.hbmBytes ≤ ptePA e)

/-- A leaf of a page of `size` bytes is malformed (R67). -/
def leafBad (level size e : Nat) : Bool :=
  level == 0 || bits e 63 44 != 0 || decide (2 ≤ pteZA e) || !aligned (ptePA e) size || (pteF e != isFar (ptePA e))

/-- Walk the levels that remain, each with the lowest bit of its index (Table 3-2). -/
def walk (m : Memory) (va : Nat) : Nat → List (Nat × Nat) → WalkEnd
  | _, [] => .malformed
  | node, (level, lo) :: rest =>
    let entryAt := node + 8 * bits va (lo + 8) lo
    let e := readNat m entryAt 8
    if !pteV e then .absent
    else if pteT e then
      if pointerBad level e then .malformed else walk m va (ptePA e) rest
    else if leafBad level (2 ^ lo) e then .malformed
    else .found ⟨e, entryAt, va - va % 2 ^ lo, 2 ^ lo⟩

/-- The four levels with the lowest bit of each index (Table 3-2). -/
def walkLevels : List (Nat × Nat) := [(0, 43), (1, 34), (2, 25), (3, 16)]

/-- The absent cause of an access (R67). -/
def absentCause (k : AccKind) : Nat :=
  match k with
  | .fetch => causeFetchAbsent
  | .read => causeLoadAbsent
  | .write => causeStoreAbsent
  | .atomic => causeStoreAbsent

/-- The rights a leaf lacks for an access (R67): the cause and code, if any. -/
def rightsFault (k : AccKind) (e : Nat) : Option (Nat × Nat) :=
  match k with
  | .fetch => if pteX e then none else some (causeFetchNoexec, 0)
  | .read => if pteR e then none else some (causePerm, 2)
  | .write => if pteW e then none else some (causePerm, 2)
  | .atomic => if pteR e && pteW e then none else some (causePerm, 2)

/-- A cached translation of the core that covers the address (R71). -/
def State.cachedLeaf (s : State) (sp : Space) (va : Nat) : Option Leaf :=
  match sp.core with
  | none => none
  | some n =>
    match (s.core n).tlb.find? (fun t => t.asid == sp.asid && decide (t.va ≤ va) && decide (va < t.va + t.size)) with
    | some t => some ⟨t.leaf.toNat, t.leafAt, t.va, t.size⟩
    | none => none

/-- The leaf of a virtual address: a cached one, or what a walk finds. A PTBASE outside HBM, where no node may lie
(R65), ends the walk as a pointer outside HBM does (log entry 18). -/
def State.leafOf (s : State) (sp : Space) (va : Nat) : WalkEnd :=
  match s.cachedLeaf sp va with
  | some l => .found l
  | none => if sp.root < Config.hbmBytes then walk s.mem va sp.root walkLevels else .malformed

/-- Physical address of a virtual address under a leaf. -/
def Leaf.pa (l : Leaf) (va : Nat) : Nat := ptePA l.entry + (va - l.base)

/-- PERM code of a place no access below PL2 reaches, or none (R36, R67). -/
def placeFault (p : Place) : Option Nat :=
  match p with
  | .hole => some 3
  | .device => some 12
  | _ => none

/-- Translate an access (R64, R67): the physical address and the leaf. -/
def State.translate (s : State) (sp : Space) (k : AccKind) (va : Nat) : Except AFault (Nat × Option Leaf) :=
  if sp.virt then
    if 2 ^ 52 ≤ va then .error ⟨causePerm, va, 4⟩
    else
      match s.leafOf sp va with
      | .absent => .error ⟨absentCause k, va, 0⟩
      | .malformed => .error ⟨causePerm, va, 1⟩
      | .found l =>
        match rightsFault k l.entry with
        | some (c, code) => .error ⟨c, va, code⟩
        | none =>
          match placeFault (placeOf (ptePA l.entry)) with
          | some code => .error ⟨causePerm, va, code⟩
          | none =>
            match placeFault (placeOf (l.pa va)) with
            | some code => .error ⟨causePerm, va, code⟩
            | none => .ok (l.pa va, some l)
  else
    match placeFault (placeOf va) with
    | some code => .error ⟨causePerm, va, code⟩
    | none => .ok (va, none)

/-! ### Regions -/

/-- The peer that a Braid window address names, as BRAIDPOS numbers it: x, y and z (R36). -/
def braidPeer (pa : Nat) : Nat := bits pa 39 28

/-- The Braid group under which a context's access to a window address is accepted (R292): the peer runs a context of the group,
it maps the aperture page for it, and it can be reached. -/
def State.braidGroup (s : State) (asid pa : Nat) : Option Nat :=
  if s.peerReachable (braidPeer pa) then
    match s.peerAt (braidPeer pa) with
    | none => none
    | some p =>
      (p.groups.find? (fun q => (s.ctx asid).members.any (fun m => m.gid == q.1) && q.2.contains (bits pa 27 16))).map (·.1)
  else none

def State.braidAccepts (s : State) (asid pa : Nat) : Bool := (s.braidGroup asid pa).isSome

/-- Where memory stands for what a peer's aperture maps for a group: beyond every physical address, so that two groups at one
window address have memories of their own (R292). -/
def windowAt (gid pa : Nat) : Nat := 2 ^ 64 + 2 ^ 44 * gid + pa

/-- Whether an access waits for the port that its peer is reached by, which retrains (R291). -/
def State.reachWaits (s : State) (r : Reach) : Bool := decide (2 ^ 64 ≤ r.pa) && s.pathWaits (braidPeer r.pa)

/-- Whether an offset of core n's pool window lies in its scratchpad (R118). -/
def State.inScratch (s : State) (n pa : Nat) : Bool :=
  decide ((s.core n).vrb * 65536 ≤ (pa - Config.poolBase) % Config.poolBytes) &&
    decide ((pa - Config.poolBase) % Config.poolBytes < (s.core n).spb * 65536)

/-- The region rules for a translated address (R118, R122, R129, R292): a PERM code, or whether the window is void. -/
def State.regionOf (s : State) (sp : Space) (k : AccKind) (pa : Nat) : Except Nat Bool :=
  match placeOf pa with
  | .hbm => .ok false
  | .sram c => if c = sp.cluster ∨ sp.anySram then .ok false else .error 5
  | .pool n =>
    if n / 32 ≠ sp.cluster then .error 5
    else .ok (s.coreIdle n || (s.core n).owner != some sp.asid || !s.inScratch n pa)
  | .far => if k = .atomic then .error 7 else .ok false
  | .braid =>
    if k = .atomic then .error 7 else if s.braidAccepts sp.asid pa then .ok false else .error 8
  | .device => .error 12
  | .hole => .error 3

/-- Physical addresses of the entries that a walk reads. -/
def walkReads (m : Memory) (va : Nat) : Nat → List (Nat × Nat) → List Nat
  | _, [] => []
  | node, (level, lo) :: rest =>
    let entryAt := node + 8 * bits va (lo + 8) lo
    let e := readNat m entryAt 8
    entryAt :: (if pteV e && pteT e && !pointerBad level e then walkReads m va (ptePA e) rest else [])

/-- The poisoned block that the walk of a virtual address reads an entry from, if there is one (R48). -/
def State.walkTaint (s : State) (sp : Space) (va : Nat) : Option Nat :=
  if s.poison.isEmpty || !sp.virt || decide (2 ^ 52 ≤ va) || (s.cachedLeaf sp va).isSome then none
  else
    ((walkReads s.mem va sp.root walkLevels).find? (fun a => s.poison.contains (a / 64))).map (fun a => a / 64 * 64)

/-- Translate an access and apply the region rules. -/
def State.probe (s : State) (sp : Space) (k : AccKind) (va : Nat) : Except AFault Reach :=
  match s.translate sp k va with
  | .error f => .error f
  | .ok (pa, leaf) =>
    match s.regionOf sp k pa with
    | .error code => .error ⟨causePerm, va, code⟩
    | .ok void =>
      let home := if placeOf pa = .braid then windowAt ((s.braidGroup sp.asid pa).getD 0) pa else pa
      .ok ⟨home, leaf, void, s.walkTaint sp va⟩

/-- The space of a hart's accesses. -/
def State.space (s : State) (g : Nat) : Space :=
  let h := s.hart g
  { asid := h.asid.toNat, root := h.ptbase.toNat, core := some (coreOf g), cluster := clusterOf g,
    virt := h.level == .pl0, fixed := h.fixed }

/-! ### Bytes -/

/-- The poison that a write of n bytes at pa leaves: blocks of 64 bytes and words of 8 that it covers whole are clean
(R48, R390). -/
def State.cleaned (s : State) (pa n : Nat) : State :=
  { s with
    poison := s.poison.filter (fun b => !(decide (pa ≤ 64 * b) && decide (64 * b + 64 ≤ pa + n)))
    poisonWords := s.poisonWords.filter (fun b => !(decide (pa ≤ 8 * b) && decide (8 * b + 8 ≤ pa + n))) }

/-- Where the shadow's scratchpad takes a store to its lead's (R388). -/
def State.shadowPlace (s : State) (pa : Nat) : Option Nat :=
  match placeOf pa with
  | .pool n => if n % 2 = 0 ∧ s.shadowCore (n + 1) then some (pa + Config.poolBytes) else none
  | _ => none

/-- Memory after a write of bytes at a physical address, and at the shadow's (R388). -/
def State.storeMem (s : State) (pa : Nat) (bs : List Byte) : Memory :=
  match s.shadowPlace pa with
  | none => writeBytes s.mem pa bs
  | some q => writeBytes (writeBytes s.mem pa bs) q bs

/-- Bytes put at a physical address, as a data cache that holds them dirty will see to. -/
def State.put (s : State) (pa : Nat) (bs : List Byte) : State :=
  { s.cleaned pa bs.length with mem := s.storeMem pa bs }

/-- A write of bytes at a physical address, which the memory-side cache's resident lines take (R44). -/
def State.store (s : State) (pa : Nat) (bs : List Byte) : State := (s.put pa bs).mscWritten pa bs.length

/-- The n bytes from pa zeroed, far memory at its owner too, since no cache holds the zeros as a dirty line (R361, R366). -/
def State.erase (s : State) (pa n : Nat) : State :=
  { s.cleaned pa n with
    mem := eraseBytes s.mem pa n
    farHost := if isFar pa then eraseBytes s.farHost pa n else s.farHost }.mscWritten pa n

/-- The bytes an access reads. -/
def State.load (s : State) (r : Reach) (n : Nat) : List Byte := if r.void then zeros n else readBytes s.mem r.pa n

/-- Whether one of the n bytes from pa lies in a poisoned block or word. -/
def State.poisoned (s : State) (pa n : Nat) : Bool :=
  s.poison.any (fun b => decide (64 * b < pa + n) && decide (pa < 64 * b + 64)) ||
    s.poisonWords.any (fun b => decide (8 * b < pa + n) && decide (pa < 8 * b + 8))

/-- Physical address of the first poisoned block among the n bytes from pa; of a poisoned word, the block it lies in. -/
def State.poisonAt (s : State) (pa n : Nat) : Word :=
  match s.poison.find? (fun b => decide (64 * b < pa + n) && decide (pa < 64 * b + 64)) with
  | some b => BitVec.ofNat 64 (64 * b)
  | none => BitVec.ofNat 64 (pa / 64 * 64)

/-! ### The victim queue and the migration queue (R87 to R91) -/

/-- Physical address of the migration queue's control block (Table 3-10). -/
def State.migq (s : State) : Nat := bits s.migqbase.toNat 43 16 * 65536

/-- Whether the counters run and entries are appended (Table 3-10). -/
def State.migqOn (s : State) : Bool := bit s.migqbase.toNat 0

/-- Append a page to the victim queue, unless it is full (R70, R91). That HEAD and TAIL are running counts, with a slot at
TAIL mod 4,096 and the queue full at a difference of 4,096, and that BASE is a physical address, the manual does not say
(log entry 80, DESIGN CHOICE). -/
def State.appendVictim (s : State) (asid va : Nat) : State :=
  if s.migqOn then
    let c := s.migq + 0x20
    let head := readNat s.mem c 8
    let tail := readNat s.mem (c + 8) 8
    let base := readNat s.mem (c + 16) 8
    if 4096 ≤ tail - head then s
    else
      let entry := bits va 51 16 * 65536 + asid % 65536
      (s.store (base + 8 * (tail % 4096)) (leBytes 8 entry)).store (c + 8) (leBytes 8 (tail + 1))
  else s

/-- What a counter that has reached its threshold does (R89): the state, the counter's new count and the entry it
remembers. -/
def State.notifyFar (s : State) (asid granule thresh : Nat) (entry : Option Nat) : State × Nat × Option Nat :=
  let q := s.migq
  let at_ := fun k => q + 64 + 16 * (k % 4096)
  let page := granule * 65536
  let again := match entry with
    | some k => readNat s.mem (at_ k) 8 == page + 1
    | none => false
  if again then
    let a := at_ (entry.getD 0)
    let s := s.store (a + 8) (leBytes 4 (readNat s.mem (a + 8) 4 + 1))
    (s.store (a + 12) (leBytes 2 asid), 0, entry)
  else
    let head := readNat s.mem q 8
    let tail := readNat s.mem (q + 8) 8
    if tail - head = 4096 then (s.store (q + 16) (leBytes 8 (readNat s.mem (q + 16) 8 + 1)), thresh / 2, entry)
    else
      let s := s.store (at_ tail) (leBytes 8 (page + 1) ++ leBytes 4 1 ++ leBytes 2 asid ++ zeros 2)
      (s.store (q + 8) (leBytes 8 (tail + 1)), 0, some tail)

/-- One increment of a far granule's counter (R87): 8,192 counters a stack, the least recently used replaced. The granule
is that of the address. -/
def State.countFar (s : State) (asid pa : Nat) : State :=
  let thresh := readNat s.mem (s.migq + 0x18) 4
  if isFar pa && s.migqOn && decide (2 ≤ thresh) then
    let granule := pa / 65536
    let st := bits pa 18 16
    let list := tget s.farCounts st []
    let cur : FarCounter := (list.find? (fun c => c.granule == granule)).getD ⟨granule, 0, none⟩
    let n := min (cur.count + 1) 65535
    let rest := list.filter (fun c => c.granule != granule)
    if thresh ≤ n then
      let (s, n', e) := s.notifyFar asid granule thresh cur.entry
      { s with farCounts := tput s.farCounts st ((⟨granule, n', e⟩ :: rest).take 8192) }
    else { s with farCounts := tput s.farCounts st ((⟨granule, n, cur.entry⟩ :: rest).take 8192) }
  else s

/-- The far granules of some physical addresses, each once. -/
def farGranules (pas : List Nat) : List Nat := ((pas.filter isFar).map (· / 65536)).eraseDups

/-- The increments of one committed instruction: once for each granule it touches, but for those that `counted` lists, which
the fetch of its words has touched already (R87). -/
def State.countFarAll (s : State) (asid : Nat) (pas counted : List Nat) : State :=
  ((farGranules pas).filter (fun g => !counted.contains g)).foldl (fun s g => s.countFar asid (g * 65536)) s

/-! ### Zero-on-assign and the page-table bits -/

/-- Whether the entry of a leaf still is what the walk used (R69). -/
def State.sameLeaf (s : State) (l : Leaf) : Bool :=
  let e := readNat s.mem l.entryAt 8
  pteV e && ptePA e == ptePA l.entry

/-- Zero a page whose leaf has ZA = 1, and clear ZA (R68). -/
def State.assignPage (s : State) (leaf : Option Leaf) : State :=
  match leaf with
  | none => s
  | some l =>
    let e := readNat s.mem l.entryAt 8
    if s.sameLeaf l && pteZA e == 1 then
      let s := s.erase (ptePA e) l.size
      s.store l.entryAt (leBytes 8 (putBits (readNat s.mem l.entryAt 8) 10 2 0))
    else s

/-- How an access uses a page: what R69 sets beside A. -/
inductive PageUse where
  | plain
  | useOnce
  | gather
  deriving DecidableEq, Repr

/-- An entry with A, D, UO and GR as a committed access leaves them (R69). -/
def markEntry (e : Nat) (write : Bool) (u : PageUse) : Nat :=
  let e := e ||| 0x20
  let e := if write then e ||| 0x40 else e
  match u with
  | .plain => e
  | .useOnce => if pteGR e then e else e ||| 0x80
  | .gather => putBits (e ||| 0x100) 7 1 0

/-- Update the entry of a committed access's leaf, in one event (R69), and append a page whose UO rises (R70). -/
def State.markPage (s : State) (asid : Nat) (leaf : Option Leaf) (write : Bool) (u : PageUse) : State :=
  match leaf with
  | none => s
  | some l =>
    if s.sameLeaf l then
      let e := readNat s.mem l.entryAt 8
      let e' := markEntry e write u
      let s := s.store l.entryAt (leBytes 8 e')
      if pteUO e' && !pteUO e then s.appendVictim asid l.base else s
    else s

end Sys2Proof.Machine
end

