-- ==== Sys2Proof/Machine/Posts.lean ====
section
/-! DEFINITION. Work queues (R328, R329): the control block in HBM that every poster and the Confluence share, and the
tasks that an advance of TAIL makes of the packets it covers. -/

namespace Sys2Proof.Machine

open Sys2Proof

/-- Queue q. -/
def State.queue (s : State) (q : Nat) : WorkQueue := tget s.queues q {}

def State.setQueue (s : State) (q : Nat) (w : WorkQueue) : State := { s with queues := tput s.queues q w }

/-! ### The control block (Table 15-3) -/

/-- TAIL, as posters have left it in memory. -/
def State.queueTail (s : State) (w : WorkQueue) : Nat := readNat s.mem w.ctl 8
/-- HEAD. -/
def State.queueHead (s : State) (w : WorkQueue) : Nat := readNat s.mem (w.ctl + 0x08) 8
/-- FLAGS. -/
def State.queueFlags (s : State) (w : WorkQueue) : Nat := readNat s.mem (w.ctl + 0x2D) 1

/-- QUANTUM, where 0 means 32. -/
def WorkQueue.share (w : WorkQueue) : Nat := if w.quantum = 0 then 32 else w.quantum

/-- Packets posted and not taken in. -/
def State.queueDepth (s : State) (w : WorkQueue) : Nat := (s.queueTail w + 2 ^ 64 - s.queueHead w) % 2 ^ 64

/-- The queue has stopped with ERR. -/
def State.queueErr (s : State) (w : WorkQueue) : Bool := bit (s.queueFlags w) 7

/-- Physical address of a position's packet in the ring. -/
def WorkQueue.slot (w : WorkQueue) (pos : Nat) : Nat := w.ring + 128 * (pos % w.size)

/-! ### Tasks from packets (R329) -/

/-- A task's identifier. -/
def taskId (q pos : Nat) : Nat := q * 2 ^ 20 + pos % 2 ^ 20

/-- The tasks of n positions from pos on, in intake order from `order` on. -/
def newTasks (q asid : Nat) : (n pos order : Nat) → List Task
  | 0, _, _ => []
  | n + 1, pos, order =>
    { id := taskId q pos, queue := q, pos := pos, asid := asid, order := order } :: newTasks q asid n (pos + 1) (order + 1)

/-- An advance of a queue's TAIL takes effect: the packets it covers become tasks; one beyond HEAD + SIZE stops the queue
and sets ERR (R328, R329). -/
def State.noteQueue (s : State) (q : Nat) : State :=
  let w := s.queue q
  if !w.live || w.closing || s.queueErr w then s
  else
    let n := (s.queueTail w + 2 ^ 64 - w.posted) % 2 ^ 64
    if w.size < s.queueDepth w then s.store (w.ctl + 0x2D) (leBytes 1 (s.queueFlags w ||| 0x80))
    else if n = 0 ∨ s.queueDepth w < n then s
    else
      let s := s.setQueue q { w with posted := (w.posted + n) % 2 ^ 64 }
      { s with tasks := s.tasks ++ newTasks q w.asid n w.posted s.intake, intake := s.intake + n }

/-- Every queue's TAIL looked at after an access that may have advanced one. -/
def State.notePosts (s : State) : State := s.queues.foldl (fun s p => s.noteQueue p.1) s

end Sys2Proof.Machine
end

