-- ==== Sys2Proof/Machine/Flags.lean ====
section
/-! DEFINITION. The floating-point flags (Table 6-6) and the one place where a value is rounded and its flags are
computed (R35, R133, R140, R144). Values are exact dyadic numbers, infinities, signed zeros and NaNs. -/

namespace Sys2Proof.Machine

open Sys2Proof

/-! ### Flags (Table 6-6) -/

/-- FPSTAT bits as numbers. -/
def flNX : Nat := 1
def flUF : Nat := 2
def flOF : Nat := 4
def flDZ : Nat := 8
def flNV : Nat := 16
def flNF : Nat := 32

/-- Flags of a number. -/
def flagBits (n : Nat) : BitVec 6 := BitVec.ofNat 6 n

/-- rm_of(code): the code, or FPCTL.RM for 7 (Table 1-14). -/
def rmOf (code : BitVec 3) (fpctl : BitVec 3) : Nat := if code = 7 then fpctl.toNat else code.toNat

/-! ### Values -/

/-- An exact value: a NaN, signalling or not, an infinity, a zero, or ± m × 2^e with m > 0. -/
inductive FVal where
  | nan (sig : Bool)
  | inf (neg : Bool)
  | zero (neg : Bool)
  | fin (neg : Bool) (m : Nat) (e : Int)
  deriving DecidableEq, Repr

def FVal.isNan (x : FVal) : Bool :=
  match x with
  | .nan _ => true
  | _ => false

def FVal.isSnan (x : FVal) : Bool :=
  match x with
  | .nan s => s
  | _ => false

def FVal.isInf (x : FVal) : Bool :=
  match x with
  | .inf _ => true
  | _ => false

def FVal.isZero (x : FVal) : Bool :=
  match x with
  | .zero _ => true
  | _ => false

/-- Neither a NaN nor an infinity. -/
def FVal.isFinite (x : FVal) : Bool := !x.isNan && !x.isInf

/-- The sign; a NaN has none here. -/
def FVal.neg? (x : FVal) : Bool :=
  match x with
  | .nan _ => false
  | .inf n => n
  | .zero n => n
  | .fin n _ _ => n

/-- The value with its sign inverted. -/
def FVal.negate (x : FVal) : FVal :=
  match x with
  | .nan s => .nan s
  | .inf n => .inf (!n)
  | .zero n => .zero (!n)
  | .fin n m e => .fin (!n) m e

/-- ± m × 2^e, a zero of that sign when m = 0. -/
def FVal.ofMag (neg : Bool) (m : Nat) (e : Int) : FVal := if m = 0 then .zero neg else .fin neg m e

/-- An integer. -/
def FVal.ofInt (i : Int) : FVal := FVal.ofMag (decide (i < 0)) i.natAbs 0

/-! ### Formats (Table 6-3) -/

/-- A binary format: fraction bits, exponent bits, bias, canonical NaN, whether the top exponent holds infinities and
NaNs, and its largest finite magnitude as m × 2^e. -/
structure Fmt where
  fb    : Nat
  eb    : Nat
  bias  : Nat
  canon : Nat
  ieee  : Bool
  maxM  : Nat
  maxE  : Int
  deriving DecidableEq, Repr

def fp32 : Fmt := ⟨23, 8, 127, 0x7FC00000, true, 2 ^ 24 - 1, 104⟩
def bf16 : Fmt := ⟨7, 8, 127, 0x7FC0, true, 2 ^ 8 - 1, 120⟩
def fp16 : Fmt := ⟨10, 5, 15, 0x7E00, true, 2 ^ 11 - 1, 5⟩
def e5m2 : Fmt := ⟨2, 5, 15, 0x7E, true, 7, 13⟩
def e4m3 : Fmt := ⟨3, 4, 7, 0x7F, false, 14, 5⟩
def e2m1 : Fmt := ⟨1, 2, 1, 0, false, 3, 1⟩

/-- Bits of an element of the format. -/
def Fmt.width (f : Fmt) : Nat := 1 + f.eb + f.fb

/-- Exponent of the format's smallest normal magnitude. -/
def Fmt.emin (f : Fmt) : Int := 1 - (f.bias : Int)

/-- Exponent of the unit of its subnormal numbers. -/
def Fmt.qmin (f : Fmt) : Int := f.emin - (f.fb : Int)

/-- The bits of an infinity. -/
def Fmt.infBits (f : Fmt) (neg : Bool) : Nat :=
  (if neg then 2 ^ (f.eb + f.fb) else 0) + (2 ^ f.eb - 1) * 2 ^ f.fb

/-- The bits of the largest finite value. -/
def Fmt.maxBits (f : Fmt) (neg : Bool) : Nat :=
  (if neg then 2 ^ (f.eb + f.fb) else 0) +
    (if f.ieee then (2 ^ f.eb - 2) * 2 ^ f.fb + (2 ^ f.fb - 1)
     else (2 ^ f.eb - 1) * 2 ^ f.fb + (f.maxM % 2 ^ f.fb))

/-- The bits of a zero. -/
def Fmt.zeroBits (f : Fmt) (neg : Bool) : Nat := if neg then 2 ^ (f.eb + f.fb) else 0

/-- The value of an element (R133). E4M3 has one NaN of either sign, S.1111.111; E2M1 has none. -/
def Fmt.value (f : Fmt) (x : Nat) : FVal :=
  let neg := bit x (f.eb + f.fb)
  let ex := bits x (f.eb + f.fb - 1) f.fb
  let fr := bits x (f.fb - 1) 0
  if f.ieee ∧ ex = 2 ^ f.eb - 1 then
    if fr = 0 then .inf neg else .nan (!bit fr (f.fb - 1))
  else if f.eb = 4 ∧ ex = 15 ∧ fr = 7 then .nan false
  else if ex = 0 then FVal.ofMag neg fr f.qmin
  else .fin neg (2 ^ f.fb + fr) ((ex : Int) - f.bias - f.fb)

/-! ### Rounding (R35) -/

/-- Whether a magnitude with integer part hi (in units of the result) and remainder rem of 2^s is rounded up. -/
def roundsUp (rm : Nat) (neg : Bool) (hi rem s : Nat) : Bool :=
  match rm with
  | 0 => decide (2 ^ (s - 1) < rem) || (rem == 2 ^ (s - 1) && hi % 2 == 1)
  | 1 => false
  | 2 => neg && rem != 0
  | 3 => !neg && rem != 0
  | _ => decide (2 ^ (s - 1) ≤ rem)

/-- m × 2^e as a multiple of 2^q, and whether that differs from it. -/
def roundUnits (rm : Nat) (neg : Bool) (m : Nat) (e q : Int) : Nat × Bool :=
  if q ≤ e then (m * 2 ^ (e - q).toNat, false)
  else
    let s := (q - e).toNat
    let hi := m >>> s
    let rem := m % 2 ^ s
    (if roundsUp rm neg hi rem s then hi + 1 else hi, rem != 0)

/-- a × 2^x < b × 2^y for magnitudes. -/
def magLt (a : Nat) (x : Int) (b : Nat) (y : Int) : Bool :=
  if x ≤ y then decide (a < b * 2 ^ (y - x).toNat) else decide (a * 2 ^ (x - y).toNat < b)

/-- The bits of r × 2^q, which the format represents. -/
def Fmt.pack (f : Fmt) (neg : Bool) (r : Nat) (q : Int) : Nat :=
  (if neg then 2 ^ (f.eb + f.fb) else 0) +
    (if r < 2 ^ f.fb then r
     else if r < 2 ^ (f.fb + 1) then ((q + f.fb + f.bias).toNat) * 2 ^ f.fb + (r - 2 ^ f.fb)
     else ((q + 1 + f.fb + f.bias).toNat) * 2 ^ f.fb)

/-- What an overflow returns (R35). A target without infinities takes its largest magnitude (R137). -/
def Fmt.overflow (f : Fmt) (rm : Nat) (neg : Bool) : Nat :=
  if !f.ieee then f.maxBits neg
  else
    match rm with
    | 1 => f.maxBits neg
    | 2 => if neg then f.infBits neg else f.maxBits neg
    | 3 => if neg then f.maxBits neg else f.infBits neg
    | _ => f.infBits neg

/-- A finite nonzero value rounded to the format: bits and flags (R35). Tininess is detected after rounding. -/
def Fmt.roundFin (f : Fmt) (rm : Nat) (neg : Bool) (m : Nat) (e : Int) : Nat × Nat :=
  let qu : Int := e + (log2 m : Int) - f.fb
  let (ru, _) := roundUnits rm neg m e qu
  if magLt f.maxM f.maxE ru qu then (f.overflow rm neg, flOF + flNX)
  else
    let q := if qu < f.qmin then f.qmin else qu
    let (r, inexact) := roundUnits rm neg m e q
    let tiny := magLt ru qu 1 f.emin
    (f.pack neg r q, if inexact then (if tiny then flUF + flNX else flNX) else 0)

/-- A value rounded to the format: round_fp32, round_bf16 and the other targets of R35. An infinity in a target without
infinities is its largest magnitude with OF and NX (R137). -/
def Fmt.round (f : Fmt) (rm : Nat) (x : FVal) : Nat × Nat :=
  match x with
  | .nan _ => (f.canon, 0)
  | .inf n => if f.ieee then (f.infBits n, 0) else (f.maxBits n, flOF + flNX)
  | .zero n => (f.zeroBits n, 0)
  | .fin n m e => f.roundFin rm n m e

/-- The NaN result of an operation on some operands: canonical, NV when one of them is signalling (R144). -/
def Fmt.nanOf (f : Fmt) (ops : List FVal) : Nat × Nat := (f.canon, if ops.any FVal.isSnan then flNV else 0)

/-- The NaN of an invalid operation (R144). -/
def Fmt.invalid (f : Fmt) : Nat × Nat := (f.canon, flNV)

/-! ### Exact arithmetic -/

/-- An exact sum of two values that are no NaNs and no opposite infinities; an exact zero sum of opposite signs is +0,
or −0 under RDN (R144). -/
def FVal.addExact (rm : Nat) (a b : FVal) : FVal :=
  match a, b with
  | .inf n, _ => .inf n
  | _, .inf n => .inf n
  | .zero n, .zero k => if n = k then .zero n else .zero (rm == 2)
  | .zero _, y => y
  | x, .zero _ => x
  | .fin n m e, .fin k l d =>
    let q := if e ≤ d then e else d
    let x : Int := (if n then -1 else 1) * ((m * 2 ^ (e - q).toNat : Nat) : Int)
    let y : Int := (if k then -1 else 1) * ((l * 2 ^ (d - q).toNat : Nat) : Int)
    if x + y = 0 then .zero (rm == 2) else .fin (decide (x + y < 0)) (x + y).natAbs q
  | x, _ => x

/-- An exact product of two values that are no NaNs and not zero times infinity. -/
def FVal.mulExact (a b : FVal) : FVal :=
  let n := a.neg? != b.neg?
  match a, b with
  | .inf _, _ => .inf n
  | _, .inf _ => .inf n
  | .fin _ m e, .fin _ l d => .fin n (m * l) (e + d)
  | _, _ => .zero n

/-- Two infinities of opposite sign. -/
def oppositeInf (a b : FVal) : Bool := a.isInf && b.isInf && (a.neg? != b.neg?)

/-- Zero times infinity. -/
def zeroTimesInf (a b : FVal) : Bool := (a.isZero && b.isInf) || (a.isInf && b.isZero)

/-- a + b. -/
def Fmt.add (f : Fmt) (rm : Nat) (a b : FVal) : Nat × Nat :=
  if a.isNan || b.isNan then f.nanOf [a, b]
  else if oppositeInf a b then f.invalid
  else f.round rm (a.addExact rm b)

/-- a × b. -/
def Fmt.mul (f : Fmt) (rm : Nat) (a b : FVal) : Nat × Nat :=
  if a.isNan || b.isNan then f.nanOf [a, b]
  else if zeroTimesInf a b then f.invalid
  else f.round rm (a.mulExact b)

/-- a × b + c with one rounding; 0 × ∞ sets NV even beside a quiet NaN (R190). -/
def Fmt.fma (f : Fmt) (rm : Nat) (a b c : FVal) : Nat × Nat :=
  if zeroTimesInf a b then f.invalid
  else if a.isNan || b.isNan || c.isNan then f.nanOf [a, b, c]
  else if oppositeInf (a.mulExact b) c then f.invalid
  else f.round rm ((a.mulExact b).addExact rm c)

/-- A quotient m / l × 2^e to at least k significant bits, its lowest bit made 1 when it is inexact; k is above the
target's precision by two or more, so one rounding of the result is the rounding of the quotient. -/
def quotient (k m l : Nat) (e : Int) : Nat × Int :=
  let s := k + log2 l
  let q := m * 2 ^ s / l
  let r := m * 2 ^ s % l
  (q * 2 + (if r = 0 then 0 else 1), e - s - 1)

/-- a / b. -/
def Fmt.div (f : Fmt) (rm : Nat) (a b : FVal) : Nat × Nat :=
  let n := a.neg? != b.neg?
  match a, b with
  | .nan _, _ => f.nanOf [a, b]
  | _, .nan _ => f.nanOf [a, b]
  | .inf _, .inf _ => f.invalid
  | .zero _, .zero _ => f.invalid
  | .inf _, _ => (f.infBits n, 0)
  | _, .inf _ => (f.zeroBits n, 0)
  | .zero _, _ => (f.zeroBits n, 0)
  | .fin _ _ _, .zero _ => (f.infBits n, flDZ)
  | .fin _ m e, .fin _ l d =>
    let (q, x) := quotient (f.fb + 4) m l (e - d)
    f.roundFin rm n q x

/-- Integer square root by binary digits: the largest r with r² ≤ v, from `fuel` candidate bits. -/
def isqrt (v : Nat) : Nat → Nat → Nat
  | 0, r => r
  | k + 1, r => if (r + 2 ^ k) * (r + 2 ^ k) ≤ v then isqrt v k (r + 2 ^ k) else isqrt v k r

/-- The square root of m × 2^e to at least k bits, its lowest bit made 1 when it is inexact. -/
def sqrtMag (k m : Nat) (e : Int) : Nat × Int :=
  let s : Nat := 2 * k + (if (e - 2 * k) % 2 = 0 then 0 else 1)
  let v := m * 2 ^ s
  let r := isqrt v (log2 v / 2 + 1) 0
  (r * 2 + (if r * r = v then 0 else 1), (e - s) / 2 - 1)

/-- √a; −0 gives −0, a negative value is invalid (R144). -/
def Fmt.sqrt (f : Fmt) (rm : Nat) (a : FVal) : Nat × Nat :=
  match a with
  | .nan _ => f.nanOf [a]
  | .zero n => (f.zeroBits n, 0)
  | .inf n => if n then f.invalid else (f.infBits false, 0)
  | .fin n m e =>
    if n then f.invalid
    else
      let (r, x) := sqrtMag (f.fb + 4) m e
      f.roundFin rm false r x

/-! ### Comparison, minimum and maximum (R145) -/

/-- a < b for values that are no NaNs, with −0 below +0 when `zeros` is set. -/
def FVal.lt (zeros : Bool) (a b : FVal) : Bool :=
  match a, b with
  | .nan _, _ => false
  | _, .nan _ => false
  | .inf n, .inf k => n && !k
  | .inf n, _ => n
  | _, .inf k => !k
  | .zero n, .zero k => zeros && n && !k
  | .zero _, .fin k _ _ => !k
  | .fin n _ _, .zero _ => n
  | .fin n m e, .fin k l d =>
    if n != k then n
    else if n then magLt l d m e else magLt m e l d

/-- a = b, with −0 = +0, for values that are no NaNs. -/
def FVal.eqv (a b : FVal) : Bool := !a.isNan && !b.isNan && !a.lt false b && !b.lt false a

/-- NV when either operand is a signalling NaN. -/
def snanFlag (a b : FVal) : Nat := if a.isSnan || b.isSnan then flNV else 0

/-- The smaller (or larger) operand's bits under R145. -/
def Fmt.minmax (f : Fmt) (max : Bool) (x y : Nat) : Nat × Nat :=
  let a := f.value x
  let b := f.value y
  let fl := snanFlag a b
  if a.isNan && b.isNan then (f.canon, fl)
  else if a.isNan then (y, fl)
  else if b.isNan then (x, fl)
  else if (if max then a.lt true b else b.lt true a) then (y, fl) else (x, fl)

/-! ### Integers -/

/-- A finite value rounded to an integer, and whether that differs from it. -/
def roundInt (rm : Nat) (neg : Bool) (m : Nat) (e : Int) : Int × Bool :=
  let (r, inexact) := roundUnits rm neg m e 0
  ((if neg then -1 else 1) * (r : Int), inexact)

/-- Conversion to a signed integer of w bits with saturation (R196, R314): two's-complement bits and flags. -/
def toIntSat (w rm : Nat) (x : FVal) : Nat × Nat :=
  let lo : Int := -((2 ^ (w - 1) : Nat) : Int)
  let hi : Int := ((2 ^ (w - 1) : Nat) : Int) - 1
  match x with
  | .nan _ => (wrap w hi, flNV)
  | .inf n => (wrap w (if n then lo else hi), flNV)
  | .zero _ => (0, 0)
  | .fin n m e =>
    let (i, inexact) := roundInt rm n m e
    if i < lo then (wrap w lo, flNV)
    else if hi < i then (wrap w hi, flNV)
    else (wrap w i, if inexact then flNX else 0)

/-- A value widened or narrowed to a format, a signalling NaN setting NV (R137). -/
def Fmt.convert (f : Fmt) (rm : Nat) (x : FVal) : Nat × Nat :=
  if x.isNan then f.nanOf [x] else f.round rm x

/-- Class mask of an element (Table 8-8). -/
def Fmt.classMask (f : Fmt) (x : Nat) : Nat :=
  match f.value x with
  | .inf true => 2 ^ 0
  | .inf false => 2 ^ 7
  | .zero true => 2 ^ 3
  | .zero false => 2 ^ 4
  | .nan true => 2 ^ 8
  | .nan false => 2 ^ 9
  | .fin n m _ =>
    if m < 2 ^ f.fb then (if n then 2 ^ 2 else 2 ^ 5) else (if n then 2 ^ 1 else 2 ^ 6)

/-- A value rounded to an integral value in its own format; only a signalling NaN raises a flag (R192). -/
def Fmt.rint (f : Fmt) (rm : Nat) (x : Nat) : Nat × Nat :=
  match f.value x with
  | .nan s => (f.canon, if s then flNV else 0)
  | .inf n => (f.infBits n, 0)
  | .zero n => (f.zeroBits n, 0)
  | .fin n m e =>
    if 0 ≤ e then (x, 0)
    else
      let (i, _) := roundInt rm n m e
      ((f.round 0 (FVal.ofMag n i.natAbs 0)).1, 0)

end Sys2Proof.Machine
end

