-- ==== Sys2Proof/Machine/Elements.lean ====
section
/-! DEFINITION. What the elementwise instructions compute from one element of each source (R182 to R199): result bits
and flags. Elements are numbers of EW bits. -/

namespace Sys2Proof.Machine

open Sys2Proof

/-- The floating type of elements of a width (R131). -/
def elFmt (ew : Nat) : Fmt := if ew = 32 then fp32 else bf16

/-- Sign bit of an element. -/
def signBit (ew x : Nat) : Bool := bit x (ew - 1)

/-- An element with its sign bit set to s. -/
def withSign (ew x : Nat) (s : Bool) : Nat := x % 2 ^ (ew - 1) + (if s then 2 ^ (ew - 1) else 0)

/-- Two-source members of majors 0x24, 0x25 and 0x2A to 0x2D (Tables 8-4, 8-11). -/
def binElem (op : BinOp) (ew rm a b : Nat) : Nat × Nat :=
  let f := elFmt ew
  let s := b % ew
  match op with
  | .fadd => f.add rm (f.value a) (f.value b)
  | .fsub => f.add rm (f.value a) (f.value b).negate
  | .fmul => f.mul rm (f.value a) (f.value b)
  | .fdiv => f.div rm (f.value a) (f.value b)
  | .fmin => f.minmax false a b
  | .fmax => f.minmax true a b
  | .fsgnj => (withSign ew a (signBit ew b), 0)
  | .fsgnjn => (withSign ew a (!signBit ew b), 0)
  | .fscale => (a, 0)
  | .add => ((a + b) % 2 ^ ew, 0)
  | .sub => (wrap ew ((a : Int) - b), 0)
  | .mul => (a * b % 2 ^ ew, 0)
  | .and => (a &&& b, 0)
  | .or => (a ||| b, 0)
  | .xor => (a ^^^ b, 0)
  | .min => (if signed ew b < signed ew a then b else a, 0)
  | .max => (if signed ew a < signed ew b then b else a, 0)
  | .sll => (a * 2 ^ s % 2 ^ ew, 0)
  | .srl => (a >>> s, 0)
  | .sra => (wrap ew (signed ew a / ((2 ^ s : Nat) : Int)), 0)
  | .minu => (if b < a then b else a, 0)
  | .maxu => (if a < b then b else a, 0)
  | .mulh => (wrap ew (signed ew a * signed ew b / ((2 ^ ew : Nat) : Int)), 0)

/-- VFSCALE (R197): a × 2^n, rounded once. -/
def scaleElem (ew rm a : Nat) (n : Int) : Nat × Nat :=
  let f := elFmt ew
  match f.value a with
  | .nan s => (f.canon, if s then flNV else 0)
  | .fin neg m e => f.roundFin rm neg m (e + sat n (-1000) 1000)
  | x => f.round rm x

/-- The fused multiply-adds (Table 8-5): c is the destination's old element. -/
def fmaElem (op : FmaOp) (ew rm a b c : Nat) : Nat × Nat :=
  let f := elFmt ew
  let x := f.value a
  let y := f.value b
  let z := f.value c
  match op with
  | .fma => f.fma rm x y z
  | .fms => f.fma rm x y z.negate
  | .fnma => f.fma rm x.negate y z.negate
  | .fnms => f.fma rm x.negate y z

/-- The compares (Tables 8-6, 8-11): the mask bit and flags. -/
def cmpElem (op : CmpOp) (ew a b : Nat) : Bool × Nat :=
  let f := elFmt ew
  let x := f.value a
  let y := f.value b
  match op with
  | .fceq => (x.eqv y, snanFlag x y)
  | .fclt => (x.lt false y, snanFlag x y)
  | .fcle => (x.lt false y || x.eqv y, snanFlag x y)
  | .fcne => (!x.eqv y, snanFlag x y)
  | .ceq => (a == b, 0)
  | .clt => (decide (signed ew a < signed ew b), 0)

/-! ### Estimates (R194) and the exponential (R195) -/

/-- 1/√(m × 2^e) to at least k bits, its lowest bit made 1 when it is inexact. -/
def rsqrtMag (k m : Nat) (e : Int) : Nat × Int :=
  let m' := if e % 2 = 0 then m else 2 * m
  let e' := if e % 2 = 0 then e else e - 1
  let s := k + log2 m' + 1
  let v := 2 ^ (2 * s) / m'
  let r := isqrt v (log2 v / 2 + 1) 0
  (r * 2 + (if r * r * m' = 2 ^ (2 * s) then 0 else 1), -(e' / 2) - s - 1)

/-- The 12-bit estimate of an exact value given with a sticky lowest bit, and its flags (R194). -/
def estimate (neg : Bool) (m : Nat) (e : Int) : Nat × Nat :=
  let q : Int := e + (log2 m : Int) - 11
  let (r, inexact) := roundUnits 0 neg m e q
  if magLt fp32.maxM fp32.maxE r q then (fp32.infBits neg, flOF + flNX)
  else
    let (v, fl) := fp32.roundFin 0 neg r q
    if inexact || fl != 0 then (v, if magLt r q 1 fp32.emin then flUF + flNX else flNX) else (v, 0)

/-- VFREC (R193, R194, Table 8-9). -/
def recipElem (ew a : Nat) : Nat × Nat :=
  let f := elFmt ew
  match f.value a with
  | .fin neg m e =>
    let (q, x) := quotient 30 1 m (-e)
    if ew = 32 then estimate neg q x else f.roundFin 0 neg q x
  | .nan s => (f.canon, if s then flNV else 0)
  | .zero n => (f.infBits n, flDZ)
  | .inf n => (f.zeroBits n, 0)

/-- VFRSQ (R193, R194, Table 8-9). -/
def rsqElem (ew a : Nat) : Nat × Nat :=
  let f := elFmt ew
  match f.value a with
  | .fin neg m e =>
    if neg then f.invalid
    else
      let (q, x) := rsqrtMag 30 m e
      if ew = 32 then estimate false q x else f.roundFin 0 false q x
  | .nan s => (f.canon, if s then flNV else 0)
  | .zero n => (f.infBits n, flDZ)
  | .inf n => if n then f.invalid else (0, 0)

/-- ln 2 in units of 2^-160, rounded down. -/
def ln2Units : Nat := 0xb17217f7d1cf79abc9e3b39803f2f6af40f34326

/-- Σ x^k / k! for k below 48, in units of 2^-160, every term rounded down. -/
def expSeries (x : Nat) : Nat → Nat → Nat → Nat
  | 0, _, _ => 0
  | n + 1, k, term => term + expSeries x n (k + 1) (term * x / 2 ^ 160 / (k + 1))

/-- A lower bound of 2^f in units of 2^-160, for f in units of 2^-160 below 1; the true value is less than 2^10 units
above it. -/
def exp2Low (f : Nat) : Nat := expSeries (f * ln2Units / 2 ^ 160) 48 0 (2 ^ 160)

/-- The result of rounding 2^n × [lo, lo + 2^10] × 2^-160: where both ends round alike that is the result, and where
they do not the manual's value lies at one of them (log entry 9). -/
def expPick (a : Nat) (lo hi : Nat × Nat) : Nat × Nat :=
  if lo = hi then lo else if Config.expUpper a then hi else lo

/-- 2^a rounded as R195 asks at EW 32: 22 significant bits, or the multiple of 2^-147 below 2^-126. The value is given
as m × 2^e with a sticky lowest bit, n its floor of log2. -/
def expRound32 (n : Int) (m : Nat) (e : Int) : Nat × Nat :=
  let q : Int := if n < -126 then -147 else n - 21
  let (r, inexact) := roundUnits 0 false m e q
  let v := (fp32.round 0 (FVal.ofMag false r q)).1
  (v, if inexact then (if v < 0x00800000 then flUF + flNX else flNX) else 0)

/-- VFEXPF (R193, R195). -/
def expElem (ew a : Nat) : Nat × Nat :=
  let f := elFmt ew
  match f.value a with
  | .nan s => (f.canon, if s then flNV else 0)
  | .inf n => if n then (0, 0) else (f.infBits false, 0)
  | .zero _ => ((f.round 0 (FVal.ofInt 1)).1, 0)
  | .fin neg m e =>
    if 8 < e + (log2 m : Int) then (if neg then (0, flUF + flNX) else (f.infBits false, flOF + flNX))
    else
      let x : Int := (if neg then -1 else 1) * (if 0 ≤ e then ((m * 2 ^ e.toNat * 2 ^ 160 : Nat) : Int)
        else ((m * 2 ^ 160 / 2 ^ (-e).toNat : Nat) : Int))
      let n := x / ((2 ^ 160 : Nat) : Int)
      let fr := (x % ((2 ^ 160 : Nat) : Int)).toNat
      if 128 ≤ n then (f.infBits false, flOF + flNX)
      else if fr = 0 then
        if ew = 32 then expRound32 n 1 n else f.roundFin 0 false 1 n
      else
        let lo := exp2Low fr
        if ew = 32 then expPick a (expRound32 n (2 * lo + 1) (n - 161)) (expRound32 n (2 * (lo + 2 ^ 10) + 1) (n - 161))
        else expPick a (f.roundFin 0 false (2 * lo + 1) (n - 161)) (f.roundFin 0 false (2 * (lo + 2 ^ 10) + 1) (n - 161))

/-- Floor of log2 of the magnitude, as a floating value (VFGETEXP). -/
def getexpElem (ew a : Nat) : Nat × Nat :=
  let f := elFmt ew
  match f.value a with
  | .nan s => (f.canon, if s then flNV else 0)
  | .inf _ => (f.infBits false, 0)
  | .zero _ => (f.infBits true, flDZ)
  | .fin _ m e => ((f.round 0 (FVal.ofInt (e + (log2 m : Int)))).1, 0)

/-- The significand with the sign (VFGETMANT). -/
def getmantElem (ew a : Nat) : Nat × Nat :=
  let f := elFmt ew
  match f.value a with
  | .nan s => (f.canon, if s then flNV else 0)
  | .inf _ => f.invalid
  | .zero n => (f.zeroBits n, 0)
  | .fin n m _ => ((f.round 0 (.fin n m (-(log2 m : Int)))).1, 0)

/-- One-source members of major 0x28 (R192, R193); rm is the resolved rounding mode. -/
def unElem (op : UnOp) (ew rm a : Nat) : Nat × Nat :=
  let f := elFmt ew
  match op with
  | .sqrt => f.sqrt rm (f.value a)
  | .recip => recipElem ew a
  | .rsq => rsqElem ew a
  | .expf => expElem ew a
  | .rint => f.rint rm a
  | .cls => (f.classMask a, 0)
  | .abs => (withSign ew a false, 0)
  | .neg => (withSign ew a (!signBit ew a), 0)
  | .cvtWF => toIntSat ew rm (f.value a)
  | .cvtFW => f.round rm (FVal.ofInt (signed ew a))
  | .cvtBF =>
    if ew = 32 then bf16.convert rm (fp32.value a)
    else if (bf16.value a).isNan then bf16.nanOf [bf16.value a] else (a, 0)
  | .cvtFB =>
    if ew = 32 then fp32.convert 0 (bf16.value (a % 2 ^ 16))
    else if (bf16.value a).isNan then bf16.nanOf [bf16.value a] else (a, 0)
  | .getexp => getexpElem ew a
  | .getmant => getmantElem ew a

end Sys2Proof.Machine
end

