-- ==== Sys2Proof/WellFormed.lean ====
section
/-! DEFINITION. Which terms of the syntax are instructions: an encoded one whose operands the encoding admits (R11 to
R16, R93, R223, R251), an event that names parts the device has. -/

namespace Sys2Proof

/-- Rounding-mode codes 5 and 6 are illegal in an instruction field (R140). -/
def roundingOk (r : BitVec 3) : Bool := r != 5 && r != 6

/-- K is 1 to 256 (Table 1-5, Table 10-2). -/
def depthOk (k : BitVec 9) : Bool := decide (1 ≤ k.toNat) && decide (k.toNat ≤ 256)

/-- The E word of MLDB and MLDB.FF (R223): a depth of 1 to 256, a floating storage format, and for a block format
a column count that is a multiple of 32. -/
def bTileOk (fmt : BitVec 8) (n : BitVec 8) (k : BitVec 9) : Bool :=
  depthOk k && decide (fmt.toNat ≤ 6) && (decide (fmt.toNat < 5) || decide (n.toNat % 32 = 0))

/-- The flags of COPY and COPYF against their registers (R93); bits 0 to 3 are ARR, SIG, DEP and BAR. -/
def copyOk (a b : XReg) (fl : BitVec 4) : Bool :=
  !(fl.getLsbD 3 && fl.getLsbD 2) && (fl.getLsbD 1 || a == 0) && (fl.getLsbD 2 || fl.getLsbD 3 || b == 0)

/-- Members of major 0x28 whose fn3 field is a rounding mode (R192). -/
def UnOp.rounds (op : UnOp) : Bool :=
  match op with
  | .sqrt | .rint | .cvtWF | .cvtFW | .cvtBF => true
  | _ => false

/-- Well-formedness of a term of the syntax. -/
def Instr.wf : Instr → Bool
  | .add _ _ _ => true
  | .sub _ _ _ => true
  | .and _ _ _ => true
  | .or _ _ _ => true
  | .xor _ _ _ => true
  | .andn _ _ _ => true
  | .orn _ _ _ => true
  | .sll _ _ _ => true
  | .srl _ _ _ => true
  | .sra _ _ _ => true
  | .rol _ _ _ => true
  | .ror _ _ _ => true
  | .slt _ _ _ => true
  | .sltu _ _ _ => true
  | .min _ _ _ => true
  | .max _ _ _ => true
  | .minu _ _ _ => true
  | .maxu _ _ _ => true
  | .mul _ _ _ => true
  | .mulh _ _ _ => true
  | .mulhu _ _ _ => true
  | .div _ _ _ => true
  | .divu _ _ _ => true
  | .rem _ _ _ => true
  | .remu _ _ _ => true
  | .clz _ _ => true
  | .ctz _ _ => true
  | .popc _ _ => true
  | .sexb _ _ => true
  | .sexh _ _ => true
  | .sexw _ _ => true
  | .zexw _ _ => true
  | .addi _ _ _ => true
  | .andi _ _ _ => true
  | .ori _ _ _ => true
  | .xori _ _ _ => true
  | .slti _ _ _ => true
  | .sltiu _ _ _ => true
  | .slli _ _ _ => true
  | .srli _ _ _ => true
  | .srai _ _ _ => true
  | .rori _ _ _ => true
  | .lui _ _ => true
  | .addpc _ _ => true
  | .lix _ _ => true
  | .lixh _ _ => true
  | .lb _ _ _ => true
  | .lh _ _ _ => true
  | .lw _ _ _ => true
  | .ld _ _ _ => true
  | .lbu _ _ _ => true
  | .lhu _ _ _ => true
  | .lwu _ _ _ => true
  | .sb _ _ _ => true
  | .sh _ _ _ => true
  | .sw _ _ _ => true
  | .sd _ _ _ => true
  | .beq _ _ _ => true
  | .bne _ _ _ => true
  | .blt _ _ _ => true
  | .bge _ _ _ => true
  | .bltu _ _ _ => true
  | .bgeu _ _ _ => true
  | .j _ => true
  | .jl _ => true
  | .jlr _ _ _ => true
  | .amoswap _ _ _ _ => true
  | .amoadd _ _ _ _ => true
  | .amoand _ _ _ _ => true
  | .amoor _ _ _ _ => true
  | .amoxor _ _ _ _ => true
  | .amomin _ _ _ _ => true
  | .amomax _ _ _ _ => true
  | .amominu _ _ _ _ => true
  | .amomaxu _ _ _ _ => true
  | .amocas _ _ _ _ => true
  | .amofadd _ _ _ => true
  | .faddF _ _ _ r => roundingOk r
  | .fsubF _ _ _ r => roundingOk r
  | .fmulF _ _ _ r => roundingOk r
  | .fdivF _ _ _ r => roundingOk r
  | .fsqrtF _ _ r => roundingOk r
  | .fminF _ _ _ => true
  | .fmaxF _ _ _ => true
  | .feqF _ _ _ => true
  | .fltF _ _ _ => true
  | .fleF _ _ _ => true
  | .fclassF _ _ => true
  | .fcvtWF _ _ r => roundingOk r
  | .fcvtLF _ _ r => roundingOk r
  | .fcvtFW _ _ r => roundingOk r
  | .fcvtFL _ _ r => roundingOk r
  | .fcvtBF _ _ r => roundingOk r
  | .fcvtFB _ _ => true
  | .fsgnj _ _ _ => true
  | .fsgnjn _ _ _ => true
  | .fsgnjx _ _ _ => true
  | .fmaddF _ _ _ _ r => roundingOk r
  | .fmsubF _ _ _ _ r => roundingOk r
  | .fnmaddF _ _ _ _ r => roundingOk r
  | .fnmsubF _ _ _ _ r => roundingOk r
  | .fenceSv => true
  | .fenceVs => true
  | .fenceAll => true
  | .fenceX => true
  | .ifence => true
  | .waitany _ _ => true
  | .waitall _ _ => true
  | .ffr _ _ => true
  | .tagclr _ => true
  | .bar _ _ => true
  | .barexp _ _ => true
  | .bararr _ _ => true
  | .barwt _ _ _ => true
  | .sigdec _ _ => true
  | .sigwait _ _ _ => true
  | .wfe => true
  | .yield => true
  | .csrr _ _ => true
  | .csrw _ _ _ => true
  | .csrs _ _ _ => true
  | .csrc _ _ _ => true
  | .trapi _ => true
  | .eret => true
  | .brk => true
  | .halt => true
  | .tlbinv _ _ => true
  | .vcfg _ _ _ _ _ _ => true
  | .vsetl _ _ => true
  | .vfaddVV _ _ _ _ => true
  | .vfsubVV _ _ _ _ => true
  | .vfmulVV _ _ _ _ => true
  | .vfdivVV _ _ _ _ => true
  | .vfminVV _ _ _ _ => true
  | .vfmaxVV _ _ _ _ => true
  | .vfsgnjVV _ _ _ _ => true
  | .vfsgnjnVV _ _ _ _ => true
  | .vfaddVX _ _ _ _ => true
  | .vfsubVX _ _ _ _ => true
  | .vfmulVX _ _ _ _ => true
  | .vfdivVX _ _ _ _ => true
  | .vfminVX _ _ _ _ => true
  | .vfmaxVX _ _ _ _ => true
  | .vfsgnjVX _ _ _ _ => true
  | .vfsgnjnVX _ _ _ _ => true
  | .vfmaVV _ _ _ _ => true
  | .vfmsVV _ _ _ _ => true
  | .vfnmaVV _ _ _ _ => true
  | .vfnmsVV _ _ _ _ => true
  | .vfceqVV _ _ _ _ => true
  | .vfcltVV _ _ _ _ => true
  | .vfcleVV _ _ _ _ => true
  | .vfcneVV _ _ _ _ => true
  | .vfmaVX _ _ _ _ => true
  | .vfmsVX _ _ _ _ => true
  | .vfnmaVX _ _ _ _ => true
  | .vfnmsVX _ _ _ _ => true
  | .vfceqVX _ _ _ _ => true
  | .vfcltVX _ _ _ _ => true
  | .vfcleVX _ _ _ _ => true
  | .vfcneVX _ _ _ _ => true
  | .vfsqrt _ _ r _ => roundingOk r
  | .vfrec _ _ _ => true
  | .vfrsq _ _ _ => true
  | .vfexpf _ _ _ => true
  | .vfrint _ _ r _ => roundingOk r
  | .vfclass _ _ _ => true
  | .vfabs _ _ _ => true
  | .vfneg _ _ _ => true
  | .vfcvtWF _ _ r _ => roundingOk r
  | .vfcvtFW _ _ r _ => roundingOk r
  | .vfcvtBF _ _ r _ => roundingOk r
  | .vfcvtFB _ _ _ => true
  | .vfgetexp _ _ _ => true
  | .vfgetmant _ _ _ => true
  | .vfscaleVV _ _ _ _ => true
  | .vfscaleVX _ _ _ _ => true
  | .vaddVV _ _ _ _ => true
  | .vsubVV _ _ _ _ => true
  | .vmulVV _ _ _ _ => true
  | .vandVV _ _ _ _ => true
  | .vorVV _ _ _ _ => true
  | .vxorVV _ _ _ _ => true
  | .vminVV _ _ _ _ => true
  | .vmaxVV _ _ _ _ => true
  | .vaddVX _ _ _ _ => true
  | .vsubVX _ _ _ _ => true
  | .vmulVX _ _ _ _ => true
  | .vandVX _ _ _ _ => true
  | .vorVX _ _ _ _ => true
  | .vxorVX _ _ _ _ => true
  | .vminVX _ _ _ _ => true
  | .vmaxVX _ _ _ _ => true
  | .vsllVV _ _ _ _ => true
  | .vsrlVV _ _ _ _ => true
  | .vsraVV _ _ _ _ => true
  | .vminuVV _ _ _ _ => true
  | .vmaxuVV _ _ _ _ => true
  | .vmulhVV _ _ _ _ => true
  | .vceqVV _ _ _ _ => true
  | .vcltVV _ _ _ _ => true
  | .vsllVX _ _ _ _ => true
  | .vsrlVX _ _ _ _ => true
  | .vsraVX _ _ _ _ => true
  | .vminuVX _ _ _ _ => true
  | .vmaxuVX _ _ _ _ => true
  | .vmulhVX _ _ _ _ => true
  | .vceqVX _ _ _ _ => true
  | .vcltVX _ _ _ _ => true
  | .vmand _ _ _ _ => true
  | .vmor _ _ _ _ => true
  | .vmxor _ _ _ _ => true
  | .vmandn _ _ _ _ => true
  | .vmnot _ _ _ => true
  | .vmset _ _ => true
  | .vmpopc _ _ _ => true
  | .vmfirst _ _ _ => true
  | .vslideup _ _ _ _ => true
  | .vslidedn _ _ _ _ => true
  | .vgather _ _ _ _ => true
  | .vcompress _ _ _ => true
  | .vexpand _ _ _ => true
  | .vmerge _ _ _ _ => true
  | .vbcast _ _ _ => true
  | .vextract _ _ _ => true
  | .vfredsum _ _ _ _ => true
  | .vfredmax _ _ _ _ => true
  | .vfredmin _ _ _ _ => true
  | .vredsum _ _ _ _ => true
  | .vredmax _ _ _ _ => true
  | .vredmin _ _ _ _ => true
  | .vfredosum _ _ _ _ => true
  | .vseq _ _ _ _ => true
  | .vfbcasti _ _ _ => true
  | .vbcasti _ _ _ => true
  | .vrand _ _ _ _ kind => decide (kind.toNat ≤ 1)
  | .vld _ _ _ => true
  | .vldx _ _ _ _ => true
  | .vst _ _ _ => true
  | .vstx _ _ _ _ => true
  | .vsld _ _ _ => true
  | .vldSeq _ _ _ => true
  | .vstSeq _ _ _ => true
  | .vstn _ _ _ => true
  | .vamoaddF _ _ _ _ => true
  | .vamoaddW _ _ _ _ => true
  | .vamominF _ _ _ _ => true
  | .vamomaxF _ _ _ _ => true
  | .vamominW _ _ _ _ => true
  | .vamomaxW _ _ _ _ => true
  | .vstp _ _ _ _ => true
  | .sdesc _ _ => true
  | .sbase _ _ => true
  | .spos _ _ => true
  | .sseek _ _ => true
  | .srel _ => true
  | .ssave _ _ => true
  | .hold _ _ => true
  | .hrel _ _ => true
  | .hqry _ _ => true
  | .copy _ a b _ _ _ fl => copyOk a b fl
  | .copyf _ a b _ _ fl => copyOk a b fl
  | .copystat _ _ => true
  | .lease _ _ => true
  | .lrenew _ _ => true
  | .lrel _ _ => true
  | .lqry _ _ => true
  | .cbdef _ _ _ => true
  | .cbadv _ _ => true
  | .cbtake _ _ => true
  | .cbret _ _ => true
  | .eop _ _ _ => true
  | .mldb _ _ fmt n k _ => bTileOk fmt n k
  | .mldbFf _ _ fmt n k _ => bTileOk fmt n k
  | .mma _ _ _ _ k _ _ => depthOk k
  | .mprog _ _ => true
  | .msync => true
  | .mchk _ _ => true
  | .mrun _ _ => true
  | .mstop => true
  | .mfeed _ _ => true
  | .mdrain _ _ => true
  | .mlah _ s => decide (s.toNat ≤ 4)
  | .mwaitd _ _ => true
  | .send _ _ => true
  | .recv _ _ _ => true
  | .rsig _ => true
  | .launch _ _ _ => true
  | .pktget _ _ => true
  | .pktemit _ _ _ => true
  | .pktdone _ => true
  | .vectorProbe g => decide (g < 512)
  | .vectorAdmission g _ _ => decide (g < 512)
  | .loadDataArrival g _ => decide (g < 512)
  | .streamPrefetch g sn => decide (g < 512) && decide (sn < 16)
  | .laneAllocatorServe n => decide (n < 128)
  | .reshapeComplete g => decide (g < 512)
  | .parityRebuild g lane _ => decide (g < 512) && decide (lane < 16)
  | .laneGroupReexecution n lane _ => decide (n < 128) && decide (lane < 16)
  | .weirLowerAlanes n _ => decide (n < 128)
  | .weirRaiseAlanes n => decide (n < 128)
  | .weirLowerEngawake c _ => decide (c < 4)
  | .weirRaiseEngawake c => decide (c < 4)
  | .arrayAdmission p => decide (p < 64)
  | .mldbRowArrival p slot => decide (p < 64) && decide (slot < 2)
  | .cRowWriteBack p _ => decide (p < 64)
  | .millraceOperandEvent p => decide (p < 64)
  | .beatStart p => decide (p < 64)
  | .bTileLoadComplete p => decide (p < 64)
  | .millraceOutputRow p _ => decide (p < 64)
  | .millraceEnd p _ => decide (p < 64)
  | .copyIssue g => decide (g < 512)
  | .copyBlockWrite _ _ => true
  | .copyComplete _ _ => true
  | .leaseQueueAdvance c kind => decide (c < 4) && decide (kind < 3)
  | .engineWakeComplete c e _ => decide (c < 4) && decide (e < 24)
  | .engineZeroingComplete c e => decide (c < 4) && decide (e < 24)
  | .engineIdleTimeout c e => decide (c < 4) && decide (e < 24)
  | .leaseWaitTimeout asid c entry => decide (asid < 65536) && decide (c < 4) && decide (entry < 64)
  | .engineOpFire asid c entry => decide (asid < 65536) && decide (c < 4) && decide (entry < 64)
  | .engineOpComplete asid c entry _ => decide (asid < 65536) && decide (c < 4) && decide (entry < 64)
  | .receiveSlotGrant g slot => decide (g < 512) && decide (slot < 16)
  | .stripDelivery g slot _ => decide (g < 512) && decide (slot < 16)
  | .braidFlitReceive port _ => decide (port < 6)
  | .braidRetrainTimeout port => decide (port < 6)
  | .braidPortUp port => decide (port < 6)
  | .braidIncomingAccess _ => true
  | .rdmaWrite _ _ _ _ => true
  | .rdmaRead _ _ _ _ => true
  | .rdmaFetchAndAdd _ _ _ _ => true
  | .rdmaCompareAndSwap _ _ _ _ _ => true
  | .rdmaInvalidRequest _ => true
  | .packetIntake q _ => decide (q < 4096)
  | .gangPlacement => true
  | .taskLevelAging _ => true
  | .reservationPreemption => true
  | .copyTaskStart _ _ => true
  | .waitTaskSatisfied _ => true
  | .taskComplete _ _ => true
  | .cascadeRebalance _ => true
  | .compactionFlush _ => true
  | .preemptionRequest _ _ => true
  | .trapEntry g => decide (g < 512)
  | .budgetExhausted g => decide (g < 512)
  | .impreciseCauseDelivery g _ _ => decide (g < 512)
  | .contextEnd asid => decide (asid < 65536)
  | .eventLatchTick => true
  | .yieldExpiry g => decide (g < 512)
  | .refreshWindow bank _ => decide (bank < 8192)
  | .refreshWindowClose bank => decide (bank < 8192)
  | .scrub block _ => decide (block < 2 ^ 33)
  | .thermalEmergency => true
  | .thermalRetentionTimeout => true
  | .thermalRecovery => true
  | .retentionSweep n _ => decide (n < 128)
  | .logicTestComplete n _ => decide (n < 128)
  | .islandopWrite i _ => decide (i < 64)
  | .opChangeComplete i => decide (i < 64)
  | .energyUpdate _ => true
  | .energyloRead => true
  | .energyWrapClear _ => true
  | .holdctlWrite _ => true
  | .migqbaseWrite _ => true
  | .errorBankClear b => decide (b < 148)
  | .deviceRegisterWrite _ _ => true
  | .createContext _ _ _ _ _ => true
  | .endContext _ => true
  | .createQueue _ _ _ _ _ _ => true
  | .expose _ _ _ _ _ => true
  | .registerMirror _ _ => true
  | .joinGroup _ _ _ _ => true
  | .mapAperture _ _ _ => true
  | .readHealth _ _ => true
  | .clearBank _ => true
  | .update _ => true
  | .updateConfig _ => true
  | .updateRot _ => true
  | .destroyQueue _ => true
  | .unexpose _ => true
  | .unregisterMirror _ => true
  | .leaveGroup _ _ => true
  | .unmapAperture _ _ => true
  | .spdmChallenge _ => true
  | .sessionKeyExchange _ => true
  | .updateHeartbeat => true
  | .updateHeartbeatTimeout => true
  | .deviceReset _ => true
  | .schedulerFirstHeartbeat => true
  | .junctionTemperature85C _ => true
  | .braidPortRetrained port => decide (port < 6)
  | .powerLoss => true
  | .poolZeroingComplete n => decide (n < 128)
  | .ethernetLinkError port _ _ => decide (port < 2)

/-- Well-formedness of a queued operation: what its encoding admits, as for its instruction. -/
def QOp.wf : QOp → Bool
  | .un op _ _ r _ => if op.rounds then roundingOk r else r == 0
  | .rand _ _ _ _ kind => decide (kind.toNat ≤ 1)
  | .copy _ a b _ _ _ fl => copyOk a b fl
  | .copyf _ a b _ _ fl => copyOk a b fl
  | .mldb _ _ _ fmt n k _ => bTileOk fmt n k
  | .mma _ _ _ _ k _ _ => depthOk k
  | _ => true

end Sys2Proof
end

