-- ==== Sys2Proof/Decode.lean ====
section
/-! DEFINITION. The decoder, total on words and on bytes, which rejects by name, and the encoder, both written from
Tables 1-1 to 1-5, 4-1 and 10-2. Words are numbers below 2^32; bit ranges are the manual's [hi:lo]. What builds an
`Instr` is marked noncomputable: the compiler has no code for a constructor of a type this large, the kernel
evaluates it. The operations that queues hold are decoded by computable functions, which ERET uses (R372). -/

namespace Sys2Proof

/-- Why a word or a word pair decodes to no instruction; the hart traps ILLEGAL for each (R7, R9, R13, R14). -/
inductive DecodeError where
  /-- Fewer bytes than the length field asks for. -/
  | truncated
  /-- Length field 00 or 11 (R7). -/
  | badLength
  /-- The length field disagrees with the major's length (R9). -/
  | lengthMismatch
  /-- A reserved major (R14). -/
  | reservedMajor
  /-- A selector value that Table 1-4 does not list (R14). -/
  | reservedSelector
  /-- A must-be-zero field is nonzero (R13). -/
  | nonzeroField
  /-- Operand values the instruction's definition makes illegal: a rounding mode, a tile size, a register overlap. -/
  | illegalOperand
  deriving DecidableEq, Repr

/-- Bits [hi:lo] of a word. -/
def fld (w hi lo : Nat) : Nat := w / 2 ^ lo % 2 ^ (hi + 1 - lo)

/-- Bits [hi:lo] of a word as an operand field. -/
def bv {n : Nat} (w hi lo : Nat) : BitVec n := BitVec.ofNat n (fld w hi lo)

/-- An instruction whose unused fields must be zero (R13). -/
def zero {α : Type} (p : Prop) [Decidable p] (i : α) : Except DecodeError α :=
  if p then .ok i else .error .nonzeroField

/-- The majors of 64 bits (Table 1-4). -/
def isLongMajor (m : Nat) : Bool :=
  m == 0x0B || m == 0x1D || m == 0x21 || m == 0x31 || m == 0x36 || m == 0x38

/-- The reserved majors (Table 1-4). -/
def isReservedMajor (m : Nat) : Bool := m == 0 || m == 0x23 || decide (0x3C ≤ m)

/-- Whether a first word is of the vector or the matrix queue class (R300). -/
def isQueuedWord (w : Nat) : Bool :=
  decide (0x24 ≤ fld w 7 2 ∧ fld w 7 2 ≤ 0x34) || fld w 7 2 == 0x36 || fld w 7 2 == 0x38 || fld w 7 2 == 0x3A ||
    (fld w 7 2 == 0x39 && !(fld w 31 29 == 1 || fld w 31 29 == 4 || fld w 31 29 == 5))

/-! ### Queued operations -/

/-- Major 0x24 (Table 1-4). -/
def decodeQueued24 (w : Nat) : Except DecodeError QOp :=
  match fld w 31 29 with
  | 0 => .ok (.bin .fadd (bv w 13 8) (bv w 19 14) (.vec (bv w 25 20)) (bv w 28 26))
  | 1 => .ok (.bin .fsub (bv w 13 8) (bv w 19 14) (.vec (bv w 25 20)) (bv w 28 26))
  | 2 => .ok (.bin .fmul (bv w 13 8) (bv w 19 14) (.vec (bv w 25 20)) (bv w 28 26))
  | 3 => .ok (.bin .fdiv (bv w 13 8) (bv w 19 14) (.vec (bv w 25 20)) (bv w 28 26))
  | 4 => .ok (.bin .fmin (bv w 13 8) (bv w 19 14) (.vec (bv w 25 20)) (bv w 28 26))
  | 5 => .ok (.bin .fmax (bv w 13 8) (bv w 19 14) (.vec (bv w 25 20)) (bv w 28 26))
  | 6 => .ok (.bin .fsgnj (bv w 13 8) (bv w 19 14) (.vec (bv w 25 20)) (bv w 28 26))
  | 7 => .ok (.bin .fsgnjn (bv w 13 8) (bv w 19 14) (.vec (bv w 25 20)) (bv w 28 26))
  | _ => .error .reservedSelector

/-- Major 0x25 (Table 1-4). -/
def decodeQueued25 (w : Nat) : Except DecodeError QOp :=
  match fld w 31 29 with
  | 0 => zero (fld w 25 25 = 0) (.bin .fadd (bv w 13 8) (bv w 19 14) (.sc (bv w 24 20)) (bv w 28 26))
  | 1 => zero (fld w 25 25 = 0) (.bin .fsub (bv w 13 8) (bv w 19 14) (.sc (bv w 24 20)) (bv w 28 26))
  | 2 => zero (fld w 25 25 = 0) (.bin .fmul (bv w 13 8) (bv w 19 14) (.sc (bv w 24 20)) (bv w 28 26))
  | 3 => zero (fld w 25 25 = 0) (.bin .fdiv (bv w 13 8) (bv w 19 14) (.sc (bv w 24 20)) (bv w 28 26))
  | 4 => zero (fld w 25 25 = 0) (.bin .fmin (bv w 13 8) (bv w 19 14) (.sc (bv w 24 20)) (bv w 28 26))
  | 5 => zero (fld w 25 25 = 0) (.bin .fmax (bv w 13 8) (bv w 19 14) (.sc (bv w 24 20)) (bv w 28 26))
  | 6 => zero (fld w 25 25 = 0) (.bin .fsgnj (bv w 13 8) (bv w 19 14) (.sc (bv w 24 20)) (bv w 28 26))
  | 7 => zero (fld w 25 25 = 0) (.bin .fsgnjn (bv w 13 8) (bv w 19 14) (.sc (bv w 24 20)) (bv w 28 26))
  | _ => .error .reservedSelector

/-- Major 0x26 (Table 1-4). -/
def decodeQueued26 (w : Nat) : Except DecodeError QOp :=
  match fld w 31 29 with
  | 0 => .ok (.fma .fma (bv w 13 8) (bv w 19 14) (.vec (bv w 25 20)) (bv w 28 26))
  | 1 => .ok (.fma .fms (bv w 13 8) (bv w 19 14) (.vec (bv w 25 20)) (bv w 28 26))
  | 2 => .ok (.fma .fnma (bv w 13 8) (bv w 19 14) (.vec (bv w 25 20)) (bv w 28 26))
  | 3 => .ok (.fma .fnms (bv w 13 8) (bv w 19 14) (.vec (bv w 25 20)) (bv w 28 26))
  | 4 => zero (fld w 13 11 = 0) (.cmp .fceq (bv w 10 8) (bv w 19 14) (.vec (bv w 25 20)) (bv w 28 26))
  | 5 => zero (fld w 13 11 = 0) (.cmp .fclt (bv w 10 8) (bv w 19 14) (.vec (bv w 25 20)) (bv w 28 26))
  | 6 => zero (fld w 13 11 = 0) (.cmp .fcle (bv w 10 8) (bv w 19 14) (.vec (bv w 25 20)) (bv w 28 26))
  | 7 => zero (fld w 13 11 = 0) (.cmp .fcne (bv w 10 8) (bv w 19 14) (.vec (bv w 25 20)) (bv w 28 26))
  | _ => .error .reservedSelector

/-- Major 0x27 (Table 1-4). -/
def decodeQueued27 (w : Nat) : Except DecodeError QOp :=
  match fld w 31 29 with
  | 0 => zero (fld w 25 25 = 0) (.fma .fma (bv w 13 8) (bv w 19 14) (.sc (bv w 24 20)) (bv w 28 26))
  | 1 => zero (fld w 25 25 = 0) (.fma .fms (bv w 13 8) (bv w 19 14) (.sc (bv w 24 20)) (bv w 28 26))
  | 2 => zero (fld w 25 25 = 0) (.fma .fnma (bv w 13 8) (bv w 19 14) (.sc (bv w 24 20)) (bv w 28 26))
  | 3 => zero (fld w 25 25 = 0) (.fma .fnms (bv w 13 8) (bv w 19 14) (.sc (bv w 24 20)) (bv w 28 26))
  | 4 => zero (fld w 13 11 = 0 ∧ fld w 25 25 = 0) (.cmp .fceq (bv w 10 8) (bv w 19 14) (.sc (bv w 24 20)) (bv w 28 26))
  | 5 => zero (fld w 13 11 = 0 ∧ fld w 25 25 = 0) (.cmp .fclt (bv w 10 8) (bv w 19 14) (.sc (bv w 24 20)) (bv w 28 26))
  | 6 => zero (fld w 13 11 = 0 ∧ fld w 25 25 = 0) (.cmp .fcle (bv w 10 8) (bv w 19 14) (.sc (bv w 24 20)) (bv w 28 26))
  | 7 => zero (fld w 13 11 = 0 ∧ fld w 25 25 = 0) (.cmp .fcne (bv w 10 8) (bv w 19 14) (.sc (bv w 24 20)) (bv w 28 26))
  | _ => .error .reservedSelector

/-- Major 0x28 (Table 1-4). -/
def decodeQueued28 (w : Nat) : Except DecodeError QOp :=
  match fld w 25 20 with
  | 0 => .ok (.un .sqrt (bv w 13 8) (bv w 19 14) (bv w 31 29) (bv w 28 26))
  | 1 => zero (fld w 31 29 = 0) (.un .recip (bv w 13 8) (bv w 19 14) 0 (bv w 28 26))
  | 2 => zero (fld w 31 29 = 0) (.un .rsq (bv w 13 8) (bv w 19 14) 0 (bv w 28 26))
  | 3 => zero (fld w 31 29 = 0) (.un .expf (bv w 13 8) (bv w 19 14) 0 (bv w 28 26))
  | 4 => .ok (.un .rint (bv w 13 8) (bv w 19 14) (bv w 31 29) (bv w 28 26))
  | 5 => zero (fld w 31 29 = 0) (.un .cls (bv w 13 8) (bv w 19 14) 0 (bv w 28 26))
  | 6 => zero (fld w 31 29 = 0) (.un .abs (bv w 13 8) (bv w 19 14) 0 (bv w 28 26))
  | 7 => zero (fld w 31 29 = 0) (.un .neg (bv w 13 8) (bv w 19 14) 0 (bv w 28 26))
  | 8 => .ok (.un .cvtWF (bv w 13 8) (bv w 19 14) (bv w 31 29) (bv w 28 26))
  | 9 => .ok (.un .cvtFW (bv w 13 8) (bv w 19 14) (bv w 31 29) (bv w 28 26))
  | 10 => .ok (.un .cvtBF (bv w 13 8) (bv w 19 14) (bv w 31 29) (bv w 28 26))
  | 11 => zero (fld w 31 29 = 0) (.un .cvtFB (bv w 13 8) (bv w 19 14) 0 (bv w 28 26))
  | 12 => zero (fld w 31 29 = 0) (.un .getexp (bv w 13 8) (bv w 19 14) 0 (bv w 28 26))
  | 13 => zero (fld w 31 29 = 0) (.un .getmant (bv w 13 8) (bv w 19 14) 0 (bv w 28 26))
  | _ => .error .reservedSelector

/-- Major 0x29 (Table 1-4). -/
def decodeQueued29 (w : Nat) : Except DecodeError QOp :=
  match fld w 31 29 with
  | 0 => .ok (.bin .fscale (bv w 13 8) (bv w 19 14) (.vec (bv w 25 20)) (bv w 28 26))
  | 1 => zero (fld w 25 25 = 0) (.bin .fscale (bv w 13 8) (bv w 19 14) (.sc (bv w 24 20)) (bv w 28 26))
  | _ => .error .reservedSelector

/-- Major 0x2A (Table 1-4). -/
def decodeQueued2A (w : Nat) : Except DecodeError QOp :=
  match fld w 31 29 with
  | 0 => .ok (.bin .add (bv w 13 8) (bv w 19 14) (.vec (bv w 25 20)) (bv w 28 26))
  | 1 => .ok (.bin .sub (bv w 13 8) (bv w 19 14) (.vec (bv w 25 20)) (bv w 28 26))
  | 2 => .ok (.bin .mul (bv w 13 8) (bv w 19 14) (.vec (bv w 25 20)) (bv w 28 26))
  | 3 => .ok (.bin .and (bv w 13 8) (bv w 19 14) (.vec (bv w 25 20)) (bv w 28 26))
  | 4 => .ok (.bin .or (bv w 13 8) (bv w 19 14) (.vec (bv w 25 20)) (bv w 28 26))
  | 5 => .ok (.bin .xor (bv w 13 8) (bv w 19 14) (.vec (bv w 25 20)) (bv w 28 26))
  | 6 => .ok (.bin .min (bv w 13 8) (bv w 19 14) (.vec (bv w 25 20)) (bv w 28 26))
  | 7 => .ok (.bin .max (bv w 13 8) (bv w 19 14) (.vec (bv w 25 20)) (bv w 28 26))
  | _ => .error .reservedSelector

/-- Major 0x2B (Table 1-4). -/
def decodeQueued2B (w : Nat) : Except DecodeError QOp :=
  match fld w 31 29 with
  | 0 => zero (fld w 25 25 = 0) (.bin .add (bv w 13 8) (bv w 19 14) (.sc (bv w 24 20)) (bv w 28 26))
  | 1 => zero (fld w 25 25 = 0) (.bin .sub (bv w 13 8) (bv w 19 14) (.sc (bv w 24 20)) (bv w 28 26))
  | 2 => zero (fld w 25 25 = 0) (.bin .mul (bv w 13 8) (bv w 19 14) (.sc (bv w 24 20)) (bv w 28 26))
  | 3 => zero (fld w 25 25 = 0) (.bin .and (bv w 13 8) (bv w 19 14) (.sc (bv w 24 20)) (bv w 28 26))
  | 4 => zero (fld w 25 25 = 0) (.bin .or (bv w 13 8) (bv w 19 14) (.sc (bv w 24 20)) (bv w 28 26))
  | 5 => zero (fld w 25 25 = 0) (.bin .xor (bv w 13 8) (bv w 19 14) (.sc (bv w 24 20)) (bv w 28 26))
  | 6 => zero (fld w 25 25 = 0) (.bin .min (bv w 13 8) (bv w 19 14) (.sc (bv w 24 20)) (bv w 28 26))
  | 7 => zero (fld w 25 25 = 0) (.bin .max (bv w 13 8) (bv w 19 14) (.sc (bv w 24 20)) (bv w 28 26))
  | _ => .error .reservedSelector

/-- Major 0x2C (Table 1-4). -/
def decodeQueued2C (w : Nat) : Except DecodeError QOp :=
  match fld w 31 29 with
  | 0 => .ok (.bin .sll (bv w 13 8) (bv w 19 14) (.vec (bv w 25 20)) (bv w 28 26))
  | 1 => .ok (.bin .srl (bv w 13 8) (bv w 19 14) (.vec (bv w 25 20)) (bv w 28 26))
  | 2 => .ok (.bin .sra (bv w 13 8) (bv w 19 14) (.vec (bv w 25 20)) (bv w 28 26))
  | 3 => .ok (.bin .minu (bv w 13 8) (bv w 19 14) (.vec (bv w 25 20)) (bv w 28 26))
  | 4 => .ok (.bin .maxu (bv w 13 8) (bv w 19 14) (.vec (bv w 25 20)) (bv w 28 26))
  | 5 => .ok (.bin .mulh (bv w 13 8) (bv w 19 14) (.vec (bv w 25 20)) (bv w 28 26))
  | 6 => zero (fld w 13 11 = 0) (.cmp .ceq (bv w 10 8) (bv w 19 14) (.vec (bv w 25 20)) (bv w 28 26))
  | 7 => zero (fld w 13 11 = 0) (.cmp .clt (bv w 10 8) (bv w 19 14) (.vec (bv w 25 20)) (bv w 28 26))
  | _ => .error .reservedSelector

/-- Major 0x2D (Table 1-4). -/
def decodeQueued2D (w : Nat) : Except DecodeError QOp :=
  match fld w 31 29 with
  | 0 => zero (fld w 25 25 = 0) (.bin .sll (bv w 13 8) (bv w 19 14) (.sc (bv w 24 20)) (bv w 28 26))
  | 1 => zero (fld w 25 25 = 0) (.bin .srl (bv w 13 8) (bv w 19 14) (.sc (bv w 24 20)) (bv w 28 26))
  | 2 => zero (fld w 25 25 = 0) (.bin .sra (bv w 13 8) (bv w 19 14) (.sc (bv w 24 20)) (bv w 28 26))
  | 3 => zero (fld w 25 25 = 0) (.bin .minu (bv w 13 8) (bv w 19 14) (.sc (bv w 24 20)) (bv w 28 26))
  | 4 => zero (fld w 25 25 = 0) (.bin .maxu (bv w 13 8) (bv w 19 14) (.sc (bv w 24 20)) (bv w 28 26))
  | 5 => zero (fld w 25 25 = 0) (.bin .mulh (bv w 13 8) (bv w 19 14) (.sc (bv w 24 20)) (bv w 28 26))
  | 6 => zero (fld w 13 11 = 0 ∧ fld w 25 25 = 0) (.cmp .ceq (bv w 10 8) (bv w 19 14) (.sc (bv w 24 20)) (bv w 28 26))
  | 7 => zero (fld w 13 11 = 0 ∧ fld w 25 25 = 0) (.cmp .clt (bv w 10 8) (bv w 19 14) (.sc (bv w 24 20)) (bv w 28 26))
  | _ => .error .reservedSelector

/-- Major 0x2E (Table 1-4). -/
def decodeQueued2E (w : Nat) : Except DecodeError QOp :=
  match fld w 31 29 with
  | 0 => zero (fld w 13 11 = 0 ∧ fld w 19 17 = 0 ∧ fld w 25 23 = 0) (.mask2 .and (bv w 10 8) (bv w 16 14) (bv w 22 20) (bv w 28 26))
  | 1 => zero (fld w 13 11 = 0 ∧ fld w 19 17 = 0 ∧ fld w 25 23 = 0) (.mask2 .or (bv w 10 8) (bv w 16 14) (bv w 22 20) (bv w 28 26))
  | 2 => zero (fld w 13 11 = 0 ∧ fld w 19 17 = 0 ∧ fld w 25 23 = 0) (.mask2 .xor (bv w 10 8) (bv w 16 14) (bv w 22 20) (bv w 28 26))
  | 3 => zero (fld w 13 11 = 0 ∧ fld w 19 17 = 0 ∧ fld w 25 23 = 0) (.mask2 .andn (bv w 10 8) (bv w 16 14) (bv w 22 20) (bv w 28 26))
  | 4 => zero (fld w 13 11 = 0 ∧ fld w 25 17 = 0) (.maskNot (bv w 10 8) (bv w 16 14) (bv w 28 26))
  | 5 => zero (fld w 25 11 = 0) (.maskSet (bv w 10 8) (bv w 28 26))
  | 6 => zero (fld w 13 13 = 0 ∧ fld w 25 17 = 0) (.maskPopc (bv w 12 8) (bv w 16 14) (bv w 28 26))
  | 7 => zero (fld w 13 13 = 0 ∧ fld w 25 17 = 0) (.maskFirst (bv w 12 8) (bv w 16 14) (bv w 28 26))
  | _ => .error .reservedSelector

/-- Major 0x2F (Table 1-4). -/
def decodeQueued2F (w : Nat) : Except DecodeError QOp :=
  match fld w 31 29 with
  | 0 => zero (fld w 25 25 = 0) (.slideUp (bv w 13 8) (bv w 19 14) (bv w 24 20) (bv w 28 26))
  | 1 => zero (fld w 25 25 = 0) (.slideDn (bv w 13 8) (bv w 19 14) (bv w 24 20) (bv w 28 26))
  | 2 => .ok (.gather (bv w 13 8) (bv w 19 14) (bv w 25 20) (bv w 28 26))
  | 3 => zero (fld w 25 20 = 0) (.compress (bv w 13 8) (bv w 19 14) (bv w 28 26))
  | 4 => zero (fld w 25 20 = 0) (.expand (bv w 13 8) (bv w 19 14) (bv w 28 26))
  | 5 => .ok (.merge (bv w 13 8) (bv w 19 14) (bv w 25 20) (bv w 28 26))
  | 6 => zero (fld w 19 14 = 0 ∧ fld w 25 25 = 0) (.bcast (bv w 13 8) (bv w 24 20) (bv w 28 26))
  | 7 => zero (fld w 13 13 = 0 ∧ fld w 28 25 = 0) (.extract (bv w 12 8) (bv w 19 14) (bv w 24 20))
  | _ => .error .reservedSelector

/-- Major 0x30 (Table 1-4). -/
def decodeQueued30 (w : Nat) : Except DecodeError QOp :=
  match fld w 31 29 with
  | 0 => .ok (.red .fsum (bv w 13 8) (bv w 19 14) (bv w 25 20) (bv w 28 26))
  | 1 => .ok (.red .fmax (bv w 13 8) (bv w 19 14) (bv w 25 20) (bv w 28 26))
  | 2 => .ok (.red .fmin (bv w 13 8) (bv w 19 14) (bv w 25 20) (bv w 28 26))
  | 3 => .ok (.red .sum (bv w 13 8) (bv w 19 14) (bv w 25 20) (bv w 28 26))
  | 4 => .ok (.red .max (bv w 13 8) (bv w 19 14) (bv w 25 20) (bv w 28 26))
  | 5 => .ok (.red .min (bv w 13 8) (bv w 19 14) (bv w 25 20) (bv w 28 26))
  | 6 => .ok (.red .fosum (bv w 13 8) (bv w 19 14) (bv w 25 20) (bv w 28 26))
  | _ => .error .reservedSelector

/-- Major 0x32 (Table 1-4). -/
def decodeQueued32 (w : Nat) : Except DecodeError QOp :=
  match fld w 31 29 with
  | 0 => zero (fld w 25 18 = 0) (.ld (bv w 13 8) (bv w 17 14) (bv w 28 26))
  | 1 => zero (fld w 19 18 = 0) (.ldx (bv w 13 8) (bv w 25 20) (bv w 17 14) (bv w 28 26))
  | 2 => zero (fld w 25 18 = 0) (.st (bv w 13 8) (bv w 17 14) (bv w 28 26))
  | 3 => zero (fld w 19 18 = 0) (.stx (bv w 13 8) (bv w 25 20) (bv w 17 14) (bv w 28 26))
  | 4 => zero (fld w 25 18 = 0) (.sld (bv w 13 8) (bv w 17 14) (bv w 28 26))
  | 5 => zero (fld w 25 18 = 0) (.ldSeq (bv w 13 8) (bv w 17 14) (bv w 28 26))
  | 6 => zero (fld w 25 18 = 0) (.stSeq (bv w 13 8) (bv w 17 14) (bv w 28 26))
  | 7 => zero (fld w 25 18 = 0) (.stn (bv w 13 8) (bv w 17 14) (bv w 28 26))
  | _ => .error .reservedSelector

/-- Major 0x33 (Table 1-4). -/
def decodeQueued33 (w : Nat) : Except DecodeError QOp :=
  match fld w 31 29 with
  | 0 => zero (fld w 19 18 = 0) (.amo .addF (bv w 13 8) (bv w 25 20) (bv w 17 14) (bv w 28 26))
  | 1 => zero (fld w 19 18 = 0) (.amo .addW (bv w 13 8) (bv w 25 20) (bv w 17 14) (bv w 28 26))
  | 2 => zero (fld w 19 18 = 0) (.amo .minF (bv w 13 8) (bv w 25 20) (bv w 17 14) (bv w 28 26))
  | 3 => zero (fld w 19 18 = 0) (.amo .maxF (bv w 13 8) (bv w 25 20) (bv w 17 14) (bv w 28 26))
  | 4 => zero (fld w 19 18 = 0) (.amo .minW (bv w 13 8) (bv w 25 20) (bv w 17 14) (bv w 28 26))
  | 5 => zero (fld w 19 18 = 0) (.amo .maxW (bv w 13 8) (bv w 25 20) (bv w 17 14) (bv w 28 26))
  | 6 => zero (fld w 19 18 = 0 ∧ fld w 25 24 = 0) (.stp (bv w 13 8) (bv w 23 20) (bv w 17 14) (bv w 28 26))
  | _ => .error .reservedSelector

/-- Major 0x34 (Table 1-4). -/
def decodeQueued34 (w : Nat) : Except DecodeError QOp :=
  match fld w 31 23 with
  | 0 => zero (fld w 13 8 = 0) (.sdesc (bv w 22 18) (bv w 17 14))
  | 1 => zero (fld w 13 8 = 0) (.sbase (bv w 22 18) (bv w 17 14))
  | 2 => zero (fld w 13 13 = 0 ∧ fld w 22 18 = 0) (.spos (bv w 12 8) (bv w 17 14))
  | 3 => zero (fld w 13 8 = 0) (.sseek (bv w 22 18) (bv w 17 14))
  | 4 => zero (fld w 13 8 = 0 ∧ fld w 22 18 = 0) (.srel (bv w 17 14))
  | 5 => zero (fld w 13 8 = 0) (.ssave (bv w 22 18) (bv w 17 14))
  | _ => .error .reservedSelector

/-- Major 0x39 (Table 1-4). -/
def decodeQueued39 (w : Nat) : Except DecodeError QOp :=
  match fld w 31 29 with
  | 0 => zero (fld w 19 13 = 0 ∧ fld w 28 25 = 0) (.mrun (bv w 12 8) (bv w 24 20))
  | 2 => zero (fld w 13 8 = 0 ∧ fld w 28 25 = 0) (.mfeed (bv w 19 14) (bv w 24 20))
  | 3 => zero (fld w 19 14 = 0 ∧ fld w 28 25 = 0) (.mdrain (bv w 13 8) (bv w 24 20))
  | _ => .error .reservedSelector

/-- Major 0x3A (Table 1-4). -/
def decodeQueued3A (w : Nat) : Except DecodeError QOp :=
  match fld w 31 29 with
  | 0 => zero (fld w 13 8 = 0 ∧ fld w 28 25 = 0) (.send (bv w 19 14) (bv w 24 20))
  | 1 => zero (fld w 19 19 = 0 ∧ fld w 28 25 = 0) (.recv (bv w 18 14) (bv w 13 8) (bv w 24 20))
  | 2 => zero (fld w 19 8 = 0 ∧ fld w 28 25 = 0) (.rsig (bv w 24 20))
  | _ => .error .reservedSelector

/-- Major 0x31: the generators (R212). -/
def decodeQueued31 (w e : Nat) : Except DecodeError QOp :=
  if fld w 31 28 = 0 then zero (fld w 24 14 = 0) (.seq (bv w 27 25) (bv w 13 8) (bv e 15 0) (bv e 31 16))
  else if fld w 31 28 = 1 then zero (fld w 24 14 = 0) (.fbcasti (bv w 27 25) (bv w 13 8) (bv e 31 0))
  else if fld w 31 28 = 2 then zero (fld w 24 14 = 0) (.bcasti (bv w 27 25) (bv w 13 8) (bv e 31 0))
  else if fld w 31 28 = 3 then
    zero (fld w 19 14 = 0 ∧ fld e 31 18 = 0)
      (.rand (bv w 27 25) (bv w 24 20) (bv w 13 8) (bv e 15 0) (bv e 17 16))
  else .error .reservedSelector


/-- Major 0x36: COPY, COPYF and COPYSTAT (R92, R93). -/
def decodeQueued36 (w e : Nat) : Except DecodeError QOp :=
  if fld w 31 28 = 0 then
    zero (fld w 27 23 = 0 ∧ fld e 31 19 = 0 ∧ fld e 14 14 = 0)
      (.copy (bv w 12 8) (bv w 17 13) (bv w 22 18) (bv e 3 0) (bv e 7 4) (bv e 13 8) (bv e 18 15))
  else if fld w 31 28 = 1 then
    zero (fld w 27 23 = 0 ∧ fld e 31 19 = 0 ∧ fld e 14 14 = 0 ∧ fld e 3 0 = 0)
      (.copyf (bv w 12 8) (bv w 17 13) (bv w 22 18) (bv e 7 4) (bv e 13 8) (bv e 18 15))
  else if fld w 31 28 = 2 then
    zero (fld w 27 13 = 0 ∧ fld e 31 14 = 0 ∧ fld e 7 0 = 0) (.copystat (bv w 12 8) (bv e 13 8))
  else .error .reservedSelector


/-- Major 0x38: the matrix instructions (R223, Table 10-2). -/
def decodeQueued38 (w e : Nat) : Except DecodeError QOp :=
  if fld w 31 28 = 0 then
    zero (fld w 27 23 = 0 ∧ fld w 12 8 = 0 ∧ fld e 31 27 = 0 ∧ fld e 25 25 = 0)
      (.mldb false (bv w 17 13) (bv w 22 18) (bv e 7 0) (bv e 15 8) (bv e 24 16) (bv e 26 26))
  else if fld w 31 28 = 1 then
    zero (fld w 27 23 = 0 ∧ fld w 12 8 = 0 ∧ fld e 31 27 = 0 ∧ fld e 25 25 = 0)
      (.mldb true (bv w 17 13) (bv w 22 18) (bv e 7 0) (bv e 15 8) (bv e 24 16) (bv e 26 26))
  else if fld w 31 28 = 2 then
    zero (fld w 27 20 = 0 ∧ fld e 31 27 = 0)
      (.mma (bv w 19 14) (bv w 13 8) (bv e 7 0) (bv e 15 8) (bv e 24 16) (bv e 25 25) (bv e 26 26))
  else if fld w 31 28 = 3 then
    zero (fld w 27 13 = 0 ∧ fld e 31 27 = 0 ∧ fld e 25 0 = 0) (.mprog (bv w 12 8) (bv e 26 26))
  else if fld w 31 28 = 4 then zero (fld w 27 8 = 0 ∧ e = 0) .msync
  else if fld w 31 28 = 5 then zero (fld w 27 13 = 0 ∧ fld e 31 1 = 0) (.mchk (bv w 12 8) (bv e 0 0))
  else .error .reservedSelector

/-- The queued operation of a first word and its E word, before its operands are checked. -/
def decodeQueuedRaw (w e : Nat) : Except DecodeError QOp :=
  match fld w 7 2 with
  | 36 => decodeQueued24 w
  | 37 => decodeQueued25 w
  | 38 => decodeQueued26 w
  | 39 => decodeQueued27 w
  | 40 => decodeQueued28 w
  | 41 => decodeQueued29 w
  | 42 => decodeQueued2A w
  | 43 => decodeQueued2B w
  | 44 => decodeQueued2C w
  | 45 => decodeQueued2D w
  | 46 => decodeQueued2E w
  | 47 => decodeQueued2F w
  | 48 => decodeQueued30 w
  | 50 => decodeQueued32 w
  | 51 => decodeQueued33 w
  | 52 => decodeQueued34 w
  | 57 => decodeQueued39 w
  | 58 => decodeQueued3A w
  | 0x31 => decodeQueued31 w e
  | 0x36 => decodeQueued36 w e
  | 0x38 => decodeQueued38 w e
  | _ => .error .reservedMajor

/-- The queued operation of a first word and its E word. -/
def decodeQueued (w e : Nat) : Except DecodeError QOp :=
  match decodeQueuedRaw w e with
  | .ok q => if q.wf then .ok q else .error .illegalOperand
  | .error r => .error r

/-! ### Scalar-stream instructions -/

/-- Major 0x01 (Tables 1-3, 1-4). -/
noncomputable def decodeScalar01 (w : Nat) : Except DecodeError Instr :=
  match fld w 31 23 with
  | 0 => .ok (.add (bv w 12 8) (bv w 17 13) (bv w 22 18))
  | 1 => .ok (.sub (bv w 12 8) (bv w 17 13) (bv w 22 18))
  | 2 => .ok (.and (bv w 12 8) (bv w 17 13) (bv w 22 18))
  | 3 => .ok (.or (bv w 12 8) (bv w 17 13) (bv w 22 18))
  | 4 => .ok (.xor (bv w 12 8) (bv w 17 13) (bv w 22 18))
  | 5 => .ok (.andn (bv w 12 8) (bv w 17 13) (bv w 22 18))
  | 6 => .ok (.orn (bv w 12 8) (bv w 17 13) (bv w 22 18))
  | 7 => .ok (.sll (bv w 12 8) (bv w 17 13) (bv w 22 18))
  | 8 => .ok (.srl (bv w 12 8) (bv w 17 13) (bv w 22 18))
  | 9 => .ok (.sra (bv w 12 8) (bv w 17 13) (bv w 22 18))
  | 10 => .ok (.rol (bv w 12 8) (bv w 17 13) (bv w 22 18))
  | 11 => .ok (.ror (bv w 12 8) (bv w 17 13) (bv w 22 18))
  | 12 => .ok (.slt (bv w 12 8) (bv w 17 13) (bv w 22 18))
  | 13 => .ok (.sltu (bv w 12 8) (bv w 17 13) (bv w 22 18))
  | 14 => .ok (.min (bv w 12 8) (bv w 17 13) (bv w 22 18))
  | 15 => .ok (.max (bv w 12 8) (bv w 17 13) (bv w 22 18))
  | 16 => .ok (.minu (bv w 12 8) (bv w 17 13) (bv w 22 18))
  | 17 => .ok (.maxu (bv w 12 8) (bv w 17 13) (bv w 22 18))
  | 18 => .ok (.mul (bv w 12 8) (bv w 17 13) (bv w 22 18))
  | 19 => .ok (.mulh (bv w 12 8) (bv w 17 13) (bv w 22 18))
  | 20 => .ok (.mulhu (bv w 12 8) (bv w 17 13) (bv w 22 18))
  | 21 => .ok (.div (bv w 12 8) (bv w 17 13) (bv w 22 18))
  | 22 => .ok (.divu (bv w 12 8) (bv w 17 13) (bv w 22 18))
  | 23 => .ok (.rem (bv w 12 8) (bv w 17 13) (bv w 22 18))
  | 24 => .ok (.remu (bv w 12 8) (bv w 17 13) (bv w 22 18))
  | 25 => zero (fld w 22 18 = 0) (.clz (bv w 12 8) (bv w 17 13))
  | 26 => zero (fld w 22 18 = 0) (.ctz (bv w 12 8) (bv w 17 13))
  | 27 => zero (fld w 22 18 = 0) (.popc (bv w 12 8) (bv w 17 13))
  | 28 => zero (fld w 22 18 = 0) (.sexb (bv w 12 8) (bv w 17 13))
  | 29 => zero (fld w 22 18 = 0) (.sexh (bv w 12 8) (bv w 17 13))
  | 30 => zero (fld w 22 18 = 0) (.sexw (bv w 12 8) (bv w 17 13))
  | 31 => zero (fld w 22 18 = 0) (.zexw (bv w 12 8) (bv w 17 13))
  | _ => .error .reservedSelector

/-- Major 0x02 (Tables 1-3, 1-4). -/
noncomputable def decodeScalar02 (w : Nat) : Except DecodeError Instr :=
  .ok (.addi (bv w 12 8) (bv w 17 13) (bv w 31 18))

/-- Major 0x03 (Tables 1-3, 1-4). -/
noncomputable def decodeScalar03 (w : Nat) : Except DecodeError Instr :=
  .ok (.andi (bv w 12 8) (bv w 17 13) (bv w 31 18))

/-- Major 0x04 (Tables 1-3, 1-4). -/
noncomputable def decodeScalar04 (w : Nat) : Except DecodeError Instr :=
  .ok (.ori (bv w 12 8) (bv w 17 13) (bv w 31 18))

/-- Major 0x05 (Tables 1-3, 1-4). -/
noncomputable def decodeScalar05 (w : Nat) : Except DecodeError Instr :=
  .ok (.xori (bv w 12 8) (bv w 17 13) (bv w 31 18))

/-- Major 0x06 (Tables 1-3, 1-4). -/
noncomputable def decodeScalar06 (w : Nat) : Except DecodeError Instr :=
  .ok (.slti (bv w 12 8) (bv w 17 13) (bv w 31 18))

/-- Major 0x07 (Tables 1-3, 1-4). -/
noncomputable def decodeScalar07 (w : Nat) : Except DecodeError Instr :=
  .ok (.sltiu (bv w 12 8) (bv w 17 13) (bv w 31 18))

/-- Major 0x08 (Tables 1-3, 1-4). -/
noncomputable def decodeScalar08 (w : Nat) : Except DecodeError Instr :=
  match fld w 25 24 with
  | 0 => zero (fld w 31 26 = 0) (.slli (bv w 12 8) (bv w 17 13) (bv w 23 18))
  | 1 => zero (fld w 31 26 = 0) (.srli (bv w 12 8) (bv w 17 13) (bv w 23 18))
  | 2 => zero (fld w 31 26 = 0) (.srai (bv w 12 8) (bv w 17 13) (bv w 23 18))
  | 3 => zero (fld w 31 26 = 0) (.rori (bv w 12 8) (bv w 17 13) (bv w 23 18))
  | _ => .error .reservedSelector

/-- Major 0x09 (Tables 1-3, 1-4). -/
noncomputable def decodeScalar09 (w : Nat) : Except DecodeError Instr :=
  .ok (.lui (bv w 12 8) (bv w 31 13))

/-- Major 0x0A (Tables 1-3, 1-4). -/
noncomputable def decodeScalar0A (w : Nat) : Except DecodeError Instr :=
  .ok (.addpc (bv w 12 8) (bv w 31 13))

/-- Major 0x0C (Tables 1-3, 1-4). -/
noncomputable def decodeScalar0C (w : Nat) : Except DecodeError Instr :=
  .ok (.lb (bv w 12 8) (bv w 17 13) (bv w 31 18))

/-- Major 0x0D (Tables 1-3, 1-4). -/
noncomputable def decodeScalar0D (w : Nat) : Except DecodeError Instr :=
  .ok (.lh (bv w 12 8) (bv w 17 13) (bv w 31 18))

/-- Major 0x0E (Tables 1-3, 1-4). -/
noncomputable def decodeScalar0E (w : Nat) : Except DecodeError Instr :=
  .ok (.lw (bv w 12 8) (bv w 17 13) (bv w 31 18))

/-- Major 0x0F (Tables 1-3, 1-4). -/
noncomputable def decodeScalar0F (w : Nat) : Except DecodeError Instr :=
  .ok (.ld (bv w 12 8) (bv w 17 13) (bv w 31 18))

/-- Major 0x10 (Tables 1-3, 1-4). -/
noncomputable def decodeScalar10 (w : Nat) : Except DecodeError Instr :=
  .ok (.lbu (bv w 12 8) (bv w 17 13) (bv w 31 18))

/-- Major 0x11 (Tables 1-3, 1-4). -/
noncomputable def decodeScalar11 (w : Nat) : Except DecodeError Instr :=
  .ok (.lhu (bv w 12 8) (bv w 17 13) (bv w 31 18))

/-- Major 0x12 (Tables 1-3, 1-4). -/
noncomputable def decodeScalar12 (w : Nat) : Except DecodeError Instr :=
  .ok (.lwu (bv w 12 8) (bv w 17 13) (bv w 31 18))

/-- Major 0x13 (Tables 1-3, 1-4). -/
noncomputable def decodeScalar13 (w : Nat) : Except DecodeError Instr :=
  .ok (.sb (bv w 17 13) (bv w 12 8) (bv w 31 18))

/-- Major 0x14 (Tables 1-3, 1-4). -/
noncomputable def decodeScalar14 (w : Nat) : Except DecodeError Instr :=
  .ok (.sh (bv w 17 13) (bv w 12 8) (bv w 31 18))

/-- Major 0x15 (Tables 1-3, 1-4). -/
noncomputable def decodeScalar15 (w : Nat) : Except DecodeError Instr :=
  .ok (.sw (bv w 17 13) (bv w 12 8) (bv w 31 18))

/-- Major 0x16 (Tables 1-3, 1-4). -/
noncomputable def decodeScalar16 (w : Nat) : Except DecodeError Instr :=
  .ok (.sd (bv w 17 13) (bv w 12 8) (bv w 31 18))

/-- Major 0x17 (Tables 1-3, 1-4). -/
noncomputable def decodeScalar17 (w : Nat) : Except DecodeError Instr :=
  match fld w 20 18 with
  | 0 => .ok (.beq (bv w 12 8) (bv w 17 13) (bv w 31 21))
  | 1 => .ok (.bne (bv w 12 8) (bv w 17 13) (bv w 31 21))
  | 2 => .ok (.blt (bv w 12 8) (bv w 17 13) (bv w 31 21))
  | 3 => .ok (.bge (bv w 12 8) (bv w 17 13) (bv w 31 21))
  | 4 => .ok (.bltu (bv w 12 8) (bv w 17 13) (bv w 31 21))
  | 5 => .ok (.bgeu (bv w 12 8) (bv w 17 13) (bv w 31 21))
  | _ => .error .reservedSelector

/-- Major 0x18 (Tables 1-3, 1-4). -/
noncomputable def decodeScalar18 (w : Nat) : Except DecodeError Instr :=
  .ok (.j (bv w 31 8))

/-- Major 0x19 (Tables 1-3, 1-4). -/
noncomputable def decodeScalar19 (w : Nat) : Except DecodeError Instr :=
  .ok (.jl (bv w 31 8))

/-- Major 0x1A (Tables 1-3, 1-4). -/
noncomputable def decodeScalar1A (w : Nat) : Except DecodeError Instr :=
  .ok (.jlr (bv w 12 8) (bv w 17 13) (bv w 31 18))

/-- Major 0x1B (Tables 1-3, 1-4). -/
noncomputable def decodeScalar1B (w : Nat) : Except DecodeError Instr :=
  match fld w 30 23 with
  | 0 => .ok (.amoswap (bv w 12 8) (bv w 17 13) (bv w 22 18) (bv w 31 31))
  | 1 => .ok (.amoadd (bv w 12 8) (bv w 17 13) (bv w 22 18) (bv w 31 31))
  | 2 => .ok (.amoand (bv w 12 8) (bv w 17 13) (bv w 22 18) (bv w 31 31))
  | 3 => .ok (.amoor (bv w 12 8) (bv w 17 13) (bv w 22 18) (bv w 31 31))
  | 4 => .ok (.amoxor (bv w 12 8) (bv w 17 13) (bv w 22 18) (bv w 31 31))
  | 5 => .ok (.amomin (bv w 12 8) (bv w 17 13) (bv w 22 18) (bv w 31 31))
  | 6 => .ok (.amomax (bv w 12 8) (bv w 17 13) (bv w 22 18) (bv w 31 31))
  | 7 => .ok (.amominu (bv w 12 8) (bv w 17 13) (bv w 22 18) (bv w 31 31))
  | 8 => .ok (.amomaxu (bv w 12 8) (bv w 17 13) (bv w 22 18) (bv w 31 31))
  | 9 => .ok (.amocas (bv w 12 8) (bv w 17 13) (bv w 22 18) (bv w 31 31))
  | 10 => zero (fld w 31 31 = 0) (.amofadd (bv w 12 8) (bv w 17 13) (bv w 22 18))
  | _ => .error .reservedSelector

/-- Major 0x1C (Tables 1-3, 1-4). -/
noncomputable def decodeScalar1C (w : Nat) : Except DecodeError Instr :=
  match fld w 28 23 with
  | 0 => .ok (.faddF (bv w 12 8) (bv w 17 13) (bv w 22 18) (bv w 31 29))
  | 1 => .ok (.fsubF (bv w 12 8) (bv w 17 13) (bv w 22 18) (bv w 31 29))
  | 2 => .ok (.fmulF (bv w 12 8) (bv w 17 13) (bv w 22 18) (bv w 31 29))
  | 3 => .ok (.fdivF (bv w 12 8) (bv w 17 13) (bv w 22 18) (bv w 31 29))
  | 4 => zero (fld w 22 18 = 0) (.fsqrtF (bv w 12 8) (bv w 17 13) (bv w 31 29))
  | 5 => zero (fld w 31 29 = 0) (.fminF (bv w 12 8) (bv w 17 13) (bv w 22 18))
  | 6 => zero (fld w 31 29 = 0) (.fmaxF (bv w 12 8) (bv w 17 13) (bv w 22 18))
  | 7 => zero (fld w 31 29 = 0) (.feqF (bv w 12 8) (bv w 17 13) (bv w 22 18))
  | 8 => zero (fld w 31 29 = 0) (.fltF (bv w 12 8) (bv w 17 13) (bv w 22 18))
  | 9 => zero (fld w 31 29 = 0) (.fleF (bv w 12 8) (bv w 17 13) (bv w 22 18))
  | 10 => zero (fld w 22 18 = 0 ∧ fld w 31 29 = 0) (.fclassF (bv w 12 8) (bv w 17 13))
  | 11 => zero (fld w 22 18 = 0) (.fcvtWF (bv w 12 8) (bv w 17 13) (bv w 31 29))
  | 12 => zero (fld w 22 18 = 0) (.fcvtLF (bv w 12 8) (bv w 17 13) (bv w 31 29))
  | 13 => zero (fld w 22 18 = 0) (.fcvtFW (bv w 12 8) (bv w 17 13) (bv w 31 29))
  | 14 => zero (fld w 22 18 = 0) (.fcvtFL (bv w 12 8) (bv w 17 13) (bv w 31 29))
  | 15 => zero (fld w 22 18 = 0) (.fcvtBF (bv w 12 8) (bv w 17 13) (bv w 31 29))
  | 16 => zero (fld w 22 18 = 0 ∧ fld w 31 29 = 0) (.fcvtFB (bv w 12 8) (bv w 17 13))
  | 17 => zero (fld w 31 29 = 0) (.fsgnj (bv w 12 8) (bv w 17 13) (bv w 22 18))
  | 18 => zero (fld w 31 29 = 0) (.fsgnjn (bv w 12 8) (bv w 17 13) (bv w 22 18))
  | 19 => zero (fld w 31 29 = 0) (.fsgnjx (bv w 12 8) (bv w 17 13) (bv w 22 18))
  | _ => .error .reservedSelector

/-- Major 0x1E (Tables 1-3, 1-4). -/
noncomputable def decodeScalar1E (w : Nat) : Except DecodeError Instr :=
  match fld w 31 23 with
  | 0 => zero (fld w 22 8 = 0) .fenceSv
  | 1 => zero (fld w 22 8 = 0) .fenceVs
  | 2 => zero (fld w 22 8 = 0) .fenceAll
  | 3 => zero (fld w 22 8 = 0) .fenceX
  | 4 => zero (fld w 22 8 = 0) .ifence
  | 5 => zero (fld w 22 18 = 0) (.waitany (bv w 12 8) (bv w 17 13))
  | 6 => zero (fld w 22 18 = 0) (.waitall (bv w 12 8) (bv w 17 13))
  | 7 => zero (fld w 22 18 = 0) (.ffr (bv w 12 8) (bv w 17 13))
  | 8 => zero (fld w 12 8 = 0 ∧ fld w 22 18 = 0) (.tagclr (bv w 17 13))
  | 9 => zero (fld w 22 18 = 0) (.bar (bv w 12 8) (bv w 17 13))
  | 10 => zero (fld w 12 8 = 0) (.barexp (bv w 17 13) (bv w 22 18))
  | 11 => zero (fld w 22 18 = 0) (.bararr (bv w 12 8) (bv w 17 13))
  | 12 => .ok (.barwt (bv w 12 8) (bv w 17 13) (bv w 22 18))
  | 13 => zero (fld w 22 18 = 0) (.sigdec (bv w 12 8) (bv w 17 13))
  | 14 => .ok (.sigwait (bv w 12 8) (bv w 17 13) (bv w 22 18))
  | 15 => zero (fld w 22 8 = 0) .wfe
  | 16 => zero (fld w 22 8 = 0) .yield
  | _ => .error .reservedSelector

/-- Major 0x1F (Tables 1-3, 1-4). -/
noncomputable def decodeScalar1F (w : Nat) : Except DecodeError Instr :=
  match fld w 31 30 with
  | 0 => zero (fld w 17 13 = 0) (.csrr (bv w 12 8) (bv w 29 18))
  | 1 => .ok (.csrw (bv w 12 8) (bv w 17 13) (bv w 29 18))
  | 2 => .ok (.csrs (bv w 12 8) (bv w 17 13) (bv w 29 18))
  | 3 => .ok (.csrc (bv w 12 8) (bv w 17 13) (bv w 29 18))
  | _ => .error .reservedSelector

/-- Major 0x20 (Tables 1-3, 1-4). -/
noncomputable def decodeScalar20 (w : Nat) : Except DecodeError Instr :=
  match fld w 31 23 with
  | 0 => zero (fld w 12 8 = 0) (.trapi (bv w 22 13))
  | 1 => zero (fld w 22 8 = 0) .eret
  | 2 => zero (fld w 22 8 = 0) .brk
  | 3 => zero (fld w 22 8 = 0) .halt
  | 4 => zero (fld w 12 8 = 0) (.tlbinv (bv w 17 13) (bv w 22 18))
  | _ => .error .reservedSelector

/-- Major 0x22 (Tables 1-3, 1-4). -/
noncomputable def decodeScalar22 (w : Nat) : Except DecodeError Instr :=
  match fld w 31 23 with
  | 0 => zero (fld w 22 18 = 0) (.vsetl (bv w 12 8) (bv w 17 13))
  | _ => .error .reservedSelector

/-- Major 0x35 (Tables 1-3, 1-4). -/
noncomputable def decodeScalar35 (w : Nat) : Except DecodeError Instr :=
  match fld w 31 23 with
  | 0 => zero (fld w 22 18 = 0) (.hold (bv w 12 8) (bv w 17 13))
  | 1 => zero (fld w 22 18 = 0) (.hrel (bv w 12 8) (bv w 17 13))
  | 2 => zero (fld w 22 18 = 0) (.hqry (bv w 12 8) (bv w 17 13))
  | _ => .error .reservedSelector

/-- Major 0x37 (Tables 1-3, 1-4). -/
noncomputable def decodeScalar37 (w : Nat) : Except DecodeError Instr :=
  match fld w 31 23 with
  | 0 => zero (fld w 22 18 = 0) (.lease (bv w 12 8) (bv w 17 13))
  | 1 => zero (fld w 22 18 = 0) (.lrenew (bv w 12 8) (bv w 17 13))
  | 2 => zero (fld w 22 18 = 0) (.lrel (bv w 12 8) (bv w 17 13))
  | 3 => zero (fld w 22 18 = 0) (.lqry (bv w 12 8) (bv w 17 13))
  | 4 => .ok (.cbdef (bv w 12 8) (bv w 17 13) (bv w 22 18))
  | 5 => zero (fld w 12 8 = 0) (.cbadv (bv w 17 13) (bv w 22 18))
  | 6 => zero (fld w 22 18 = 0) (.cbtake (bv w 12 8) (bv w 17 13))
  | 7 => zero (fld w 12 8 = 0) (.cbret (bv w 17 13) (bv w 22 18))
  | 8 => .ok (.eop (bv w 12 8) (bv w 17 13) (bv w 22 18))
  | _ => .error .reservedSelector

/-- Major 0x39 (Tables 1-3, 1-4). -/
noncomputable def decodeScalar39 (w : Nat) : Except DecodeError Instr :=
  match fld w 31 29 with
  | 1 => zero (fld w 28 8 = 0) .mstop
  | 4 => zero (fld w 13 13 = 0 ∧ fld w 28 20 = 0) (.mlah (bv w 12 8) (bv w 19 14))
  | 5 => zero (fld w 19 13 = 0 ∧ fld w 28 25 = 0) (.mwaitd (bv w 12 8) (bv w 24 20))
  | _ => .error .reservedSelector

/-- Major 0x3B (Tables 1-3, 1-4). -/
noncomputable def decodeScalar3B (w : Nat) : Except DecodeError Instr :=
  match fld w 31 23 with
  | 0 => .ok (.launch (bv w 12 8) (bv w 17 13) (bv w 22 18))
  | 1 => zero (fld w 22 18 = 0) (.pktget (bv w 12 8) (bv w 17 13))
  | 2 => .ok (.pktemit (bv w 12 8) (bv w 17 13) (bv w 22 18))
  | 3 => zero (fld w 12 8 = 0 ∧ fld w 22 18 = 0) (.pktdone (bv w 17 13))
  | _ => .error .reservedSelector

/-- Major 0x0B: LIX and LIXH (R310). -/
noncomputable def decodeScalar0B (w e : Nat) : Except DecodeError Instr :=
  if fld w 31 28 = 0 then zero (fld w 27 13 = 0) (.lix (bv w 12 8) (bv e 31 0))
  else if fld w 31 28 = 1 then zero (fld w 27 13 = 0) (.lixh (bv w 12 8) (bv e 31 0))
  else .error .reservedSelector


/-- Major 0x1D: the scalar fused multiply-adds (R315). -/
noncomputable def decodeScalar1D (w e : Nat) : Except DecodeError Instr :=
  if fld w 31 23 ≠ 0 ∨ fld e 31 10 ≠ 0 then .error .nonzeroField
  else if fld e 9 8 = 0 then .ok (.fmaddF (bv w 12 8) (bv w 17 13) (bv w 22 18) (bv e 4 0) (bv e 7 5))
  else if fld e 9 8 = 1 then .ok (.fmsubF (bv w 12 8) (bv w 17 13) (bv w 22 18) (bv e 4 0) (bv e 7 5))
  else if fld e 9 8 = 2 then .ok (.fnmaddF (bv w 12 8) (bv w 17 13) (bv w 22 18) (bv e 4 0) (bv e 7 5))
  else .ok (.fnmsubF (bv w 12 8) (bv w 17 13) (bv w 22 18) (bv e 4 0) (bv e 7 5))


/-- Major 0x21: VCFG (R159). -/
noncomputable def decodeScalar21 (w e : Nat) : Except DecodeError Instr :=
  if fld w 31 28 = 0 then
    zero (fld w 27 13 = 0 ∧ fld e 31 12 = 0)
      (.vcfg (bv w 12 8) (bv e 1 0) (bv e 3 2) (bv e 8 4) (bv e 10 9) (bv e 11 11))
  else .error .reservedSelector


/-- The scalar-stream instruction of a first word and its E word, before its operands are checked. -/
noncomputable def decodeScalarRaw (w e : Nat) : Except DecodeError Instr :=
  match fld w 7 2 with
  | 1 => decodeScalar01 w
  | 2 => decodeScalar02 w
  | 3 => decodeScalar03 w
  | 4 => decodeScalar04 w
  | 5 => decodeScalar05 w
  | 6 => decodeScalar06 w
  | 7 => decodeScalar07 w
  | 8 => decodeScalar08 w
  | 9 => decodeScalar09 w
  | 10 => decodeScalar0A w
  | 12 => decodeScalar0C w
  | 13 => decodeScalar0D w
  | 14 => decodeScalar0E w
  | 15 => decodeScalar0F w
  | 16 => decodeScalar10 w
  | 17 => decodeScalar11 w
  | 18 => decodeScalar12 w
  | 19 => decodeScalar13 w
  | 20 => decodeScalar14 w
  | 21 => decodeScalar15 w
  | 22 => decodeScalar16 w
  | 23 => decodeScalar17 w
  | 24 => decodeScalar18 w
  | 25 => decodeScalar19 w
  | 26 => decodeScalar1A w
  | 27 => decodeScalar1B w
  | 28 => decodeScalar1C w
  | 30 => decodeScalar1E w
  | 31 => decodeScalar1F w
  | 32 => decodeScalar20 w
  | 34 => decodeScalar22 w
  | 53 => decodeScalar35 w
  | 55 => decodeScalar37 w
  | 57 => decodeScalar39 w
  | 59 => decodeScalar3B w
  | 0x0B => decodeScalar0B w e
  | 0x1D => decodeScalar1D w e
  | 0x21 => decodeScalar21 w e
  | _ => .error .reservedMajor

/-- The scalar-stream instruction of a first word and its E word. -/
noncomputable def decodeScalar (w e : Nat) : Except DecodeError Instr :=
  match decodeScalarRaw w e with
  | .ok i => if i.wf then .ok i else .error .illegalOperand
  | .error r => .error r

/-! ### Instructions -/

/-- The instruction that posts a queued operation. -/
noncomputable def QOp.toInstr : QOp → Instr
  | .bin .fadd d a (.vec b) m => .vfaddVV d a b m
  | .bin .fsub d a (.vec b) m => .vfsubVV d a b m
  | .bin .fmul d a (.vec b) m => .vfmulVV d a b m
  | .bin .fdiv d a (.vec b) m => .vfdivVV d a b m
  | .bin .fmin d a (.vec b) m => .vfminVV d a b m
  | .bin .fmax d a (.vec b) m => .vfmaxVV d a b m
  | .bin .fsgnj d a (.vec b) m => .vfsgnjVV d a b m
  | .bin .fsgnjn d a (.vec b) m => .vfsgnjnVV d a b m
  | .bin .fadd d a (.sc x) m => .vfaddVX d a x m
  | .bin .fsub d a (.sc x) m => .vfsubVX d a x m
  | .bin .fmul d a (.sc x) m => .vfmulVX d a x m
  | .bin .fdiv d a (.sc x) m => .vfdivVX d a x m
  | .bin .fmin d a (.sc x) m => .vfminVX d a x m
  | .bin .fmax d a (.sc x) m => .vfmaxVX d a x m
  | .bin .fsgnj d a (.sc x) m => .vfsgnjVX d a x m
  | .bin .fsgnjn d a (.sc x) m => .vfsgnjnVX d a x m
  | .fma .fma d a (.vec b) m => .vfmaVV d a b m
  | .fma .fms d a (.vec b) m => .vfmsVV d a b m
  | .fma .fnma d a (.vec b) m => .vfnmaVV d a b m
  | .fma .fnms d a (.vec b) m => .vfnmsVV d a b m
  | .cmp .fceq d a (.vec b) m => .vfceqVV d a b m
  | .cmp .fclt d a (.vec b) m => .vfcltVV d a b m
  | .cmp .fcle d a (.vec b) m => .vfcleVV d a b m
  | .cmp .fcne d a (.vec b) m => .vfcneVV d a b m
  | .fma .fma d a (.sc x) m => .vfmaVX d a x m
  | .fma .fms d a (.sc x) m => .vfmsVX d a x m
  | .fma .fnma d a (.sc x) m => .vfnmaVX d a x m
  | .fma .fnms d a (.sc x) m => .vfnmsVX d a x m
  | .cmp .fceq d a (.sc x) m => .vfceqVX d a x m
  | .cmp .fclt d a (.sc x) m => .vfcltVX d a x m
  | .cmp .fcle d a (.sc x) m => .vfcleVX d a x m
  | .cmp .fcne d a (.sc x) m => .vfcneVX d a x m
  | .un .sqrt d a r m => .vfsqrt d a r m
  | .un .recip d a _ m => .vfrec d a m
  | .un .rsq d a _ m => .vfrsq d a m
  | .un .expf d a _ m => .vfexpf d a m
  | .un .rint d a r m => .vfrint d a r m
  | .un .cls d a _ m => .vfclass d a m
  | .un .abs d a _ m => .vfabs d a m
  | .un .neg d a _ m => .vfneg d a m
  | .un .cvtWF d a r m => .vfcvtWF d a r m
  | .un .cvtFW d a r m => .vfcvtFW d a r m
  | .un .cvtBF d a r m => .vfcvtBF d a r m
  | .un .cvtFB d a _ m => .vfcvtFB d a m
  | .un .getexp d a _ m => .vfgetexp d a m
  | .un .getmant d a _ m => .vfgetmant d a m
  | .bin .fscale d a (.vec b) m => .vfscaleVV d a b m
  | .bin .fscale d a (.sc x) m => .vfscaleVX d a x m
  | .bin .add d a (.vec b) m => .vaddVV d a b m
  | .bin .sub d a (.vec b) m => .vsubVV d a b m
  | .bin .mul d a (.vec b) m => .vmulVV d a b m
  | .bin .and d a (.vec b) m => .vandVV d a b m
  | .bin .or d a (.vec b) m => .vorVV d a b m
  | .bin .xor d a (.vec b) m => .vxorVV d a b m
  | .bin .min d a (.vec b) m => .vminVV d a b m
  | .bin .max d a (.vec b) m => .vmaxVV d a b m
  | .bin .add d a (.sc x) m => .vaddVX d a x m
  | .bin .sub d a (.sc x) m => .vsubVX d a x m
  | .bin .mul d a (.sc x) m => .vmulVX d a x m
  | .bin .and d a (.sc x) m => .vandVX d a x m
  | .bin .or d a (.sc x) m => .vorVX d a x m
  | .bin .xor d a (.sc x) m => .vxorVX d a x m
  | .bin .min d a (.sc x) m => .vminVX d a x m
  | .bin .max d a (.sc x) m => .vmaxVX d a x m
  | .bin .sll d a (.vec b) m => .vsllVV d a b m
  | .bin .srl d a (.vec b) m => .vsrlVV d a b m
  | .bin .sra d a (.vec b) m => .vsraVV d a b m
  | .bin .minu d a (.vec b) m => .vminuVV d a b m
  | .bin .maxu d a (.vec b) m => .vmaxuVV d a b m
  | .bin .mulh d a (.vec b) m => .vmulhVV d a b m
  | .cmp .ceq d a (.vec b) m => .vceqVV d a b m
  | .cmp .clt d a (.vec b) m => .vcltVV d a b m
  | .bin .sll d a (.sc x) m => .vsllVX d a x m
  | .bin .srl d a (.sc x) m => .vsrlVX d a x m
  | .bin .sra d a (.sc x) m => .vsraVX d a x m
  | .bin .minu d a (.sc x) m => .vminuVX d a x m
  | .bin .maxu d a (.sc x) m => .vmaxuVX d a x m
  | .bin .mulh d a (.sc x) m => .vmulhVX d a x m
  | .cmp .ceq d a (.sc x) m => .vceqVX d a x m
  | .cmp .clt d a (.sc x) m => .vcltVX d a x m
  | .mask2 .and d a b m => .vmand d a b m
  | .mask2 .or d a b m => .vmor d a b m
  | .mask2 .xor d a b m => .vmxor d a b m
  | .mask2 .andn d a b m => .vmandn d a b m
  | .maskNot d a m => .vmnot d a m
  | .maskSet d m => .vmset d m
  | .maskPopc d a m => .vmpopc d a m
  | .maskFirst d a m => .vmfirst d a m
  | .slideUp d a x m => .vslideup d a x m
  | .slideDn d a x m => .vslidedn d a x m
  | .gather d a b m => .vgather d a b m
  | .compress d a m => .vcompress d a m
  | .expand d a m => .vexpand d a m
  | .merge d a b m => .vmerge d a b m
  | .bcast d x m => .vbcast d x m
  | .extract d a x => .vextract d a x
  | .red .fsum d a b m => .vfredsum d a b m
  | .red .fmax d a b m => .vfredmax d a b m
  | .red .fmin d a b m => .vfredmin d a b m
  | .red .sum d a b m => .vredsum d a b m
  | .red .max d a b m => .vredmax d a b m
  | .red .min d a b m => .vredmin d a b m
  | .red .fosum d a b m => .vfredosum d a b m
  | .seq m d start inc => .vseq m d start inc
  | .fbcasti m d imm => .vfbcasti m d imm
  | .bcasti m d imm => .vbcasti m d imm
  | .rand m x d sid kind => .vrand m x d sid kind
  | .ld d s m => .vld d s m
  | .ldx d b s m => .vldx d b s m
  | .st d s m => .vst d s m
  | .stx d b s m => .vstx d b s m
  | .sld d s m => .vsld d s m
  | .ldSeq d s m => .vldSeq d s m
  | .stSeq d s m => .vstSeq d s m
  | .stn d s m => .vstn d s m
  | .amo .addF d b s m => .vamoaddF d b s m
  | .amo .addW d b s m => .vamoaddW d b s m
  | .amo .minF d b s m => .vamominF d b s m
  | .amo .maxF d b s m => .vamomaxF d b s m
  | .amo .minW d b s m => .vamominW d b s m
  | .amo .maxW d b s m => .vamomaxW d b s m
  | .stp d t s m => .vstp d t s m
  | .sdesc b s => .sdesc b s
  | .sbase b s => .sbase b s
  | .spos d s => .spos d s
  | .sseek b s => .sseek b s
  | .srel s => .srel s
  | .ssave b s => .ssave b s
  | .copy d a b src dst tag fl => .copy d a b src dst tag fl
  | .copyf d a b dst tag fl => .copyf d a b dst tag fl
  | .copystat d tag => .copystat d tag
  | .mldb false a b fmt n k slot => .mldb a b fmt n k slot
  | .mldb true a b fmt n k slot => .mldbFf a b fmt n k slot
  | .mma a d mm n k acc slot => .mma a d mm n k acc slot
  | .mprog d slot => .mprog d slot
  | .msync => .msync
  | .mchk d clr => .mchk d clr
  | .mrun d x => .mrun d x
  | .mfeed a x => .mfeed a x
  | .mdrain d x => .mdrain d x
  | .send a x => .send a x
  | .recv d v x => .recv d v x
  | .rsig x => .rsig x

/-- How many bytes the length field makes the front end fetch (R7, R8). -/
def fetchLength (w : Nat) : Option Nat :=
  match w % 4 with
  | 1 => some 4
  | 2 => some 8
  | _ => none

/-- Whether a first word, with the bytes its length field demands, agrees with its major (R7, R9, R14). -/
def lengthOk (w : Nat) : Except DecodeError Unit :=
  match fetchLength w with
  | none => .error .badLength
  | some n =>
    if isReservedMajor (fld w 7 2) then .error .reservedMajor
    else if (n == 8) = isLongMajor (fld w 7 2) then .ok () else .error .lengthMismatch

/-- The instruction of a first word and, for length field 10, its E word (R7, R9, R14). -/
noncomputable def decodeWords (w e : Nat) : Except DecodeError Instr :=
  match lengthOk w with
  | .error r => .error r
  | .ok () =>
    if isQueuedWord w then
      match decodeQueued w e with
      | .ok q => .ok q.toInstr
      | .error r => .error r
    else decodeScalar w e

/-- The little-endian word of four bytes (R6). -/
def wordOfBytes (b0 b1 b2 b3 : Byte) : Nat :=
  b0.toNat + b1.toNat * 2 ^ 8 + b2.toNat * 2 ^ 16 + b3.toNat * 2 ^ 24

/-- The four little-endian bytes of a word. -/
def bytesOfWord (w : Nat) : List Byte := [bv w 7 0, bv w 15 8, bv w 23 16, bv w 31 24]

/-- A decoded instruction with the bytes after it. -/
def withRest (rest : List Byte) (r : Except DecodeError Instr) : Except DecodeError (Instr × List Byte) :=
  match r with
  | .ok i => .ok (i, rest)
  | .error e => .error e

/-- The instruction at the front of a byte string, with the bytes after it. -/
noncomputable def decode (bs : List Byte) : Except DecodeError (Instr × List Byte) :=
  match bs with
  | b0 :: b1 :: b2 :: b3 :: rest =>
    match fetchLength (wordOfBytes b0 b1 b2 b3) with
    | none => .error .badLength
    | some 4 => withRest rest (decodeWords (wordOfBytes b0 b1 b2 b3) 0)
    | some _ =>
      match rest with
      | c0 :: c1 :: c2 :: c3 :: rest' =>
        withRest rest' (decodeWords (wordOfBytes b0 b1 b2 b3) (wordOfBytes c0 c1 c2 c3))
      | _ => .error .truncated
  | _ => .error .truncated

/-! ### The encoder -/

/-- A word of a base and no field, one field, and so on; each field is a value and the place of its bit 0. -/
def wd0 (base : Nat) : Nat := base
def wd1 (base x i : Nat) : Nat := base + x * 2 ^ i
def wd2 (base x i y j : Nat) : Nat := wd1 base x i + y * 2 ^ j
def wd3 (base x i y j z k : Nat) : Nat := wd2 base x i y j + z * 2 ^ k
def wd4 (base x i y j z k u l : Nat) : Nat := wd3 base x i y j z k + u * 2 ^ l
def wd5 (base x i y j z k u l v m : Nat) : Nat := wd4 base x i y j z k u l + v * 2 ^ m

/-- The words of a queued operation, first word first (R11, R12, R15). -/
def QOp.words : QOp → List Nat
  | .bin .fadd d a (.vec b) m => [wd4 0x00000091 d.toNat 8 a.toNat 14 b.toNat 20 m.toNat 26]
  | .bin .fsub d a (.vec b) m => [wd4 0x20000091 d.toNat 8 a.toNat 14 b.toNat 20 m.toNat 26]
  | .bin .fmul d a (.vec b) m => [wd4 0x40000091 d.toNat 8 a.toNat 14 b.toNat 20 m.toNat 26]
  | .bin .fdiv d a (.vec b) m => [wd4 0x60000091 d.toNat 8 a.toNat 14 b.toNat 20 m.toNat 26]
  | .bin .fmin d a (.vec b) m => [wd4 0x80000091 d.toNat 8 a.toNat 14 b.toNat 20 m.toNat 26]
  | .bin .fmax d a (.vec b) m => [wd4 0xA0000091 d.toNat 8 a.toNat 14 b.toNat 20 m.toNat 26]
  | .bin .fsgnj d a (.vec b) m => [wd4 0xC0000091 d.toNat 8 a.toNat 14 b.toNat 20 m.toNat 26]
  | .bin .fsgnjn d a (.vec b) m => [wd4 0xE0000091 d.toNat 8 a.toNat 14 b.toNat 20 m.toNat 26]
  | .bin .fadd d a (.sc x) m => [wd4 0x00000095 d.toNat 8 a.toNat 14 x.toNat 20 m.toNat 26]
  | .bin .fsub d a (.sc x) m => [wd4 0x20000095 d.toNat 8 a.toNat 14 x.toNat 20 m.toNat 26]
  | .bin .fmul d a (.sc x) m => [wd4 0x40000095 d.toNat 8 a.toNat 14 x.toNat 20 m.toNat 26]
  | .bin .fdiv d a (.sc x) m => [wd4 0x60000095 d.toNat 8 a.toNat 14 x.toNat 20 m.toNat 26]
  | .bin .fmin d a (.sc x) m => [wd4 0x80000095 d.toNat 8 a.toNat 14 x.toNat 20 m.toNat 26]
  | .bin .fmax d a (.sc x) m => [wd4 0xA0000095 d.toNat 8 a.toNat 14 x.toNat 20 m.toNat 26]
  | .bin .fsgnj d a (.sc x) m => [wd4 0xC0000095 d.toNat 8 a.toNat 14 x.toNat 20 m.toNat 26]
  | .bin .fsgnjn d a (.sc x) m => [wd4 0xE0000095 d.toNat 8 a.toNat 14 x.toNat 20 m.toNat 26]
  | .fma .fma d a (.vec b) m => [wd4 0x00000099 d.toNat 8 a.toNat 14 b.toNat 20 m.toNat 26]
  | .fma .fms d a (.vec b) m => [wd4 0x20000099 d.toNat 8 a.toNat 14 b.toNat 20 m.toNat 26]
  | .fma .fnma d a (.vec b) m => [wd4 0x40000099 d.toNat 8 a.toNat 14 b.toNat 20 m.toNat 26]
  | .fma .fnms d a (.vec b) m => [wd4 0x60000099 d.toNat 8 a.toNat 14 b.toNat 20 m.toNat 26]
  | .cmp .fceq d a (.vec b) m => [wd4 0x80000099 d.toNat 8 a.toNat 14 b.toNat 20 m.toNat 26]
  | .cmp .fclt d a (.vec b) m => [wd4 0xA0000099 d.toNat 8 a.toNat 14 b.toNat 20 m.toNat 26]
  | .cmp .fcle d a (.vec b) m => [wd4 0xC0000099 d.toNat 8 a.toNat 14 b.toNat 20 m.toNat 26]
  | .cmp .fcne d a (.vec b) m => [wd4 0xE0000099 d.toNat 8 a.toNat 14 b.toNat 20 m.toNat 26]
  | .fma .fma d a (.sc x) m => [wd4 0x0000009D d.toNat 8 a.toNat 14 x.toNat 20 m.toNat 26]
  | .fma .fms d a (.sc x) m => [wd4 0x2000009D d.toNat 8 a.toNat 14 x.toNat 20 m.toNat 26]
  | .fma .fnma d a (.sc x) m => [wd4 0x4000009D d.toNat 8 a.toNat 14 x.toNat 20 m.toNat 26]
  | .fma .fnms d a (.sc x) m => [wd4 0x6000009D d.toNat 8 a.toNat 14 x.toNat 20 m.toNat 26]
  | .cmp .fceq d a (.sc x) m => [wd4 0x8000009D d.toNat 8 a.toNat 14 x.toNat 20 m.toNat 26]
  | .cmp .fclt d a (.sc x) m => [wd4 0xA000009D d.toNat 8 a.toNat 14 x.toNat 20 m.toNat 26]
  | .cmp .fcle d a (.sc x) m => [wd4 0xC000009D d.toNat 8 a.toNat 14 x.toNat 20 m.toNat 26]
  | .cmp .fcne d a (.sc x) m => [wd4 0xE000009D d.toNat 8 a.toNat 14 x.toNat 20 m.toNat 26]
  | .un .sqrt d a r m => [wd4 0x000000A1 d.toNat 8 a.toNat 14 r.toNat 29 m.toNat 26]
  | .un .recip d a _ m => [wd3 0x001000A1 d.toNat 8 a.toNat 14 m.toNat 26]
  | .un .rsq d a _ m => [wd3 0x002000A1 d.toNat 8 a.toNat 14 m.toNat 26]
  | .un .expf d a _ m => [wd3 0x003000A1 d.toNat 8 a.toNat 14 m.toNat 26]
  | .un .rint d a r m => [wd4 0x004000A1 d.toNat 8 a.toNat 14 r.toNat 29 m.toNat 26]
  | .un .cls d a _ m => [wd3 0x005000A1 d.toNat 8 a.toNat 14 m.toNat 26]
  | .un .abs d a _ m => [wd3 0x006000A1 d.toNat 8 a.toNat 14 m.toNat 26]
  | .un .neg d a _ m => [wd3 0x007000A1 d.toNat 8 a.toNat 14 m.toNat 26]
  | .un .cvtWF d a r m => [wd4 0x008000A1 d.toNat 8 a.toNat 14 r.toNat 29 m.toNat 26]
  | .un .cvtFW d a r m => [wd4 0x009000A1 d.toNat 8 a.toNat 14 r.toNat 29 m.toNat 26]
  | .un .cvtBF d a r m => [wd4 0x00A000A1 d.toNat 8 a.toNat 14 r.toNat 29 m.toNat 26]
  | .un .cvtFB d a _ m => [wd3 0x00B000A1 d.toNat 8 a.toNat 14 m.toNat 26]
  | .un .getexp d a _ m => [wd3 0x00C000A1 d.toNat 8 a.toNat 14 m.toNat 26]
  | .un .getmant d a _ m => [wd3 0x00D000A1 d.toNat 8 a.toNat 14 m.toNat 26]
  | .bin .fscale d a (.vec b) m => [wd4 0x000000A5 d.toNat 8 a.toNat 14 b.toNat 20 m.toNat 26]
  | .bin .fscale d a (.sc x) m => [wd4 0x200000A5 d.toNat 8 a.toNat 14 x.toNat 20 m.toNat 26]
  | .bin .add d a (.vec b) m => [wd4 0x000000A9 d.toNat 8 a.toNat 14 b.toNat 20 m.toNat 26]
  | .bin .sub d a (.vec b) m => [wd4 0x200000A9 d.toNat 8 a.toNat 14 b.toNat 20 m.toNat 26]
  | .bin .mul d a (.vec b) m => [wd4 0x400000A9 d.toNat 8 a.toNat 14 b.toNat 20 m.toNat 26]
  | .bin .and d a (.vec b) m => [wd4 0x600000A9 d.toNat 8 a.toNat 14 b.toNat 20 m.toNat 26]
  | .bin .or d a (.vec b) m => [wd4 0x800000A9 d.toNat 8 a.toNat 14 b.toNat 20 m.toNat 26]
  | .bin .xor d a (.vec b) m => [wd4 0xA00000A9 d.toNat 8 a.toNat 14 b.toNat 20 m.toNat 26]
  | .bin .min d a (.vec b) m => [wd4 0xC00000A9 d.toNat 8 a.toNat 14 b.toNat 20 m.toNat 26]
  | .bin .max d a (.vec b) m => [wd4 0xE00000A9 d.toNat 8 a.toNat 14 b.toNat 20 m.toNat 26]
  | .bin .add d a (.sc x) m => [wd4 0x000000AD d.toNat 8 a.toNat 14 x.toNat 20 m.toNat 26]
  | .bin .sub d a (.sc x) m => [wd4 0x200000AD d.toNat 8 a.toNat 14 x.toNat 20 m.toNat 26]
  | .bin .mul d a (.sc x) m => [wd4 0x400000AD d.toNat 8 a.toNat 14 x.toNat 20 m.toNat 26]
  | .bin .and d a (.sc x) m => [wd4 0x600000AD d.toNat 8 a.toNat 14 x.toNat 20 m.toNat 26]
  | .bin .or d a (.sc x) m => [wd4 0x800000AD d.toNat 8 a.toNat 14 x.toNat 20 m.toNat 26]
  | .bin .xor d a (.sc x) m => [wd4 0xA00000AD d.toNat 8 a.toNat 14 x.toNat 20 m.toNat 26]
  | .bin .min d a (.sc x) m => [wd4 0xC00000AD d.toNat 8 a.toNat 14 x.toNat 20 m.toNat 26]
  | .bin .max d a (.sc x) m => [wd4 0xE00000AD d.toNat 8 a.toNat 14 x.toNat 20 m.toNat 26]
  | .bin .sll d a (.vec b) m => [wd4 0x000000B1 d.toNat 8 a.toNat 14 b.toNat 20 m.toNat 26]
  | .bin .srl d a (.vec b) m => [wd4 0x200000B1 d.toNat 8 a.toNat 14 b.toNat 20 m.toNat 26]
  | .bin .sra d a (.vec b) m => [wd4 0x400000B1 d.toNat 8 a.toNat 14 b.toNat 20 m.toNat 26]
  | .bin .minu d a (.vec b) m => [wd4 0x600000B1 d.toNat 8 a.toNat 14 b.toNat 20 m.toNat 26]
  | .bin .maxu d a (.vec b) m => [wd4 0x800000B1 d.toNat 8 a.toNat 14 b.toNat 20 m.toNat 26]
  | .bin .mulh d a (.vec b) m => [wd4 0xA00000B1 d.toNat 8 a.toNat 14 b.toNat 20 m.toNat 26]
  | .cmp .ceq d a (.vec b) m => [wd4 0xC00000B1 d.toNat 8 a.toNat 14 b.toNat 20 m.toNat 26]
  | .cmp .clt d a (.vec b) m => [wd4 0xE00000B1 d.toNat 8 a.toNat 14 b.toNat 20 m.toNat 26]
  | .bin .sll d a (.sc x) m => [wd4 0x000000B5 d.toNat 8 a.toNat 14 x.toNat 20 m.toNat 26]
  | .bin .srl d a (.sc x) m => [wd4 0x200000B5 d.toNat 8 a.toNat 14 x.toNat 20 m.toNat 26]
  | .bin .sra d a (.sc x) m => [wd4 0x400000B5 d.toNat 8 a.toNat 14 x.toNat 20 m.toNat 26]
  | .bin .minu d a (.sc x) m => [wd4 0x600000B5 d.toNat 8 a.toNat 14 x.toNat 20 m.toNat 26]
  | .bin .maxu d a (.sc x) m => [wd4 0x800000B5 d.toNat 8 a.toNat 14 x.toNat 20 m.toNat 26]
  | .bin .mulh d a (.sc x) m => [wd4 0xA00000B5 d.toNat 8 a.toNat 14 x.toNat 20 m.toNat 26]
  | .cmp .ceq d a (.sc x) m => [wd4 0xC00000B5 d.toNat 8 a.toNat 14 x.toNat 20 m.toNat 26]
  | .cmp .clt d a (.sc x) m => [wd4 0xE00000B5 d.toNat 8 a.toNat 14 x.toNat 20 m.toNat 26]
  | .mask2 .and d a b m => [wd4 0x000000B9 d.toNat 8 a.toNat 14 b.toNat 20 m.toNat 26]
  | .mask2 .or d a b m => [wd4 0x200000B9 d.toNat 8 a.toNat 14 b.toNat 20 m.toNat 26]
  | .mask2 .xor d a b m => [wd4 0x400000B9 d.toNat 8 a.toNat 14 b.toNat 20 m.toNat 26]
  | .mask2 .andn d a b m => [wd4 0x600000B9 d.toNat 8 a.toNat 14 b.toNat 20 m.toNat 26]
  | .maskNot d a m => [wd3 0x800000B9 d.toNat 8 a.toNat 14 m.toNat 26]
  | .maskSet d m => [wd2 0xA00000B9 d.toNat 8 m.toNat 26]
  | .maskPopc d a m => [wd3 0xC00000B9 d.toNat 8 a.toNat 14 m.toNat 26]
  | .maskFirst d a m => [wd3 0xE00000B9 d.toNat 8 a.toNat 14 m.toNat 26]
  | .slideUp d a x m => [wd4 0x000000BD d.toNat 8 a.toNat 14 x.toNat 20 m.toNat 26]
  | .slideDn d a x m => [wd4 0x200000BD d.toNat 8 a.toNat 14 x.toNat 20 m.toNat 26]
  | .gather d a b m => [wd4 0x400000BD d.toNat 8 a.toNat 14 b.toNat 20 m.toNat 26]
  | .compress d a m => [wd3 0x600000BD d.toNat 8 a.toNat 14 m.toNat 26]
  | .expand d a m => [wd3 0x800000BD d.toNat 8 a.toNat 14 m.toNat 26]
  | .merge d a b m => [wd4 0xA00000BD d.toNat 8 a.toNat 14 b.toNat 20 m.toNat 26]
  | .bcast d x m => [wd3 0xC00000BD d.toNat 8 x.toNat 20 m.toNat 26]
  | .extract d a x => [wd3 0xE00000BD d.toNat 8 a.toNat 14 x.toNat 20]
  | .red .fsum d a b m => [wd4 0x000000C1 d.toNat 8 a.toNat 14 b.toNat 20 m.toNat 26]
  | .red .fmax d a b m => [wd4 0x200000C1 d.toNat 8 a.toNat 14 b.toNat 20 m.toNat 26]
  | .red .fmin d a b m => [wd4 0x400000C1 d.toNat 8 a.toNat 14 b.toNat 20 m.toNat 26]
  | .red .sum d a b m => [wd4 0x600000C1 d.toNat 8 a.toNat 14 b.toNat 20 m.toNat 26]
  | .red .max d a b m => [wd4 0x800000C1 d.toNat 8 a.toNat 14 b.toNat 20 m.toNat 26]
  | .red .min d a b m => [wd4 0xA00000C1 d.toNat 8 a.toNat 14 b.toNat 20 m.toNat 26]
  | .red .fosum d a b m => [wd4 0xC00000C1 d.toNat 8 a.toNat 14 b.toNat 20 m.toNat 26]
  | .seq m d start inc => [wd2 0x000000C6 m.toNat 25 d.toNat 8, wd2 0x00000000 start.toNat 0 inc.toNat 16]
  | .fbcasti m d imm => [wd2 0x100000C6 m.toNat 25 d.toNat 8, wd1 0x00000000 imm.toNat 0]
  | .bcasti m d imm => [wd2 0x200000C6 m.toNat 25 d.toNat 8, wd1 0x00000000 imm.toNat 0]
  | .rand m x d sid kind => [wd3 0x300000C6 m.toNat 25 x.toNat 20 d.toNat 8, wd2 0x00000000 sid.toNat 0 kind.toNat 16]
  | .ld d s m => [wd3 0x000000C9 d.toNat 8 s.toNat 14 m.toNat 26]
  | .ldx d b s m => [wd4 0x200000C9 d.toNat 8 b.toNat 20 s.toNat 14 m.toNat 26]
  | .st d s m => [wd3 0x400000C9 d.toNat 8 s.toNat 14 m.toNat 26]
  | .stx d b s m => [wd4 0x600000C9 d.toNat 8 b.toNat 20 s.toNat 14 m.toNat 26]
  | .sld d s m => [wd3 0x800000C9 d.toNat 8 s.toNat 14 m.toNat 26]
  | .ldSeq d s m => [wd3 0xA00000C9 d.toNat 8 s.toNat 14 m.toNat 26]
  | .stSeq d s m => [wd3 0xC00000C9 d.toNat 8 s.toNat 14 m.toNat 26]
  | .stn d s m => [wd3 0xE00000C9 d.toNat 8 s.toNat 14 m.toNat 26]
  | .amo .addF d b s m => [wd4 0x000000CD d.toNat 8 b.toNat 20 s.toNat 14 m.toNat 26]
  | .amo .addW d b s m => [wd4 0x200000CD d.toNat 8 b.toNat 20 s.toNat 14 m.toNat 26]
  | .amo .minF d b s m => [wd4 0x400000CD d.toNat 8 b.toNat 20 s.toNat 14 m.toNat 26]
  | .amo .maxF d b s m => [wd4 0x600000CD d.toNat 8 b.toNat 20 s.toNat 14 m.toNat 26]
  | .amo .minW d b s m => [wd4 0x800000CD d.toNat 8 b.toNat 20 s.toNat 14 m.toNat 26]
  | .amo .maxW d b s m => [wd4 0xA00000CD d.toNat 8 b.toNat 20 s.toNat 14 m.toNat 26]
  | .stp d t s m => [wd4 0xC00000CD d.toNat 8 t.toNat 20 s.toNat 14 m.toNat 26]
  | .sdesc b s => [wd2 0x000000D1 b.toNat 18 s.toNat 14]
  | .sbase b s => [wd2 0x008000D1 b.toNat 18 s.toNat 14]
  | .spos d s => [wd2 0x010000D1 d.toNat 8 s.toNat 14]
  | .sseek b s => [wd2 0x018000D1 b.toNat 18 s.toNat 14]
  | .srel s => [wd1 0x020000D1 s.toNat 14]
  | .ssave b s => [wd2 0x028000D1 b.toNat 18 s.toNat 14]
  | .copy d a b src dst tag fl => [wd3 0x000000DA b.toNat 18 a.toNat 13 d.toNat 8, wd4 0x00000000 src.toNat 0 dst.toNat 4 tag.toNat 8 fl.toNat 15]
  | .copyf d a b dst tag fl => [wd3 0x100000DA b.toNat 18 a.toNat 13 d.toNat 8, wd3 0x00000000 dst.toNat 4 tag.toNat 8 fl.toNat 15]
  | .copystat d tag => [wd1 0x200000DA d.toNat 8, wd1 0x00000000 tag.toNat 8]
  | .mldb false a b fmt n k slot => [wd2 0x000000E2 b.toNat 18 a.toNat 13, wd4 0x00000000 fmt.toNat 0 n.toNat 8 k.toNat 16 slot.toNat 26]
  | .mldb true a b fmt n k slot => [wd2 0x100000E2 b.toNat 18 a.toNat 13, wd4 0x00000000 fmt.toNat 0 n.toNat 8 k.toNat 16 slot.toNat 26]
  | .mma a d mm n k acc slot => [wd2 0x200000E2 a.toNat 14 d.toNat 8, wd5 0x00000000 mm.toNat 0 n.toNat 8 k.toNat 16 acc.toNat 25 slot.toNat 26]
  | .mprog d slot => [wd1 0x300000E2 d.toNat 8, wd1 0x00000000 slot.toNat 26]
  | .msync => [wd0 0x400000E2, wd0 0x00000000]
  | .mchk d clr => [wd1 0x500000E2 d.toNat 8, wd1 0x00000000 clr.toNat 0]
  | .mrun d x => [wd2 0x000000E5 d.toNat 8 x.toNat 20]
  | .mfeed a x => [wd2 0x400000E5 a.toNat 14 x.toNat 20]
  | .mdrain d x => [wd2 0x600000E5 d.toNat 8 x.toNat 20]
  | .send a x => [wd2 0x000000E9 a.toNat 14 x.toNat 20]
  | .recv d v x => [wd3 0x200000E9 d.toNat 14 v.toNat 8 x.toNat 20]
  | .rsig x => [wd1 0x400000E9 x.toNat 20]

/-- The words of an instruction, first word first; a row without an encoding has none (R11, R12, R15). -/
def encodeWords : Instr → List Nat
  | .add d a b => [wd3 0x00000005 d.toNat 8 a.toNat 13 b.toNat 18]
  | .sub d a b => [wd3 0x00800005 d.toNat 8 a.toNat 13 b.toNat 18]
  | .and d a b => [wd3 0x01000005 d.toNat 8 a.toNat 13 b.toNat 18]
  | .or d a b => [wd3 0x01800005 d.toNat 8 a.toNat 13 b.toNat 18]
  | .xor d a b => [wd3 0x02000005 d.toNat 8 a.toNat 13 b.toNat 18]
  | .andn d a b => [wd3 0x02800005 d.toNat 8 a.toNat 13 b.toNat 18]
  | .orn d a b => [wd3 0x03000005 d.toNat 8 a.toNat 13 b.toNat 18]
  | .sll d a b => [wd3 0x03800005 d.toNat 8 a.toNat 13 b.toNat 18]
  | .srl d a b => [wd3 0x04000005 d.toNat 8 a.toNat 13 b.toNat 18]
  | .sra d a b => [wd3 0x04800005 d.toNat 8 a.toNat 13 b.toNat 18]
  | .rol d a b => [wd3 0x05000005 d.toNat 8 a.toNat 13 b.toNat 18]
  | .ror d a b => [wd3 0x05800005 d.toNat 8 a.toNat 13 b.toNat 18]
  | .slt d a b => [wd3 0x06000005 d.toNat 8 a.toNat 13 b.toNat 18]
  | .sltu d a b => [wd3 0x06800005 d.toNat 8 a.toNat 13 b.toNat 18]
  | .min d a b => [wd3 0x07000005 d.toNat 8 a.toNat 13 b.toNat 18]
  | .max d a b => [wd3 0x07800005 d.toNat 8 a.toNat 13 b.toNat 18]
  | .minu d a b => [wd3 0x08000005 d.toNat 8 a.toNat 13 b.toNat 18]
  | .maxu d a b => [wd3 0x08800005 d.toNat 8 a.toNat 13 b.toNat 18]
  | .mul d a b => [wd3 0x09000005 d.toNat 8 a.toNat 13 b.toNat 18]
  | .mulh d a b => [wd3 0x09800005 d.toNat 8 a.toNat 13 b.toNat 18]
  | .mulhu d a b => [wd3 0x0A000005 d.toNat 8 a.toNat 13 b.toNat 18]
  | .div d a b => [wd3 0x0A800005 d.toNat 8 a.toNat 13 b.toNat 18]
  | .divu d a b => [wd3 0x0B000005 d.toNat 8 a.toNat 13 b.toNat 18]
  | .rem d a b => [wd3 0x0B800005 d.toNat 8 a.toNat 13 b.toNat 18]
  | .remu d a b => [wd3 0x0C000005 d.toNat 8 a.toNat 13 b.toNat 18]
  | .clz d a => [wd2 0x0C800005 d.toNat 8 a.toNat 13]
  | .ctz d a => [wd2 0x0D000005 d.toNat 8 a.toNat 13]
  | .popc d a => [wd2 0x0D800005 d.toNat 8 a.toNat 13]
  | .sexb d a => [wd2 0x0E000005 d.toNat 8 a.toNat 13]
  | .sexh d a => [wd2 0x0E800005 d.toNat 8 a.toNat 13]
  | .sexw d a => [wd2 0x0F000005 d.toNat 8 a.toNat 13]
  | .zexw d a => [wd2 0x0F800005 d.toNat 8 a.toNat 13]
  | .addi d a i => [wd3 0x00000009 d.toNat 8 a.toNat 13 i.toNat 18]
  | .andi d a i => [wd3 0x0000000D d.toNat 8 a.toNat 13 i.toNat 18]
  | .ori d a i => [wd3 0x00000011 d.toNat 8 a.toNat 13 i.toNat 18]
  | .xori d a i => [wd3 0x00000015 d.toNat 8 a.toNat 13 i.toNat 18]
  | .slti d a i => [wd3 0x00000019 d.toNat 8 a.toNat 13 i.toNat 18]
  | .sltiu d a i => [wd3 0x0000001D d.toNat 8 a.toNat 13 i.toNat 18]
  | .slli d a h => [wd3 0x00000021 d.toNat 8 a.toNat 13 h.toNat 18]
  | .srli d a h => [wd3 0x01000021 d.toNat 8 a.toNat 13 h.toNat 18]
  | .srai d a h => [wd3 0x02000021 d.toNat 8 a.toNat 13 h.toNat 18]
  | .rori d a h => [wd3 0x03000021 d.toNat 8 a.toNat 13 h.toNat 18]
  | .lui d i => [wd2 0x00000025 d.toNat 8 i.toNat 13]
  | .addpc d i => [wd2 0x00000029 d.toNat 8 i.toNat 13]
  | .lix d imm => [wd1 0x0000002E d.toNat 8, wd1 0x00000000 imm.toNat 0]
  | .lixh d imm => [wd1 0x1000002E d.toNat 8, wd1 0x00000000 imm.toNat 0]
  | .lb d a i => [wd3 0x00000031 d.toNat 8 a.toNat 13 i.toNat 18]
  | .lh d a i => [wd3 0x00000035 d.toNat 8 a.toNat 13 i.toNat 18]
  | .lw d a i => [wd3 0x00000039 d.toNat 8 a.toNat 13 i.toNat 18]
  | .ld d a i => [wd3 0x0000003D d.toNat 8 a.toNat 13 i.toNat 18]
  | .lbu d a i => [wd3 0x00000041 d.toNat 8 a.toNat 13 i.toNat 18]
  | .lhu d a i => [wd3 0x00000045 d.toNat 8 a.toNat 13 i.toNat 18]
  | .lwu d a i => [wd3 0x00000049 d.toNat 8 a.toNat 13 i.toNat 18]
  | .sb a b i => [wd3 0x0000004D a.toNat 13 b.toNat 8 i.toNat 18]
  | .sh a b i => [wd3 0x00000051 a.toNat 13 b.toNat 8 i.toNat 18]
  | .sw a b i => [wd3 0x00000055 a.toNat 13 b.toNat 8 i.toNat 18]
  | .sd a b i => [wd3 0x00000059 a.toNat 13 b.toNat 8 i.toNat 18]
  | .beq a b o => [wd3 0x0000005D a.toNat 8 b.toNat 13 o.toNat 21]
  | .bne a b o => [wd3 0x0004005D a.toNat 8 b.toNat 13 o.toNat 21]
  | .blt a b o => [wd3 0x0008005D a.toNat 8 b.toNat 13 o.toNat 21]
  | .bge a b o => [wd3 0x000C005D a.toNat 8 b.toNat 13 o.toNat 21]
  | .bltu a b o => [wd3 0x0010005D a.toNat 8 b.toNat 13 o.toNat 21]
  | .bgeu a b o => [wd3 0x0014005D a.toNat 8 b.toNat 13 o.toNat 21]
  | .j o => [wd1 0x00000061 o.toNat 8]
  | .jl o => [wd1 0x00000065 o.toNat 8]
  | .jlr d a i => [wd3 0x00000069 d.toNat 8 a.toNat 13 i.toNat 18]
  | .amoswap d a b w => [wd4 0x0000006D d.toNat 8 a.toNat 13 b.toNat 18 w.toNat 31]
  | .amoadd d a b w => [wd4 0x0080006D d.toNat 8 a.toNat 13 b.toNat 18 w.toNat 31]
  | .amoand d a b w => [wd4 0x0100006D d.toNat 8 a.toNat 13 b.toNat 18 w.toNat 31]
  | .amoor d a b w => [wd4 0x0180006D d.toNat 8 a.toNat 13 b.toNat 18 w.toNat 31]
  | .amoxor d a b w => [wd4 0x0200006D d.toNat 8 a.toNat 13 b.toNat 18 w.toNat 31]
  | .amomin d a b w => [wd4 0x0280006D d.toNat 8 a.toNat 13 b.toNat 18 w.toNat 31]
  | .amomax d a b w => [wd4 0x0300006D d.toNat 8 a.toNat 13 b.toNat 18 w.toNat 31]
  | .amominu d a b w => [wd4 0x0380006D d.toNat 8 a.toNat 13 b.toNat 18 w.toNat 31]
  | .amomaxu d a b w => [wd4 0x0400006D d.toNat 8 a.toNat 13 b.toNat 18 w.toNat 31]
  | .amocas d a b w => [wd4 0x0480006D d.toNat 8 a.toNat 13 b.toNat 18 w.toNat 31]
  | .amofadd d a b => [wd3 0x0500006D d.toNat 8 a.toNat 13 b.toNat 18]
  | .faddF d a b r => [wd4 0x00000071 d.toNat 8 a.toNat 13 b.toNat 18 r.toNat 29]
  | .fsubF d a b r => [wd4 0x00800071 d.toNat 8 a.toNat 13 b.toNat 18 r.toNat 29]
  | .fmulF d a b r => [wd4 0x01000071 d.toNat 8 a.toNat 13 b.toNat 18 r.toNat 29]
  | .fdivF d a b r => [wd4 0x01800071 d.toNat 8 a.toNat 13 b.toNat 18 r.toNat 29]
  | .fsqrtF d a r => [wd3 0x02000071 d.toNat 8 a.toNat 13 r.toNat 29]
  | .fminF d a b => [wd3 0x02800071 d.toNat 8 a.toNat 13 b.toNat 18]
  | .fmaxF d a b => [wd3 0x03000071 d.toNat 8 a.toNat 13 b.toNat 18]
  | .feqF d a b => [wd3 0x03800071 d.toNat 8 a.toNat 13 b.toNat 18]
  | .fltF d a b => [wd3 0x04000071 d.toNat 8 a.toNat 13 b.toNat 18]
  | .fleF d a b => [wd3 0x04800071 d.toNat 8 a.toNat 13 b.toNat 18]
  | .fclassF d a => [wd2 0x05000071 d.toNat 8 a.toNat 13]
  | .fcvtWF d a r => [wd3 0x05800071 d.toNat 8 a.toNat 13 r.toNat 29]
  | .fcvtLF d a r => [wd3 0x06000071 d.toNat 8 a.toNat 13 r.toNat 29]
  | .fcvtFW d a r => [wd3 0x06800071 d.toNat 8 a.toNat 13 r.toNat 29]
  | .fcvtFL d a r => [wd3 0x07000071 d.toNat 8 a.toNat 13 r.toNat 29]
  | .fcvtBF d a r => [wd3 0x07800071 d.toNat 8 a.toNat 13 r.toNat 29]
  | .fcvtFB d a => [wd2 0x08000071 d.toNat 8 a.toNat 13]
  | .fsgnj d a b => [wd3 0x08800071 d.toNat 8 a.toNat 13 b.toNat 18]
  | .fsgnjn d a b => [wd3 0x09000071 d.toNat 8 a.toNat 13 b.toNat 18]
  | .fsgnjx d a b => [wd3 0x09800071 d.toNat 8 a.toNat 13 b.toNat 18]
  | .fmaddF d a b c r => [wd3 0x00000076 b.toNat 18 a.toNat 13 d.toNat 8, wd2 0x00000000 c.toNat 0 r.toNat 5]
  | .fmsubF d a b c r => [wd3 0x00000076 b.toNat 18 a.toNat 13 d.toNat 8, wd2 0x00000100 c.toNat 0 r.toNat 5]
  | .fnmaddF d a b c r => [wd3 0x00000076 b.toNat 18 a.toNat 13 d.toNat 8, wd2 0x00000200 c.toNat 0 r.toNat 5]
  | .fnmsubF d a b c r => [wd3 0x00000076 b.toNat 18 a.toNat 13 d.toNat 8, wd2 0x00000300 c.toNat 0 r.toNat 5]
  | .fenceSv => [wd0 0x00000079]
  | .fenceVs => [wd0 0x00800079]
  | .fenceAll => [wd0 0x01000079]
  | .fenceX => [wd0 0x01800079]
  | .ifence => [wd0 0x02000079]
  | .waitany d a => [wd2 0x02800079 d.toNat 8 a.toNat 13]
  | .waitall d a => [wd2 0x03000079 d.toNat 8 a.toNat 13]
  | .ffr d a => [wd2 0x03800079 d.toNat 8 a.toNat 13]
  | .tagclr a => [wd1 0x04000079 a.toNat 13]
  | .bar d a => [wd2 0x04800079 d.toNat 8 a.toNat 13]
  | .barexp a b => [wd2 0x05000079 a.toNat 13 b.toNat 18]
  | .bararr d a => [wd2 0x05800079 d.toNat 8 a.toNat 13]
  | .barwt d a b => [wd3 0x06000079 d.toNat 8 a.toNat 13 b.toNat 18]
  | .sigdec d a => [wd2 0x06800079 d.toNat 8 a.toNat 13]
  | .sigwait d a b => [wd3 0x07000079 d.toNat 8 a.toNat 13 b.toNat 18]
  | .wfe => [wd0 0x07800079]
  | .yield => [wd0 0x08000079]
  | .csrr d c => [wd2 0x0000007D d.toNat 8 c.toNat 18]
  | .csrw d a c => [wd3 0x4000007D d.toNat 8 a.toNat 13 c.toNat 18]
  | .csrs d a c => [wd3 0x8000007D d.toNat 8 a.toNat 13 c.toNat 18]
  | .csrc d a c => [wd3 0xC000007D d.toNat 8 a.toNat 13 c.toNat 18]
  | .trapi c => [wd1 0x00000081 c.toNat 13]
  | .eret => [wd0 0x00800081]
  | .brk => [wd0 0x01000081]
  | .halt => [wd0 0x01800081]
  | .tlbinv a b => [wd2 0x02000081 a.toNat 13 b.toNat 18]
  | .vcfg d ew nr lanes gc lam => [wd1 0x00000086 d.toNat 8, wd5 0x00000000 ew.toNat 0 nr.toNat 2 lanes.toNat 4 gc.toNat 9 lam.toNat 11]
  | .vsetl d a => [wd2 0x00000089 d.toNat 8 a.toNat 13]
  | .vfaddVV d a b m => QOp.words (.bin .fadd d a (.vec b) m)
  | .vfsubVV d a b m => QOp.words (.bin .fsub d a (.vec b) m)
  | .vfmulVV d a b m => QOp.words (.bin .fmul d a (.vec b) m)
  | .vfdivVV d a b m => QOp.words (.bin .fdiv d a (.vec b) m)
  | .vfminVV d a b m => QOp.words (.bin .fmin d a (.vec b) m)
  | .vfmaxVV d a b m => QOp.words (.bin .fmax d a (.vec b) m)
  | .vfsgnjVV d a b m => QOp.words (.bin .fsgnj d a (.vec b) m)
  | .vfsgnjnVV d a b m => QOp.words (.bin .fsgnjn d a (.vec b) m)
  | .vfaddVX d a x m => QOp.words (.bin .fadd d a (.sc x) m)
  | .vfsubVX d a x m => QOp.words (.bin .fsub d a (.sc x) m)
  | .vfmulVX d a x m => QOp.words (.bin .fmul d a (.sc x) m)
  | .vfdivVX d a x m => QOp.words (.bin .fdiv d a (.sc x) m)
  | .vfminVX d a x m => QOp.words (.bin .fmin d a (.sc x) m)
  | .vfmaxVX d a x m => QOp.words (.bin .fmax d a (.sc x) m)
  | .vfsgnjVX d a x m => QOp.words (.bin .fsgnj d a (.sc x) m)
  | .vfsgnjnVX d a x m => QOp.words (.bin .fsgnjn d a (.sc x) m)
  | .vfmaVV d a b m => QOp.words (.fma .fma d a (.vec b) m)
  | .vfmsVV d a b m => QOp.words (.fma .fms d a (.vec b) m)
  | .vfnmaVV d a b m => QOp.words (.fma .fnma d a (.vec b) m)
  | .vfnmsVV d a b m => QOp.words (.fma .fnms d a (.vec b) m)
  | .vfceqVV d a b m => QOp.words (.cmp .fceq d a (.vec b) m)
  | .vfcltVV d a b m => QOp.words (.cmp .fclt d a (.vec b) m)
  | .vfcleVV d a b m => QOp.words (.cmp .fcle d a (.vec b) m)
  | .vfcneVV d a b m => QOp.words (.cmp .fcne d a (.vec b) m)
  | .vfmaVX d a x m => QOp.words (.fma .fma d a (.sc x) m)
  | .vfmsVX d a x m => QOp.words (.fma .fms d a (.sc x) m)
  | .vfnmaVX d a x m => QOp.words (.fma .fnma d a (.sc x) m)
  | .vfnmsVX d a x m => QOp.words (.fma .fnms d a (.sc x) m)
  | .vfceqVX d a x m => QOp.words (.cmp .fceq d a (.sc x) m)
  | .vfcltVX d a x m => QOp.words (.cmp .fclt d a (.sc x) m)
  | .vfcleVX d a x m => QOp.words (.cmp .fcle d a (.sc x) m)
  | .vfcneVX d a x m => QOp.words (.cmp .fcne d a (.sc x) m)
  | .vfsqrt d a r m => QOp.words (.un .sqrt d a r m)
  | .vfrec d a m => QOp.words (.un .recip d a 0 m)
  | .vfrsq d a m => QOp.words (.un .rsq d a 0 m)
  | .vfexpf d a m => QOp.words (.un .expf d a 0 m)
  | .vfrint d a r m => QOp.words (.un .rint d a r m)
  | .vfclass d a m => QOp.words (.un .cls d a 0 m)
  | .vfabs d a m => QOp.words (.un .abs d a 0 m)
  | .vfneg d a m => QOp.words (.un .neg d a 0 m)
  | .vfcvtWF d a r m => QOp.words (.un .cvtWF d a r m)
  | .vfcvtFW d a r m => QOp.words (.un .cvtFW d a r m)
  | .vfcvtBF d a r m => QOp.words (.un .cvtBF d a r m)
  | .vfcvtFB d a m => QOp.words (.un .cvtFB d a 0 m)
  | .vfgetexp d a m => QOp.words (.un .getexp d a 0 m)
  | .vfgetmant d a m => QOp.words (.un .getmant d a 0 m)
  | .vfscaleVV d a b m => QOp.words (.bin .fscale d a (.vec b) m)
  | .vfscaleVX d a x m => QOp.words (.bin .fscale d a (.sc x) m)
  | .vaddVV d a b m => QOp.words (.bin .add d a (.vec b) m)
  | .vsubVV d a b m => QOp.words (.bin .sub d a (.vec b) m)
  | .vmulVV d a b m => QOp.words (.bin .mul d a (.vec b) m)
  | .vandVV d a b m => QOp.words (.bin .and d a (.vec b) m)
  | .vorVV d a b m => QOp.words (.bin .or d a (.vec b) m)
  | .vxorVV d a b m => QOp.words (.bin .xor d a (.vec b) m)
  | .vminVV d a b m => QOp.words (.bin .min d a (.vec b) m)
  | .vmaxVV d a b m => QOp.words (.bin .max d a (.vec b) m)
  | .vaddVX d a x m => QOp.words (.bin .add d a (.sc x) m)
  | .vsubVX d a x m => QOp.words (.bin .sub d a (.sc x) m)
  | .vmulVX d a x m => QOp.words (.bin .mul d a (.sc x) m)
  | .vandVX d a x m => QOp.words (.bin .and d a (.sc x) m)
  | .vorVX d a x m => QOp.words (.bin .or d a (.sc x) m)
  | .vxorVX d a x m => QOp.words (.bin .xor d a (.sc x) m)
  | .vminVX d a x m => QOp.words (.bin .min d a (.sc x) m)
  | .vmaxVX d a x m => QOp.words (.bin .max d a (.sc x) m)
  | .vsllVV d a b m => QOp.words (.bin .sll d a (.vec b) m)
  | .vsrlVV d a b m => QOp.words (.bin .srl d a (.vec b) m)
  | .vsraVV d a b m => QOp.words (.bin .sra d a (.vec b) m)
  | .vminuVV d a b m => QOp.words (.bin .minu d a (.vec b) m)
  | .vmaxuVV d a b m => QOp.words (.bin .maxu d a (.vec b) m)
  | .vmulhVV d a b m => QOp.words (.bin .mulh d a (.vec b) m)
  | .vceqVV d a b m => QOp.words (.cmp .ceq d a (.vec b) m)
  | .vcltVV d a b m => QOp.words (.cmp .clt d a (.vec b) m)
  | .vsllVX d a x m => QOp.words (.bin .sll d a (.sc x) m)
  | .vsrlVX d a x m => QOp.words (.bin .srl d a (.sc x) m)
  | .vsraVX d a x m => QOp.words (.bin .sra d a (.sc x) m)
  | .vminuVX d a x m => QOp.words (.bin .minu d a (.sc x) m)
  | .vmaxuVX d a x m => QOp.words (.bin .maxu d a (.sc x) m)
  | .vmulhVX d a x m => QOp.words (.bin .mulh d a (.sc x) m)
  | .vceqVX d a x m => QOp.words (.cmp .ceq d a (.sc x) m)
  | .vcltVX d a x m => QOp.words (.cmp .clt d a (.sc x) m)
  | .vmand d a b m => QOp.words (.mask2 .and d a b m)
  | .vmor d a b m => QOp.words (.mask2 .or d a b m)
  | .vmxor d a b m => QOp.words (.mask2 .xor d a b m)
  | .vmandn d a b m => QOp.words (.mask2 .andn d a b m)
  | .vmnot d a m => QOp.words (.maskNot d a m)
  | .vmset d m => QOp.words (.maskSet d m)
  | .vmpopc d a m => QOp.words (.maskPopc d a m)
  | .vmfirst d a m => QOp.words (.maskFirst d a m)
  | .vslideup d a x m => QOp.words (.slideUp d a x m)
  | .vslidedn d a x m => QOp.words (.slideDn d a x m)
  | .vgather d a b m => QOp.words (.gather d a b m)
  | .vcompress d a m => QOp.words (.compress d a m)
  | .vexpand d a m => QOp.words (.expand d a m)
  | .vmerge d a b m => QOp.words (.merge d a b m)
  | .vbcast d x m => QOp.words (.bcast d x m)
  | .vextract d a x => QOp.words (.extract d a x)
  | .vfredsum d a b m => QOp.words (.red .fsum d a b m)
  | .vfredmax d a b m => QOp.words (.red .fmax d a b m)
  | .vfredmin d a b m => QOp.words (.red .fmin d a b m)
  | .vredsum d a b m => QOp.words (.red .sum d a b m)
  | .vredmax d a b m => QOp.words (.red .max d a b m)
  | .vredmin d a b m => QOp.words (.red .min d a b m)
  | .vfredosum d a b m => QOp.words (.red .fosum d a b m)
  | .vseq m d start inc => QOp.words (.seq m d start inc)
  | .vfbcasti m d imm => QOp.words (.fbcasti m d imm)
  | .vbcasti m d imm => QOp.words (.bcasti m d imm)
  | .vrand m x d sid kind => QOp.words (.rand m x d sid kind)
  | .vld d s m => QOp.words (.ld d s m)
  | .vldx d b s m => QOp.words (.ldx d b s m)
  | .vst d s m => QOp.words (.st d s m)
  | .vstx d b s m => QOp.words (.stx d b s m)
  | .vsld d s m => QOp.words (.sld d s m)
  | .vldSeq d s m => QOp.words (.ldSeq d s m)
  | .vstSeq d s m => QOp.words (.stSeq d s m)
  | .vstn d s m => QOp.words (.stn d s m)
  | .vamoaddF d b s m => QOp.words (.amo .addF d b s m)
  | .vamoaddW d b s m => QOp.words (.amo .addW d b s m)
  | .vamominF d b s m => QOp.words (.amo .minF d b s m)
  | .vamomaxF d b s m => QOp.words (.amo .maxF d b s m)
  | .vamominW d b s m => QOp.words (.amo .minW d b s m)
  | .vamomaxW d b s m => QOp.words (.amo .maxW d b s m)
  | .vstp d t s m => QOp.words (.stp d t s m)
  | .sdesc b s => QOp.words (.sdesc b s)
  | .sbase b s => QOp.words (.sbase b s)
  | .spos d s => QOp.words (.spos d s)
  | .sseek b s => QOp.words (.sseek b s)
  | .srel s => QOp.words (.srel s)
  | .ssave b s => QOp.words (.ssave b s)
  | .hold d a => [wd2 0x000000D5 d.toNat 8 a.toNat 13]
  | .hrel d a => [wd2 0x008000D5 d.toNat 8 a.toNat 13]
  | .hqry d a => [wd2 0x010000D5 d.toNat 8 a.toNat 13]
  | .copy d a b src dst tag fl => QOp.words (.copy d a b src dst tag fl)
  | .copyf d a b dst tag fl => QOp.words (.copyf d a b dst tag fl)
  | .copystat d tag => QOp.words (.copystat d tag)
  | .lease d a => [wd2 0x000000DD d.toNat 8 a.toNat 13]
  | .lrenew d a => [wd2 0x008000DD d.toNat 8 a.toNat 13]
  | .lrel d a => [wd2 0x010000DD d.toNat 8 a.toNat 13]
  | .lqry d a => [wd2 0x018000DD d.toNat 8 a.toNat 13]
  | .cbdef d a b => [wd3 0x020000DD d.toNat 8 a.toNat 13 b.toNat 18]
  | .cbadv a b => [wd2 0x028000DD a.toNat 13 b.toNat 18]
  | .cbtake d a => [wd2 0x030000DD d.toNat 8 a.toNat 13]
  | .cbret a b => [wd2 0x038000DD a.toNat 13 b.toNat 18]
  | .eop d a b => [wd3 0x040000DD d.toNat 8 a.toNat 13 b.toNat 18]
  | .mldb a b fmt n k slot => QOp.words (.mldb false a b fmt n k slot)
  | .mldbFf a b fmt n k slot => QOp.words (.mldb true a b fmt n k slot)
  | .mma a d mm n k acc slot => QOp.words (.mma a d mm n k acc slot)
  | .mprog d slot => QOp.words (.mprog d slot)
  | .msync => QOp.words (.msync)
  | .mchk d clr => QOp.words (.mchk d clr)
  | .mrun d x => QOp.words (.mrun d x)
  | .mstop => [wd0 0x200000E5]
  | .mfeed a x => QOp.words (.mfeed a x)
  | .mdrain d x => QOp.words (.mdrain d x)
  | .mlah d s => [wd2 0x800000E5 d.toNat 8 s.toNat 14]
  | .mwaitd d x => [wd2 0xA00000E5 d.toNat 8 x.toNat 20]
  | .send a x => QOp.words (.send a x)
  | .recv d v x => QOp.words (.recv d v x)
  | .rsig x => QOp.words (.rsig x)
  | .launch d a b => [wd3 0x000000ED d.toNat 8 a.toNat 13 b.toNat 18]
  | .pktget d a => [wd2 0x008000ED d.toNat 8 a.toNat 13]
  | .pktemit d a b => [wd3 0x010000ED d.toNat 8 a.toNat 13 b.toNat 18]
  | .pktdone a => [wd1 0x018000ED a.toNat 13]
  | .vectorProbe _ => []
  | .vectorAdmission _ _ _ => []
  | .loadDataArrival _ _ => []
  | .streamPrefetch _ _ => []
  | .laneAllocatorServe _ => []
  | .reshapeComplete _ => []
  | .parityRebuild _ _ _ => []
  | .laneGroupReexecution _ _ _ => []
  | .weirLowerAlanes _ _ => []
  | .weirRaiseAlanes _ => []
  | .weirLowerEngawake _ _ => []
  | .weirRaiseEngawake _ => []
  | .arrayAdmission _ => []
  | .mldbRowArrival _ _ => []
  | .cRowWriteBack _ _ => []
  | .millraceOperandEvent _ => []
  | .beatStart _ => []
  | .bTileLoadComplete _ => []
  | .millraceOutputRow _ _ => []
  | .millraceEnd _ _ => []
  | .copyIssue _ => []
  | .copyBlockWrite _ _ => []
  | .copyComplete _ _ => []
  | .leaseQueueAdvance _ _ => []
  | .engineWakeComplete _ _ _ => []
  | .engineZeroingComplete _ _ => []
  | .engineIdleTimeout _ _ => []
  | .leaseWaitTimeout _ _ _ => []
  | .engineOpFire _ _ _ => []
  | .engineOpComplete _ _ _ _ => []
  | .receiveSlotGrant _ _ => []
  | .stripDelivery _ _ _ => []
  | .braidFlitReceive _ _ => []
  | .braidRetrainTimeout _ => []
  | .braidPortUp _ => []
  | .braidIncomingAccess _ => []
  | .rdmaWrite _ _ _ _ => []
  | .rdmaRead _ _ _ _ => []
  | .rdmaFetchAndAdd _ _ _ _ => []
  | .rdmaCompareAndSwap _ _ _ _ _ => []
  | .rdmaInvalidRequest _ => []
  | .packetIntake _ _ => []
  | .gangPlacement => []
  | .taskLevelAging _ => []
  | .reservationPreemption => []
  | .copyTaskStart _ _ => []
  | .waitTaskSatisfied _ => []
  | .taskComplete _ _ => []
  | .cascadeRebalance _ => []
  | .compactionFlush _ => []
  | .preemptionRequest _ _ => []
  | .trapEntry _ => []
  | .budgetExhausted _ => []
  | .impreciseCauseDelivery _ _ _ => []
  | .contextEnd _ => []
  | .eventLatchTick => []
  | .yieldExpiry _ => []
  | .refreshWindow _ _ => []
  | .refreshWindowClose _ => []
  | .scrub _ _ => []
  | .thermalEmergency => []
  | .thermalRetentionTimeout => []
  | .thermalRecovery => []
  | .retentionSweep _ _ => []
  | .logicTestComplete _ _ => []
  | .islandopWrite _ _ => []
  | .opChangeComplete _ => []
  | .energyUpdate _ => []
  | .energyloRead => []
  | .energyWrapClear _ => []
  | .holdctlWrite _ => []
  | .migqbaseWrite _ => []
  | .errorBankClear _ => []
  | .deviceRegisterWrite _ _ => []
  | .createContext _ _ _ _ _ => []
  | .endContext _ => []
  | .createQueue _ _ _ _ _ _ => []
  | .expose _ _ _ _ _ => []
  | .registerMirror _ _ => []
  | .joinGroup _ _ _ _ => []
  | .mapAperture _ _ _ => []
  | .readHealth _ _ => []
  | .clearBank _ => []
  | .update _ => []
  | .updateConfig _ => []
  | .updateRot _ => []
  | .destroyQueue _ => []
  | .unexpose _ => []
  | .unregisterMirror _ => []
  | .leaveGroup _ _ => []
  | .unmapAperture _ _ => []
  | .spdmChallenge _ => []
  | .sessionKeyExchange _ => []
  | .updateHeartbeat => []
  | .updateHeartbeatTimeout => []
  | .deviceReset _ => []
  | .schedulerFirstHeartbeat => []
  | .junctionTemperature85C _ => []
  | .braidPortRetrained _ => []
  | .powerLoss => []
  | .poolZeroingComplete _ => []
  | .ethernetLinkError _ _ _ => []

/-- The bytes of an instruction, as they stand in memory (R6). -/
def encode (i : Instr) : List Byte := (encodeWords i).flatMap bytesOfWord

/-- The instruction's length in bytes: 4, 8, or 0 for a row without an encoding. -/
def Instr.bytes (i : Instr) : Nat := 4 * (encodeWords i).length

/-- The length in bytes of a queued operation's instruction. -/
def QOp.bytes (q : QOp) : Nat := 4 * q.words.length

/-- What the decoder reads from a table row's bits, numbered from the first word's least significant bit; operand
bits above `nbits` are zero. -/
noncomputable def decodeTableWord (nbits w : Nat) : Option Instr :=
  match decode (bytesOfWord (w % 2 ^ nbits) ++ bytesOfWord (w % 2 ^ nbits / 2 ^ 32)) with
  | .ok (i, _) => some i
  | .error _ => none

end Sys2Proof
end

