-- ==== Sys2Proof/Machine/Ops.lean ====
section
/-! DEFINITION. What every instruction shares before it may trap: the pending-register interlock (R302), the position image
(Tables 17-4, 17-5), context-ending events and imprecise causes (R375, R377), and the parts of trap records. -/

namespace Sys2Proof.Machine

open Sys2Proof

/-! ### Queues and pending registers -/

/-- The scalar register a queued operation writes, and so makes pending (Table 14-2); x0 is never pending. -/
def qDest (q : QOp) : Option XReg :=
  let d? : Option XReg := match q with
    | .spos d _ => some d
    | .copy d _ _ _ _ _ _ => some d
    | .copyf d _ _ _ _ _ => some d
    | .copystat d _ => some d
    | .maskPopc d _ _ => some d
    | .maskFirst d _ _ => some d
    | .extract d _ _ => some d
    | .recv d _ _ => some d
    | .mprog d _ => some d
    | .mchk d _ => some d
    | .mrun d _ => some d
    | _ => none
  match d? with
  | some d => if d = 0 then none else some d
  | none => none

/-- The scalar registers a queued operation captures at posting, in the order ra, rb, then any third (Table 17-5). -/
def qSources (q : QOp) : List XReg :=
  match q with
  | .bin _ _ _ (.sc x) _ => [x]
  | .fma _ _ _ (.sc x) _ => [x]
  | .cmp _ _ _ (.sc x) _ => [x]
  | .slideUp _ _ x _ => [x]
  | .slideDn _ _ x _ => [x]
  | .bcast _ x _ => [x]
  | .extract _ _ x => [x]
  | .rand _ x _ _ _ => [x]
  | .sdesc b _ => [b]
  | .sbase b _ => [b]
  | .sseek b _ => [b]
  | .ssave b _ => [b]
  | .copy _ a b _ _ _ _ => [a, b]
  | .copyf _ a b _ _ _ => [a, b]
  | .mfeed _ x => [x]
  | .mdrain _ x => [x]
  | .send _ x => [x]
  | .recv _ _ x => [x]
  | .rsig x => [x]
  | .mldb _ a b _ _ _ _ => [a, b]
  | .mrun _ x => [x]
  | _ => []

/-- Whether an operation goes to the matrix queue (Table 14-1). -/
def qIsMatrix (q : QOp) : Bool :=
  match q with
  | .mldb .. => true
  | .mma .. => true
  | .mprog .. => true
  | .msync => true
  | .mchk .. => true
  | .mrun .. => true
  | _ => false

/-- The scalar register that an access writes whose event is still to come. -/
def LateOp.dest (o : LateOp) : Option XReg :=
  match o with
  | .load d _ => some d
  | .store _ => none
  | .amo d _ _ _ => some d
  | .sigdec d => some d
  | .tagclr _ => none

/-- Whether a scalar register waits for a queued instruction's write (R302), or for a late access's. -/
def Hart.pending (h : Hart) (r : XReg) : Bool :=
  r != 0 && (h.vq.any (fun e => qDest e.op == some r) || h.mq.any (fun e => qDest e.op == some r) ||
    h.late.any (fun l => l.op.dest == some r))

/-- Whether any of the registers is pending. -/
def Hart.anyPending (h : Hart) (rs : List XReg) : Bool := rs.any h.pending

/-- The queued entries in program order. -/
def insertSeq (e : Entry) : List Entry → List Entry
  | [] => [e]
  | f :: r => if e.seq < f.seq then e :: f :: r else f :: insertSeq e r

/-- The entries of both queues in program order. -/
def Hart.inOrder (h : Hart) : List Entry := (h.vq ++ h.mq).foldr insertSeq []

/-! ### The position image (Tables 17-4, 17-5) -/

/-- Physical address of hart g's position image (R371). -/
def State.imageAt (s : State) (g : Nat) : Nat := s.posbase.toNat + 8192 * g

/-- Whether POSBASE lies in HBM with room for every image (R371). -/
def State.imageOk (s : State) : Bool := decide (s.posbase.toNat + 8192 * Config.harts ≤ Config.hbmBytes)

/-- How many of the entries come before one in program order. -/
def orderOf (h : Hart) (e : Entry) : Nat := ((h.vq ++ h.mq).filter (fun f => decide (f.seq < e.seq))).length

/-- The 64 bytes of a queue entry (Table 17-5). -/
def entryBytes (h : Hart) (e : Entry) : List Byte :=
  let ws := e.op.words
  leBytes 8 e.pc.toNat ++ leBytes 4 (ws.headD 0) ++ leBytes 4 ((ws.drop 1).headD 0) ++
    leBytes 8 (e.ops.headD 0).toNat ++ leBytes 8 ((e.ops.drop 1).headD 0).toNat ++
    leBytes 8 ((e.ops.drop 2).headD 0).toNat ++ leBytes 4 e.vl ++ leBytes 4 e.eidx ++ leBytes 8 e.vconf.toNat ++
    leBytes 1 e.rm.toNat ++ leBytes 1 (if e.admitted then 1 else 0) ++ leBytes 2 (orderOf h e) ++ zeros 4

/-- The doubleword of a millrace event (Table 11-4): the kind in [7:0], the status in [15:8], the beat in [63:16]. -/
def eventWord (e : MillEvent) : Nat := e.kind % 256 + e.status % 256 * 256 + e.beat % 2 ^ 48 * 2 ^ 16

/-- The event of a doubleword. -/
def eventOfWord (w : Nat) : MillEvent := ⟨bits w 7 0, bits w 15 8, bits w 63 16⟩

/-- x1 to x31. -/
def Hart.xbytes (h : Hart) : List Byte :=
  (List.range 31).flatMap (fun i => leBytes 8 (tget h.x (i + 1) 0).toNat)

/-- Write the position image of hart g (R371): its fields, with everything else of its 8 KiB zero. It has room for 17 events. -/
def State.writeImage (s : State) (g : Nat) : State :=
  let h := s.hart g
  let a := s.imageAt g
  let flags := 1 + (if h.barWait.isSome then 2 else 0) + (if h.latch then 4 else 0)
  let (tok, bar) := h.barWait.getD (0, 0)
  let head := leBytes 8 h.pc.toNat ++ leBytes 8 flags ++ leBytes 8 tok.toNat ++ leBytes 8 bar.toNat ++
    leBytes 4 h.vq.length ++ leBytes 4 h.mq.length
  let s := ((s.erase a 8192).store a head).store (a + 0x40) (h.vq.flatMap (entryBytes h))
  let s := s.store (a + 0x840) (h.mq.flatMap (entryBytes h))
  let evs := h.events.take 17
  let s := s.store (a + 0x1840) (leBytes 8 evs.length ++ evs.flatMap (fun e => leBytes 8 (eventWord e)))
  s.store (a + 0x1900) h.xbytes

/-! ### Context-ending events (R375, R377) -/

/-- Whether firmware ends the context on a trap whatever else holds (Table 17-2). -/
def endsContext (r : TrapRec) : Bool :=
  !(r.cause == 0 || r.cause == causeFetchAbsent || r.cause == causeLoadAbsent || r.cause == causeStoreAbsent ||
    r.cause == causeTrapi || r.cause == causeBrk ||
    (r.cause == causeMatrixOperand && bits r.info.toNat 23 16 == causeLoadAbsent))

/-- A context-ending event: the first is kept, a later one sets MORE (R377). -/
def State.noteEnd (s : State) (asid : Nat) (e : EndEvent) : State :=
  let c := s.ctx asid
  match c.ending with
  | none => s.setCtx asid { c with ending := some e }
  | some f => s.setCtx asid { c with ending := some { f with more := true } }

/-- TRAPPC of an imprecise cause, which is known once the cause enters hart g (R375, R377). -/
def State.notePc (s : State) (asid g : Nat) (pc : Word) : State :=
  let c := s.ctx asid
  match c.ending with
  | none => s
  | some f =>
    if f.imprecise && f.hart == g && f.pc == 0 then s.setCtx asid { c with ending := some { f with pc := pc } } else s

/-- The context-ending event of a trap record of hart g. -/
def State.eventOf (s : State) (g : Nat) (r : TrapRec) : EndEvent :=
  { cause := r.cause, imprecise := r.imprecise, more := false, hart := g, eidx := r.eidx
    task := bits (s.hart g).launchidx.toNat 63 32, pc := r.pc, addr := r.addr, info := r.info, page := 0 }

/-- Whether hart g runs a context. -/
def Hart.runs (h : Hart) (asid : Nat) : Bool := h.run == .running && h.asid.toNat == asid

/-- The hart that an imprecise cause of a context goes to: the one given if it still runs, else the first that runs
(R375). -/
def State.deliverTo (s : State) (asid : Nat) (g : Option Nat) : Option Nat :=
  let first := (s.harts.find? (fun p => p.2.runs asid)).map (·.1)
  match g with
  | some k => if (s.hart k).runs asid then some k else first
  | none => first

/-- The hart on which a run stands now, on its core or for the next firmware to place, or none of this device's (R375). -/
def State.runHart (s : State) (run : Nat) : Nat :=
  ((s.harts.find? (fun p => p.2.runId == run && (p.2.run == .running || p.2.task.isSome))).map (·.1)).getD Config.harts

/-- An imprecise cause for a context (R375): due at a hart's next boundary; a context with no hart on a core is ended
by firmware, for which its event stands ready. -/
def State.imprecise (s : State) (asid : Nat) (g : Option Nat) (cause : Nat) (addr : Word) (page : Word := 0)
    (info : Word := 0) (fplist : List Word := []) : State :=
  match s.deliverTo asid g with
  | none =>
    s.noteEnd asid { cause := cause, imprecise := true, more := false, hart := 0xFFFF, eidx := 0, task := 0, pc := 0,
                     addr := addr, info := info, page := page }
  | some k =>
    let r : TrapRec := { cause := cause, pc := 0, addr := addr, info := info, fplist := fplist, imprecise := true, fatal := true }
    let s := s.noteEnd asid { s.eventOf k r with page := page }
    match (s.hart k).imprecise with
    | some _ => s
    | none => s.setHart k { s.hart k with imprecise := some r }

/-! ### Parts of trap records -/

/-- The 64 KiB granule of an address as an FPLIST entry with its cause (Table 3-7). -/
def fpEntry (cause va : Nat) : Word := BitVec.ofNat 64 (bits va 51 16 * 65536 + cause)

/-- Whether a cause records its page (R85, R86, Table 17-2). -/
def recordsPage (cause : Nat) : Bool :=
  cause == causeFetchAbsent || cause == causeFetchNoexec || cause == causeLoadAbsent || cause == causeStoreAbsent ||
    cause == causePerm

/-! ### Outcomes -/

/-- One outcome followed by another operation on the state it leaves. -/
def Out.andThen (o : Out) (f : State → Out) : Out :=
  match o with
  | .next s => f s
  | .fault r => .fault r
  | .refused r => .refused r

end Sys2Proof.Machine
end

