-- ==== Sys2Proof/Machine/Operands.lean ====
section
/-! DEFINITION. The operand forms: the vector configuration and its geometry (R156 to R158), masks and active elements,
broadcast scalars (R183), the registers an operation names (R18), and the loops over elements that R165 and R184
describe. -/

namespace Sys2Proof.Machine

open Sys2Proof

/-! ### Configuration (Table 7-2, R157) -/

def vcEw (v : Word) : Nat := if bits v.toNat 1 0 = 0 then 32 else 16
def vcNr (v : Word) : Nat := 8 * 2 ^ bits v.toNat 3 2
def vcLanes (v : Word) : Nat := bits v.toNat 8 4
def vcG (v : Word) : Nat := 2 ^ bits v.toNat 10 9
def vcLam (v : Word) : Bool := bit v.toNat 11
def vcIll (v : Word) : Bool := bit v.toNat 63

/-- VCONF of its fields. -/
def vconfOf (ill lam : Bool) (gc lanes nrCode ewCode : Nat) : Word :=
  BitVec.ofNat 64 ((if ill then 2 ^ 63 else 0) + (if lam then 2 ^ 11 else 0) + gc % 4 * 2 ^ 9 + lanes % 32 * 2 ^ 4 +
    nrCode % 4 * 2 ^ 2 + ewCode % 4)

/-- Rows of a vector register: floor(VRB / (1024 × NR)), VRB in units of 64 KiB. -/
def rowsOf (vrb nr : Nat) : Nat := vrb * 64 / nr

/-- VLMAX of a core's VRB and a configuration (R157). -/
def vlmaxOf (vrb : Nat) (v : Word) : Nat :=
  rowsOf vrb (vcNr v) * (if vcEw v = 32 then 8 else 16) * vcLanes v

/-- VLMAX of a hart, in the configuration in force. -/
def State.vlmax (s : State) (g : Nat) : Nat := vlmaxOf (s.core (coreOf g)).vrb (s.hart g).vconf

/-! ### Masks and scalars -/

/-- active(i) of a mask field (Table 1-14), on the mask register's bits. -/
def activeIn (m : MReg) (mbits : Nat) (i : Nat) : Bool := m == 0 || bit mbits i

/-- The bits of a mask source; field 0 reads as all ones (R200). -/
def maskSource (h : Hart) (m : MReg) (i : Nat) : Bool := m == 0 || bit (h.mreg m.toNat) i

/-- Element i of the second source: a vector register's, or the captured scalar's low bits (R183). -/
def srcElem (h : Hart) (ew : Nat) (b : VSrc) (x : Word) (i : Nat) : Nat :=
  match b with
  | .vec r => elem (h.vreg r.toNat) ew i
  | .sc _ => x.toNat % 2 ^ ew

/-! ### Named registers (R18) -/

/-- The vector registers a queued operation names; MFEED and MDRAIN name a group (R255), MMA is under R228. -/
def qVregs (q : QOp) : List VReg :=
  let ofSrc : VSrc → List VReg := fun b => match b with
    | .vec r => [r]
    | .sc _ => []
  match q with
  | .bin _ d a b _ => d :: a :: ofSrc b
  | .fma _ d a b _ => d :: a :: ofSrc b
  | .cmp _ _ a b _ => a :: ofSrc b
  | .un _ d a _ _ => [d, a]
  | .slideUp d a _ _ => [d, a]
  | .slideDn d a _ _ => [d, a]
  | .gather d a b _ => [d, a, b]
  | .compress d a _ => [d, a]
  | .expand d a _ => [d, a]
  | .merge d a b _ => [d, a, b]
  | .bcast d _ _ => [d]
  | .extract _ a _ => [a]
  | .red _ d a b _ => [d, a, b]
  | .seq _ d _ _ => [d]
  | .fbcasti _ d _ => [d]
  | .bcasti _ d _ => [d]
  | .rand _ _ d _ _ => [d]
  | .ld d _ _ => [d]
  | .ldx d b _ _ => [d, b]
  | .st d _ _ => [d]
  | .stx d b _ _ => [d, b]
  | .sld d _ _ => [d]
  | .ldSeq d _ _ => [d]
  | .stSeq d _ _ => [d]
  | .stn d _ _ => [d]
  | .amo _ d b _ _ => [d, b]
  | .stp d _ _ _ => [d]
  | .send a _ => [a]
  | .recv _ v _ => [v]
  | _ => []

/-- The mask register a queued operation writes, if any. -/
def qMaskDest (q : QOp) : Option MReg :=
  match q with
  | .cmp _ d _ _ _ => some d
  | .mask2 _ d _ _ _ => some d
  | .maskNot d _ _ => some d
  | .maskSet d _ => some d
  | _ => none

/-- Whether VCONF.ILL makes the operation trap: majors 0x24 to 0x33, 0x38 and 0x39 (R164). -/
def qNeedsConfig (q : QOp) : Bool :=
  match q with
  | .sdesc .. => false
  | .sbase .. => false
  | .spos .. => false
  | .sseek .. => false
  | .srel .. => false
  | .ssave .. => false
  | .copy .. => false
  | .copyf .. => false
  | .copystat .. => false
  | .send .. => false
  | .recv .. => false
  | .rsig .. => false
  | _ => true

/-! ### Element loops (R165, R184) -/

/-- Elements lo to lo + n − 1 of a packed register of w-bit elements: an active one takes f's result of its index and
old value, and f's flags accumulate. -/
def loopElems (w : Nat) (act : Nat → Bool) (f : Nat → Nat → Nat × Nat) : Nat → Nat → Nat × Nat → Nat × Nat
  | _, 0, acc => acc
  | lo, n + 1, acc =>
    loopElems w act f (lo + 1) n
      (if act lo then
        let r := f lo (elem acc.1 w lo)
        (setElem acc.1 w lo r.1, acc.2 ||| r.2)
       else acc)

/-- zero_tail: elements at or above VL read zero. -/
def zeroTail (w vl v : Nat) : Nat := v % 2 ^ (w * vl)

/-- How many of the indices below n are active. -/
def countActive (act : Nat → Bool) : Nat → Nat
  | 0 => 0
  | n + 1 => countActive act n + (if act n then 1 else 0)

/-- The lowest active index from i, of n. -/
def firstActive (act : Nat → Bool) : Nat → Nat → Option Nat
  | _, 0 => none
  | i, n + 1 => if act i then some i else firstActive act (i + 1) n

/-- read(va, j) of a cross-lane source (R166). -/
def crossRead (v ew vlmax : Nat) (j : Int) : Nat :=
  if 0 ≤ j ∧ j < (vlmax : Int) then elem v ew j.toNat else 0

end Sys2Proof.Machine
end

