-- ==== Sys2Proof/Machine/Convert.lean ====
section
/-! DEFINITION. Storage formats and the conversions of the memory pipe: widen on a load, narrow on a store, and the
block formats (R132 to R139). -/

namespace Sys2Proof.Machine

open Sys2Proof

/-! ### Format codes (Table 6-2) -/

/-- Bytes of a storage element, or of a block for the block formats. -/
def fmtBytes (fmt : Nat) : Nat :=
  match fmt with
  | 0 => 4
  | 1 => 2
  | 2 => 2
  | 3 => 1
  | 4 => 1
  | 5 => 18
  | 6 => 33
  | 7 => 1
  | 8 => 1
  | 9 => 2
  | _ => 4

/-- The block formats E2M1X and E4M3B. -/
def isBlock (fmt : Nat) : Bool := fmt == 5 || fmt == 6

/-- Floating storage (R132). -/
def isFloatFmt (fmt : Nat) : Bool := decide (fmt ≤ 6)

/-- The floating element format of a code. -/
def fmtOf (fmt : Nat) : Fmt :=
  match fmt with
  | 0 => fp32
  | 1 => bf16
  | 2 => fp16
  | 3 => e4m3
  | 4 => e5m2
  | _ => e4m3

/-- Cells of Table 6-4 marked "code 11". -/
def widenRefused (fmt ew : Nat) : Bool := ew == 16 && (fmt == 0 || fmt == 10)

/-! ### Loads -/

/-- The value of element i of a block (R134, R135). -/
def blockValue (fmt : Nat) (bs : List Byte) (i : Nat) : FVal :=
  if fmt = 5 then
    let s := field bs 16 1
    let code := bits (field bs (i / 2) 1) (4 * (i % 2) + 3) (4 * (i % 2))
    let v := if code = 8 then e4m3.value (field bs 17 1) else e2m1.value code
    if s = 0xFF then .nan false
    else match v with
      | .fin n m e => .fin n m (e + (s : Int) - 127)
      | v => v
  else
    let s := field bs 32 1
    if s = 0xFF then .nan false
    else match e4m3.value (field bs i 1) with
      | .fin n m e => .fin n m (e + (s : Int) - 127)
      | v => v

/-- widen(bits, fmt) of a block element (Table 6-4). -/
def widenBlock (fmt ew : Nat) (bs : List Byte) (i : Nat) : Nat × Nat := (elFmt ew).convert 0 (blockValue fmt bs i)

/-- widen(bits, fmt) of a plain storage element (R136, Table 6-4): register bits and flags. -/
def widen (fmt ew x : Nat) : Nat × Nat :=
  if fmt = 7 then (wrap ew (signed 8 x), 0)
  else if fmt = 8 then (x % 256, 0)
  else if fmt = 9 then (wrap ew (signed 16 x), 0)
  else if fmt = 10 then (x % 2 ^ ew, 0)
  else if (fmt = 0 ∧ ew = 32) ∨ (fmt = 1 ∧ ew = 16) then (x, 0)
  else (elFmt ew).convert 0 ((fmtOf fmt).value x)

/-! ### Stores -/

/-- narrow(x, fmt) of a plain storage format (R137): storage bits and flags. -/
def narrow (fmt ew x : Nat) : Nat × Nat :=
  if fmt = 7 then (wrap 8 (sat (signed ew x) (-128) 127), 0)
  else if fmt = 8 then (wrap 8 (sat (signed ew x) 0 255), 0)
  else if fmt = 9 then (wrap 16 (sat (signed ew x) (-32768) 32767), 0)
  else if fmt = 10 then (wrap 32 (signed ew x), 0)
  else if (fmt = 0 ∧ ew = 32) ∨ (fmt = 1 ∧ ew = 16) then (x, 0)
  else (fmtOf fmt).convert 0 ((elFmt ew).value x)

/-- The value times 2^k, exactly. -/
def FVal.scale (x : FVal) (k : Int) : FVal :=
  match x with
  | .fin n m e => .fin n m (e + k)
  | x => x

/-- Floor of log2 of a finite nonzero magnitude; none for a zero, an infinity or a NaN. -/
def FVal.exponent (x : FVal) : Option Int :=
  match x with
  | .fin _ m e => some (e + (log2 m : Int))
  | _ => none

/-- The largest exponent among finite nonzero values: floor(log2(amax)). -/
def maxExponent : List FVal → Option Int
  | [] => none
  | x :: r =>
    match x.exponent, maxExponent r with
    | some a, some b => some (if a < b then b else a)
    | some a, none => some a
    | none, y => y

/-- |y − g| as m × 2^e for two values of which neither is infinite or a NaN. -/
def absDiff (y g : FVal) : Nat × Int :=
  match y.addExact 0 g.negate with
  | .fin _ m e => (m, e)
  | _ => (0, 0)

/-- The lowest index with the largest error of a list, from an index on, with that error. -/
def worst : List (Nat × Int) → Nat → Nat × (Nat × Int) → Nat × (Nat × Int)
  | [], _, best => best
  | x :: r, i, best => worst r (i + 1) (if magLt best.2.1 best.2.2 x.1 x.2 then (i, x) else best)

/-- The bytes of the 4-bit codes, the even element in the low half. -/
def nibbles : List Nat → List Byte
  | a :: b :: r => BitVec.ofNat 8 (a + 16 * b) :: nibbles r
  | _ => []

/-- narrow_e2m1x of 32 values (R138): the block's bytes and flags. -/
def narrowE2m1x (xs : List FVal) : List Byte × Nat :=
  if xs.any (fun x => x.isNan || x.isInf) then
    (zeros 16 ++ [0xFF, 0],
     (if xs.any FVal.isInf then flOF + flNX else 0) ||| (if xs.any FVal.isSnan then flNV else 0))
  else
    let e : Int := match maxExponent xs with
      | none => 0
      | some k => sat (k - 2) (-127) 127
    let ys := xs.map (fun x => x.scale (-e))
    let gs := ys.map (e2m1.round 0)
    let errs := (ys.zip gs).map (fun p => absDiff p.1 (e2m1.value p.2.1))
    let (k, err) := worst errs 0 (0, (0, 0))
    let fl := gs.foldl (fun acc g => acc ||| g.2) 0
    let xk := xs.getD k (.zero false)
    let code : FVal × (Nat × Nat) → Nat := fun p =>
      if err.1 ≠ 0 ∧ p.1.eqv xk then 8 else if p.2.1 % 8 = 0 then 0 else p.2.1
    let spare := if err.1 = 0 then (0, 0) else e4m3.convert 0 (ys.getD k (.zero false))
    (nibbles ((xs.zip gs).map code) ++ [BitVec.ofNat 8 (e + 127).toNat, BitVec.ofNat 8 spare.1], fl ||| spare.2)

/-- The E4M3B block of 32 values (R139). -/
def narrowE4m3b (xs : List FVal) : List Byte × Nat :=
  let e : Int := match maxExponent xs with
    | none => 0
    | some k => sat (k - 8) (-127) 127
  let rs := xs.map (fun x => e4m3.convert 0 (x.scale (-e)))
  (rs.map (fun r => BitVec.ofNat 8 r.1) ++ [BitVec.ofNat 8 (e + 127).toNat], rs.foldl (fun acc r => acc ||| r.2) 0)

/-- The block of 32 values in a block format. -/
def narrowBlock (fmt : Nat) (xs : List FVal) : List Byte × Nat :=
  if fmt = 5 then narrowE2m1x xs else narrowE4m3b xs

end Sys2Proof.Machine
end

