-- ==== Sys2Proof/Machine/Streams.lean ====
section
/-! DEFINITION. Stream descriptors and positions (R72 to R78, R177): the checks of a descriptor, the coordinates,
address and clipping of an element, and the bytes of a descriptor and of a save image. -/

namespace Sys2Proof.Machine

open Sys2Proof

/-- Four 32-bit fields from 16 bytes. -/
def quadOf (bs : List Byte) (off : Nat) : Quad :=
  ⟨BitVec.ofNat 32 (field bs off 4), BitVec.ofNat 32 (field bs (off + 4) 4), BitVec.ofNat 32 (field bs (off + 8) 4),
   BitVec.ofNat 32 (field bs (off + 12) 4)⟩

/-- The descriptor in 64 bytes (Table 3-4). -/
def descOf (bs : List Byte) : Desc :=
  { base := BitVec.ofNat 64 (field bs 0 8), fmt := BitVec.ofNat 8 (field bs 8 1), kind := BitVec.ofNat 8 (field bs 9 1)
    slide := BitVec.ofNat 16 (field bs 10 2), fill := BitVec.ofNat 32 (field bs 12 4)
    count := quadOf bs 0x10, stride := quadOf bs 0x20, bound := quadOf bs 0x30 }

/-- The 16 bytes of four fields. -/
def quadBytes (q : Quad) : List Byte :=
  leBytes 4 q.d0.toNat ++ leBytes 4 q.d1.toNat ++ leBytes 4 q.d2.toNat ++ leBytes 4 q.d3.toNat

/-- The 64 bytes of a descriptor. -/
def descBytes (d : Desc) : List Byte :=
  leBytes 8 d.base.toNat ++ leBytes 1 d.fmt.toNat ++ leBytes 1 d.kind.toNat ++ leBytes 2 d.slide.toNat ++
    leBytes 4 d.fill.toNat ++ quadBytes d.count ++ quadBytes d.stride ++ quadBytes d.bound

/-- N, the total count (R73). -/
def Desc.total (d : Desc) : Nat := d.count.d0.toNat * d.count.d1.toNat * d.count.d2.toNat * d.count.d3.toNat

def Desc.fmtCode (d : Desc) : Nat := d.fmt.toNat
def Desc.isStore (d : Desc) : Bool := d.kind.getLsbD 0
def Desc.clips (d : Desc) : Bool := d.kind.getLsbD 1
def Desc.bypass (d : Desc) : Bool := d.kind.getLsbD 3
def Desc.ordered (d : Desc) : Bool := d.kind.getLsbD 4
def Desc.blocky (d : Desc) : Bool := isBlock d.fmtCode

/-- BASE and the strides are multiples of the element size (code 3). -/
def strideOk (d : Desc) (base : Word) : Bool :=
  let n := fmtBytes d.fmtCode
  d.blocky || (aligned base.toNat n && aligned d.stride.d0.toNat n && aligned d.stride.d1.toNat n &&
    aligned d.stride.d2.toNat n && aligned d.stride.d3.toNat n)

/-- The first of codes 1 to 5 of Table 3-5 that a descriptor breaks. -/
def descFault (d : Desc) : Option Nat :=
  if 10 < d.fmtCode then some 1
  else if bits d.kind.toNat 7 5 ≠ 0 then some 2
  else if !strideOk d d.base then some 3
  else if d.blocky && !(aligned d.count.d0.toNat 32 && aligned d.bound.d0.toNat 32 &&
      d.stride.d0.toNat == fmtBytes d.fmtCode) then some 4
  else if 2 ^ 48 < d.total then some 5
  else none

/-- Coordinates of position p (R73). -/
def Desc.coord (d : Desc) (p : Nat) : Nat × Nat × Nat × Nat :=
  let c0 := d.count.d0.toNat
  let c1 := d.count.d1.toNat
  let c2 := d.count.d2.toNat
  (p % c0, p / c0 % c1, p / (c0 * c1) % c2, p / (c0 * c1 * c2))

/-- Whether the element at position p, with i0 displaced by `off`, is clipped (R73, R177). -/
def Desc.clipped (d : Desc) (p : Nat) (off : Int) : Bool :=
  let (i0, i1, i2, i3) := d.coord p
  d.clips &&
    (decide ((i0 : Int) + off < 0) || decide ((d.bound.d0.toNat : Int) ≤ i0 + off) || decide (d.bound.d1.toNat ≤ i1) ||
      decide (d.bound.d2.toNat ≤ i2) || decide (d.bound.d3.toNat ≤ i3))

/-- Virtual address of the element at position p, with i0 displaced by `off`; of its block for a block format (R73,
R74, R177). -/
def Desc.addr (d : Desc) (p : Nat) (off : Int) : Nat :=
  let (i0, i1, i2, i3) := d.coord p
  let x0 : Int := if d.blocky then ((i0 / 32 : Nat) : Int) else (i0 : Int) + off
  wrap 64 ((d.base.toNat : Int) + x0 * d.stride.d0.toInt + (i1 : Int) * d.stride.d1.toInt +
    (i2 : Int) * d.stride.d2.toInt + (i3 : Int) * d.stride.d3.toInt)

/-- Declared bytes of a copy's destination (R95). -/
def Desc.declared (d : Desc) : Nat :=
  if d.blocky then d.total / 32 * fmtBytes d.fmtCode else d.total * fmtBytes d.fmtCode

/-- The 128 bytes that SSAVE writes (R81). -/
def saveBytes (r : StreamReg) : List Byte :=
  (if r.bound then descBytes r.desc else zeros 64) ++ leBytes 8 r.pos.toNat ++
    leBytes 8 (if r.bound then 1 else 0) ++ zeros 48

/-- A stream register bound to a descriptor at position 0. -/
def boundTo (d : Desc) : StreamReg := { bound := true, desc := d }

/-- What a stream register discards when it is rebased, sought or released (R81). -/
def StreamReg.discard (r : StreamReg) : StreamReg := { r with ahead := [], prefetched := 0 }

end Sys2Proof.Machine
end

