-- ==== Sys2Proof/Machine/VectorOps.lean ====
section
/-! DEFINITION. What the vector-queue instructions without a memory access do to their hart's registers (R182 to R218):
elementwise members, masks, permutations, reductions and generated values. `lo` and `hi` bound the elements that one
admission processes; the tail is zeroed when hi reaches VL (R165, R379). -/

namespace Sys2Proof.Machine

open Sys2Proof

/-- What an instruction captured at posting (R301): element width, VL, VLMAX, rounding mode and scalar operands. -/
structure Cap where
  ew    : Nat
  vl    : Nat
  vlmax : Nat
  lanes : Nat
  lam   : Bool
  rm    : BitVec 3
  ops   : List Word
  deriving DecidableEq, Repr

/-- The n-th captured scalar. -/
def Cap.x (c : Cap) (n : Nat) : Word := (c.ops.drop n).headD 0

/-- Destination vector register d gets elements lo to hi − 1 from f, and its tail zeroed at the end. -/
def vecWrite (h : Hart) (c : Cap) (d : VReg) (m : MReg) (lo hi : Nat) (f : Nat → Nat → Nat × Nat) : Hart :=
  if c.vl = 0 then h
  else
    let r := loopElems c.ew (activeIn m (h.mreg m.toNat)) f lo (hi - lo) (h.vreg d.toNat, 0)
    (h.setVreg d.toNat (if c.vl ≤ hi then zeroTail c.ew c.vl r.1 else r.1)).raise (flagBits r.2)

/-- Destination mask register d likewise, one bit an element. -/
def maskWrite (h : Hart) (c : Cap) (d m : MReg) (lo hi : Nat) (f : Nat → Nat → Nat × Nat) : Hart :=
  if c.vl = 0 then h
  else
    let r := loopElems 1 (activeIn m (h.mreg m.toNat)) f lo (hi - lo) (h.mreg d.toNat, 0)
    (h.setMreg d.toNat (if c.vl ≤ hi then zeroTail 1 c.vl r.1 else r.1)).raise (flagBits r.2)

/-- The bit of a relation. -/
def boolNat (b : Bool) : Nat := if b then 1 else 0

/-- Mask logic of Table 9-1. -/
def maskBit (op : MaskOp) (a b : Bool) : Bool :=
  match op with
  | .and => a && b
  | .or => a || b
  | .xor => a != b
  | .andn => a && !b

/-- VCOMPRESS (R206): the active elements of a, packed from c on. -/
def compressLoop (ew a : Nat) (act : Nat → Bool) : Nat → Nat → Nat → Nat → Nat × Nat
  | _, 0, v, c => (v, c)
  | i, n + 1, v, c =>
    if act i then compressLoop ew a act (i + 1) n (setElem v ew c (elem a ew i)) (c + 1)
    else compressLoop ew a act (i + 1) n v c

/-- VEXPAND (R206): elements of a from c on into the active positions. -/
def expandLoop (ew a : Nat) (act : Nat → Bool) : Nat → Nat → Nat → Nat → Nat
  | _, 0, v, _ => v
  | i, n + 1, v, c =>
    if act i then expandLoop ew a act (i + 1) n (setElem v ew i (elem a ew c)) (c + 1)
    else expandLoop ew a act (i + 1) n v c

/-! ### Sums (R148 to R150, R152) -/

/-- A step of a sum in FP32: the rounded bits, with the flags so far. Bit 6 of the flags records a result that is not
finite, from which NF follows (R152). -/
def sumStep (rm : Nat) (fl a b : Nat) : Nat × Nat :=
  let r := fp32.add rm (fp32.value a) (fp32.value b)
  (r.1, fl ||| r.2 ||| (if (fp32.value r.1).isFinite then 0 else 64))

/-- One level of a pair tree: neighbours are added, an absent one leaves the other. -/
def treeLevel (rm : Nat) : List (Option Nat) → Nat → List (Option Nat) × Nat
  | a :: b :: r, fl =>
    let (x, fl) : Option Nat × Nat := match a, b with
      | some a, some b => let t := sumStep rm fl a b; (some t.1, t.2)
      | some a, none => (some a, fl)
      | none, y => (y, fl)
    let (rest, fl) := treeLevel rm r fl
    (x :: rest, fl)
  | l, fl => (l, fl)

/-- The root of a pair tree over at most 2^n leaves. -/
def treeRoot (rm : Nat) : Nat → List (Option Nat) → Nat → Option Nat × Nat
  | 0, l, fl => ((l.head?).getD none, fl)
  | n + 1, l, fl =>
    let (l, fl) := treeLevel rm l fl
    treeRoot rm n l fl

/-- The canonical tree (R148): blocks of 32 leaves, each block's root added in turn. -/
def canonicalSum (rm : Nat) (leaf : Nat → Option Nat) : Nat → Nat → Nat → Nat → Nat × Nat
  | 0, _, acc, fl => (acc, fl)
  | n + 1, b, acc, fl =>
    let (root, fl) := treeRoot rm 5 ((List.range 32).map (fun j => leaf (32 * b + j))) fl
    match root with
    | some t =>
      let r := sumStep rm fl acc t
      canonicalSum rm leaf n (b + 1) r.1 r.2
    | none => canonicalSum rm leaf n (b + 1) acc fl

/-- The elements of one slot (R149) in ascending order, the first taken as it is. -/
def slotSum (rm : Nat) : List (Option Nat) → Option Nat → Nat → Option Nat × Nat
  | [], acc, fl => (acc, fl)
  | none :: r, acc, fl => slotSum rm r acc fl
  | some x :: r, none, fl => slotSum rm r (some x) fl
  | some x :: r, some a, fl =>
    let t := sumStep rm fl a x
    slotSum rm r (some t.1) t.2

/-- The values of the slots q = 0 to n − 1. -/
def slotValues (rm p vl : Nat) (leaf : Nat → Option Nat) : Nat → Nat → Nat → List (Option Nat) × Nat
  | 0, _, fl => ([], fl)
  | n + 1, q, fl =>
    let (v, fl) := slotSum rm ((List.range ((vl + p - 1 - q) / p)).map (fun k => leaf (q + k * p))) none fl
    let (r, fl) := slotValues rm p vl leaf n (q + 1) fl
    (v :: r, fl)

/-- The sum by slots (R149). -/
def slottedSum (rm p vl : Nat) (leaf : Nat → Option Nat) (init : Nat) : Nat × Nat :=
  let (vs, fl) := slotValues rm p vl leaf p 0 0
  let (root, fl) := treeRoot rm (log2 p + 1) vs fl
  match root with
  | some t => sumStep rm fl init t
  | none => (init, fl)

/-- The sum in element order (R150). -/
def orderedSum (rm : Nat) (leaf : Nat → Option Nat) : Nat → Nat → Nat → Nat → Nat × Nat
  | 0, _, acc, fl => (acc, fl)
  | n + 1, i, acc, fl =>
    match leaf i with
    | some x =>
      let r := sumStep rm fl acc x
      orderedSum rm leaf n (i + 1) r.1 r.2
    | none => orderedSum rm leaf n (i + 1) acc fl

/-- Elements and init of a sum widened exactly to FP32 (R148). -/
def widen32 (ew x : Nat) : Nat := if ew = 32 then x else x * 2 ^ 16

/-- The floating sums with their flags (R148 to R152): EW bits and flags. -/
def floatSum (op : RedOp) (c : Cap) (act : Nat → Bool) (a init : Nat) : Nat × Nat :=
  let rm := c.rm.toNat
  let leaf : Nat → Option Nat := fun i =>
    if i < c.vl ∧ act i then some (widen32 c.ew (elem a c.ew i)) else none
  let i32 := widen32 c.ew init
  let r : Nat × Nat := match op with
    | .fosum => orderedSum rm leaf c.vl 0 i32 0
    | _ =>
      if c.lam then canonicalSum rm leaf ((c.vl + 31) / 32) 0 i32 0
      else slottedSum rm ((if c.ew = 32 then 8 else 16) * c.lanes) c.vl leaf i32
  let used := (List.range c.vl).any (fun i => act i)
  let out : Nat × Nat :=
    if c.ew = 32 then r
    else if used then
      let t := bf16.convert rm (fp32.value r.1)
      (t.1, r.2 ||| t.2 ||| (if (bf16.value t.1).isFinite then 0 else 64))
    else (init, r.2)
  let inputsFinite := (fp32.value i32).isFinite &&
    (List.range c.vl).all (fun i => match leaf i with
      | some x => (fp32.value x).isFinite
      | none => true)
  (out.1, out.2 % 64 ||| (if inputsFinite && bit out.2 6 then flNF else 0))

/-- Fold of the active elements into init. -/
def foldActive (act : Nat → Bool) (f : Nat → Nat → Nat × Nat) : Nat → Nat → Nat × Nat → Nat × Nat
  | _, 0, acc => acc
  | i, n + 1, acc =>
    foldActive act f (i + 1) n (if act i then let r := f i acc.1; (r.1, acc.2 ||| r.2) else acc)

/-- The result of a reduction (Table 9-5): element bits and flags. -/
def reduceValue (op : RedOp) (c : Cap) (act : Nat → Bool) (a init : Nat) : Nat × Nat :=
  let f := elFmt c.ew
  let snan := if (f.value init).isSnan then flNV else 0
  match op with
  | .fsum => floatSum op c act a init
  | .fosum => floatSum op c act a init
  | .fmax =>
    let r := foldActive act (fun i acc => f.minmax true acc (elem a c.ew i)) 0 c.vl (init, 0)
    (r.1, r.2 ||| snan)
  | .fmin =>
    let r := foldActive act (fun i acc => f.minmax false acc (elem a c.ew i)) 0 c.vl (init, 0)
    (r.1, r.2 ||| snan)
  | .sum => foldActive act (fun i acc => ((acc + elem a c.ew i) % 2 ^ c.ew, 0)) 0 c.vl (init, 0)
  | .max => foldActive act (fun i acc => binElem .max c.ew 0 acc (elem a c.ew i)) 0 c.vl (init, 0)
  | .min => foldActive act (fun i acc => binElem .min c.ew 0 acc (elem a c.ew i)) 0 c.vl (init, 0)

/-! ### Riffle-32 (R214, R215) -/

/-- The rounds of Riffle-32. -/
def riffleRounds : Nat → Nat → Nat → Nat → Nat → Nat
  | 0, a, _, _, _ => a
  | n + 1, a, b, k0, k1 =>
    let p := a * 0xE817FB2D
    riffleRounds n ((bits p 63 32 ^^^ b) ^^^ k0) (bits p 31 0 ^^^ k1) ((k0 + 0xB504F333) % 2 ^ 32)
      ((k1 + 0x6A09E667) % 2 ^ 32)

/-- riffle32(key, ctr). -/
def riffle32 (key ctr : Nat) : Nat :=
  riffleRounds 10 (bits ctr 31 0) (bits ctr 63 32) (bits key 31 0) (bits key 63 32)

/-- The value VRAND writes for a coordinate (R215). -/
def randElem (ew kind key sid coord : Nat) : Nat :=
  let w := riffle32 key (sid * 2 ^ 32 + coord)
  if kind = 0 then (if ew = 32 then w else bits w 31 16)
  else if ew = 32 then (fp32.round 0 (FVal.ofMag false (w / 2 ^ 8) (-24))).1
  else (bf16.round 0 (FVal.ofMag false (w / 2 ^ 24) (-8))).1

/-! ### One admission -/

/-- Whether an operation can stop between element groups and resume at an index (R218, R378). -/
def splittable (q : QOp) : Bool :=
  match q with
  | .bin .. => true
  | .fma .. => true
  | .cmp .. => true
  | .un .. => true
  | .mask2 .. => true
  | .maskNot .. => true
  | .maskSet .. => true
  | .slideUp .. => true
  | .slideDn .. => true
  | .gather .. => true
  | .compress .. => true
  | .expand .. => true
  | .merge .. => true
  | .bcast .. => true
  | .seq .. => true
  | .fbcasti .. => true
  | .bcasti .. => true
  | .rand .. => true
  | _ => false

/-- The registers of a hart after an admission of a vector operation without a memory access has processed the
elements lo to hi − 1; the other operations are not of this kind and change nothing here. -/
def vecStep (h : Hart) (c : Cap) (q : QOp) (lo hi : Nat) : Hart :=
  let ew := c.ew
  let rm := c.rm.toNat
  match q with
  | .bin .fscale d a b m =>
    let av := h.vreg a.toNat
    let n : Nat → Int := fun i => match b with
      | .vec r => signed ew (elem (h.vreg r.toNat) ew i)
      | .sc _ => (c.x 0).toInt
    vecWrite h c d m lo hi (fun i _ => scaleElem ew rm (elem av ew i) (n i))
  | .bin op d a b m =>
    let av := h.vreg a.toNat
    vecWrite h c d m lo hi (fun i _ => binElem op ew rm (elem av ew i) (srcElem h ew b (c.x 0) i))
  | .fma op d a b m =>
    let av := h.vreg a.toNat
    vecWrite h c d m lo hi (fun i old => fmaElem op ew rm (elem av ew i) (srcElem h ew b (c.x 0) i) old)
  | .cmp op d a b m =>
    let av := h.vreg a.toNat
    maskWrite h c d m lo hi (fun i _ =>
      let r := cmpElem op ew (elem av ew i) (srcElem h ew b (c.x 0) i)
      (boolNat r.1, r.2))
  | .un op d a r m =>
    let av := h.vreg a.toNat
    vecWrite h c d m lo hi (fun i _ => unElem op ew (rmOf r c.rm) (elem av ew i))
  | .mask2 op d a b m =>
    maskWrite h c d m lo hi (fun i _ => (boolNat (maskBit op (maskSource h a i) (maskSource h b i)), 0))
  | .maskNot d a m => maskWrite h c d m lo hi (fun i _ => (boolNat (!maskSource h a i), 0))
  | .maskSet d m => maskWrite h c d m lo hi (fun _ _ => (1, 0))
  | .maskPopc d a m =>
    let act := activeIn m (h.mreg m.toNat)
    h.setX d (BitVec.ofNat 64 (countActive (fun i => act i && maskSource h a i) c.vl))
  | .maskFirst d a m =>
    let act := activeIn m (h.mreg m.toNat)
    h.setX d (match firstActive (fun i => act i && maskSource h a i) 0 c.vl with
      | some i => BitVec.ofNat 64 i
      | none => BitVec.allOnes 64)
  | .slideUp d a _ m =>
    let av := h.vreg a.toNat
    vecWrite h c d m lo hi (fun i _ => (crossRead av ew c.vlmax ((i : Int) - ((c.x 0).toNat : Int)), 0))
  | .slideDn d a _ m =>
    let av := h.vreg a.toNat
    vecWrite h c d m lo hi (fun i _ => (crossRead av ew c.vlmax ((i : Int) + ((c.x 0).toNat : Int)), 0))
  | .gather d a b m =>
    let av := h.vreg a.toNat
    let bv := h.vreg b.toNat
    vecWrite h c d m lo hi (fun i _ => (crossRead av ew c.vlmax (elem bv ew i : Nat), 0))
  | .compress d a m =>
    if c.vl = 0 then h
    else
      let act := activeIn m (h.mreg m.toNat)
      let r := compressLoop ew (h.vreg a.toNat) act lo (hi - lo) (h.vreg d.toNat) (countActive act lo)
      h.setVreg d.toNat (if c.vl ≤ hi then zeroTail ew r.2 r.1 else r.1)
  | .expand d a m =>
    if c.vl = 0 then h
    else
      let act := activeIn m (h.mreg m.toNat)
      let v := expandLoop ew (h.vreg a.toNat) act lo (hi - lo) (h.vreg d.toNat) (countActive act lo)
      h.setVreg d.toNat (if c.vl ≤ hi then zeroTail ew c.vl v else v)
  | .merge d a b m =>
    let av := h.vreg a.toNat
    let bv := h.vreg b.toNat
    let act := activeIn m (h.mreg m.toNat)
    vecWrite h c d 0 lo hi (fun i _ => (if act i then elem bv ew i else elem av ew i, 0))
  | .bcast d _ m => vecWrite h c d m lo hi (fun _ _ => ((c.x 0).toNat % 2 ^ ew, 0))
  | .extract d a _ =>
    h.setX d (zext ew (crossRead (h.vreg a.toNat) ew c.vlmax ((c.x 0).toNat : Int)))
  | .red op d a b m =>
    if c.vl = 0 then h
    else
      let r := reduceValue op c (activeIn m (h.mreg m.toNat)) (h.vreg a.toNat) (elem (h.vreg b.toNat) ew 0)
      (h.setVreg d.toNat r.1).raise (flagBits r.2)
  | .seq m d start inc =>
    vecWrite h c d m lo hi (fun i _ => (wrap ew (start.toInt + inc.toInt * (i : Int)), 0))
  | .fbcasti m d imm =>
    let v := if ew = 32 then imm.toNat else (bf16.round 0 (fp32.value imm.toNat)).1
    vecWrite h c d m lo hi (fun _ _ => (v, 0))
  | .bcasti m d imm => vecWrite h c d m lo hi (fun _ _ => (imm.toNat % 2 ^ ew, 0))
  | .rand m _ d sid kind =>
    vecWrite h c d m lo hi (fun _ old => (randElem ew kind.toNat (c.x 0).toNat sid.toNat old, 0))
  | _ => h

end Sys2Proof.Machine
end

