-- ==== Sys2Proof/Machine/VMem.lean ====
section
/-! DEFINITION. The vector memory instructions (R84, R85, R176 to R181), combining scatter (R283 to R285), paired
stores (R286) and progress stores (R287): the checks, the probe of every page before anything commits, the one record of
a fault, and the event itself. -/

namespace Sys2Proof.Machine

open Sys2Proof

/-- A virtual range that element i touches; `second` marks the second stream of a VSTP. -/
structure Touch where
  i      : Nat
  va     : Nat
  len    : Nat
  second : Bool := false
  deriving DecidableEq, Repr

/-- A fault met by the probe of an element. -/
structure TouchFault where
  i      : Nat
  f      : AFault
  second : Bool
  deriving DecidableEq, Repr

/-- The parts of a range within single granules, at most n of them. -/
def granulePartsUpTo : (n va len : Nat) → List (Nat × Nat)
  | 0, _, _ => []
  | n + 1, va, len =>
    if va % 65536 + len ≤ 65536 then [(va, len)]
    else
      let k := 65536 - va % 65536
      (va, k) :: granulePartsUpTo n (va + k) (len - k)

/-- The parts of a range within single granules. -/
def granuleParts (va len : Nat) : List (Nat × Nat) := granulePartsUpTo (len / 65536 + 2) va len

/-- Probe every range in turn (R84): all faults, and the parts when there is none. -/
def State.probeAll (s : State) (sp : Space) (k : AccKind) (ts : List Touch) : List TouchFault × List Piece :=
  ts.foldl (fun acc t =>
    (granuleParts t.va t.len).foldl (fun acc p =>
      match s.probe sp k p.1 with
      | .error f => (acc.1 ++ [⟨t.i, f, t.second⟩], acc.2)
      | .ok r => (acc.1, acc.2 ++ [⟨t.i, p.1, p.2, r, t.second⟩])) acc) ([], [])

/-- The distinct granules of some faults, in order of first touch, as FPLIST entries. -/
def faultPages : List TouchFault → List Nat → List Word
  | [], _ => []
  | t :: r, seen =>
    let g := bits t.f.addr 51 16
    if seen.contains g then faultPages r seen else fpEntry t.f.cause t.f.addr :: faultPages r (g :: seen)

/-- The record of a vector memory fault (R85): faults are in order of element index. -/
def vmemRecord (e : Entry) (fs : List TouchFault) : Option TrapRec :=
  match fs with
  | [] => none
  | t :: _ =>
    let pages := faultPages fs []
    some { cause := t.f.cause, pc := e.pc, addr := BitVec.ofNat 64 t.f.addr, eidx := t.i
           info := BitVec.ofNat 64 (t.f.code + min pages.length 255 * 256 + (if t.second then 2 ^ 24 else 0))
           fplist := pages.take 8, whereAt := if qIsMatrix e.op then .matrix else .vector }

/-- A STREAM trap of a queued instruction (R78). -/
def streamTrap (e : Entry) (code : Nat) : TrapRec :=
  { cause := causeStream, pc := e.pc, info := BitVec.ofNat 64 code, whereAt := .vector }

/-- The checks of R178 in order; the STREAM code of the first that fails. -/
def vmemCheck (r : StreamReg) (ew vl : Nat) (store displaced : Bool) : Option Nat :=
  let d := r.desc
  if !r.bound then some 6
  else if d.isStore != store then some 7
  else if widenRefused d.fmtCode ew then some 11
  else if displaced && d.blocky then some 12
  else if store && d.blocky && !(aligned r.pos.toNat 32 && aligned vl 32) then some 13
  else if d.total < r.pos.toNat + vl then some 8
  else none

/-- The displacement of i0 for element i: an index register's element, SLIDE, or nothing (R177). -/
inductive Displace where
  | none
  | slide
  | index (b : VReg)
  deriving DecidableEq, Repr

def displaceOf (h : Hart) (d : Desc) (ew : Nat) (x : Displace) (i : Nat) : Int :=
  match x with
  | .none => 0
  | .slide => d.slide.toInt
  | .index b => signed ew (elem (h.vreg b.toNat) ew i)

/-- The ranges that the active, unclipped elements below VL touch. -/
def touches (h : Hart) (r : StreamReg) (c : Cap) (m : MReg) (x : Displace) (second : Bool) : List Touch :=
  ((List.range c.vl).filter (fun i =>
      activeIn m (h.mreg m.toNat) i && !r.desc.clipped (r.pos.toNat + i) (displaceOf h r.desc c.ew x i))).map
    (fun i => ⟨i, r.desc.addr (r.pos.toNat + i) (displaceOf h r.desc c.ew x i), fmtBytes r.desc.fmtCode, second⟩)

/-! ### Committing -/

/-- The leaves that some parts used, each once. -/
def leavesOf (ps : List Piece) : List Leaf :=
  (ps.filterMap (fun p => p.reach.leaf)).eraseDups

/-- Zero-on-assign for every page touched (R68). -/
def State.assignAll (s : State) (ps : List Piece) : State := (leavesOf ps).foldl (fun s l => s.assignPage (some l)) s

/-- The page bits of every page touched (R69). -/
def State.markAll (s : State) (asid : Nat) (ps : List Piece) (write : Bool) (u : PageUse) : State :=
  (leavesOf ps).foldl (fun s l => s.markPage asid (some l) write u) s

/-- The caches' view of a committed vector access from core n: a read takes lines that hit in the core's data cache, and other lines
come from the memory-side cache, where an access that bypasses allocation takes up none (R41, R45, R120); a far write goes to the
far memory. -/
def State.touchFrom (s : State) (n : Nat) (ps : List Piece) (write alloc : Bool) : State :=
  let real := ps.filter (fun p => !p.reach.void)
  let lines := (real.flatMap (fun p => [p.reach.pa / 128 * 128, (p.reach.pa + p.len - 1) / 128 * 128])).eraseDups
  let s := lines.foldl (fun s l =>
    let s := if !write && (s.core n).dcacheHas l then s else s.mscTouch l 128 write alloc
    s.dcacheTouch n l false false) s
  if write then real.foldl (fun s p => s.farWriteBack p.reach.pa p.len) s else s

/-- That view of an access of hart g's own, which bypasses allocation under fixed timing (R45, R125). -/
def State.touchAll (s : State) (g : Nat) (ps : List Piece) (write alloc : Bool) : State :=
  s.touchFrom (coreOf g) ps write (alloc && !(s.hart g).fixed)

/-- The far granules that a committed instruction's parts touch are counted, each once for the instruction (R87). -/
def State.countPieces (s : State) (asid : Nat) (ps : List Piece) (counted : List Nat) : State :=
  s.countFarAll asid ((ps.filter (fun p => !p.reach.void)).map (fun p => p.reach.pa)) counted

/-- Bytes of element i as its parts reach them. -/
def State.elemBytes (s : State) (ps : List Piece) (i : Nat) : List Byte :=
  (ps.filter (fun p => p.i == i)).flatMap (fun p => s.load p.reach p.len)

/-- Bytes written through the parts of element i. -/
def State.storePieces (s : State) : List Piece → List Byte → State
  | [], _ => s
  | p :: r, bs =>
    let s := if p.reach.void then s else s.store p.reach.pa (bs.take p.len)
    State.storePieces s r (bs.drop p.len)

/-- Whether the parts of an access cover the n bytes from a. -/
def piecesCover (ps : List Piece) (a n : Nat) : Bool :=
  (List.range n).all (fun k => ps.any (fun p => decide (p.reach.pa ≤ a + k) && decide (a + k < p.reach.pa + p.len)))

/-- A poisoned block is clean once one event has written all 64 of its bytes (R48), and a poisoned word all 8 (R390). -/
def State.unpoison (s : State) (ps : List Piece) : State :=
  { s with
    poison := s.poison.filter (fun b => !piecesCover ps (64 * b) 64)
    poisonWords := s.poisonWords.filter (fun b => !piecesCover ps (8 * b) 8) }

/-- The poisoned block that an access to a part consumes: one that its walk read, or its own when it reads data (R48,
R390). -/
def State.poisonOf (s : State) (p : Piece) (reads : Bool) : Option Word :=
  match p.reach.taint with
  | some b => some (BitVec.ofNat 64 b)
  | none => if reads && !p.reach.void && s.poisoned p.reach.pa p.len then some (s.poisonAt p.reach.pa p.len) else none

/-- A context that consumes a poisoned block has an UNCORRECTABLE cause due; a job's goes to the hart that issued it if it still
runs (R48, R375). -/
def State.consumeFor (s : State) (asid g : Nat) (ps : List Piece) (reads : Bool := true) : State :=
  match ps.findSome? (fun p => (s.poisonOf p reads).map (fun b => (p.va, b))) with
  | none => s
  | some (va, b) => s.imprecise asid (some g) causeUncorrectable (BitVec.ofNat 64 va) b

/-- The same for an instruction of hart g. -/
def State.consume (s : State) (g : Nat) (ps : List Piece) (reads : Bool := true) : State :=
  s.consumeFor (s.hart g).asid.toNat g ps reads

/-- A walk that ends in a fault, or whose leaf is used for no data, has consumed a poisoned block that it read all the same (R48). -/
def State.walkConsumed (s : State) (sp : Space) (g va : Nat) : State :=
  match s.walkTaint sp va with
  | none => s
  | some b => s.imprecise sp.asid (some g) causeUncorrectable (BitVec.ofNat 64 va) (BitVec.ofNat 64 b)

/-- The same for the walks of a hart's faulting access, at the pages that its trap lists. -/
def State.trapWalks (s : State) (g : Nat) (r : TrapRec) : State :=
  r.fplist.foldl (fun s w => s.walkConsumed (s.space g) g (w.toNat / 65536 * 65536)) s

/-- The page use of an access through a stream (R69). Whether a block format counts, whose STRIDE0 is the block size, the manual
does not say; the model takes the block for the storage element (log entry 81, DESIGN CHOICE). -/
def useOf (d : Desc) (x : Displace) : PageUse :=
  match x with
  | .index _ => .gather
  | _ => if d.stride.d0.toNat = fmtBytes d.fmtCode then .useOnce else .plain

/-- A stream register moved on by VL, its prefetched positions used up. The 48-bit position of a stream of 2^48 elements wraps to
0 at its end (log entry 82, DESIGN CHOICE). -/
def StreamReg.moved (r : StreamReg) (vl : Nat) : StreamReg :=
  { r with pos := BitVec.ofNat 48 (r.pos.toNat + vl), prefetched := r.prefetched - vl }

/-! ### Probing (R84, R178) -/

/-- What the probe of a vector memory instruction comes to: the trap of the whole, or the parts it will touch. -/
abbrev Probed := Except TrapRec (List Piece)

/-- The outcome of probing some ranges. -/
def probedOf (e : Entry) (r : List TouchFault × List Piece) : Probed :=
  match vmemRecord e r.1 with
  | some t => .error t
  | none => .ok r.2

/-- The checks of R178, and the parts of a VLD, VST or one of their forms. -/
def State.probeStream (s : State) (g : Nat) (e : Entry) (c : Cap) (sn : SReg) (m : MReg) (x : Displace) (store : Bool)
    (k : AccKind) : Probed :=
  let h := s.hart g
  let r := h.stream sn.toNat
  match vmemCheck r c.ew c.vl store (x != .none) with
  | some code => .error (streamTrap e code)
  | none => if c.vl = 0 then .ok [] else probedOf e (s.probeAll (s.space g) k (touches h r c m x false))

/-- Address of a stream's progress word (R287). -/
def progressWord (d : Desc) : Nat := wrap 64 ((d.base.toNat : Int) - 8)

/-- VSTN: the data, and the progress word with it (R287). A fault of the progress word alone gets element index VL and the last
place in FPLIST, which the manual does not say (log entry 83, DESIGN CHOICE). -/
def State.probeNotify (s : State) (g : Nat) (e : Entry) (c : Cap) (sn : SReg) (m : MReg) : Probed :=
  let h := s.hart g
  let r := h.stream sn.toNat
  match vmemCheck r c.ew c.vl true false with
  | some code => .error (streamTrap e code)
  | none =>
    if !aligned r.desc.base.toNat 8 then
      .error { cause := causeMisalign, pc := e.pc, addr := BitVec.ofNat 64 (progressWord r.desc), whereAt := .vector }
    else if c.vl = 0 then .ok []
    else
      let d := s.probeAll (s.space g) .write (touches h r c m .none false)
      let w := s.probeAll (s.space g) .write [⟨c.vl, progressWord r.desc, 8, true⟩]
      probedOf e ((d.1 ++ w.1.map (fun t => { t with second := false }), d.2 ++ w.2))

/-- Faults of two streams in order of element index, the first stream before the second (R286). -/
def mergeFaults : List TouchFault → List TouchFault → List TouchFault
  | [], ys => ys
  | xs, [] => xs
  | x :: xs, y :: ys => if x.i ≤ y.i then x :: mergeFaults xs (y :: ys) else y :: mergeFaults (x :: xs) ys

/-- VSTP: both streams (R286). -/
def State.probePair (s : State) (g : Nat) (e : Entry) (c : Cap) (t2 sn : SReg) (m : MReg) : Probed :=
  let h := s.hart g
  let r1 := h.stream sn.toNat
  let r2 := h.stream t2.toNat
  match vmemCheck r1 c.ew c.vl true false, vmemCheck r2 c.ew c.vl true false with
  | some code, _ => .error (streamTrap e code)
  | none, some code => .error { streamTrap e code with info := BitVec.ofNat 64 (code + 2 ^ 24) }
  | none, none =>
    if c.vl = 0 then .ok []
    else
      let a := s.probeAll (s.space g) .write (touches h r1 c m .none false)
      let b := s.probeAll (s.space g) .write (touches h r2 c m .none true)
      probedOf e (mergeFaults a.1 b.1, a.2 ++ b.2)

/-! ### The events -/

/-- The register value and flags that a load gives element i. -/
def State.loadElem (s : State) (d : Desc) (ew : Nat) (ps : List Piece) (p i : Nat) (off : Int) : Nat × Nat :=
  if d.clipped p off then (d.fill.toNat % 2 ^ ew, 0)
  else if d.blocky then widenBlock d.fmtCode ew (s.elemBytes ps i) (p % d.count.d0.toNat % 32)
  else widen d.fmtCode ew (ofLe (s.elemBytes ps i))

/-- VLD, VLDX, VSLD and VLD.SEQ (R178): the reads of the elements from the entry's start index to `hi`, all of them but
for a .SEQ form that goes element by element, then the register, the flags and, at the end, the tail and P. -/
def State.vload (s : State) (g : Nat) (e : Entry) (c : Cap) (v : VReg) (sn : SReg) (m : MReg) (x : Displace) (hi : Nat)
    (all : List Piece) : State :=
  if c.vl = 0 then s
  else
    let h := s.hart g
    let r := h.stream sn.toNat
    let ps := all.filter (fun p => decide (e.eidx ≤ p.i) && decide (p.i < hi))
    let s := (s.assignAll ps).consume g ps
    let res := loopElems c.ew (activeIn m (h.mreg m.toNat))
      (fun i _ => s.loadElem r.desc c.ew ps (r.pos.toNat + i) i (displaceOf h r.desc c.ew x i)) e.eidx (hi - e.eidx)
      (h.vreg v.toNat, 0)
    let s := (s.markAll h.asid.toNat ps false (useOf r.desc x)).touchAll g ps false (!r.desc.bypass)
    let h := s.hart g
    let h := (h.setVreg v.toNat (if c.vl ≤ hi then zeroTail c.ew c.vl res.1 else res.1)).raise (flagBits res.2)
    if c.vl ≤ hi then (s.setHart g (h.setStream sn.toNat (r.moved c.vl))).countPieces h.asid.toNat all e.codeFar
    else s.setHart g h

/-- The value of a store's element as the format reads it; a masked-off or clipped element takes part in a block as +0
(R138). -/
def storeValue (h : Hart) (c : Cap) (v : VReg) (m : MReg) (r : StreamReg) (i : Nat) : FVal :=
  if activeIn m (h.mreg m.toNat) i && !r.desc.clipped (r.pos.toNat + i) 0 then
    (elFmt c.ew).value (elem (h.vreg v.toNat) c.ew i)
  else .zero false

/-- The bytes and flags that a store gives the touched element i: its own, or its whole block's. -/
def storeBytes (h : Hart) (c : Cap) (v : VReg) (m : MReg) (r : StreamReg) (i : Nat) : List Byte × Nat :=
  let d := r.desc
  if d.blocky then narrowBlock d.fmtCode ((List.range 32).map (fun j => storeValue h c v m r (i / 32 * 32 + j)))
  else
    let n := narrow d.fmtCode c.ew (elem (h.vreg v.toNat) c.ew i)
    (leBytes (fmtBytes d.fmtCode) n.1, n.2)

/-- Every touched element, of those with the indexes given, written in ascending index order, so that the highest index wins
(R179), with the flags. A block is written once, for the first of its elements. -/
def State.storeTouched (s : State) (h : Hart) (c : Cap) (v : VReg) (m : MReg) (r : StreamReg) (is : List Nat)
    (ps : List Piece) : State × Nat :=
  let firsts := if r.desc.blocky then is.filter (fun i => !is.any (fun j => decide (j < i) && j / 32 == i / 32)) else is
  firsts.foldl (fun acc i =>
    let b := storeBytes h c v m r i
    (acc.1.storePieces (ps.filter (fun p => p.i == i)) b.1, acc.2 ||| b.2)) (s, 0)

/-- A store's write through one stream: zero-on-assign, the bytes, page bits, caches. -/
def State.storeThrough (s : State) (g : Nat) (h : Hart) (c : Cap) (v : VReg) (m : MReg) (r : StreamReg)
    (ps : List Piece) (x : Displace) : State × Nat :=
  let s := (s.assignAll ps).consume g ps false
  let (s, fl) := s.storeTouched h c v m r ((ps.map (fun p => p.i)).eraseDups) ps
  let s := (s.unpoison ps).markAll h.asid.toNat ps true (useOf r.desc x)
  (s.touchAll g ps true (!r.desc.bypass), fl)

/-- VST, VSTX and VST.SEQ (R178), from the entry's start index to `hi`. -/
def State.vstore (s : State) (g : Nat) (e : Entry) (c : Cap) (v : VReg) (sn : SReg) (m : MReg) (x : Displace) (hi : Nat)
    (all : List Piece) : State :=
  if c.vl = 0 then s
  else
    let h := s.hart g
    let r := h.stream sn.toNat
    let ps := all.filter (fun p => decide (e.eidx ≤ p.i) && decide (p.i < hi))
    let (s, fl) := s.storeThrough g h c v m r ps x
    let h := (s.hart g).raise (flagBits fl)
    if c.vl ≤ hi then (s.setHart g (h.setStream sn.toNat (r.moved c.vl))).countPieces h.asid.toNat all e.codeFar
    else s.setHart g h

/-- VSTN's first event: the store (R287). -/
def State.vstoreData (s : State) (g : Nat) (c : Cap) (v : VReg) (sn : SReg) (m : MReg) (all : List Piece) : State :=
  let h := s.hart g
  let (s, fl) := s.storeThrough g h c v m (h.stream sn.toNat) (all.filter (fun p => !p.second)) .none
  s.setHart g ((s.hart g).raise (flagBits fl))

/-- VSTN's second event, once the data are visible: P + VL in the progress word at BASE − 8 (R287). -/
def State.vstoreNotify (s : State) (g : Nat) (e : Entry) (c : Cap) (sn : SReg) (all : List Piece) : State :=
  let r := (s.hart g).stream sn.toNat
  let ps := all.filter (fun p => p.second)
  let s := (s.assignAll ps).consume g ps false
  let s := s.storePieces ps (leBytes 8 (r.pos.toNat + c.vl))
  let s := ((s.unpoison ps).markAll (s.hart g).asid.toNat ps true .plain).touchAll g ps true (!r.desc.bypass)
  (s.setHart g ((s.hart g).setStream sn.toNat (r.moved c.vl))).countPieces (s.hart g).asid.toNat all e.codeFar

/-- VSTP (R286): the strip through both streams as one event. -/
def State.vstorePair (s : State) (g : Nat) (e : Entry) (c : Cap) (v : VReg) (t2 sn : SReg) (m : MReg) (all : List Piece) :
    State :=
  if c.vl = 0 then s
  else
    let h := s.hart g
    let r1 := h.stream sn.toNat
    let r2 := h.stream t2.toNat
    let (s, fl1) := s.storeThrough g h c v m r1 (all.filter (fun p => !p.second)) .none
    let (s, fl2) := s.storeThrough g h c v m r2 (all.filter (fun p => p.second)) .none
    let h' := ((s.hart g).raise (flagBits (fl1 ||| fl2))).setStream sn.toNat (r1.moved c.vl)
    (s.setHart g (h'.setStream t2.toNat (r2.moved c.vl))).countPieces h.asid.toNat all e.codeFar

/-! ### Combining scatter -/

/-- The storage format a VAMO member needs at an element width: exactly its element type (R284). -/
def amoFmt (op : VAmoOp) (ew : Nat) : Nat :=
  match op with
  | .addF => if ew = 32 then 0 else 1
  | .minF => if ew = 32 then 0 else 1
  | .maxF => if ew = 32 then 0 else 1
  | _ => if ew = 32 then 10 else 9

/-- The combination of the elements of one address in ascending order (Table 13-1): a value for the exact sum, element
bits for the other members, and flags. -/
def combineF (xs : List FVal) : FVal :=
  if xs.any FVal.isNan || xs.any (fun x => xs.any (fun y => oppositeInf x y)) then .nan (xs.any FVal.isSnan)
  else match xs with
    | [] => .zero false
    | x :: r => r.foldl (fun acc y => acc.addExact 0 y) x

/-- The update at the home (Table 13-1): the new element bits and flags. NF follows R152. -/
def amoUpdate (op : VAmoOp) (ew old : Nat) (xs : List Nat) : Nat × Nat :=
  let f := elFmt ew
  match op with
  | .addF =>
    let vs := xs.map f.value
    let sum := combineF vs
    let r := f.add 0 (f.value old) sum
    let invalid := if vs.any FVal.isSnan || (sum.isNan && !vs.any FVal.isNan) then flNV else 0
    let nf := if (f.value old).isFinite && vs.all FVal.isFinite && !(f.value r.1).isFinite then flNF else 0
    (r.1, r.2 ||| invalid ||| nf)
  | .minF => xs.foldl (fun acc x => let r := f.minmax false acc.1 x; (r.1, acc.2 ||| r.2)) (old, 0)
  | .maxF => xs.foldl (fun acc x => let r := f.minmax true acc.1 x; (r.1, acc.2 ||| r.2)) (old, 0)
  | .addW => (xs.foldl (fun acc x => (acc + x) % 2 ^ ew) old, 0)
  | .minW => (xs.foldl (fun acc x => (binElem .min ew 0 acc x).1) old, 0)
  | .maxW => (xs.foldl (fun acc x => (binElem .max ew 0 acc x).1) old, 0)

/-- The update of every distinct address (R284), in order of first use; the updates touch disjoint words. -/
def State.amoAll (s : State) (op : VAmoOp) (ew src : Nat) (ps : List Piece) : State × Nat :=
  let firsts := ps.filter (fun p => !ps.any (fun q => decide (q.i < p.i) && q.va == p.va))
  firsts.foldl (fun acc p =>
    let xs := (ps.filter (fun q => q.va == p.va)).map (fun q => elem src ew q.i)
    let u := amoUpdate op ew (ofLe (acc.1.load p.reach p.len)) xs
    (acc.1.storePieces [p] (leBytes (ew / 8) u.1), acc.2 ||| u.2)) (s, 0)

/-- VAMO's checks and parts (R284). -/
def State.probeAmo (s : State) (g : Nat) (e : Entry) (c : Cap) (op : VAmoOp) (b : VReg) (sn : SReg) (m : MReg) : Probed :=
  let h := s.hart g
  let r := h.stream sn.toNat
  match vmemCheck r c.ew c.vl true true with
  | some code => .error (streamTrap e code)
  | none =>
    if r.desc.fmtCode ≠ amoFmt op c.ew then .error (streamTrap e 11)
    else if c.vl = 0 then .ok []
    else probedOf e (s.probeAll (s.space g) .atomic (touches h r c m (.index b) false))

/-- VAMO (R284, R285), executed at the homes of its addresses. That it clears UO where it sets GR is the model's reading of R69's
rule for indexed accesses (log entry 84, DESIGN CHOICE). -/
def State.vamo (s : State) (g : Nat) (e : Entry) (c : Cap) (op : VAmoOp) (v : VReg) (sn : SReg) (all : List Piece) : State :=
  if c.vl = 0 then s
  else
    let h := s.hart g
    let r := h.stream sn.toNat
    let s := (s.assignAll all).consume g all
    let (s, fl) := s.amoAll op c.ew (h.vreg v.toNat) all
    let s := s.markAll h.asid.toNat all true .gather
    let s := (all.filter (fun p => !p.reach.void)).foldl (fun s p =>
      s.homeTouched p.reach.pa p.len true (!r.desc.bypass && !h.fixed)) s
    (s.setHart g (((s.hart g).raise (flagBits fl)).setStream sn.toNat (r.moved c.vl))).countPieces h.asid.toNat all e.codeFar

end Sys2Proof.Machine
end

