-- ==== Sys2Proof/Machine/Signals.lean ====
section
/-! DEFINITION. The completion objects (R98, R102, R106, R109, R110): the ARRIVE register with the event latch (R319),
signal words with their mirrors, and the barrier record. Each operation here is one event at the object's home. -/

namespace Sys2Proof.Machine

open Sys2Proof

/-! ### Waiting for the vector stream -/

/-- Whether FENCE.VS waits for an operation: it makes an event of the vector stream (Table 16-1), or it is a RECV, whose
observation the scalar stream follows after a FENCE.VS (R364). -/
def qMakesEvent (q : QOp) : Bool :=
  match q with
  | .ld .. => true
  | .ldx .. => true
  | .st .. => true
  | .stx .. => true
  | .sld .. => true
  | .ldSeq .. => true
  | .stSeq .. => true
  | .stn .. => true
  | .amo .. => true
  | .stp .. => true
  | .sdesc .. => true
  | .ssave .. => true
  | .copy .. => true
  | .copyf .. => true
  | .mldb .. => true
  | .mrun .. => true
  | .rsig .. => true
  | .recv .. => true
  | _ => false

/-- Whether an operation issues a copy. -/
def qIsCopy (q : QOp) : Bool :=
  match q with
  | .copy .. => true
  | .copyf .. => true
  | _ => false

/-- Whether every vector-stream event before this point has taken place (R360). -/
def Hart.eventsDone (h : Hart) : Bool := !(h.vq ++ h.mq).any (fun e => qMakesEvent e.op)

/-- Whether every copy posted before this point has issued (R101, R103, R105). -/
def Hart.copiesIssued (h : Hart) : Bool := !h.vq.any (fun e => qIsCopy e.op)

/-- The effect of FENCE.VS: wait until every vector-stream event of this hart has taken place. -/
def State.fenceVs (s : State) (o : Out) : Out := if s.cur.eventsDone then o else .next s

/-- Wait until every copy posted earlier has issued. -/
def State.afterCopies (s : State) (o : Out) : Out := if s.cur.copiesIssued then o else .next s

/-! ### The event latch and ARRIVE -/

/-- Hart g's event latch is set (R319). -/
def State.wake (s : State) (g : Nat) : State := s.setHart g { s.hart g with latch := true }

/-- Every hart's event latch is set (R319, R400). -/
def State.wakeAll (s : State) : State :=
  { s with harts := (List.range Config.harts).foldl (fun t g => tput t g { tget t g {} with latch := true }) s.harts }

/-- ARRIVE bit t of core n is set; a change wakes the hart that owns the tag (R98, R319). -/
def State.setArrive (s : State) (n t : Nat) : State :=
  let c := s.core n
  if bit c.arrive.toNat t then s
  else
    let s := s.setCore n { c with arrive := c.arrive ||| BitVec.ofNat 64 (2 ^ t) }
    (List.range 4).foldl (fun s k =>
      if bit (s.hart (4 * n + k)).tagown.toNat t then s.wake (4 * n + k) else s) s

/-- Some ARRIVE bits of core n are cleared. -/
def State.clearArrive (s : State) (n : Nat) (mask : Word) : State :=
  let c := s.core n
  s.setCore n { c with arrive := c.arrive &&& ~~~mask }

/-! ### Signal words (R109, R110) -/

/-- Whether a translated address lies in a region where a signal word may stand: nothing, or the PERM code (R109). -/
def State.signalRegion (s : State) (sp : Space) (pa : Nat) : Option Nat :=
  match placeOf pa with
  | .hbm => none
  | .sram c => if c = sp.cluster ∨ sp.anySram then none else some 5
  | .pool n => if n / 32 ≠ sp.cluster then some 5 else if s.inScratch n pa then none else some 6
  | _ => some 6

/-- Whether a pool window reads zero and discards writes for a context (R118). -/
def State.voidFor (s : State) (asid pa : Nat) : Bool :=
  match placeOf pa with
  | .pool n => s.coreIdle n || (s.core n).owner != some asid || !s.inScratch n pa
  | _ => false

/-- The message of a mirrored word's record (Table 4-6). -/
def State.mirrorMessage (s : State) (record : Nat) : Message :=
  .mirrorWrite (BitVec.ofNat 64 (readNat s.mem record 8)) (readNat s.mem (record + 8) 4) (readNat s.mem (record + 12) 4)
    (readBytes s.mem (record + 16) 16)

/-- The registration of a word, if it has one. -/
def State.mirrorOf (s : State) (pa : Nat) : Option Mirror := s.mirrors.find? (fun m => m.sig == pa)

/-- The word at pa changes from 1 to 0 and is mirrored: far writes still in data caches are made visible first, and the record's
message is sent (R110, R367); a launch's registration then ends (R409). -/
def State.fireMirror (s : State) (m : Mirror) : State :=
  let s := s.farClean.emit (s.mirrorMessage m.record)
  if m.task.isSome then { s with mirrors := s.mirrors.filter (fun q => q.sig != m.sig) } else s

/-- One decrement of the word at pa, of any kind: modulo 2^64, with the mirror of a change from 1 to 0 (R109, R110). The
second part is the old value. -/
def State.sigDecAt (s : State) (pa : Nat) : State × Word :=
  let old := BitVec.ofNat 64 (readNat s.mem pa 8)
  let s := s.store pa (leBytes 8 (old - 1).toNat)
  match s.mirrorOf pa with
  | some m => (if old = 1 then s.fireMirror m else s, old)
  | none => (s, old)

/-- The poisoned mirror record that a decrement of the word at pa reads, if it fires one (R48). -/
def State.mirrorPoison (s : State) (pa : Nat) : Option Word :=
  match s.mirrorOf pa with
  | some m => if readNat s.mem pa 8 = 1 ∧ s.poisoned m.record 32 then some (s.poisonAt m.record 32) else none
  | none => none

/-- What a completion action meets (R440): its fault, or the physical place it may use. -/
def State.actionAt (s : State) (sp : Space) (k : AccKind) (va : Nat) : Except AFault Reach :=
  match s.translate sp k va with
  | .error f => .error f
  | .ok (pa, leaf) => .ok ⟨pa, leaf, s.voidFor sp.asid pa, s.walkTaint sp va⟩

/-- The place of a signal word for a decrement or a wait, with the regions of R109. -/
def State.signalAt (s : State) (sp : Space) (k : AccKind) (va : Nat) : Except AFault Reach :=
  match s.actionAt sp k va with
  | .error f => .error f
  | .ok r =>
    match s.signalRegion sp r.pa with
    | some code => .error ⟨causePerm, va, code⟩
    | none => .ok r

/-- A decrement through a translation, executed at the word's home, with its page bits (R69); hart g of the space's context, or
a job of it, consumes the old value when that is read on this device, and the record of a mirror that fires (R48, R390). -/
def State.sigDecThrough (s : State) (sp : Space) (g : Nat) (reads : Bool) (va : Nat) (r : Reach) : State × Word :=
  let s := (s.assignPage r.leaf).consumeFor sp.asid g [{ i := 0, va := va, len := 8, reach := r }] reads
  if r.void then (s.markPage sp.asid r.leaf true .plain, 0)
  else
    let s := match s.mirrorPoison r.pa with
      | some b => s.imprecise sp.asid (some g) causeUncorrectable 0 b
      | none => s
    let (s, old) := (s.dcacheClean r.pa 8).sigDecAt r.pa
    ((s.markPage sp.asid r.leaf true .plain).homeTouched r.pa 8 true (!sp.fixed), old)

/-! ### Barrier records (R104 to R107) -/

/-- A barrier record (Table 4-5). -/
structure BarRec where
  members : Nat
  arrived : Nat
  pending : Nat
  err     : Bool
  phase   : Nat
  deriving DecidableEq, Repr

def State.barRead (s : State) (pa : Nat) : BarRec :=
  let p := readNat s.mem (pa + 8) 8
  { members := readNat s.mem pa 4, arrived := readNat s.mem (pa + 4) 4, pending := bits p 39 0, err := bit p 63,
    phase := readNat s.mem (pa + 16) 8 }

/-- The updated fields of a record; MEMBERS and the zero doubleword stay as software left them. -/
def State.barWrite (s : State) (pa : Nat) (b : BarRec) : State :=
  s.store (pa + 4)
    (leBytes 4 b.arrived ++ leBytes 8 (b.pending % 2 ^ 40 + (if b.err then 2 ^ 63 else 0)) ++ leBytes 8 b.phase)

/-- Harts that wait on the record wake when its phase completes (R319). -/
def State.wakeBarrier (s : State) (pa : Nat) : State :=
  { s with harts := s.harts.map (fun p => (p.1, if p.2.waitsOn = some pa then { p.2 with latch := true } else p.2)) }

/-- complete_if_done (R105). -/
def State.barSettle (s : State) (pa : Nat) (b : BarRec) : State :=
  if b.arrived = b.members ∧ b.pending = 0 then
    (s.barWrite pa { b with arrived := 0, phase := (b.phase + 1) % 2 ^ 64 }).wakeBarrier pa
  else s.barWrite pa b

/-- A copy's credit of n bytes (R106). -/
def State.barCredit (s : State) (pa n : Nat) : State :=
  let b := s.barRead pa
  if b.err then s
  else if b.pending < n then s.barWrite pa { b with err := true }
  else s.barSettle pa { b with pending := b.pending - n }

end Sys2Proof.Machine
end

