-- ==== Sys2Proof/Machine/Actions.lean ====
section
/-! DEFINITION. What completes a job: the dispatcher's supply of an absent page (R96, R440), a task's dependence decrement
(R98, R335), and completion actions at an address with their outcomes (R440). -/

namespace Sys2Proof.Machine

open Sys2Proof

/-! ### Pages the dispatcher supplies -/

/-- Address of the level-3 entry that is absent on the walk of a virtual address, if that is where the walk ends. -/
def absentSlot (m : Memory) (va : Nat) : Nat → List (Nat × Nat) → Option Nat
  | _, [] => none
  | node, (level, lo) :: rest =>
    let entryAt := node + 8 * bits va (lo + 8) lo
    let e := readNat m entryAt 8
    if level = 3 then (if pteV e then none else some entryAt)
    else if pteV e && pteT e && !pointerBad level e then absentSlot m va (ptePA e) rest
    else none

/-- Whether n bytes from a physical address contain a page that has been retired (R396). -/
def State.retiredIn (s : State) (pa n : Nat) : Bool :=
  s.retiredAt.any (fun p => decide (pa / 65536 ≤ p) && decide (p * 65536 < pa + n))

/-- A zeroed page of 64 KiB at `pa` supplied for a virtual address of a context, with some of the rights R 4, W 8 and X 16.
It needs a level-3 node that is there and an aligned page in HBM that has not been retired (R396); otherwise nothing happens (log entry 19). -/
def State.supplyPageAs (s : State) (root va pa rights : Nat) : State :=
  if aligned pa 65536 ∧ pa + 65536 ≤ Config.hbmBytes ∧ !s.retiredIn pa 65536 then
    match absentSlot s.mem va root walkLevels with
    | none => s
    | some at_ =>
      (s.erase pa 65536).store at_ (leBytes 8 (pa + rights % 32 / 4 * 4 + 1))
  else s

/-- A page supplied readable and writable, as a job needs it. -/
def State.supplyPage (s : State) (root va pa : Nat) : State := s.supplyPageAs root va pa 12

/-- Whether a fault is an absent page, which the dispatcher may supply. -/
def AFault.absent (f : AFault) : Bool := f.cause == causeLoadAbsent || f.cause == causeStoreAbsent

/-- How an attempt that may meet an absent page ends: it is done, it waits for a page in a state that may hold one
supplied already, or it has faulted for good, in the state with a page that came before the fault. -/
inductive Attempt (α : Type) where
  | done (a : α)
  | waits (s : State)
  | fails (f : AFault) (s : State)

/-- An attempt with what the dispatcher does about an absent page: it waits, is tried again with the page, or fails. -/
def State.withSupply {α : Type} (s : State) (root : Nat) (supply : PageSupply) (try_ : State → Except AFault α) : Attempt α :=
  match try_ s with
  | .ok a => .done a
  | .error f =>
    if f.absent then
      match supply with
      | .absent => .waits s
      | .decline => .fails f s
      | .supply pa =>
        let s' := s.supplyPage root f.addr pa
        match try_ s' with
        | .ok a => .done a
        | .error f' => if f'.absent then .waits s' else .fails f' s'
    else .fails f s

/-! ### Tasks -/

/-- The task with an identifier. -/
def State.task (s : State) (id : Nat) : Option Task := s.tasks.find? (fun t => t.id == id)

/-- A task replaced, found by its identifier and its place in intake order. -/
def State.setTask (s : State) (t : Task) : State :=
  { s with tasks := s.tasks.map (fun u => if u.id == t.id && u.order == t.order then t else u) }

/-- A copy's dependence decrement of a context's task (R98, R335): nothing when it is discarded. One that comes before the
packet has been read is held (R329). -/
def State.depDecrement (s : State) (asid id copy : Nat) : Option State :=
  match s.tasks.find? (fun t => t.id == id && t.asid == asid) with
  | none => none
  | some t =>
    match t.st with
    | .posted => some (s.setTask { t with early := t.early ++ [copy] })
    | .waiting => if t.dep = 0 then none else some (s.setTask { t with dep := t.dep - 1 })
    | _ => none

/-! ### Completion actions (R440) -/

/-- The place of a barrier record that a copy credits: in the issuing core's cluster SRAM (R440). A record elsewhere is
the fault of an address outside the cluster, PERM with code 5 (log entry 20). -/
def State.barrierAt (s : State) (sp : Space) (va : Nat) : Except AFault Reach :=
  match s.actionAt sp .atomic va with
  | .error f => .error f
  | .ok r => if placeOf r.pa = .sram sp.cluster then .ok r else .error ⟨causePerm, va, 5⟩

/-- A signal word's decrement as a completion action of a job that hart g issued. -/
def State.sigAction (s : State) (sp : Space) (g va : Nat) : Except AFault State :=
  match s.signalAt sp .atomic va with
  | .error f => .error f
  | .ok r => .ok (s.sigDecThrough sp g true va r).1

/-- A barrier credit of n bytes as a completion action of a job that hart g issued. -/
def State.creditAction (s : State) (sp : Space) (g va n : Nat) : Except AFault State :=
  match s.barrierAt sp va with
  | .error f => .error f
  | .ok r =>
    let s := (s.assignPage r.leaf).consumeFor sp.asid g [{ i := 0, va := va, len := 24, reach := r }]
    .ok ((s.barCredit r.pa n).markPage sp.asid r.leaf true .plain)

/-- A discarded action ends its context with the fault's cause and code, at a hart of the context; the record names the one page
(R375, R439, R440, Table 17-2). -/
def State.actionFailed (s : State) (asid : Nat) (g : Option Nat) (f : AFault) : State :=
  if recordsPage f.cause then
    s.imprecise asid g f.cause (BitVec.ofNat 64 f.addr) 0 (BitVec.ofNat 64 (f.code + 256)) [fpEntry f.cause f.addr]
  else s.imprecise asid g f.cause (BitVec.ofNat 64 f.addr) 0 (BitVec.ofNat 64 f.code)

end Sys2Proof.Machine
end

