-- ==== Sys2Proof/Machine/Copies.lean ====
section
/-! DEFINITION. Copies (R92 to R101): the checks at issue, the transfer unit by unit, barrier credits, and the completion
actions. A unit is one element, or one block of 32 elements of a block format. -/

namespace Sys2Proof.Machine

open Sys2Proof

/-- What a queued instruction comes to when it is tried: it waits, perhaps with a request made, it traps, or it completes
with its effects. -/
inductive QRes where
  | wait (s : State)
  | trap (r : TrapRec)
  | done (s : State)

/-! ### Units and footprints -/

/-- Positions in a unit. -/
def Desc.unit (d : Desc) : Nat := if d.blocky then 32 else 1

/-- The virtual addresses of the unclipped units of a descriptor (R97). -/
def Desc.unitAddrs (d : Desc) : List Nat :=
  ((List.range (d.total / d.unit)).filter (fun k => !d.clipped (k * d.unit) 0)).map (fun k => d.addr (k * d.unit) 0)

/-- The footprint of a stream: the lowest address and one past the highest of its unclipped elements (R97). -/
def Desc.footprint (d : Desc) : Option (Nat × Nat) :=
  match d.unitAddrs with
  | [] => none
  | a :: r => some (r.foldl Nat.min a, r.foldl Nat.max a + fmtBytes d.fmtCode)

/-- Whether two footprints overlap. -/
def footprintsMeet (a b : Option (Nat × Nat)) : Bool :=
  match a, b with
  | some (l, h), some (m, k) => decide (l < k) && decide (m < h)
  | _, _ => false

/-- Whether a new copy must wait for one in flight (R97). -/
def copyMustWait (c : Copy) (src : Option Desc) (dst : Desc) : Bool :=
  let cs := match c.sr with
    | some d => d.footprint
    | none => none
  let cd := c.dst.footprint
  let mine := match src with
    | some d => d.footprint
    | none => none
  footprintsMeet dst.footprint cs || footprintsMeet dst.footprint cd || footprintsMeet mine cd

/-- The stored bytes of the destination descriptor's or source descriptor's FILL (R95): FP32 bits for a floating-point
format, INT32 for an integer one, narrowed with RNE; a block as 32 equal values. -/
def fillBytes (fmt : Nat) (fill : BitVec 32) : List Byte :=
  if isBlock fmt then (narrowBlock fmt (List.replicate 32 (fp32.value fill.toNat))).1
  else leBytes (fmtBytes fmt) (narrow fmt 32 fill.toNat).1

/-! ### The transfer -/

/-- The address space of a copy's completion actions: that of its issuing core (R440). -/
def Copy.home (c : Copy) : Space :=
  { asid := c.asid, root := c.ptbase.toNat, core := none, cluster := c.core / 32 % 4, fixed := c.fixed }

/-- The address space of a copy's data (R96): the SRAM of every cluster, and the pool windows of its own. A copy task has
no issuing core, and so no cluster 0 to 3. -/
def Copy.space (c : Copy) : Space :=
  { c.home with cluster := if c.task.isSome then 4 else c.core / 32 % 4, anySram := true }

/-- The core on which a copy's tag stands: that of its issuer's run, or the one that the run ended on; none while the gang is off its
cores (R100, R324). -/
def State.copyCore (s : State) (c : Copy) : Option Nat :=
  match (s.harts.find? (fun p => p.2.runId == c.runId && (p.2.run == .running || p.2.task.isSome))) with
  | some p => some (coreOf p.1)
  | none => (s.cores.find? (fun q => q.2.endedRuns.any (fun r => r.1 == c.runId))).map (fun q => q.1)

/-- The hart that the run of a copy's issuer stands on now, or none of this device's (R375). -/
def State.hartOfRun (s : State) (c : Copy) : Nat :=
  if c.task.isSome then Config.harts
  else s.runHart c.runId

/-- The parts of a unit's range within single granules, each translated (R96). -/
def State.unitPieces (s : State) (sp : Space) (k : AccKind) (va n : Nat) : Except AFault (List Piece) :=
  match s.probeAll sp k [⟨0, va, n, false⟩] with
  | (f :: _, _) => .error f.f
  | ([], ps) => .ok ps

/-- What a job's access leaves in the caches: lines supplied by data caches (R288), the memory-side cache (R41, R45), the far
memory. -/
def State.jobTouched (s : State) (ps : List Piece) (write alloc : Bool) : State :=
  (ps.filter (fun p => !p.reach.void)).foldl (fun s p => s.homeTouched p.reach.pa p.len write alloc) s

/-- Bytes of a unit of the copy, which are those credited for it. -/
def Copy.unitBytes (c : Copy) : Nat := fmtBytes c.dst.fmtCode

/-- First positions of the copy's units. -/
def Copy.starts (c : Copy) : List Nat := (List.range (c.dst.total / c.dst.unit)).map (fun k => k * c.dst.unit)

/-- Whether the unit at position p is clipped in the source. -/
def Copy.srcClipped (c : Copy) (p : Nat) : Bool :=
  match c.sr with
  | some r => r.clipped p 0
  | none => false

/-- The part of the unit at position p that lies in the aligned 64-byte block b of the destination: its offset in the unit and
its length, which is 0 when none does. -/
def Copy.partIn (c : Copy) (p b : Nat) : Nat × Nat :=
  let a := c.dst.addr p 0
  let lo := max a (64 * b)
  (lo - a, min (a + c.unitBytes) (64 * b + 64) - lo)

/-- The 64-byte blocks that the unit at position p lies in. -/
def Copy.blocksOf (c : Copy) (p : Nat) : List Nat :=
  let a := c.dst.addr p 0
  (List.range ((a % 64 + c.unitBytes + 63) / 64)).map (fun k => a / 64 + k)

/-- The units that are written, at least in part, in block b, in ascending order. -/
def Copy.unitsIn (c : Copy) (b : Nat) : List Nat :=
  c.starts.filter (fun p => !c.dst.clipped p 0 && decide (0 < (c.partIn p b).2))

/-- The source address of the part of a unit that block b takes, when it is read at all. -/
def Copy.sourceAt (c : Copy) (p b : Nat) : Option Nat :=
  match c.sr with
  | none => none
  | some r => if r.clipped p 0 then none else some (r.addr p 0 + (c.partIn p b).1)

/-- Whether a unit's part in a block still to be written takes bytes from the aligned source word w. -/
def Copy.needsWord (c : Copy) (written : List Nat) (w : Nat) : Bool :=
  c.starts.any (fun p => !c.dst.clipped p 0 && (c.blocksOf p).any (fun b => !written.contains b &&
    (match c.sourceAt p b with
     | some a => decide (a / 8 ≤ w) && decide (8 * w < a + (c.partIn p b).2)
     | none => false)))

/-- The bytes of a source range: those of a word that an earlier block has taken as that block found them (R99), the others
from memory. -/
def State.sourceBytes (s : State) (c : Copy) (ps : List Piece) (va n : Nat) : List Byte :=
  (List.range n).map (fun k =>
    match tfind c.heldWords ((va + k) / 8) with
    | some v => BitVec.ofNat 8 (v / 256 ^ ((va + k) % 8))
    | none =>
      match ps.find? (fun p => decide (p.va ≤ va + k) && decide (va + k < p.va + p.len)) with
      | some p => if p.reach.void then 0 else readByte s.mem (p.reach.pa + (va + k - p.va))
      | none => 0)

/-- The aligned source words that a range touches, with what they hold now. -/
def State.sourceWords (s : State) (c : Copy) (ps : List Piece) (va n : Nat) : Tab Nat :=
  (List.range ((va % 8 + n + 7) / 8)).map (fun k =>
    let w := va / 8 + k
    (w, match tfind c.heldWords w with
        | some v => v
        | none => match ps.find? (fun p => decide (p.va / 8 ≤ w) && decide (8 * w < p.va + p.len)) with
          | some p => if p.reach.void then 0 else readNat s.mem (p.reach.pa + 8 * w - p.va) 8
          | none => 0))

/-- What a unit's part in block b comes to: the bytes to write, and the source parts that were read; `side` of a fault is true
for the destination. A part in the Braid window that R292 refuses faults with PERM code 8 like any other (R96, R298). -/
def State.copyPart (s : State) (c : Copy) (b p : Nat) : Except (AFault × Nat × Bool) (State × Copy × List Piece) :=
  let sp := c.space
  let (off, n) := c.partIn p b
  let g := s.hartOfRun c
  let read : Except (AFault × Nat × Bool) (State × Copy × List Byte) :=
    match c.sr, c.sourceAt p b with
    | some r, some a =>
      match s.unitPieces sp .read a n with
      | .error f => .error (f, p, false)
      | .ok ps =>
        let s := (s.assignAll ps).consumeFor c.asid g ps
        let bs := s.sourceBytes c ps a n
        let held := (s.sourceWords c ps a n).foldl (fun t q => tput t q.1 q.2) c.heldWords
        let s := (s.markAll c.asid ps false .plain).jobTouched ps false (!r.bypass && !c.fixed)
        let far := (farGranules ((ps.filter (fun q => !q.reach.void)).map (fun q => q.reach.pa))).filter
          (fun k => !c.counted.contains (2 * k))
        let s := far.foldl (fun s k => s.countFar c.asid (k * 65536)) s
        .ok (s, { c with heldWords := held, counted := c.counted ++ far.map (fun k => 2 * k) }, bs)
    | some r, none => .ok (s, c, ((fillBytes c.dst.fmtCode r.fill).drop off).take n)
    | none, _ => .ok (s, c, ((fillBytes c.dst.fmtCode c.dst.fill).drop off).take n)
  match read with
  | .error f => .error f
  | .ok (s, c, bs) =>
    match s.unitPieces sp .write (c.dst.addr p 0 + off) n with
    | .error f => .error (f, p, true)
    | .ok ps =>
      let s := ((s.assignAll ps).consumeFor c.asid g ps false).storePieces ps bs
      .ok (s, c, ps)

/-- The parts of a block's units, one after the other, with the places they wrote. -/
def State.copyParts (s : State) (c : Copy) (b : Nat) (done : List Piece) :
    List Nat → Except (AFault × Nat × Bool) (State × Copy × List Piece)
  | [] => .ok (s, c, done)
  | p :: rest =>
    match s.copyPart c b p with
    | .error f => .error f
    | .ok (s, c, ps) => State.copyParts s c b (done ++ ps) rest

/-- One event of a copy (R357): everything that it writes in the aligned 64-byte block b of its destination. -/
def State.copyBlock (s : State) (c : Copy) (b : Nat) : Except (AFault × Nat × Bool) (State × Copy) :=
  match s.copyParts c b [] (c.unitsIn b) with
  | .error f => .error f
  | .ok (s, c, ps) =>
    let s := ((s.unpoison ps).markAll c.asid ps true .plain).jobTouched ps true (!c.dst.bypass && !c.fixed)
    let far := (farGranules ((ps.filter (fun q => !q.reach.void)).map (fun q => q.reach.pa))).filter
      (fun k => !c.counted.contains (2 * k + 1))
    let s := far.foldl (fun s k => s.countFar c.asid (k * 65536)) s
    let written := c.written ++ [b]
    .ok (s, { c with
      written := written, counted := c.counted ++ far.map (fun k => 2 * k + 1)
      heldWords := c.heldWords.filter (fun q => c.needsWord written q.1) })

/-- A copy replaced. -/
def State.setCopy (s : State) (id : Nat) (c : Copy) : State := { s with copies := tput s.copies id c }

/-- Whether a copy credits a barrier (flag BAR). -/
def Copy.credits (c : Copy) : Bool := c.flags.getLsbD 3

/-- A barrier credit of n bytes, when the copy makes one: R440's outcomes are the attempt's. -/
def State.copyCredit (s : State) (c : Copy) (n : Nat) : Except AFault State :=
  if c.credits && n != 0 then s.creditAction c.home (s.hartOfRun c) c.barAddr.toNat n else .ok s

/-- Whether every block of the unit at position p is written; of one that is clipped in the destination, nothing is to be
written. -/
def Copy.handled (c : Copy) (p : Nat) : Bool := c.dst.clipped p 0 || (c.blocksOf p).all c.written.contains

/-- The first position from p on whose unit is not handled, or the end. -/
def Copy.nextFrom (c : Copy) (p : Nat) : Nat :=
  match leastFrom (fun k => !c.handled (k * c.dst.unit)) (c.dst.total / c.dst.unit - p / c.dst.unit) (p / c.dst.unit) with
  | some k => k * c.dst.unit
  | none => c.dst.total

/-- Positions of the units from p to q that are clipped in either stream. -/
def Copy.clippedIn (c : Copy) (p q : Nat) : Nat :=
  c.dst.unit * ((c.starts.filter (fun k => decide (p ≤ k) && decide (k < q) && (c.dst.clipped k 0 || c.srcClipped k))).length)

/-- Bytes of units clipped in the destination from p to q. -/
def Copy.skippedBytes (c : Copy) (p q : Nat) : Nat :=
  c.unitBytes * ((c.starts.filter (fun k => decide (p ≤ k) && decide (k < q) && c.dst.clipped k 0)).length)

/-- A copy moved on past the units that are handled, with the bytes that n written ones and the clipped ones credit. -/
def Copy.movedOn (c : Copy) (n : Nat) : Copy × Nat :=
  let q := c.nextFrom c.pos
  let k := n + c.skippedBytes c.pos q
  ({ c with pos := q, clipped := c.clipped + c.clippedIn c.pos q, credited := c.credited + k }, k)

/-- The copy ends in FAULT at a position (R96), with the cause and the PERM code of its fault (R439; COPYSTAT has no bits for the
code): its barrier credit is the full declared count. -/
def Copy.faulted (c : Copy) (p : Nat) (f : AFault) (dest : Bool) : Copy :=
  { c with st := .fault, cause := f.cause, code := f.code, faultPos := p, fside := dest }

/-- A fault of a copy's next event: of its transfer, at a position and in the source or the destination; or of its barrier credit,
with the state in which the block has landed and the copy has moved on. -/
inductive CopyFault where
  | transfer (f : AFault) (pos : Nat) (dest : Bool)
  | credit (f : AFault) (landed : State)

/-- The fault of an access. -/
def CopyFault.fault (x : CopyFault) : AFault :=
  match x with
  | .transfer f _ _ => f
  | .credit f _ => f

/-- The next event of a running copy with its credit, as one attempt: the state with the copy moved on. Blocks are written in the
order of the lowest position that they hold (log entry 87, DESIGN CHOICE). -/
def State.copyStep (s : State) (id : Nat) (c : Copy) : Except CopyFault State :=
  let credit := fun (s : State) (c : Copy) (n : Nat) =>
    let r := c.movedOn n
    match s.copyCredit c r.2 with
    | .error f => Except.error (CopyFault.credit f (s.setCopy id { r.1 with flags := 0 }))
    | .ok s => .ok (s.setCopy id r.1)
  match (c.blocksOf c.pos).find? (fun b => !c.written.contains b) with
  | none => credit s c 0
  | some b =>
    if c.handled c.pos then credit s c 0
    else
      match s.copyBlock c b with
      | .error (f, p, side) => .error (.transfer f p side)
      | .ok (s, c) => credit s c (((c.unitsIn b).map (fun p => (c.partIn p b).2)).sum)

/-- The rest of a faulted copy's credit (R96). -/
def Copy.remaining (c : Copy) : Nat := c.declared - c.credited

/-- Whether the next block of a copy waits for a port that retrains, at its source or its destination (R291, R298). -/
def State.copyHeld (s : State) (c : Copy) : Bool :=
  let waits := fun (k : AccKind) (va n : Nat) => match s.unitPieces c.space k va n with
    | .ok ps => ps.any (fun q => s.reachWaits q.reach)
    | .error _ => false
  !s.ports.isEmpty && (match (c.blocksOf c.pos).find? (fun b => !c.written.contains b) with
    | none => false
    | some b => (c.unitsIn b).any (fun p =>
        waits .write (c.dst.addr p 0 + (c.partIn p b).1) (c.partIn p b).2 ||
          (match c.sourceAt p b with
           | some a => waits .read a (c.partIn p b).2
           | none => false)))

/-- What a fault of a copy's event comes to: one of the transfer puts the copy in FAULT (R96, R298); one of its credit discards the
credit and every later action, and ends the context, while the block has landed (R440). -/
def State.copyFails (s : State) (id : Nat) (c : Copy) (x : CopyFault) : State :=
  match x with
  | .transfer f p dest => (s.walkConsumed c.space (s.hartOfRun c) f.addr).setCopy id (c.faulted p f dest)
  | .credit f landed => landed.actionFailed c.asid (some (s.hartOfRun c)) f

/-- What one event of copy `id` comes to, with what the dispatcher does about an absent page: the state, and whether the
copy may go on. An event that waits for a page has not taken place. -/
def State.copyTry (s : State) (id : Nat) (c : Copy) (supply : PageSupply) : State × Bool :=
  if s.copyHeld c then (s, false)
  else match s.copyStep id c with
  | .ok s' => (s', true)
  | .error x =>
    if x.fault.absent then
      match supply with
      | .absent => (s, false)
      | .decline => (s.copyFails id c x, false)
      | .supply pa =>
        let s := s.supplyPage c.ptbase.toNat x.fault.addr pa
        match s.copyStep id c with
        | .ok s' => (s', true)
        | .error y => if y.fault.absent then (s, false) else (s.copyFails id c y, false)
    else (s.copyFails id c x, false)

/-! ### Completion (R98, R440) -/

/-- A saved gang's image with ARRIVE of a copy's tag set, when the run that issued the copy is saved in it, or has ended on one of
its cores (R100). -/
def SavedGang.arrived (v : SavedGang) (c : Copy) : SavedGang :=
  let stood := ((v.harts.zip v.gang.harts).find? (fun q => q.1.runId == c.runId)).map (fun q => coreOf q.2)
  { v with cores := (v.cores.zip v.gang.cores).map (fun q =>
      if stood = some q.2 ∨ q.1.endedRuns.contains c.runId then { q.1 with arrive := q.1.arrive ||| BitVec.ofNat 64 (2 ^ c.tag) }
      else q.1) }

/-- The core whose ARRIVE a copy sets: where its issuer's run stands, or where that ended while its gang runs on (R98, R324). -/
def State.arriveCore (s : State) (c : Copy) : Option Nat :=
  match s.copyCore c with
  | none => none
  | some n =>
    if ((s.core n).endedRuns.find? (fun r => r.1 == c.runId)).all (fun r => s.tasks.any (fun t => t.order == r.2.1 &&
        t.gangs.any (fun x => x.placedAt == r.2.2))) then some n else none

/-- ARRIVE of a completed copy's tag: on the core that its issuer's gang stands on, or in the saved image of a gang that is off
its cores (R100); a gang that has ended has neither (log entry 117, DEDUCED). -/
def State.arriveFor (s : State) (c : Copy) : State :=
  match s.arriveCore c with
  | some n => s.setArrive n c.tag
  | none => { s with tasks := s.tasks.map (fun t => { t with saved := t.saved.map (fun v => v.arrived c) }) }

/-- The next completion action of a copy: the rest of a FAULT copy's credit, ARR, SIG, DEP, and then it has landed. -/
def State.copyAct (s : State) (id : Nat) (c : Copy) : Except AFault State :=
  let next := { c with acts := c.acts + 1 }
  match c.acts with
  | 0 =>
    match (if c.st = .fault then s.copyCredit c c.remaining else .ok s) with
    | .error f => .error f
    | .ok s => .ok (s.setCopy id { next with credited := c.declared })
  | 1 => .ok ((if c.flags.getLsbD 0 then s.arriveFor c else s).setCopy id next)
  | 2 =>
    match (if c.flags.getLsbD 1 then s.sigAction c.home (s.hartOfRun c) c.sigAddr.toNat else .ok s) with
    | .error f => .error f
    | .ok s => .ok (s.setCopy id next)
  | _ =>
    let last := { next with landed := true, st := if c.st = CopyState.fault then CopyState.fault else CopyState.done }
    if c.flags.getLsbD 2 then
      match s.depDecrement c.asid c.depTask id with
      | some s => .ok (s.setCopy id last)
      | none => .ok (s.setCopy id { last with depmiss := true })
    else .ok (s.setCopy id last)

/-- A copy whose action was discarded performs no later one, and its context ends (R440). -/
def State.copyAbandon (s : State) (id : Nat) (c : Copy) (f : AFault) : State :=
  (s.setCopy id { c with landed := true, st := if c.st = CopyState.fault then CopyState.fault else CopyState.done
                         credited := c.declared }).actionFailed c.asid (some (s.hartOfRun c)) f

/-- The completion of a copy whose last byte has landed, at a peer too (R298), or which has faulted, action by action. A page that an action
misses is asked of the dispatcher. -/
def State.copyFinish (s : State) (id : Nat) (supply : PageSupply) : Nat → State
  | 0 => s
  | n + 1 =>
    match tfind s.copies id with
    | none => s
    | some c =>
      if c.landed then s
      else
        match s.withSupply c.ptbase.toNat supply (fun s => s.copyAct id c) with
        | .done s => State.copyFinish s id supply n
        | .waits s => s
        | .fails f s => s.copyAbandon id c f

/-- Whether every unit of a copy has been handled. -/
def Copy.through (c : Copy) : Bool := decide (c.dst.total ≤ c.pos)

/-- Events that a copy takes at most. -/
def Copy.most (c : Copy) : Nat := 3 * c.dst.total + 1

/-- Events of a copy until it is through, faults, or waits for a page. -/
def State.copyRun (s : State) (id : Nat) (supply : PageSupply) : Nat → State
  | 0 => s
  | n + 1 =>
    match tfind s.copies id with
    | none => s
    | some c =>
      if c.st = .running ∧ !c.through then
        let r := s.copyTry id c supply
        if r.2 then State.copyRun r.1 id .absent n else r.1
      else s

/-- Run a copy as far as it goes, and complete it if it is through (eager work). -/
def State.copyAll (s : State) (id : Nat) (supply : PageSupply) : State :=
  match tfind s.copies id with
  | none => s
  | some c =>
    let s := s.copyRun id supply c.most
    match tfind s.copies id with
    | none => s
    | some c => if !c.landed && (c.through || c.st == .fault) then s.copyFinish id supply 4 else s

/-! ### Issue (R94, R95, Table 4-2) -/

/-- A trap of a queued instruction without a record of pages. -/
def queueTrap (e : Entry) (cause : Nat) (addr : Word := 0) (info : Nat := 0) : TrapRec :=
  { cause := cause, pc := e.pc, addr := addr, info := BitVec.ofNat 64 info,
    whereAt := if qIsMatrix e.op then .matrix else .vector }

/-- The stream checks 2 to 5 of Table 4-2: the STREAM code of the first that fails. -/
def copyStreamFault (src : Option StreamReg) (dst : StreamReg) : Option Nat :=
  match src with
  | none => if !dst.bound then some 6 else if !dst.desc.isStore then some 7 else none
  | some r =>
    if !r.bound || !dst.bound then some 6
    else if r.desc.isStore || !dst.desc.isStore then some 7
    else if r.desc.fmtCode ≠ dst.desc.fmtCode ∨ r.desc.total ≠ dst.desc.total then some 10
    else if footprintsMeet r.desc.footprint dst.desc.footprint then some 14
    else none

/-- The checks of Table 4-2 in order. -/
def copyCheck (h : Hart) (e : Entry) (src : Option StreamReg) (dst : StreamReg) (tag : Nat) (fl : BitVec 4) :
    Option TrapRec :=
  if !bit h.tagown.toNat tag then some (queueTrap e causeTag)
  else
    match copyStreamFault src dst with
    | some code => some (streamTrap e code)
    | none =>
      let sig := (e.ops.headD 0)
      let bar := ((e.ops.drop 1).headD 0)
      if fl.getLsbD 1 ∧ sig.toNat % 8 ≠ 0 then some (queueTrap e causeMisalign sig)
      else if fl.getLsbD 3 ∧ bar.toNat % 32 ≠ 0 then some (queueTrap e causeMisalign bar)
      else none

/-- The copies in flight of a core: those issued there, and those whose tags now stand there (R97, R100). -/
def State.inFlight (s : State) (n : Nat) : List Copy :=
  (s.copies.map (·.2)).filter (fun c => c.task.isNone && !c.landed && (c.core == n || s.copyCore c == some n))

/-- Whether a tag of core n has a copy in flight, of whatever run it is (R95). -/
def State.tagBusy (s : State) (n tag : Nat) : Bool := (s.inFlight n).any (fun c => c.tag == tag && s.copyCore c == some n)

/-- COPY (src some) or COPYF at issue (R95). -/
def State.issueCopy (s : State) (g : Nat) (e : Entry) (d : XReg) (src : Option SReg) (dst : SReg) (tag : Nat)
    (fl : BitVec 4) : QRes :=
  let h := s.hart g
  let sr := src.map (fun x => h.stream x.toNat)
  let dr := h.stream dst.toNat
  match copyCheck h e sr dr tag fl with
  | some t => .trap t
  | none =>
    let sd := sr.map (fun r => r.desc)
    let flying := s.inFlight (coreOf g)
    if s.tagBusy (coreOf g) tag || flying.any (fun c => copyMustWait c sd dr.desc) then .wait s
    else
      let id := s.nextCopy
      let c : Copy :=
        { core := coreOf g, runId := h.runId, fixed := h.fixed, asid := h.asid.toNat, ptbase := h.ptbase, tag := tag, flags := fl
          sigAddr := e.ops.headD 0, barAddr := (e.ops.drop 1).headD 0
          depTask := ((e.ops.drop 1).headD 0).toNat % 2 ^ 32, sr := sd, dst := dr.desc, declared := dr.desc.declared }
      let s := if fl.getLsbD 0 then s.clearArrive (coreOf g) (BitVec.ofNat 64 (2 ^ tag)) else s
      let s := { s with copies := tput s.copies id c, nextCopy := id + 1 }
      let s := s.setHart g ((s.hart g).setX d (BitVec.ofNat 64 c.declared))
      .done (if s.eager || c.declared == 0 then s.copyAll id .absent else s)

/-- Positions handled ahead of the lowest that is not, which are clipped in the source: a block that holds a written unit took them
with it (R101). -/
def Copy.clippedAhead (c : Copy) : Nat :=
  c.dst.unit * ((c.starts.filter (fun k => decide (c.pos ≤ k) && !c.dst.clipped k 0 && c.srcClipped k && c.handled k)).length)

/-- The status of a copy (Table 4-3). Whether it reads DONE once the last byte has landed, or once the last completion action is
performed, the manual does not say; the model reports RUNNING until then (log entry 88, DESIGN CHOICE). -/
def copyStatus (c : Copy) : Word :=
  let fault := c.st == .fault
  let state := if fault then 3 else if c.landed then 2 else 1
  let count := if fault then c.faultPos else c.clipped + c.clippedAhead
  BitVec.ofNat 64 (state + (if !fault && count != 0 then 4 else 0) + (if fault && c.fside then 8 else 0) +
    (if c.depmiss then 16 else 0) + (if fault then c.cause % 256 * 256 else 0) + count % 2 ^ 48 * 2 ^ 16)

/-- COPYSTAT: the latest copy of the hart's run on the tag (R101). -/
def State.copyStat (s : State) (g : Nat) (e : Entry) (d : XReg) (tag : Nat) : QRes :=
  let h := s.hart g
  if !bit h.tagown.toNat tag then .trap (queueTrap e causeTag)
  else
    let mine := s.copies.filter (fun p => p.2.runId == h.runId && p.2.tag == tag && p.2.task.isNone)
    let v := match mine.getLast? with
      | some p => copyStatus p.2
      | none => 0
    .done (s.setHart g (h.setX d v))

/-! ### The events -/

/-- A copy writes its next 64-byte block (R95 to R97, R357). -/
def State.copyBlockWrite (s : State) (id : Nat) (supply : PageSupply) : State := s.copyRun id supply 1

/-- Whether a copy is ready to complete. -/
def Copy.ready (c : Copy) : Bool := !c.landed && (c.through || c.st == .fault)

/-- A copy whose last byte has landed performs its completion actions (R98), with what the dispatcher does about a page
that one of them misses. -/
def State.copyComplete (s : State) (id : Nat) (supply : PageSupply) : State :=
  match tfind s.copies id with
  | none => s
  | some c => if c.ready then s.copyFinish id supply 4 else s

def execCopyBlockWrite (id : Nat) (supply : PageSupply) (s : State) : Out := s.whenCool (s.copyBlockWrite id supply)

def execCopyComplete (id : Nat) (supply : PageSupply) (s : State) : Out := s.whenCool (s.copyComplete id supply)

end Sys2Proof.Machine
end

