-- ==== Sys2Proof/Machine/Transfer.lean ====
section
/-! DEFINITION. Register transfers between harts (R294 to R297): SEND, RECV and RSIG at the head of the vector queue, the
grants of receive slots, and strips that arrive. -/

namespace Sys2Proof.Machine

open Sys2Proof

/-! ### Receive slots -/

/-- Hart number of a SEND destination word (Table 13-4). -/
def sendHart (w : Nat) : Nat := bits w 12 4
/-- Slot of a SEND destination word. -/
def sendSlot (w : Nat) : Nat := bits w 3 0
/-- Peer of a SEND destination word, as BRAIDPOS and the Braid window number it: x, y, z. -/
def sendPeer (w : Nat) : Nat := bits w 27 16

/-- Whether SEND is refused (R296). -/
def State.sendRefused (s : State) (asid w : Nat) : Bool :=
  bits w 63 28 != 0 || bits w 15 14 != 0 ||
    (if bit w 13 then !(s.hart (sendHart w)).runs asid
     else !(s.peerReachable (sendPeer w) && s.peers.any (fun p => p.pos == sendPeer w && p.harts.contains (sendHart w) &&
       p.groups.any (fun q => (s.ctx asid).members.any (fun m => m.gid == q.1)))))

/-- The free slot's first waiting request is granted (R296). -/
def RecvSlot.grantNext (r : RecvSlot) : RecvSlot :=
  match r.st, r.waiters with
  | .free, w :: rest => { st := .granted w, waiters := rest }
  | _, _ => r

/-- A saved hart's receive slots, updated wherever the save of one of the context's gangs holds it (R297). -/
def State.updateSaved (s : State) (asid g : Nat) (f : Hart → Hart) : State :=
  { s with tasks := s.tasks.map (fun t =>
      if t.asid ≠ asid then t
      else { t with saved := t.saved.map (fun v =>
        { v with harts := v.harts.zipIdx.map (fun q => if v.gang.harts[q.2]? = some g then f q.1 else q.1) }) }) }

/-- A slot of a hart, or of a saved hart of a gang that is off its cores (R297), updated. -/
def State.updateSlot (s : State) (asid g k : Nat) (f : RecvSlot → RecvSlot) : State :=
  if (s.hart g).runs asid then s.setHart g ((s.hart g).setSlot k (f ((s.hart g).slot k)))
  else s.updateSaved asid g (fun h => h.setSlot k (f (h.slot k)))

/-- A slot of a hart as a sender finds it. -/
def State.findSlot (s : State) (asid g k : Nat) : RecvSlot :=
  if (s.hart g).runs asid then (s.hart g).slot k
  else
    let found := s.tasks.findSome? (fun t =>
      if t.asid ≠ asid then none
      else t.saved.findSome? (fun v => (v.harts.zip v.gang.harts).findSome? (fun q =>
        if q.2 = g then some (q.1.slot k) else none)))
    found.getD {}

/-- A peer's sender learns that it has a slot (R296). -/
def State.tellGrant (s : State) (g k : Nat) (old new : RecvSlot) : State :=
  match new.st with
  | .granted (.peer pos x) => if old.st = new.st then s else s.toPeer pos (.slotGranted pos x g k)
  | _ => s

/-- A request for a slot: it waits its turn, and a free slot is granted at once. -/
def State.requestSlot (s : State) (asid g k : Nat) (who : Sender) : State :=
  let r := s.findSlot asid g k
  if r.waiters.contains who || r.st == .granted who then s
  else
    let r' := { r with waiters := r.waiters ++ [who] }.grantNext
    (s.updateSlot asid g k (fun _ => r')).tellGrant g k r r'

/-- The last flit of a strip lands: the slot is FULL and wakes its hart (R296, R319). -/
def State.deliverStrip (s : State) (asid g k : Nat) (x : Strip) : State :=
  let s := s.updateSlot asid g k (fun r => { r with st := .full x })
  if (s.hart g).runs asid then s.wake g else s

/-- The free slot k of hart g of a context goes to the request that has waited longest (R296). -/
def State.grantAt (s : State) (asid g k : Nat) : State :=
  let r := s.findSlot asid g k
  (s.updateSlot asid g k (fun _ => r.grantNext)).tellGrant g k r r.grantNext

/-- Where a grant is due, as context, hart and slot: free slots for which a request waits, of harts on cores and of saved ones. -/
def State.grantsDue (s : State) : List (Nat × Nat × Nat) :=
  let due := fun (asid g : Nat) (h : Hart) =>
    (h.recv.filter (fun q => q.2.st == .free && !q.2.waiters.isEmpty)).map (fun q => (asid, g, q.1))
  (s.harts.filter (fun p => p.2.run == .running)).flatMap (fun p => due p.2.asid.toNat p.1 p.2) ++
    s.tasks.flatMap (fun t => t.saved.flatMap (fun v => (v.gang.harts.zip v.harts).flatMap (fun q => due t.asid q.1 q.2)))

/-- A slot for which a sender no longer asks: a grant that it holds goes back (R297, R378). -/
def RecvSlot.without (r : RecvSlot) (who : Sender) : RecvSlot :=
  { st := if r.st == .granted who then .free else r.st, waiters := r.waiters.filter (fun w => w != who) }

/-- Every slot for which a sender no longer asks, of harts on cores and of saved ones; what it leaves free goes to the next that
waits, at once or by its event (R296, R297). -/
def State.ungrant (s : State) (which : Nat → Nat → Bool) (who : Sender) : State :=
  let strip := fun (g : Nat) (h : Hart) => { h with recv := h.recv.map (fun q => if which g q.1 then (q.1, q.2.without who) else q) }
  let s : State := { s with
    harts := s.harts.map (fun (p : Nat × Hart) => (p.1, strip p.1 p.2))
    tasks := s.tasks.map (fun t => { t with saved := t.saved.map (fun v =>
      { v with harts := v.harts.zipIdx.map (fun q => strip ((v.gang.harts[q.2]?).getD Config.harts) q.1) }) }) }
  if s.eager then s.grantsDue.foldl (fun s d => s.grantAt d.1 d.2.1 d.2.2) s else s

/-- A SEND that has not completed returns its grant, and its requests leave every slot, of harts on cores, of saved ones, and of
peers (R297, R378). -/
def State.returnGrants (s : State) (g : Nat) : State :=
  let s := s.ungrant (fun _ _ => true) (.hart g)
  let s : State := { s with
    peers := s.peers.map (fun p => { p with granted := p.granted.filter (fun q => q.1 != g)
                                            refused := p.refused.filter (fun q => q.1 != g) }) }
  ((s.hart g).vq.filter (fun e => e.stored)).foldl (fun s e =>
    match e.op with
    | .send _ _ =>
      let w := (e.ops.headD 0).toNat
      if bit w 13 then s else s.toPeer (sendPeer w) (.slotReturned (sendPeer w) (sendHart w) (sendSlot w) g)
    | _ => s) s

/-! ### The instructions -/

/-- The strip of elements 0 to VL − 1 of a vector register. -/
def stripOf (h : Hart) (c : Cap) (a : VReg) : Strip := ⟨c.ew, c.vl, zeroTail c.ew c.vl (h.vreg a.toNat)⟩

/-- Whether the grant that hart g's SEND asked for is there. -/
def State.hasGrant (s : State) (g w : Nat) : Bool :=
  if bit w 13 then (s.findSlot (s.hart g).asid.toNat (sendHart w) (sendSlot w)).st == .granted (.hart g)
  else match s.peerAt (sendPeer w) with
    | some p => p.granted.contains (g, sendHart w, sendSlot w)
    | none => false

/-- Whether the peer has refused the slot that hart g's SEND asked for. -/
def State.hasRefusal (s : State) (g w : Nat) : Bool :=
  !bit w 13 && s.peers.any (fun p => p.pos == sendPeer w && p.refused.contains (g, sendHart w, sendSlot w))

/-- SEND before it is admitted (R296): its request, its refusal, or its wait for the grant. A SEND that waits already for a hart that
leaves its core traps as one that finds it gone (log entry 110, DESIGN CHOICE). -/
def State.sendAdmit (s : State) (g : Nat) (e : Entry) : QRes :=
  let w := (e.ops.headD 0).toNat
  if s.hasGrant g w then .done s
  else if s.sendRefused (s.hart g).asid.toNat w || s.hasRefusal g w then .trap (queueTrap e causePerm 0 9)
  else if bit w 13 then
    let s := s.requestSlot (s.hart g).asid.toNat (sendHart w) (sendSlot w) (.hart g)
    if s.hasGrant g w then .done s else .wait s
  else if e.stored then .wait s
  else
    let s := s.setHart g { s.hart g with vq := (s.hart g).vq.map (fun f => if f.seq = e.seq then { f with stored := true } else f) }
    .wait (s.toPeer (sendPeer w) (.slotRequest (sendPeer w) (sendHart w) (sendSlot w) g))

/-- SEND once it is admitted and its source rows are written: the strip is delivered. -/
def State.sendStrip (s : State) (g : Nat) (e : Entry) (x : Strip) : State :=
  let w := (e.ops.headD 0).toNat
  if bit w 13 then s.deliverStrip (s.hart g).asid.toNat (sendHart w) (sendSlot w) x
  else
    let s : State := { s with peers := s.peers.map (fun p =>
      if p.pos = sendPeer w then { p with granted := p.granted.erase (g, sendHart w, sendSlot w) } else p) }
    s.toPeer (sendPeer w) (.strip (sendPeer w) (sendHart w) (sendSlot w) x)

/-- RECV before it is admitted: whether its slot is FULL (R296). -/
def State.recvAdmit (s : State) (g : Nat) (e : Entry) : QRes :=
  let k := (e.ops.headD 0).toNat
  if 15 < k then .trap (queueTrap e causePerm 0 10)
  else match ((s.hart g).slot k).st with
    | .full _ => .done s
    | _ => .wait s

/-- RECV once it is admitted: the strip moves into the register, and the slot is free. -/
def State.recvStrip (s : State) (g : Nat) (e : Entry) (c : Cap) (d : XReg) (v : VReg) : State :=
  let h := s.hart g
  let k := (e.ops.headD 0).toNat
  match (h.slot k).st with
  | .full x =>
    let r := { (h.slot k) with st := .free }
    let r' := if s.eager then r.grantNext else r
    let h := h.setSlot k r'
    (s.setHart g
      (if x.ew ≠ c.ew then h.setX d (BitVec.allOnes 64)
       else (h.setVreg v.toNat (zeroTail c.ew (min x.n c.vlmax) x.bits)).setX d (BitVec.ofNat 64 x.n))).tellGrant g k r r'
  | _ => s

/-- RSIG (R296). -/
def State.rsig (s : State) (g : Nat) (e : Entry) : QRes :=
  let a := e.ops.headD 0
  if a.toNat % 8 ≠ 0 then .trap (queueTrap e causeMisalign a)
  else
    let sp := s.space g
    let perm := fun code => QRes.trap ((vmemRecord e [⟨0, ⟨causePerm, a.toNat, code⟩, false⟩]).getD (queueTrap e causePerm a code))
    match s.translate sp .atomic a.toNat with
    | .error f => .trap ((vmemRecord e [⟨0, f, false⟩]).getD (queueTrap e f.cause a f.code))
    | .ok (pa, leaf) =>
      match placeOf pa with
      | .hbm => .done (s.sigDecThrough sp g false a.toNat ⟨pa, leaf, false, s.walkTaint sp a.toNat⟩).1
      | .braid =>
        match s.braidGroup sp.asid pa with
        | some gid =>
          if s.pathWaits (braidPeer pa) then .wait s
          else
          .done (((s.sigDecThrough sp g false a.toNat ⟨windowAt gid pa, leaf, false, s.walkTaint sp a.toNat⟩).1).toPeer
            (braidPeer pa) (.peerSignal pa))
        | none => perm 8
      | _ => perm 6

/-! ### The events -/

/-- A free receive slot of a hart is granted. -/
def State.grantSlot (s : State) (g k : Nat) : State := s.grantAt (s.hart g).asid.toNat g k

def execReceiveSlotGrant (g slot : Nat) (s : State) : Out := .next (if s.stopped g then s else s.grantSlot g slot)

/-- Whether a slot is granted to a peer device's sender. -/
def RecvSlot.forPeer (r : RecvSlot) : Bool :=
  match r.st with
  | .granted (.peer _ _) => true
  | _ => false

/-- The context whose hart g, on its core or saved, has granted slot k to a peer's sender. -/
def State.peerSlot (s : State) (g k : Nat) : Option Nat :=
  if (s.hart g).run = .running ∧ ((s.hart g).slot k).forPeer then some (s.hart g).asid.toNat
  else (s.tasks.find? (fun t => (s.findSlot t.asid g k).forPeer)).map (·.asid)

/-- A strip that a peer device sends lands in the slot that its sender was granted (R296, R297). -/
def State.stripFromPeer (s : State) (g k : Nat) (x : Strip) : State :=
  match s.peerSlot g k with
  | some asid => s.deliverStrip asid g k x
  | none => s

/-- Traffic of peers waits at the ports during a thermal emergency (R399). -/
def execStripDelivery (g slot : Nat) (strip : Strip) (s : State) : Out :=
  if s.thermal != .normal then .next s else .next (s.stripFromPeer g slot strip)

/-- A peer's request for a slot (R296): refused unless a context of its group runs on the hart. -/
def State.slotRequestFrom (s : State) (gid pos sender g k : Nat) : State :=
  if s.thermal != .normal then s
  else match s.ctxs.find? (fun p => p.2.live && p.2.members.any (fun m => m.gid == gid) && (s.hart g).runs p.1) with
  | none => s.toPeer pos (.slotRefused pos sender g k)
  | some (asid, _) => s.requestSlot asid g k (.peer pos sender)

/-- A peer's SEND that was pre-empted returns its grant of a slot, or no longer asks for one (R297). -/
def State.slotReturnFrom (s : State) (pos sender g k : Nat) : State :=
  if s.thermal != .normal then s else s.ungrant (fun h j => h == g && j == k) (.peer pos sender)

end Sys2Proof.Machine
end

