-- ==== Sys2Proof/Machine/Renaming.lean ====
section
/-! DEFINITION. Renaming and the scoreboard (R167, R168): the shapes of register groups (R227), what each queued operation reads
and writes, the versions of registers that instructions see, and how far an instruction may go behind those before it (R169 to
R171, R230). -/

namespace Sys2Proof.Machine

open Sys2Proof

/-! ### Geometry (R227) -/

/-- A register group's shape: registers, rows of each, and bits of a row. -/
structure Group where
  regs    : Nat
  rows    : Nat
  rowBits : Nat
  lanes   : Nat
  deriving DecidableEq, Repr

/-- The shape under a captured configuration. -/
def State.groupOf (s : State) (g : Nat) (v : Word) : Group :=
  ⟨vcG v, rowsOf (s.core (coreOf g)).vrb (vcNr v), 256 * vcLanes v, vcLanes v⟩

/-- M and N of the E word: 0 means 256 (Table 1-5). -/
def dim256 (x : BitVec 8) : Nat := if x = 0 then 256 else x.toNat

/-- rpr = ceil(4N / rowbytes). -/
def rowsPerOut (gr : Group) (n : Nat) : Nat := (32 * n + gr.rowBits - 1) / gr.rowBits

/-- Row r of a group whose registers' packed values are listed. -/
def groupRow (gr : Group) (vals : List Nat) (r : Nat) : Nat :=
  ((vals.drop (r / gr.rows)).headD 0 >>> (r % gr.rows * gr.rowBits)) % 2 ^ gr.rowBits

/-- n consecutive rows of a group from row r, as one string of bits. -/
def groupRun (gr : Group) (vals : List Nat) (r : Nat) : Nat → Nat
  | 0 => 0
  | n + 1 => groupRow gr vals r + groupRun gr vals (r + 1) n * 2 ^ gr.rowBits

/-- Values of the registers of a group. -/
def Hart.groupVals (h : Hart) (gr : Group) (v : VReg) : List Nat := (List.range gr.regs).map (fun i => h.vreg (v.toNat + i))

/-- n consecutive rows of the group from vd replaced by a string of bits. -/
def Hart.writeRun (h : Hart) (gr : Group) (v : VReg) (r : Nat) : Nat → Nat → Hart
  | 0, _ => h
  | n + 1, x =>
    let reg := v.toNat + r / gr.rows
    Hart.writeRun (h.setVreg reg (putBits (h.vreg reg) (r % gr.rows * gr.rowBits) gr.rowBits x)) gr v (r + 1) n
      (x >>> gr.rowBits)

/-! ### What an operation reads and writes -/

/-- The vector registers of a group from v on. -/
def groupRegs (gr : Group) (v : VReg) : List Nat := (List.range gr.regs).map (fun i => v.toNat + i)

/-- The vector registers that a queued operation writes. -/
def qVWrites (gr : Group) (q : QOp) : List Nat :=
  match q with
  | .bin _ d _ _ _ => [d.toNat]
  | .fma _ d _ _ _ => [d.toNat]
  | .un _ d _ _ _ => [d.toNat]
  | .slideUp d _ _ _ => [d.toNat]
  | .slideDn d _ _ _ => [d.toNat]
  | .gather d _ _ _ => [d.toNat]
  | .compress d _ _ => [d.toNat]
  | .expand d _ _ => [d.toNat]
  | .merge d _ _ _ => [d.toNat]
  | .bcast d _ _ => [d.toNat]
  | .red _ d _ _ _ => [d.toNat]
  | .seq _ d _ _ => [d.toNat]
  | .fbcasti _ d _ => [d.toNat]
  | .bcasti _ d _ => [d.toNat]
  | .rand _ _ d _ _ => [d.toNat]
  | .ld d _ _ => [d.toNat]
  | .ldx d _ _ _ => [d.toNat]
  | .sld d _ _ => [d.toNat]
  | .ldSeq d _ _ => [d.toNat]
  | .recv _ v _ => [v.toNat]
  | .mdrain d _ => groupRegs gr d
  | .mma _ d _ _ _ _ _ => groupRegs gr d
  | _ => []

/-- The vector registers that a vector-queue operation reads or writes. -/
def qVTouches (gr : Group) (q : QOp) : List Nat :=
  match q with
  | .mfeed a _ => groupRegs gr a
  | .mdrain d _ => groupRegs gr d
  | _ => (qVregs q).map (·.toNat)

/-- The mask registers that a vector-queue operation reads, as mask or source; field 0 is none. -/
def qMReads (q : QOp) : List MReg :=
  (match q with
   | .bin _ _ _ _ m => [m]
   | .fma _ _ _ _ m => [m]
   | .cmp _ _ _ _ m => [m]
   | .un _ _ _ _ m => [m]
   | .mask2 _ _ a b m => [a, b, m]
   | .maskNot _ a m => [a, m]
   | .maskSet _ m => [m]
   | .maskPopc _ a m => [a, m]
   | .maskFirst _ a m => [a, m]
   | .slideUp _ _ _ m => [m]
   | .slideDn _ _ _ m => [m]
   | .gather _ _ _ m => [m]
   | .compress _ _ m => [m]
   | .expand _ _ m => [m]
   | .merge _ _ _ m => [m]
   | .bcast _ _ m => [m]
   | .red _ _ _ _ m => [m]
   | .seq m _ _ _ => [m]
   | .fbcasti m _ _ => [m]
   | .bcasti m _ _ => [m]
   | .rand m _ _ _ _ => [m]
   | .ld _ _ m => [m]
   | .ldx _ _ _ m => [m]
   | .st _ _ m => [m]
   | .stx _ _ _ m => [m]
   | .sld _ _ m => [m]
   | .ldSeq _ _ m => [m]
   | .stSeq _ _ m => [m]
   | .stn _ _ m => [m]
   | .amo _ _ _ _ m => [m]
   | .stp _ _ _ m => [m]
   | _ => []).filter (fun m => m != 0)

/-- The stream registers that an operation uses. -/
def qStreams (q : QOp) : List SReg :=
  match q with
  | .ld _ s _ => [s]
  | .ldx _ _ s _ => [s]
  | .st _ s _ => [s]
  | .stx _ _ s _ => [s]
  | .sld _ s _ => [s]
  | .ldSeq _ s _ => [s]
  | .stSeq _ s _ => [s]
  | .stn _ s _ => [s]
  | .amo _ _ _ s _ => [s]
  | .stp _ t s _ => [t, s]
  | .sdesc _ s => [s]
  | .sbase _ s => [s]
  | .spos _ s => [s]
  | .sseek _ s => [s]
  | .srel s => [s]
  | .ssave _ s => [s]
  | .copy _ _ _ a b _ _ => [a, b]
  | .copyf _ _ _ b _ _ => [b]
  | _ => []

/-- The vector memory instructions, which probe their pages before they are admitted (R84, R172). -/
def qIsVmem (q : QOp) : Bool :=
  match q with
  | .ld .. => true
  | .ldx .. => true
  | .st .. => true
  | .stx .. => true
  | .sld .. => true
  | .ldSeq .. => true
  | .stSeq .. => true
  | .stn .. => true
  | .amo .. => true
  | .stp .. => true
  | _ => false

/-- The instructions of majors 0x24 to 0x31, which run in the lanes (Table 1-4, R387). -/
def qInLanes (q : QOp) : Bool :=
  match q with
  | .bin .. => true
  | .fma .. => true
  | .cmp .. => true
  | .un .. => true
  | .mask2 .. => true
  | .maskNot .. => true
  | .maskSet .. => true
  | .maskPopc .. => true
  | .maskFirst .. => true
  | .slideUp .. => true
  | .slideDn .. => true
  | .gather .. => true
  | .compress .. => true
  | .expand .. => true
  | .merge .. => true
  | .bcast .. => true
  | .extract .. => true
  | .red .. => true
  | .seq .. => true
  | .fbcasti .. => true
  | .bcasti .. => true
  | .rand .. => true
  | _ => false

/-- Whether a hart's lanes compare two runs of an element group now: an instruction of theirs is in flight under check mode 1
(R387). -/
def Hart.comparesLanes (h : Hart) : Bool := h.checkmode == 1 && h.vq.any (fun e => e.admitted && qInLanes e.op)

/-- The loads among them, whose data arrive in the landing buffer (R172). -/
def qIsLoad (q : QOp) : Bool :=
  match q with
  | .ld .. => true
  | .ldx .. => true
  | .sld .. => true
  | .ldSeq .. => true
  | _ => false

/-- The source that a permute reads across lanes (R166, R206, R208). -/
def qCrossLane (q : QOp) : Option VReg :=
  match q with
  | .slideUp _ a _ _ => some a
  | .slideDn _ a _ _ => some a
  | .gather _ a _ _ => some a
  | .compress _ a _ => some a
  | .expand _ a _ => some a
  | .extract _ a _ => some a
  | _ => none

/-- The memory and transfer instructions whose event needs all their source rows (R181, R296). -/
def qReadsRows (q : QOp) : Bool :=
  match q with
  | .st .. => true
  | .stx .. => true
  | .stSeq .. => true
  | .stn .. => true
  | .amo .. => true
  | .stp .. => true
  | .send .. => true
  | _ => false

def meets (a b : List Nat) : Bool := a.any b.contains

/-- The vector registers that an operation reads. -/
def qVReads (gr : Group) (q : QOp) : List Nat :=
  match q with
  | .fma .. => (qVregs q).map (·.toNat)
  | .cmp .. => (qVregs q).map (·.toNat)
  | .extract .. => (qVregs q).map (·.toNat)
  | .st .. => (qVregs q).map (·.toNat)
  | .stx .. => (qVregs q).map (·.toNat)
  | .stSeq .. => (qVregs q).map (·.toNat)
  | .stn .. => (qVregs q).map (·.toNat)
  | .amo .. => (qVregs q).map (·.toNat)
  | .stp .. => (qVregs q).map (·.toNat)
  | .send .. => (qVregs q).map (·.toNat)
  | .mfeed a _ => groupRegs gr a
  | .mdrain .. => []
  | .mma a d _ _ _ acc _ => groupRegs gr a ++ (if acc = 1 then groupRegs gr d else [])
  | _ => (qVregs q).tail.map (·.toNat)

/-! ### Versions (R167) -/

/-- The instructions of a hart that precede a place in program order and have not completed. -/
def Hart.earlier (h : Hart) (seq : Nat) : List Entry := (h.vq ++ h.mq).filter (fun f => decide (f.seq < seq))

/-- The registers as the instruction at a place in program order sees them: the old versions of the groups that later
instructions have renamed. -/
def Hart.asSeen (h : Hart) (seq : Nat) : Hart :=
  h.old.foldl (fun h p =>
    if seq < p.2.since then p.2.regs.zipIdx.foldl (fun h x => h.setVreg (4 * p.1 + x.2) x.1) h else h) h

/-- What that instruction, run on the registers it sees, leaves of them: it has written the bits `ws` of its registers, each a
range. A group that has been renamed takes the writes in its old version, and in the current one, whose copies of those rows
waited for them; a register that the renaming instruction overwrites in full has no copies (R167). -/
def Hart.settle (ran h : Hart) (seq : Nat) (ws : List (Nat × Nat × Nat)) : Hart :=
  h.old.foldl (fun r p =>
    if seq < p.2.since then
      let regs := (List.range 4).map (fun j => ran.vreg (4 * p.1 + j))
      let r := (List.range 4).foldl (fun r j =>
        let v := 4 * p.1 + j
        r.setVreg v (if p.2.whole.contains j then h.vreg v
          else (ws.filter (fun w => w.1 == v)).foldl (fun x w =>
            putBits x w.2.1 (w.2.2 - w.2.1) (ran.vreg v >>> w.2.1)) (h.vreg v))) r
      { r with old := tput r.old p.1 { p.2 with regs := regs } }
    else r) ran

/-- The rename groups of some registers. -/
def renameGroups (vs : List Nat) : List Nat := (vs.map (· / 4)).eraseDups

/-- Whether an instruction before place `seq` reads registers of rename group q in its current version. -/
def State.readsCurrent (s : State) (g seq q : Nat) : Bool :=
  let h := s.hart g
  (h.earlier seq).any (fun f => (qVReads (s.groupOf g f.vconf) f.op).any (fun v => v / 4 == q) &&
    (match tfind h.old q with
     | some o => decide (o.since ≤ f.seq)
     | none => true))

/-- Places in program order that entries restored from an image may have; what a hart posts at PL1 comes after them. -/
def imagePlaces : Nat := 128

/-- Whether an instruction still reads, or has still to write, the old version of rename group q; at PL1 one in the image may. -/
def State.oldInUse (s : State) (g q : Nat) : Bool :=
  let h := s.hart g
  match tfind h.old q with
  | none => false
  | some o => (h.level == .pl1 && decide (o.since < imagePlaces)) || (h.vq ++ h.mq).any (fun f => decide (f.seq < o.since) &&
      (qVReads (s.groupOf g f.vconf) f.op ++ qVWrites (s.groupOf g f.vconf) f.op).any (fun v => v / 4 == q))

/-- The registers that an instruction about to be admitted overwrites in full: an elementwise one or a load that starts at its
first element, writes every element and the tail, and does not read the register (R165, R167). -/
def Entry.overwrites (gr : Group) (e : Entry) : List Nat :=
  if e.vl = 0 ∨ e.eidx ≠ 0 ∨ !(splittable e.op || qIsLoad e.op) ∨ !(qMReads e.op).isEmpty then []
  else (qVWrites gr e.op).filter (fun v => !(qVReads gr e.op).contains v)

/-- The version that an instruction about to be admitted writes, group by group (R167): the current one when nothing before it
reads that, otherwise a new one, when the other version is free; `none` when the instruction stalls. -/
def State.rename (s : State) (g : Nat) (e : Entry) : Option State :=
  (renameGroups (qVWrites (s.groupOf g e.vconf) e.op)).foldl (fun acc q =>
    match acc with
    | none => none
    | some s =>
      if !s.readsCurrent g e.seq q then some s
      else if s.oldInUse g q then none
      else
        let h := s.hart g
        let whole := ((e.overwrites (s.groupOf g e.vconf)).filter (fun v => v / 4 == q)).map (· % 4)
        some (s.setHart g { h with old := tput h.old q ⟨(List.range 4).map (fun j => h.vreg (4 * q + j)), e.seq, whole⟩ })) (some s)

/-- How many elements of its destination an instruction in flight has written: those below its start index, and of VCOMPRESS as
many as it has packed (R206); one that is not written element by element, none. -/
def Hart.progress (h : Hart) (f : Entry) : Nat :=
  match f.op with
  | .compress _ _ m => countActive (activeIn m (h.mreg m.toNat)) f.eidx
  | q => if splittable q then f.eidx else 0

/-- An operation of hart g's instruction e, up to element `hi`, on the registers that it sees; it writes them from where it has
come to, and at its end to their ends. -/
def State.onSeen (s : State) (g : Nat) (e : Entry) (hi : Nat) (act : State → QRes) : QRes :=
  let h := s.hart g
  match h.old with
  | [] => act s
  | _ =>
    let gr := s.groupOf g e.vconf
    let lo := h.progress e * vcEw e.vconf
    let stop := if hi < e.vl then h.progress { e with eidx := hi } * vcEw e.vconf else gr.rows * gr.rowBits
    match act (s.setHart g (h.asSeen e.seq)) with
    | .done t => .done (t.setHart g ((t.hart g).settle h e.seq ((qVWrites gr e.op).map (fun v => (v, lo, stop)))))
    | .wait _ => .wait s
    | .trap r => .trap r

/-! ### The scoreboard (R168, R230) -/

/-- Elements of one element group of 256 bits (R378). -/
def Entry.group (e : Entry) : Nat := 256 / vcEw e.vconf

/-- Elements of a row. -/
def Group.rowElems (gr : Group) (v : Word) : Nat := gr.rowBits / vcEw v

/-- The first row of register v that a posted MMA has yet to write, if it has. -/
def mmaPending (gr : Group) (f : Entry) (v : Nat) : Option Nat :=
  match f.op with
  | .mma _ d mm n _ _ _ =>
    if (groupRegs gr d).contains v then
      let first := (v - d.toNat) * gr.rows
      let rpr := rowsPerOut gr (dim256 n)
      let lo := max (f.eidx * rpr) first
      if lo < min (dim256 mm * rpr) (first + gr.rows) then some (lo - first) else none
    else none
  | _ => none

/-- The least of two limits. -/
def limitMin (a b : Option Nat) : Option Nat :=
  match a, b with
  | none, x => x
  | x, none => x
  | some x, some y => some (min x y)

/-- Rows of its destination that an instruction in flight has written whole; the pending-write bit of every other row is set
(R168). -/
def State.rowsWritten (s : State) (g : Nat) (f : Entry) : Nat :=
  let gr := s.groupOf g f.vconf
  (s.hart g).progress f * vcEw f.vconf / gr.rowBits

/-- Whether the writes of the earlier instruction f to register v do not concern instruction e: it writes, or comes after one that
writes, the other version, into which no row of the register is copied (R167). -/
def Hart.superseded (h : Hart) (f e : Entry) (v : Nat) : Bool :=
  match tfind h.old (v / 4) with
  | some o => decide (f.seq < o.since) && decide (o.since ≤ e.seq) && o.whole.contains (v % 4)
  | none => false

/-- How far instruction e may go behind the earlier instruction f: nothing limits it when they share no register that f writes.
It neither reads nor writes a row that f has yet to write, and one that reads across lanes waits for every row of that source
(R168, R170, R171, R208, R230). -/
def State.limitBy (s : State) (g : Nat) (f e : Entry) : Option Nat :=
  let h := s.hart g
  let gr := s.groupOf g e.vconf
  let mine := qVWrites gr e.op
  let across := fun (v : Nat) => (qCrossLane e.op).any (fun a => a.toNat == v)
  let below := fun (n : Nat) (written : Bool) => if written then min n (e.vl - 1) else n
  match f.op with
  | .mma .. =>
    (qVTouches gr e.op).foldl (fun acc v => match mmaPending gr f v with
      | some r => limitMin acc (some (if across v then 0 else below (r * gr.rowElems e.vconf) (mine.contains v)))
      | none => acc) none
  | _ =>
    let theirs := (qVWrites (s.groupOf g f.vconf) f.op).filter (fun v => !h.superseded f e v)
    let written := meets theirs mine || ((qMaskDest f.op).isSome && qMaskDest f.op == qMaskDest e.op)
    let read := meets theirs (qVTouches gr e.op) ||
      (match qMaskDest f.op with
       | some m => (qMReads e.op).contains m
       | none => false)
    if theirs.any across then some 0
    else if written || read then some (below (s.rowsWritten g f * gr.rowElems e.vconf) written) else none

/-- How far the instructions before it let an instruction go. -/
def State.limit (s : State) (g : Nat) (e : Entry) : Option Nat :=
  ((s.hart g).earlier e.seq).foldl (fun acc f => limitMin acc (s.limitBy g f e)) none

/-- Whether nothing before it keeps an instruction from going to its end; an instruction whose rows VL does not count waits for all
that it shares. -/
def State.clear (s : State) (g : Nat) (e : Entry) : Bool :=
  match s.limit g e with
  | none => true
  | some n => e.vl != 0 && decide (e.vl ≤ n) && (match e.op with
    | .recv .. => false
    | .mdrain .. => false
    | _ => true)

/-- Whether an entry's elements are events of their own: a .SEQ form, or a default form through an ordered stream (R75, R180). -/
def Entry.elementwise (h : Hart) (e : Entry) : Bool :=
  match e.op with
  | .ldSeq .. => true
  | .stSeq .. => true
  | .ld _ sn _ => (h.stream sn.toNat).desc.ordered
  | .st _ sn _ => (h.stream sn.toNat).desc.ordered
  | _ => false

/-- Whether the vector-queue instructions that precede a place have been admitted, or have left their queue, with none among them
that lets nothing be admitted before it has completed, and none that has yet to pass its probe (R172, R180, R221). -/
def Hart.vectorPast (h : Hart) (seq : Nat) : Bool :=
  h.vq.all (fun f => decide (seq ≤ f.seq) || (f.admitted && !f.elementwise h && (!qIsVmem f.op || f.probed)))

/-- Instructions of a hart that an image would record as admitted; ERET accepts at most eight (R169, R372, log entry 91). -/
def Hart.flying (h : Hart) : Nat := ((h.vq ++ h.mq).filter (fun e => e.admitted)).length

end Sys2Proof.Machine
end

