-- ==== Sys2Proof/Machine/Matrix.lean ====
section
/-! DEFINITION. The matrix array in instruction mode (R219 to R235): the group geometry, MLDB and MLDB.FF row by row, MMA
output row by output row with its checker, and MPROG, MSYNC and MCHK. -/

namespace Sys2Proof.Machine

open Sys2Proof

/-! ### What R228 refuses -/

/-- R228: whether an MMA traps ILLEGAL. -/
def mmaIllegal (gr : Group) (nr : Nat) (a d : VReg) (m n : Nat) : Bool :=
  gr.lanes == 0 || !aligned a.toNat gr.regs || !aligned d.toNat gr.regs ||
    decide (nr ≤ a.toNat + gr.regs - 1) || decide (nr ≤ d.toNat + gr.regs - 1) ||
    (decide (a.toNat < d.toNat + gr.regs) && decide (d.toNat < a.toNat + gr.regs)) ||
    decide (gr.regs * gr.rows < m) || decide (gr.regs * gr.rows < m * rowsPerOut gr n)

/-! ### Sums (R147, R152) -/

/-- One output element: the accumulation in ascending k from c, with RNE at every step. Flag bit 6 records a sum that is
not finite. -/
def accumulate (a b : Nat → Nat) : Nat → Nat → Nat × Nat → Nat × Nat
  | _, 0, acc => acc
  | k, n + 1, acc =>
    let r := fp32.fma 0 (bf16.value (a k)) (bf16.value (b k)) (fp32.value acc.1)
    accumulate a b (k + 1) n (r.1, acc.2 ||| r.2 ||| (if (fp32.value r.1).isFinite then 0 else 64))

/-- An output element with its flags: NF when a sum is not finite and every input is (R152). -/
def outElem (a b : Nat → Nat) (depth c : Nat) : Nat × Nat :=
  let r := accumulate a b 0 depth (c, 0)
  let finite := (fp32.value c).isFinite &&
    (List.range depth).all (fun k => (bf16.value (a k)).isFinite && (bf16.value (b k)).isFinite)
  (r.1, r.2 % 64 ||| (if finite && bit r.2 6 then flNF else 0))

/-- An output row of n elements: the packed values and the flags. -/
def outRow (a : Nat → Nat) (b : Nat → Nat → Nat) (depth : Nat) (c : Nat → Nat) (n : Nat) : Nat × Nat :=
  let rs := (List.range n).map (fun j => outElem a (fun k => b k j) depth (c j))
  (packElems 32 (rs.map (·.1)), rs.foldl (fun f r => f ||| r.2) 0)

/-! ### B slots (R220, R224 to R226) -/

def Pair.slot (p : Pair) (sl : Nat) : BSlot := if sl = 0 then p.b0 else p.b1

def Pair.setSlot (p : Pair) (sl : Nat) (b : BSlot) : Pair := if sl = 0 then { p with b0 := b } else { p with b1 := b }

/-- Position (k, j) of a tile. -/
def tileAt (t k j : Nat) : Nat := elem t 16 (256 * k + j)

/-- Bytes of a row of n elements of a format. -/
def bRowBytes (fmt n : Nat) : Nat := if isBlock fmt then n / 32 * fmtBytes fmt else n * fmtBytes fmt

/-- widenB of element j of a row's bytes (Table 10-4). -/
def widenB (fmt : Nat) (bs : List Byte) (j : Nat) : Nat × Nat :=
  if fmt = 1 then (field bs (2 * j) 2, 0)
  else if isBlock fmt then
    widenBlock fmt 16 ((bs.drop (j / 32 * fmtBytes fmt)).take (fmtBytes fmt)) (j % 32)
  else bf16.convert 0 ((fmtOf fmt).value (field bs (j * fmtBytes fmt) (fmtBytes fmt)))

/-- A row of n elements widened: its packed BF16 values and flags. -/
def widenRow (fmt n : Nat) (bs : List Byte) : Nat × Nat :=
  let rs := (List.range n).map (fun j => widenB fmt bs j)
  (packElems 16 (rs.map (·.1)), rs.foldl (fun f r => f ||| r.2) 0)

/-- Virtual address of row k. -/
def bRowAddr (base pitch : Word) (k : Nat) : Nat := (base.toNat + k * pitch.toNat) % 2 ^ 64

/-- The probe of rows from k on: the parts of those before the first that faults, and that row's faults (R224). -/
def State.probeRows (s : State) (sp : Space) (base pitch : Word) (len : Nat) : Nat → Nat → List Piece → List Piece × List TouchFault
  | _, 0, ps => (ps, [])
  | k, n + 1, ps =>
    match s.probeAll sp .read [⟨k, bRowAddr base pitch k, len, false⟩] with
    | ([], qs) => State.probeRows s sp base pitch len (k + 1) n (ps ++ qs)
    | (fs, _) => (ps, fs)

/-- What a faulting row traps with (R224): MLDB its own cause, MLDB.FF at row 0 MATRIX_OPERAND, otherwise nothing. -/
def rowTrap (ff : Bool) (e : Entry) (fs : List TouchFault) : Option TrapRec :=
  match vmemRecord e fs with
  | none => none
  | some r =>
    if !ff then some r
    else if r.eidx = 0 then
      some { r with cause := causeMatrixOperand
                    info := BitVec.ofNat 64 (bits r.info.toNat 15 8 * 256 + r.cause % 256 * 2 ^ 16) }
    else none

/-- The rows of a B tile read at one event: packed at their places in the slot, with each row's flags. -/
def State.readTile (s : State) (fmt n : Nat) (ps : List Piece) : Nat → Nat → Nat × List Nat
  | _, 0 => (0, [])
  | k, r + 1 =>
    let row := widenRow fmt n (s.elemBytes ps k)
    let rest := State.readTile s fmt n ps (k + 1) r
    (row.1 * 2 ^ (16 * 256 * k) + rest.1, row.2 :: rest.2)

/-- A misaligned base or pitch (R224): the address that MISALIGN reports. -/
def bMisaligned (fmt : Nat) (base pitch : Word) : Option Word :=
  if isBlock fmt then none
  else if !aligned base.toNat (fmtBytes fmt) then some base
  else if !aligned pitch.toNat (fmtBytes fmt) then some (base + pitch)
  else none

/-- An entry of a hart's matrix queue changed. -/
def Hart.updateMatrix (h : Hart) (seq : Nat) (f : Entry → Entry) : Hart :=
  { h with mq := h.mq.map (fun e => if e.seq = seq then f e else e) }

/-- A matrix instruction in the array as a new user of a slot, or as the one that it was before it stopped there (R238). -/
def Pair.use (p : Pair) (g seq sl : Nat) (load : Bool) : Pair :=
  if p.admitted.any (fun u => u.hart == g && u.seq == seq) then p
  else { p with admitted := p.admitted ++ [⟨g, seq, sl, load, false⟩] }

/-- A matrix instruction leaves the array. -/
def Pair.unuse (p : Pair) (g seq : Nat) : Pair :=
  { p with admitted := p.admitted.filter (fun u => !(u.hart == g && u.seq == seq)) }

/-- MLDB or MLDB.FF admitted to the array (R224): the alignment trap, or the slot cleared and the rows that pass their
probe read as one event, to be written into the slot one by one. -/
def State.admitMldb (s : State) (g : Nat) (e : Entry) (ff : Bool) (fmt n kq sl : Nat) : QRes :=
  let base := e.ops.headD 0
  let pitch := (e.ops.drop 1).headD 0
  match bMisaligned fmt base pitch with
  | some a => .trap (queueTrap e causeMisalign a)
  | none =>
    let k0 := e.eidx
    let (ps, fs) := s.probeRows (s.space g) base pitch (bRowBytes fmt n) k0 (kq - k0) []
    let reach := match fs with
      | [] => kq
      | t :: _ => t.i
    if ps.any (fun p => s.reachWaits p.reach) then .wait s
    else
    let s := (s.assignAll ps).consume g ps
    let tile := s.readTile fmt n ps k0 (reach - k0)
    let asid := (s.hart g).asid.toNat
    let s := ((s.markAll asid ps false .plain).touchAll g ps false true).countPieces asid ps e.codeFar
    let p := s.pair (pairOf g)
    let slot := if k0 = 0 then { k := 0, n := n, fmt := fmt, short := false, tile := 0 } else p.slot sl
    let far := farGranules ((ps.filter (fun q => !q.reach.void)).map (fun q => q.reach.pa))
    .done ((s.setPair (pairOf g) { (p.setSlot sl slot).use g e.seq sl true with
        loads := tput p.loads sl ⟨g, e.seq, reach, tile.1, tile.2, rowTrap ff e fs⟩ }).setHart g
      ((s.hart g).updateMatrix e.seq (fun f => { f with admitted := true, codeFar := f.codeFar ++ far })))

/-- An entry of a hart's matrix queue leaves it; EIDX is 0 again when PL0 goes on (R158, R379). -/
def Hart.dropMatrix (h : Hart) (seq : Nat) : Hart :=
  { h with mq := h.mq.filter (fun e => e.seq != seq), eidx := if h.level = .pl0 then 0 else h.eidx }

/-- The load of a slot ends: it traps at its first faulting row and keeps its place in the array, where it resumes, or it
completes, perhaps shortened. -/
def State.finishLoad (s : State) (pn sl : Nat) (b : LoadBuf) (kq : Nat) : State :=
  let p := s.pair pn
  let p := { p with loads := tdel p.loads sl }
  let h := s.hart b.hart
  match b.fault with
  | some t => (s.setPair pn p).setHart b.hart { h with trapDue := some t }
  | none =>
    let p := p.unuse b.hart b.seq
    (s.setPair pn (if b.reach < kq then p.setSlot sl { p.slot sl with short := true } else p)).setHart b.hart
      (h.dropMatrix b.seq)

/-- The number of rows that a queued load asks for. -/
def Entry.depth (e : Entry) : Nat :=
  match e.op with
  | .mldb _ _ _ _ _ k _ => k.toNat
  | _ => 0

/-- The next row of the load in progress on a slot is written into it, with its flags (R226); after the last one that can
be loaded, the load ends. -/
def State.loadRow (s : State) (pn sl : Nat) : State :=
  let p := s.pair pn
  match tfind p.loads sl with
  | none => s
  | some b =>
    let h := s.hart b.hart
    match h.mq.find? (fun e => e.seq == b.seq) with
    | none => s
    | some e =>
      let k := e.eidx
      if k < b.reach then
        let old := p.slot sl
        let row := (b.tile >>> (4096 * k)) % 2 ^ 4096
        let fl := (b.flags.drop (b.flags.length - (b.reach - k))).headD 0
        let p := p.setSlot sl { old with k := k + 1, tile := putBits old.tile (4096 * k) 4096 row }
        let s := (s.setPair pn p).setHart b.hart ((h.updateMatrix b.seq (fun e => { e with eidx := k + 1 })).raise (flagBits fl))
        if k + 1 = b.reach then s.finishLoad pn sl b e.depth else s
      else s.finishLoad pn sl b e.depth

/-- Every row of the load in progress on a slot (eager work). -/
def State.loadRows (s : State) (pn sl : Nat) : Nat → State
  | 0 => s
  | n + 1 =>
    match tfind (s.pair pn).loads sl with
    | none => s
    | some _ => State.loadRows (s.loadRow pn sl) pn sl n

/-! ### MMA (R229 to R232) -/

/-- Output row i of an MMA on the registers that it sees (R231): the run of bits it writes and its flags. -/
def mmaRow (h : Hart) (gr : Group) (a d : VReg) (n k : Nat) (acc : Bool) (b : BSlot) (i : Nat) : Nat × Nat :=
  let row := groupRow gr (h.groupVals gr a) i
  let old := groupRun gr (h.groupVals gr d) (i * rowsPerOut gr n) (rowsPerOut gr n)
  outRow (fun k => elem row 16 k) (fun k j => tileAt b.tile k j) (min k (16 * gr.lanes))
    (fun j => if acc then elem old 32 j else 0x80000000) n

/-- Whether an earlier instruction has yet to write row r of register v (R168). -/
def State.rowPending (s : State) (g : Nat) (e : Entry) (v r : Nat) : Bool :=
  let gr := s.groupOf g e.vconf
  let h := s.hart g
  (h.earlier e.seq).any (fun f => match f.op with
    | .mma .. => (match mmaPending gr f v with
      | some lo => decide (lo ≤ r)
      | none => false)
    | _ => (qVWrites (s.groupOf g f.vconf) f.op).contains v && !h.superseded f e v && decide (s.rowsWritten g f ≤ r))

/-- Whether some of n rows of a group from row r on are pending. -/
def State.runPending (s : State) (g : Nat) (e : Entry) (v : VReg) (r n : Nat) : Bool :=
  let gr := s.groupOf g e.vconf
  (List.range n).any (fun i => s.rowPending g e (v.toNat + (r + i) / gr.rows) ((r + i) % gr.rows))

/-- A mismatch at the checker column: the error bank, and for a first one the context's count; a second one in the same MMA or
beat ends the context with SILENT_ERROR, which counts against the core (R232, R395). -/
def State.checkerMiss (s : State) (g : Nat) (second : Bool) : State :=
  let asid := (s.hart g).asid.toNat
  let s := s.logError (coreOf g) second 7 0 (errInfo asid 0 0)
  if second then (s.imprecise asid (some g) causeSilentError 0).attributeFatal (coreOf g)
  else
    let c := s.ctx asid
    s.setCtx asid { c with checker := min (c.checker + 1) (2 ^ 32 - 1) }

/-- The operands of an MMA in the array. -/
structure MmaJob where
  use   : ArrayUse
  entry : Entry
  a     : VReg
  d     : VReg
  m     : Nat
  n     : Nat
  k     : Nat
  acc   : Bool

/-- The MMAs in the array, oldest first; of a hart that has been stopped, none runs. -/
def State.mmas (s : State) (pn : Nat) : List MmaJob :=
  (s.pair pn).admitted.filterMap (fun u =>
    match (s.hart u.hart).mq.find? (fun e => e.seq == u.seq) with
    | some e => (match e.op with
      | .mma a d mm n k acc _ => some ⟨u, e, a, d, dim256 mm, dim256 n, k.toNat, acc == 1⟩
      | _ => none)
    | none => none)

/-- The next output row of the oldest MMA in the array is written back, or its checker finds a mismatch and it re-executes
from that row (R232). A row of A or of C that is still pending stalls the array (R231). -/
def State.outputRow (s : State) (pn : Nat) (mismatch : Bool) : State :=
  match s.mmas pn with
  | [] => s
  | j :: _ =>
    let g := j.use.hart
    let e := j.entry
    let gr := s.groupOf g e.vconf
    let i := e.eidx
    let rpr := rowsPerOut gr j.n
    if s.runPending g e j.a i 1 || s.runPending g e j.d (i * rpr) rpr then s
    else if mismatch then
      let p := s.pair pn
      (s.checkerMiss g j.use.redone).setPair pn { p with admitted := p.admitted.map (fun u =>
        if u.hart = g ∧ u.seq = e.seq then { u with redone := true } else u) }
    else
      let p := s.pair pn
      let h := s.hart g
      let seen := h.asSeen e.seq
      let r := mmaRow seen gr j.a j.d j.n j.k j.acc (p.slot j.use.slot) i
      let first := i * rpr
      let rows := (List.range rpr).map (fun x =>
        (j.d.toNat + (first + x) / gr.rows, (first + x) % gr.rows * gr.rowBits, ((first + x) % gr.rows + 1) * gr.rowBits))
      let h := ((seen.writeRun gr j.d first rpr r.1).settle h e.seq rows).raise (flagBits r.2)
      if i + 1 < j.m then s.setHart g (h.updateMatrix e.seq (fun f => { f with eidx := i + 1 }))
      else (s.setHart g (h.dropMatrix e.seq)).setPair pn { p.unuse g e.seq with pass := p.pass + 1 }

/-- The array runs until an MMA has left it (eager work). -/
def State.outputRows (s : State) (pn g seq : Nat) : Nat → State
  | 0 => s
  | n + 1 =>
    if (s.pair pn).admitted.any (fun u => u.hart == g && u.seq == seq) then State.outputRows (s.outputRow pn false) pn g seq n
    else s

/-! ### Admission (R221, R222) -/

/-- The slot of a queued load. -/
def Entry.loadSlot (e : Entry) : Option Nat :=
  match e.op with
  | .mldb _ _ _ _ _ _ sl => some sl.toNat
  | _ => none

/-- The slot of a queued MMA. -/
def Entry.mmaSlot (e : Entry) : Option Nat :=
  match e.op with
  | .mma _ _ _ _ _ _ sl => some sl.toNat
  | _ => none

/-- Whether a declaration lasts on the array. -/
def Pair.milling (p : Pair) : Bool := !p.mill.ended

/-- Whether an entry is under way in the array; a load that a trap stopped there is not, until it is admitted anew. -/
def Pair.running (p : Pair) (g : Nat) (e : Entry) : Bool :=
  if e.loadSlot.isSome then p.loads.any (fun b => b.2.hart == g && b.2.seq == e.seq)
  else p.admitted.any (fun u => u.hart == g && u.seq == e.seq)

/-- The next entry of a hart's matrix queue: the oldest that is not in the array, and none behind a load that is to trap
(R237). -/
def State.nextMatrix (s : State) (g : Nat) : Option Entry :=
  let p := s.pair (pairOf g)
  if p.loads.any (fun b => b.2.hart == g && b.2.fault.isSome) then none
  else (s.hart g).mq.find? (fun e => !p.running g e)

/-- Whether the vector-stream events of the vector-queue instructions that precede an entry have taken place (R354). -/
def Hart.vectorEventsPast (h : Hart) (e : Entry) : Bool :=
  h.vq.all (fun f => decide (e.seq ≤ f.seq) || !qMakesEvent f.op)

/-- MLDB, MLDB.FF and MMA: whether the array can admit them (R222). One that stopped there goes on. -/
def State.arrayFree (s : State) (g : Nat) (e : Entry) : Bool :=
  let h := s.hart g
  let p := s.pair (pairOf g)
  let before := p.admitted.takeWhile (fun u => !(u.hart == g && u.seq == e.seq))
  h.vectorPast e.seq && !p.milling && (e.admitted || decide (h.flying < 8)) &&
    (match e.op with
     | .mldb _ _ _ _ _ _ sl => h.vectorEventsPast e && !before.any (fun u => u.slot == sl.toNat)
     | .mma _ _ _ _ _ _ sl => !before.any (fun u => u.slot == sl.toNat && u.load)
     | _ => false)

/-- An MMA admitted to the array, its C group placed under R167 (R230). -/
def State.admitMma (s : State) (g : Nat) (e : Entry) (sl : Nat) : QRes :=
  match s.rename g e with
  | none => .wait s
  | some s => .done ((s.setPair (pairOf g) ((s.pair (pairOf g)).use g e.seq sl false)).setHart g
      ((s.hart g).updateMatrix e.seq (fun e => { e with admitted := true })))

/-- The slot's state as MPROG returns it (Table 10-5). -/
def progWord (b : BSlot) : Word :=
  BitVec.ofNat 64 (b.n + b.k * 2 ^ 16 + (if b.short then 2 ^ 25 else 0) + b.fmt * 2 ^ 32)

/-- MPROG: once every load of this hart on the slot has completed (R233). -/
def State.mprog (s : State) (g : Nat) (e : Entry) (d : XReg) (sl : Nat) : QRes :=
  let p := s.pair (pairOf g)
  if p.admitted.any (fun u => u.hart == g && u.load && u.slot == sl) || !(s.hart g).vectorPast e.seq then .wait s
  else .done (s.setHart g (((s.hart g).setX d (progWord (p.slot sl))).dropMatrix e.seq))

/-- Whether every earlier matrix instruction of the hart has completed (R234). -/
def Hart.matrixPast (h : Hart) (e : Entry) : Bool := !h.mq.any (fun f => decide (f.seq < e.seq))

/-- MCHK (R235). -/
def State.mchk (s : State) (g : Nat) (e : Entry) (d : XReg) (clr : Bool) : QRes :=
  let h := s.hart g
  if !(h.matrixPast e && h.vectorPast e.seq) then .wait s
  else
    let a := h.asid.toNat
    let c := s.ctx a
    .done ((s.setCtx a (if clr then { c with checker := 0 } else c)).setHart g
      ((h.setX d (BitVec.ofNat 64 c.checker)).dropMatrix e.seq))

/-! ### The events -/

/-- A B row arrives in a slot (R226). -/
def execMldbRowArrival (p slot : Nat) (s : State) : Out := .next (if s.islandStopped p then s else s.loadRow p slot)

/-- A C row is written back, or its checker finds a mismatch (R230, R232). -/
def execCRowWriteBack (p : Nat) (mismatch : Bool) (s : State) : Out :=
  .next (if s.islandStopped p then s else s.outputRow p mismatch)

end Sys2Proof.Machine
end

