-- ==== Sys2Proof/Machine/Millrace.lean ====
section
/-! DEFINITION. Millrace mode (R240 to R257): the declaration, the beat schedule as a machine of its own that its events
move on, the feeders' instructions, and the endings. The schedule's events come in the order of their cycles (R242, R243), which
are not tied to the island's clock (log entry 21). -/

namespace Sys2Proof.Machine

open Sys2Proof

/-! ### The declaration (Table 11-1) -/

def declOf (bs : List Byte) : Decl :=
  { bbase := BitVec.ofNat 64 (field bs 0 8), endsig := BitVec.ofNat 64 (field bs 8 8)
    bstride := BitVec.ofNat 64 (field bs 0x10 8), kstride := BitVec.ofNat 64 (field bs 0x18 8)
    nstride := BitVec.ofNat 64 (field bs 0x20 8), period := field bs 0x28 4, mb := field bs 0x2C 2
    nb := field bs 0x2E 2, kb := field bs 0x30 2, bfmt := field bs 0x32 1, lookahead := field bs 0x33 1
    policy := field bs 0x34 1, feeder := field bs 0x36 1, drainer := field bs 0x37 1, start := field bs 0x38 8 }

/-- The number of beats (R241). -/
def Decl.beats (d : Decl) : Nat := d.mb * d.nb * d.kb

/-- Depth block, row block and column block of a beat (R241). -/
def Decl.kOf (d : Decl) (b : Nat) : Nat := b % d.kb
def Decl.nOf (d : Decl) (b : Nat) : Nat := b / (d.kb * d.mb)

/-- Whether some field breaks Table 11-1 or R252's alignment rules; `spare` is the byte at 0x35. -/
def Decl.bad (d : Decl) (spare : Nat) : Bool :=
  decide (d.period < 256) || decide (1048576 < d.period) || d.mb == 0 || d.nb == 0 || d.kb == 0 || decide (6 < d.bfmt) ||
    d.lookahead == 0 || decide (4 < d.lookahead) || decide (1 < d.policy) || spare != 0 || decide (7 < d.feeder) ||
    decide (7 < d.drainer) || d.start % d.kb != 0 || decide (d.beats ≤ d.start) || d.endsig.toNat % 8 != 0 ||
    (!isBlock d.bfmt && !(aligned d.bbase.toNat (fmtBytes d.bfmt) && aligned d.bstride.toNat (fmtBytes d.bfmt) &&
      aligned d.kstride.toNat (fmtBytes d.bfmt) && aligned d.nstride.toNat (fmtBytes d.bfmt)))

/-- Hart that a FEEDER or DRAINER field names, in pair p. -/
def feederHart (p f : Nat) : Nat := 8 * p + f % 8

/-! ### Events at the feeders (R245) -/

/-- OPERAND and DRAIN events that a hart holds, those in its image included. -/
def Hart.demands (h : Hart) : Nat := (h.events.filter (fun e => e.kind != 3)).length + h.savedEvents

/-- An event raised at a hart, which it wakes (R319). -/
def State.raiseEvent (s : State) (g : Nat) (e : MillEvent) : State :=
  let h := s.hart g
  s.setHart g { h with events := h.events ++ [e], latch := true }

def State.mill (s : State) (p : Nat) : Mill := (s.pair p).mill

def State.setMill (s : State) (p : Nat) (m : Mill) : State := s.setPair p { s.pair p with mill := m }

/-! ### The schedule's order (R242, R243) -/

/-- Cycle of the schedule at which the next OPERAND event is due: that of beat nextOperand − LOOKAHEAD's start. -/
def Mill.operandDue (m : Mill) : Option Nat :=
  if m.status = 1 ∧ m.nextOperand < m.decl.beats then
    some (m.tick + m.nextOperand * m.decl.period - (m.nextBeat + m.decl.lookahead) * m.decl.period)
  else none

/-- Cycle at which the next output row of a started beat is due. -/
def RunBeat.due (r : RunBeat) : Nat := r.start + r.outRow + 268

/-- Cycle at which the last A row of a started beat has entered and its landing slot is freed. -/
def RunBeat.freed (r : RunBeat) : Nat := r.start + 256

/-- Whether an event due at a cycle comes before those that are due later: OPERAND events of the same cycle come first (R245). What
an earlier event waits for, in a drain stall or at a full feeder, holds back every later one: intake, output and schedule
(R247). -/
def Mill.inTurn (m : Mill) (due : Nat) (operand : Bool) : Bool :=
  m.runs.all (fun r => decide (due ≤ r.due) && (r.entered || decide (due ≤ r.freed))) && (m.status != 1 || decide (due ≤ m.tick)) &&
    (operand || (match m.operandDue with
      | some o => decide (due < o)
      | none => true))

/-! ### Endings (R249) -/

/-- Once an ended run's started beats have run to their ends, the accumulators of unfinished blocks are discarded. -/
def Mill.discard (m : Mill) : Mill :=
  if m.status != 1 && m.runs.isEmpty then { m with blocks := m.blocks.filter (fun b => b.finished) } else m

/-- The ending takes effect at the boundary of the next beat. -/
def Mill.close (m : Mill) (status : Nat) : Mill :=
  { m with status := status, beatNow := m.nextBeat
           tiles := m.tiles.filter (fun t => m.runs.any (fun r => r.beat == t.beat)) }.discard

/-- Whether the oldest started beat has had a first mismatch at the checker (R243). -/
def Mill.redoes (m : Mill) : Bool := m.runs.head?.any (fun r => r.redone)

/-- A queued instruction of a feeder that waits when its declaration ends completes with no effect (R255). -/
def Hart.feedersDone (h : Hart) : Hart :=
  { h with vq := h.vq.filter (fun e =>
      !((match e.op with
         | .mfeed _ _ => true
         | .mdrain _ _ => true
         | _ => false) && h.vq.all (fun f => decide (e.seq ≤ f.seq) || f.admitted))) }

/-- The first end action: END at both feeders, and the flags at the MRUN's hart (R249). At a hart that still holds the END of an
earlier declaration both stand, since no event is lost (R245; log entry 106, DESIGN CHOICE). -/
def State.raiseEnd (s : State) (pn : Nat) : State :=
  let m := s.mill pn
  let f := feederHart pn m.decl.feeder
  let d := feederHart pn m.decl.drainer
  let ev : MillEvent := ⟨3, m.status, m.resume⟩
  let s := s.raiseEvent f ev
  let s := if d = f then s else s.raiseEvent d ev
  let s := s.setHart m.hart ((s.hart m.hart).raise m.flags)
  let s := (List.range 8).foldl (fun s i => s.setHart (8 * pn + i) (s.hart (8 * pn + i)).feedersDone) s
  s.setMill pn { m with endStage := 1, stopReq := false, tiles := [] }

/-- The last end action: instruction mode, with both slots zeroed (R220, R249). -/
def State.leaveMill (s : State) (pn : Nat) : State :=
  s.setPair pn { s.pair pn with b0 := {}, b1 := {}, mill := { s.mill pn with ended := true } }

/-- The space of a declaration's accesses. -/
def Mill.space (m : Mill) : Space :=
  { asid := m.asid, root := m.ptbase.toNat, core := some (coreOf m.hart), cluster := clusterOf m.hart, fixed := m.fixed }

/-- ENDSIG's decrement (R249, R440). -/
def State.endSignal (s : State) (m : Mill) : Except AFault State :=
  if m.decl.endsig = 0 then .ok s else s.sigAction m.space m.hart m.decl.endsig.toNat

/-- Whether the declaration has closed and its finished blocks have been drained. -/
def Mill.closing (m : Mill) : Bool := !m.ended && m.status != 1 && m.runs.isEmpty && m.blocks.isEmpty

/-- The end of a declaration that is ready for it, action by action. When the end signal's decrement is discarded, the array does
not return to instruction mode: what comes after a discarded action is not performed, and the context ends (R440). -/
def State.millEnd (s : State) (pn : Nat) (supply : PageSupply) : State :=
  let m := s.mill pn
  if m.closing && m.endStage != 2 then
    let s := if m.endStage = 0 then s.raiseEnd pn else s
    match s.withSupply m.ptbase.toNat supply (fun s => s.endSignal m) with
    | .done s => s.leaveMill pn
    | .waits s => s
    | .fails f s => (s.setMill pn { s.mill pn with endStage := 2 }).actionFailed m.asid (some m.hart) f
  else s

/-! ### B tiles (R244) -/

/-- The B tile of the next beat that needs one, loaded as one event of the MRUN hart's vector stream, or its fault. A beat
with the same tile as the one before needs no load. The load is no committed instruction, so no far counter counts it (R87), and it
bypasses allocation when the declaration's launch was of fixed timing (R45, R125). -/
def State.loadBTile (s : State) (pn : Nat) : State :=
  let m := s.mill pn
  let d := m.decl
  let b := m.bBeat
  if m.ended || m.status != 1 || m.bFault || decide (d.beats ≤ b) || decide (m.nextBeat < b) then s
  else
    let at_ := (d.nOf b, d.kOf b)
    if m.bLoaded = some at_ then s.setMill pn { m with bBeat := b + 1 }
    else
      let base := BitVec.ofNat 64 (d.bbase.toNat + at_.2 * d.kstride.toNat + at_.1 * d.nstride.toNat)
      match s.probeRows m.space base d.bstride (bRowBytes d.bfmt 256) 0 256 [] with
      | (_, t :: _) =>
        (s.walkConsumed m.space m.hart t.f.addr).setMill pn { m with
          bFault := true, faultVa := BitVec.ofNat 64 t.f.addr, faultCause := t.f.cause, faultBeat := b, faultCode := t.f.code }
      | (ps, []) =>
        if ps.any (fun p => s.reachWaits p.reach) then s
        else
        let s := (s.assignAll ps).consumeFor m.asid m.hart ps
        let tile := s.readTile d.bfmt 256 ps 0 256
        let s := (s.markAll m.asid ps false .plain).touchFrom (coreOf m.hart) ps false (!m.fixed)
        let sl := if m.bLoaded.isNone then 0 else 1 - m.bSlot
        let fl := tile.2.foldl (fun f x => f ||| x) 0
        let p := (s.pair pn).setSlot sl { k := 256, n := 256, fmt := d.bfmt, short := false, tile := tile.1 }
        s.setPair pn { p with mill := { s.mill pn with
          bBeat := b + 1, bLoaded := some at_, bSlot := sl, flags := m.flags ||| flagBits fl } }

/-! ### Beats (R242, R243, R245, R248) -/

/-- The OPERAND event of the next beat, raised when its place in the schedule comes and the feeder has room. -/
def State.raiseOperand (s : State) (pn : Nat) : State :=
  let m := s.mill pn
  let f := feederHart pn m.decl.feeder
  match m.operandDue with
  | none => s
  | some due =>
    if m.ended || !m.inTurn due true || decide (16 ≤ (s.hart f).demands) then s
    else (s.setMill pn { m with nextOperand := m.nextOperand + 1 }).raiseEvent f ⟨1, 0, m.nextOperand⟩

/-- Whether the next beat's boundary has come in the schedule. -/
def Mill.atBoundary (m : Mill) : Bool :=
  !m.ended && m.status == 1 && m.runs.all (fun r => r.entered) && m.inTurn m.tick false

/-- The complete A tile of the next beat. -/
def Mill.tileReady (m : Mill) : Option ATile := m.tiles.find? (fun t => t.beat == m.nextBeat && t.rows == 256)

/-- Whether the next beat's B tile has landed. -/
def Mill.bReady (m : Mill) : Bool := decide (m.nextBeat < m.bBeat)

/-- The next beat starts: its block begins or is finished. -/
def Mill.startBeat (m : Mill) (t : ATile) (tile : Nat) : Mill :=
  let b := m.nextBeat
  let d := m.decl
  let blocks := if d.kOf b = 0 then m.blocks ++ [{ first := b }] else m.blocks
  let last := d.kOf b + 1 == d.kb
  { m with
    runs := m.runs ++ [{ beat := b, start := m.tick, aTile := t.bits, bTile := tile }]
    nextBeat := b + 1, tick := m.tick + d.period
    blocks := blocks.map (fun k => if k.first = b - d.kOf b then { k with finished := k.finished || last } else k) }

/-- A missed beat: one more, and an idle beat, under SLIP, the end under FAIL. -/
def Mill.missed (m : Mill) : Mill :=
  if m.decl.policy = 0 then { m with miss := min (m.miss + 1) (2 ^ 32 - 1), tick := m.tick + m.decl.period } else m.close 3

/-- Why the run ends at the next boundary, if it does: it has run through, a stop, or a fault (R249). The manual gives no order among
endings that meet there; a run that is through is DONE, then a stop comes before a fault, and both before a missed beat under FAIL
(R253; log entry 108, DESIGN CHOICE). -/
def Mill.endsWith (m : Mill) : Option Nat :=
  if m.decl.beats ≤ m.nextBeat then some 2
  else if m.stopReq then some 5
  else if m.bFault && m.bBeat == m.nextBeat then some 4
  else none

/-- The boundary of the next beat (R248, R249): the end of the run, a start, or a missed beat. -/
def Pair.boundary (p : Pair) : Mill :=
  let m := p.mill
  match m.endsWith with
  | some st => m.close st
  | none =>
    match m.tileReady with
    | some t => if m.bReady then m.startBeat t (p.slot m.bSlot).tile else m.missed
    | none => m.missed

/-- All A rows of the beat that takes the intake have entered: its landing slot is free (R243). -/
def Mill.enter (m : Mill) : Mill :=
  { m with
    tiles := m.tiles.filter (fun t => !m.runs.any (fun r => r.beat == t.beat && !r.entered))
    runs := m.runs.map (fun r => { r with entered := true }) }

/-- Whether a started beat has rows still to enter. -/
def Mill.entering (m : Mill) : Bool := m.runs.any (fun r => !r.entered)

/-- Whether the next output row of a beat may be written: a block's first beat waits for the same row of the block before
(R247). -/
def Mill.rowFree (m : Mill) (r : RunBeat) : Bool :=
  m.decl.kOf r.beat != 0 || !(m.blocks.any (fun k => decide (k.first < r.beat) && decide (k.taken ≤ r.outRow)))

/-- The next output row of the oldest started beat passes the checker and is written to the accumulator store; after the last
row of a block's final beat its DRAIN event is raised (R243, R245). A full feeder halts the array, and so does a row of the
block before that is not taken; neither does once the dispatcher has the array stop (R249). -/
def State.millRow (s : State) (pn : Nat) (mismatch force : Bool) : State :=
  let p := s.pair pn
  let m := p.mill
  match m.runs with
  | [] => s
  | r :: others =>
    let d := m.decl
    let dr := feederHart pn d.drainer
    let first := r.beat - d.kOf r.beat
    let lastRow := r.outRow == 255
    let drain := lastRow && d.kOf r.beat + 1 == d.kb
    let full := decide (16 ≤ (s.hart dr).demands)
    if !r.entered || !(force || (m.inTurn r.due false && m.rowFree r && !(drain && full))) then s
    else if mismatch then
      let s := s.checkerMiss m.hart r.redone
      s.setMill pn { s.mill pn with runs := { r with redone := true } :: others }
    else
      let i := r.outRow
      let old := match m.blocks.find? (fun k => k.first == first) with
        | some k => k.bits
        | none => 0
      let row := outRow (fun k => tileAt r.aTile i k) (fun k j => tileAt r.bTile k j) 256
        (fun j => if d.kOf r.beat = 0 then 0x80000000 else elem old 32 (256 * i + j)) 256
      let m' : Mill := { m with
        flags := m.flags ||| flagBits row.2
        blocks := m.blocks.map (fun k =>
          if k.first = first then { k with bits := putBits k.bits (8192 * i) 8192 row.1, raised := k.raised || drain } else k)
        runs := if lastRow then others else { r with outRow := i + 1 } :: others }
      let s := s.setPair pn { p with mill := m'.discard, pass := if lastRow then p.pass + 1 else p.pass }
      if drain && !full then s.raiseEvent dr ⟨2, 0, first⟩ else s

/-- Whether the last A row of the beat at the intake enters now: its cycle has come in the schedule, which does not stand still. -/
def Mill.mayEnter (m : Mill) : Bool := m.runs.all (fun r => r.entered || m.inTurn r.freed false)

/-- What the events of the schedule do at an array: the A rows that have entered free their slot, or the next boundary. -/
def State.beatEvent (s : State) (pn : Nat) : State :=
  let m := s.mill pn
  if m.entering then (if m.mayEnter then s.setMill pn m.enter else s)
  else if m.atBoundary then s.setMill pn (s.pair pn).boundary
  else s

/-- Everything the array can do by itself, in its order: B tiles, OPERAND events, a beat that is ready, output rows, the
end (eager work; no beat is missed by it). -/
def State.millAdvance (s : State) (pn : Nat) : Nat → State
  | 0 => s
  | n + 1 =>
    let m := s.mill pn
    if m.ended then s
    else
      let s1 := ((s.loadBTile pn).raiseOperand pn).millRow pn false false
      let m1 := s1.mill pn
      let s2 := if m1.entering || m1.endsWith.isSome || (m1.tileReady.isSome && m1.bReady) then s1.beatEvent pn else s1
      let s3 := s2.millEnd pn .absent
      if s3.mill pn = m then s3 else State.millAdvance s3 pn n

/-- Steps that one eager advance of an array may need: rows and boundaries of the beats that can run. -/
def millFuel : Nat := 4096

/-- The array moved on, when work is eager. -/
def State.millEager (s : State) (pn : Nat) : State := if s.eager then s.millAdvance pn millFuel else s

/-! ### MRUN, MFEED, MDRAIN (R252, R255) -/

/-- A declaration taken up (R252). -/
def newMill (s : State) (g : Nat) (d : Decl) : Mill :=
  let h := s.hart g
  { status := 1, decl := d, asid := h.asid.toNat, ptbase := h.ptbase, fixed := h.fixed, keeps := h.millKeeps, gang := h.task, hart := g, resume := d.start
    nextOperand := d.start, nextBeat := d.start, tick := d.lookahead * d.period, bBeat := d.start, beatNow := d.start
    ended := false }

/-- MRUN at admission (R252). It waits until the array has no instruction in it. -/
def State.mrun (s : State) (g : Nat) (e : Entry) (dst : XReg) : QRes :=
  let pn := pairOf g
  let h := s.hart g
  let p := s.pair pn
  let a := e.ops.headD 0
  if !(p.admitted.isEmpty && h.matrixPast e && h.vectorPast e.seq && h.vectorEventsPast e) then .wait s
  else if a.toNat % 64 ≠ 0 then .trap (queueTrap e causeMisalign a)
  else
    match s.probeAll (s.space g) .read [⟨0, a.toNat, 64, false⟩] with
    | (t :: ts, _) => .trap ((vmemRecord e (t :: ts)).getD (queueTrap e t.f.cause a t.f.code))
    | ([], ps) =>
      if ps.any (fun p => s.reachWaits p.reach) then .wait s
      else
      let s := (s.assignAll ps).consume g ps
      let bs := s.elemBytes ps 0
      let d := declOf bs
      let asid := h.asid.toNat
      let s := ((s.markAll asid ps false .plain).touchAll g ps false true).countPieces asid ps e.codeFar
      let h := s.hart g
      let answer := fun (s : State) (v : Int) => QRes.done (s.setHart g ((h.setX dst (BitVec.ofInt 64 v)).dropMatrix e.seq))
      if p.milling then answer s (-1)
      else if d.bad (field bs 0x35 1) then answer s (-2)
      else if !((s.hart (feederHart pn d.feeder)).runs asid && (s.hart (feederHart pn d.drainer)).runs asid) then
        answer s (-3)
      else
        match answer s 0 with
        | .done s => .done ((s.setPair pn { s.pair pn with mill := newMill s g d }).millEager pn)
        | r => r

/-- ILLEGAL conditions of MFEED and MDRAIN (R255). -/
def feedIllegal (gr : Group) (nr : Nat) (v : VReg) : Bool :=
  gr.lanes == 0 || !aligned v.toNat gr.regs || decide (nr ≤ v.toNat + gr.regs - 1)

/-- Whether an MFEED of hart g has no effect (R255). -/
def State.feedIdle (s : State) (g : Nat) : Bool :=
  let m := s.mill (pairOf g)
  m.ended || m.status != 1 || feederHart (pairOf g) m.decl.feeder != g

/-- The tile that an MFEED fills: the one it, or another, has begun, or that of the next beat without one (R246). -/
def Mill.feedTile (m : Mill) : ATile :=
  match m.tiles.find? (fun t => decide (t.rows < 256)) with
  | some t => t
  | none => ⟨(match m.tiles.getLast? with
      | some t => t.beat + 1
      | none => m.nextBeat), 0, 0⟩

/-- Whether the array can take A rows now (R246): the tile's OPERAND event has been raised, and a landing slot is free. -/
def Mill.feedReady (m : Mill) : Bool :=
  let t := m.feedTile
  decide (t.beat < m.nextOperand) && (t.rows != 0 || decide (m.tiles.length < 2))

/-- Rows of the group that one A row takes. -/
def rowsPerA (gr : Group) : Nat := (4096 + gr.rowBits - 1) / gr.rowBits

/-- The A rows that an MFEED moves in all; it has fed `e.eidx` of them (R255). -/
def State.feedCount (s : State) (g : Nat) (e : Entry) : Nat :=
  let gr := s.groupOf g e.vconf
  min (e.ops.headD 0).toNat (min (gr.regs * gr.rows / rowsPerA gr) (256 - ((s.mill (pairOf g)).feedTile.rows - e.eidx)))

/-- One A row of an MFEED goes into the tile. -/
def State.feedRow (s : State) (g : Nat) (e : Entry) (a : VReg) (i : Nat) : State :=
  let pn := pairOf g
  let m := s.mill pn
  let gr := s.groupOf g e.vconf
  let t := m.feedTile
  let row := groupRun gr (((s.hart g).asSeen e.seq).groupVals gr a) (i * rowsPerA gr) (rowsPerA gr) % 2 ^ 4096
  let t' : ATile := { t with rows := t.rows + 1, bits := putBits t.bits (4096 * t.rows) 4096 row }
  let tiles := if m.tiles.any (fun u => u.beat == t.beat) then m.tiles.map (fun u => if u.beat = t.beat then t' else u)
    else m.tiles ++ [t']
  s.setMill pn { m with tiles := tiles }

/-- The A rows from the i-th on that an MFEED can feed, at most n, up to the first whose source is pending (R255); how many of them
it has fed then. -/
def State.feedRows (s : State) (g : Nat) (e : Entry) (a : VReg) : (i n : Nat) → State × Nat
  | i, 0 => (s, i)
  | i, n + 1 =>
    let gr := s.groupOf g e.vconf
    if s.runPending g e a (i * rowsPerA gr) (rowsPerA gr) then (s, i)
    else State.feedRows (s.feedRow g e a i) g e a (i + 1) n

/-- MDRAIN before it is admitted (R255): `none` when it has no effect, otherwise whether its block's DRAIN event has been
raised. -/
def State.drainReady (s : State) (g : Nat) : Option Bool :=
  let m := s.mill (pairOf g)
  if m.ended || feederHart (pairOf g) m.decl.drainer != g || (m.status != 1 && m.runs.isEmpty && m.blocks.isEmpty) then none
  else
    match m.blocks.head? with
    | none => some false
    | some k => some k.raised

/-- The rows that an MDRAIN takes of its block (R247, R255). -/
def State.mdrain (s : State) (g : Nat) (e : Entry) (v : VReg) : State :=
  let pn := pairOf g
  let m := s.mill pn
  match m.blocks with
  | [] => s
  | k :: rest =>
    let gr := s.groupOf g e.vconf
    let rpr := (8192 + gr.rowBits - 1) / gr.rowBits
    let c := min (e.ops.headD 0).toNat (min (gr.regs * gr.rows / rpr) (256 - k.taken))
    let h := (List.range c).foldl (fun h i =>
      h.writeRun gr v (i * rpr) rpr ((k.bits >>> (8192 * (k.taken + i))) % 2 ^ 8192)) (s.hart g)
    let k' := { k with taken := k.taken + c }
    let m' := if k'.taken = 256 then { m with blocks := rest, resume := k.first + m.decl.kb } else { m with blocks := k' :: rest }
    (s.setHart g h).setMill pn m'

/-! ### The record -/

/-- The record's field that MLAH reads (R256). A beat runs until its last A row has entered (log entry 94, DEDUCED). -/
def Mill.look (m : Mill) (sel : Nat) : Nat :=
  let fault := m.status == 4
  if sel = 0 then m.resume
  else if sel = 1 then m.miss
  else if sel = 2 then
    let beat := if m.status = 0 then 0
      else if m.status = 1 then (match m.runs.find? (fun r => !r.entered) with
        | some r => r.beat
        | none => m.nextBeat)
      else m.beatNow
    m.status % 256 + beat % 2 ^ 48 * 2 ^ 16
  else if sel = 3 then (if fault then m.faultVa.toNat else 0)
  else if fault then m.faultCause % 256 + m.faultBeat % 2 ^ 48 * 2 ^ 16 else 0

/-! ### The events -/

/-- A declaration raises its next OPERAND event (R245). -/
def execMillraceOperandEvent (p : Nat) (s : State) : Out :=
  .next (if s.islandStopped p then s else s.raiseOperand p)

/-- The A rows of the beat at the intake have all entered, or the boundary of the next beat comes (R243, R248). -/
def execBeatStart (p : Nat) (s : State) : Out := .next (if s.islandStopped p then s else s.beatEvent p)

/-- A declaration's B tile lands, or its load faults (R244). -/
def execBTileLoadComplete (p : Nat) (s : State) : Out :=
  .next (if s.islandStopped p then s else s.loadBTile p)

/-- An output row of a beat (R243). -/
def execMillraceOutputRow (p : Nat) (mismatch : Bool) (s : State) : Out :=
  .next (if s.islandStopped p then s else s.millRow p mismatch false)

/-! ### Pre-emption (R249, R250) -/

/-- The beats that have started run to their end before an ending by the dispatcher. -/
def State.millFlush (s : State) (pn : Nat) : Nat → State
  | 0 => s
  | n + 1 =>
    let m := s.mill pn
    if m.runs.isEmpty then s else State.millFlush ((s.setMill pn m.enter).millRow pn false true) pn n

/-- The dispatcher ends a declaration: a running one with PREEMPTED, one already closed keeping its status; blocks not
drained are discarded (R249, R250). Then the end actions: an absent page that the end signal misses is asked of the dispatcher,
and the declaration ends with it. -/
def State.millPreempt (s : State) (pn : Nat) : State :=
  if (s.mill pn).ended || (s.mill pn).endStage != 0 then s
  else
    let s := s.millFlush pn 769
    let m := s.mill pn
    let m := if m.status = 1 then { m with status := 6, beatNow := m.nextBeat } else m
    (s.setMill pn { m with blocks := [], tiles := [] }).millEnd pn .absent

/-- A declaration of a context that is gone (R377): no page is supplied any more, and no declaration lasts. -/
def State.millAbandon (s : State) (pn : Nat) : State :=
  let s := s.millPreempt pn
  if (s.mill pn).ended then s else (s.millEnd pn .decline).leaveMill pn

end Sys2Proof.Machine
end

