-- ==== Sys2Proof/Machine/Pipe.lean ====
section
/-! DEFINITION. The two queues at work (R169 to R172, R180, R221, R222, R304): the stream instructions (R80, R81), what each
operation of the vector queue does, its admission and its way through the lanes, the matrix queue's admission to the array, and
eager work. -/

namespace Sys2Proof.Machine

open Sys2Proof

/-! ### The stream instructions (R81) -/

/-- SDESC: the descriptor at a, checked, or its trap. -/
def State.sdesc (s : State) (g : Nat) (e : Entry) (sn : SReg) : QRes :=
  let a := e.ops.headD 0
  if a.toNat % 64 ≠ 0 then .trap (queueTrap e causeMisalign a)
  else
    match s.probeAll (s.space g) .read [⟨0, a.toNat, 64, false⟩] with
    | (t :: ts, _) => .trap ((vmemRecord e (t :: ts)).getD (queueTrap e t.f.cause a t.f.code))
    | ([], ps) =>
      if ps.any (fun p => s.reachWaits p.reach) then .wait s
      else
      let s := (s.assignAll ps).consume g ps
      let d := descOf (s.elemBytes ps 0)
      match descFault d with
      | some code => .trap (streamTrap e code)
      | none =>
        let asid := (s.hart g).asid.toNat
        let s := ((s.markAll asid ps false .plain).touchAll g ps false true).countPieces asid ps e.codeFar
        .done (s.setHart g ((s.hart g).setStream sn.toNat (boundTo d)))

def State.sbase (s : State) (g : Nat) (e : Entry) (sn : SReg) : QRes :=
  let h := s.hart g
  let r := h.stream sn.toNat
  let b := e.ops.headD 0
  if !r.bound then .trap (streamTrap e 6)
  else if !strideOk r.desc b then .trap (streamTrap e 3)
  else .done (s.setHart g (h.setStream sn.toNat { r.discard with desc := { r.desc with base := b } }))

/-- What SPOS returns. -/
def StreamReg.position (r : StreamReg) : Word := if r.bound then r.pos.zeroExtend 64 else BitVec.allOnes 64

def State.sseek (s : State) (g : Nat) (e : Entry) (sn : SReg) : QRes :=
  let h := s.hart g
  let r := h.stream sn.toNat
  let p := (e.ops.headD 0).toNat
  if !r.bound then .trap (streamTrap e 6)
  else if r.desc.total < p then .trap (streamTrap e 9)
  else .done (s.setHart g (h.setStream sn.toNat { r.discard with pos := BitVec.ofNat 48 p }))

/-- SREL; the descriptor and position of an unbound stream are not in force, and SSAVE writes zeros for the former. -/
def State.srel (s : State) (g : Nat) (sn : SReg) : QRes :=
  let h := s.hart g
  .done (s.setHart g (h.setStream sn.toNat { (h.stream sn.toNat).discard with bound := false }))

/-- SSAVE: the 128 bytes of the save image. -/
def State.ssave (s : State) (g : Nat) (e : Entry) (sn : SReg) : QRes :=
  let a := e.ops.headD 0
  if a.toNat % 128 ≠ 0 then .trap (queueTrap e causeMisalign a)
  else
    match s.probeAll (s.space g) .write [⟨0, a.toNat, 128, false⟩] with
    | (t :: ts, _) => .trap ((vmemRecord e (t :: ts)).getD (queueTrap e t.f.cause a t.f.code))
    | ([], ps) =>
      if ps.any (fun p => s.reachWaits p.reach) then .wait s
      else
      let asid := (s.hart g).asid.toNat
      let s := ((s.assignAll ps).consume g ps false).storePieces ps (saveBytes ((s.hart g).stream sn.toNat))
      .done ((((s.unpoison ps).markAll asid ps true .plain).touchAll g ps true true).countPieces asid ps e.codeFar)

/-! ### Running one entry -/

/-- What an entry captured, as its meaning uses it. -/
def State.capOf (s : State) (g : Nat) (e : Entry) : Cap :=
  { ew := vcEw e.vconf, vl := e.vl, vlmax := vlmaxOf (s.core (coreOf g)).vrb e.vconf, lanes := vcLanes e.vconf
    lam := vcLam e.vconf, rm := e.rm, ops := e.ops }

/-- The probe of a vector memory instruction (R84). -/
def State.probeVector (s : State) (g : Nat) (e : Entry) : Probed :=
  let c := s.capOf g e
  match e.op with
  | .ld _ sn m => s.probeStream g e c sn m .none false .read
  | .ldSeq _ sn m => s.probeStream g e c sn m .none false .read
  | .ldx _ b sn m => s.probeStream g e c sn m (.index b) false .read
  | .sld _ sn m => s.probeStream g e c sn m .slide false .read
  | .st _ sn m => s.probeStream g e c sn m .none true .write
  | .stSeq _ sn m => s.probeStream g e c sn m .none true .write
  | .stx _ b sn m => s.probeStream g e c sn m (.index b) true .write
  | .stn _ sn m => s.probeNotify g e c sn m
  | .amo op _ b sn m => s.probeAmo g e c op b sn m
  | .stp _ t sn m => s.probePair g e c t sn m
  | _ => .ok []

/-- A vector memory instruction with the parts that its probe found (R71, R84); it waits while the way to one of them is not open
(R291). -/
def State.withPieces (s : State) (e : Entry) (act : List Piece → State) : QRes :=
  if e.pieces.any (fun p => s.reachWaits p.reach) then .wait s else .done (act e.pieces)

/-- The effects of a vector-queue entry on its elements from the start index to `hi`; for an instruction that is one
event, or has no elements, of the whole. -/
def State.runVector (s : State) (g : Nat) (e : Entry) (hi : Nat) : QRes :=
  let c := s.capOf g e
  match e.op with
  | .ld d sn m => s.withPieces e (s.vload g e c d sn m .none hi)
  | .ldSeq d sn m => s.withPieces e (s.vload g e c d sn m .none hi)
  | .ldx d b sn m => s.withPieces e (s.vload g e c d sn m (.index b) hi)
  | .sld d sn m => s.withPieces e (s.vload g e c d sn m .slide hi)
  | .st d sn m => s.withPieces e (s.vstore g e c d sn m .none hi)
  | .stSeq d sn m => s.withPieces e (s.vstore g e c d sn m .none hi)
  | .stx d b sn m => s.withPieces e (s.vstore g e c d sn m (.index b) hi)
  | .stn d sn m => s.withPieces e (fun ps =>
      if c.vl = 0 then s
      else (if e.stored then s else s.vstoreData g c d sn m ps).vstoreNotify g e c sn ps)
  | .amo op d _ sn _ => s.withPieces e (s.vamo g e c op d sn)
  | .stp d t sn m => s.withPieces e (s.vstorePair g e c d t sn m)
  | .sdesc _ sn => s.sdesc g e sn
  | .sbase _ sn => s.sbase g e sn
  | .spos d sn => .done (s.setHart g ((s.hart g).setX d ((s.hart g).stream sn.toNat).position))
  | .sseek _ sn => s.sseek g e sn
  | .srel sn => s.srel g sn
  | .ssave _ sn => s.ssave g e sn
  | .copy d _ _ a b tag fl => s.issueCopy g e d (some a) b tag.toNat fl
  | .copyf d _ _ b tag fl => s.issueCopy g e d none b tag.toNat fl
  | .copystat d tag => s.copyStat g e d tag.toNat
  | .mdrain d _ => .done (if s.drainReady g = some true then s.mdrain g e d else s)
  | .send a _ => .done (s.sendStrip g e (stripOf (s.hart g) c a))
  | .recv d v _ => .done (s.recvStrip g e c d v)
  | .rsig _ => s.rsig g e
  | _ => .done (s.setHart g (vecStep (s.hart g) c e.op e.eidx hi))

/-- A vector-queue entry leaves its queue; EIDX is 0 again when PL0 goes on, and stays what the entry to PL1 made it there (R158,
R379). -/
def Hart.dropVector (h : Hart) (seq : Nat) : Hart :=
  { h with vq := h.vq.filter (fun e => e.seq != seq), eidx := if h.level = .pl0 then 0 else h.eidx }

/-- An entry of a hart's vector queue changed. -/
def Hart.updateVector (h : Hart) (seq : Nat) (f : Entry → Entry) : Hart :=
  { h with vq := h.vq.map (fun e => if e.seq = seq then f e else e) }

/-- The entries of the vector queue before a place in program order. -/
def Hart.before (h : Hart) (seq : Nat) : List Entry := h.vq.filter (fun f => decide (f.seq < seq))

/-- A queued instruction has met its fault: the entry stays and the trap is due (R304). -/
def State.queueFault (s : State) (g : Nat) (r : TrapRec) : State :=
  let s := s.trapWalks g r
  s.setHart g { s.hart g with trapDue := some r }

/-! ### Through the lanes (R169 to R171, R378) -/

/-- Whether an entry may stop between element groups: a splittable instruction none of whose sources it overwrites out of step
(R378). -/
def Entry.canSplit (e : Entry) : Bool :=
  splittable e.op && !(match e.op with
    | .slideUp d a _ _ => d == a
    | .slideDn d a _ _ => d == a
    | .gather d a b _ => d == a || d == b
    | .compress d a _ => d == a
    | .expand d a _ => d == a
    | _ => false)

/-! ### Probing ahead (R84, R172) -/

/-- The operations that run at one stroke behind every earlier event: those of streams and copies, and the requests of SEND and
RSIG (R80, R94, R296). -/
def qIsInstant (q : QOp) : Bool :=
  match q with
  | .send .. => true
  | .rsig .. => true
  | _ => !qIsVmem q && !(qStreams q).isEmpty

/-- Whether an earlier MLDB has not passed its probe, or an earlier MRUN has not read its declaration (R172, R257). -/
def State.loadBlocks (s : State) (g : Nat) (e : Entry) : Bool :=
  let p := s.pair (pairOf g)
  (s.hart g).mq.any (fun f => decide (f.seq < e.seq) && (match f.op with
    | .mldb .. => !p.loads.any (fun b => b.2.hart == g && b.2.seq == f.seq && b.2.fault.isNone)
    | .mrun .. => true
    | _ => false))

/-- The vector register whose elements displace an operation's addresses. -/
def qIndex (q : QOp) : Option VReg :=
  match q with
  | .ldx _ b _ _ => some b
  | .stx _ b _ _ => some b
  | .amo _ _ b _ _ => some b
  | _ => none

/-- Whether an earlier entry still decides what the probe of an entry finds: its stream, its mask or its index (R80, R172). The
register that a store reads has no part in it. -/
def probeDepends (gr : Group) (f e : Entry) : Bool :=
  (qStreams e.op).any (qStreams f.op).contains ||
    (match qMaskDest f.op with
     | some m => (qMReads e.op).contains m
     | none => false) ||
    (qIndex e.op).any (fun b => (qVWrites gr f.op).contains b.toNat)

/-- The operations beside vector memory that may meet a fault when they run. -/
def qMayTrap (q : QOp) : Bool :=
  match q with
  | .copystat .. => true
  | .recv .. => true
  | _ => qIsInstant q

/-- A vector memory instruction whose probe has passed, with the parts that it found. -/
def Hart.withProbe (h : Hart) (seq : Nat) (ps : List Piece) : Hart :=
  h.updateVector seq (fun f => { f with probed := true, pieces := ps })

/-- The probe of a vector memory instruction in program order behind those before it, and behind instructions that cannot trap any
more; nothing while what decides its addresses is still to come. The translations it finds are those of the instruction's event
(R71, R172). -/
def State.probeEntry (s : State) (g : Nat) (e : Entry) : Except TrapRec (Option (List Piece)) :=
  let h := s.hart g
  if (h.before e.seq).any (fun f => qIsVmem f.op && !f.probed) || s.loadBlocks g e ||
      (h.earlier e.seq).any (fun f => probeDepends (s.groupOf g f.vconf) f e || (!f.admitted && qMayTrap f.op)) then .ok none
  else
    match (s.setHart g (h.asSeen e.seq)).probeVector g e with
    | .error r => .error r
    | .ok ps => .ok (some ps)

/-- Whether an operation is an event of the vector stream (Table 16-1). -/
def qIsEvent (q : QOp) : Bool :=
  qMakesEvent q && !(match q with
    | .recv .. => true
    | _ => false)

/-- Whether an operation follows every earlier event of its stream: an event does, and so does SEND, whose receiver follows the
sender's writes (R296, R364). -/
def qFollows (q : QOp) : Bool :=
  qIsEvent q || (match q with
    | .send .. => true
    | _ => false)

/-- Whether a load may be performed while an earlier store of its hart still waits for its source rows: the store reaches no byte
that the load reads (R181, R435). -/
def Entry.passes (e f : Entry) : Bool :=
  qIsLoad e.op && qIsVmem f.op && !qIsLoad f.op && f.probed && e.pieces.all (fun p => f.pieces.all (fun q =>
    decide (p.reach.pa + p.len ≤ q.reach.pa) || decide (q.reach.pa + q.len ≤ p.reach.pa)))

/-- Whether every vector-stream event of the vector queue before an entry's has taken place (R354), but for what it passes. -/
def Hart.eventsPast (h : Hart) (e : Entry) : Bool := (h.before e.seq).all (fun f => !qIsEvent f.op || e.passes f)

/-- An entry run from its start index to `hi`: it leaves the queue when it is through, and otherwise stays with its new start
index. -/
def State.runTo (s : State) (g : Nat) (e : Entry) (hi : Nat) : QRes :=
  match s.onSeen g e hi (fun s => s.runVector g e hi) with
  | .wait s => .wait s
  | .trap r => .trap r
  | .done s =>
    if hi < e.vl then
      .done (s.setHart g ((s.hart g).updateVector e.seq (fun f => { f with eidx := hi, admitted := true })))
    else .done (s.setHart g ((s.hart g).dropVector e.seq))

/-- How far a splittable entry goes on, at most to `upto`: as far as those before it let it, and to the end or to a boundary of
an element group (R378). -/
def State.reach (s : State) (g : Nat) (e : Entry) (upto : Nat) : Option Nat :=
  if s.clear g e && decide (e.vl ≤ upto) then some e.vl
  else
    let n := min (min ((s.limit g e).getD e.vl) (e.vl - 1)) upto / e.group * e.group
    if e.eidx < n then some n else none

/-- Whether an operation is an MFEED. -/
def qIsFeed (q : QOp) : Bool :=
  match q with
  | .mfeed .. => true
  | _ => false

/-- MFEED goes on: it has no effect, or its rows enter the array as far as they are written (R255, R378). -/
def State.feedOn (s : State) (g : Nat) (e : Entry) : QRes :=
  if s.feedIdle g then .done (s.setHart g ((s.hart g).dropVector e.seq))
  else
    let n := s.feedCount g e
    let r := match e.op with
      | .mfeed a _ => s.feedRows g e a e.eidx (n - e.eidx)
      | _ => (s, n)
    if n ≤ r.2 then .done ((r.1.setHart g ((r.1.hart g).dropVector e.seq)).millEager (pairOf g))
    else if r.2 = e.eidx then .wait s
    else .done ((r.1.setHart g ((r.1.hart g).updateVector e.seq (fun f => { f with eidx := r.2, admitted := true }))).millEager
      (pairOf g))

/-- VSTN goes on: its data, and then, as an event of its own, its progress word (R287); eager work leaves nothing between. -/
def State.notifyOn (s : State) (g : Nat) (e : Entry) (d : VReg) (sn : SReg) (m : MReg) : QRes :=
  if e.stored || e.vl = 0 || s.eager then s.runTo g e e.vl
  else s.onSeen g e e.vl (fun s =>
    let s := s.vstoreData g (s.capOf g e) d sn m e.pieces
    .done (s.setHart g ((s.hart g).updateVector e.seq (fun f => { f with admitted := true, stored := true }))))

/-- Whether an earlier instruction of the vector queue is to write an instruction's scalar register first (R302). -/
def Hart.destWaits (h : Hart) (e : Entry) : Bool :=
  (qDest e.op).any (fun d => (h.before e.seq).any (fun f => qDest f.op == some d))

/-- Whether an instruction that is not split can take effect: all its source rows are written, what it writes is free, every earlier
event has taken place, and a load's data have landed (R172, R181, R218, R302). -/
def State.ready (s : State) (g : Nat) (e : Entry) : Bool :=
  let h := s.hart g
  s.clear g e && (!qFollows e.op || h.eventsPast e) && (!qIsLoad e.op || e.landed || s.eager) && !h.destWaits e

/-- An entry whose admission nothing forbids goes on, a splittable one or a .SEQ form at most to element `upto`. -/
def State.goOn (s : State) (g : Nat) (e : Entry) (upto : Nat) : QRes :=
  let h := s.hart g
  if qIsVmem e.op && !e.probed then .wait s
  else if e.elementwise h then
    (if e.eidx < min upto e.vl || e.vl = 0 then s.runTo g e (min upto e.vl) else .wait s)
  else if e.canSplit then
    match s.reach g e upto with
    | some hi => s.runTo g e hi
    | none => .wait s
  else if qIsFeed e.op then s.feedOn g e
  else if !s.ready g e then .wait s
  else
    match e.op with
    | .stn d sn m => s.notifyOn g e d sn m
    | _ => s.runTo g e e.vl

/-! ### Admission (R169, R172, R180) -/

/-- Whether an earlier instruction has a write to register v still to make that instruction e sees. -/
def State.writePending (s : State) (g : Nat) (f e : Entry) (v : Nat) : Bool :=
  match f.op with
  | .mma .. => (mmaPending (s.groupOf g f.vconf) f v).isSome
  | _ => (qVWrites (s.groupOf g f.vconf) f.op).contains v && !(s.hart g).superseded f e v

/-- Whether an MMA posted earlier, whose C group an entry reads or writes, has yet to claim its C rows (R423). -/
def State.claimWaits (s : State) (g : Nat) (e : Entry) : Bool :=
  let gr := s.groupOf g e.vconf
  (s.hart g).mq.any (fun f => decide (f.seq < e.seq) && !f.admitted &&
    meets (qVWrites (s.groupOf g f.vconf) f.op) (qVTouches gr e.op))

/-- Operations that are not in flight: they complete when they are admitted. -/
def qAtOnce (q : QOp) : Bool :=
  match q with
  | .send .. => false
  | .recv .. => true
  | .mdrain .. => true
  | .copystat .. => true
  | _ => qIsInstant q

/-- Whether an entry may be admitted behind those before it. All of them have been, and have passed their probes; at most eight of
a hart are in flight, and under check mode 1 four in the lanes, where each takes two slots (R169, R172, R187). A .SEQ form follows
what has completed (R180), a writer of a mask what reads it (R168), a permute every write of its source (R208), and a user of an
MMA's C group the claim of its rows (R423). -/
def State.mayAdmit (s : State) (g : Nat) (e : Entry) : Bool :=
  let h := s.hart g
  let before := h.before e.seq
  h.vectorPast e.seq && decide (h.flying < 8) &&
    (h.checkmode != 1 || decide ((h.vq.filter (fun f => f.admitted)).length < 4)) &&
    !s.loadBlocks g e && !s.claimWaits g e &&
    (match qMaskDest e.op with
     | some m => !before.any (fun f => (qMReads f.op).contains m)
     | none => true) &&
    (match qCrossLane e.op with
     | some a => !(h.earlier e.seq).any (fun f => s.writePending g f e a.toNat)
     | none => true) &&
    (!e.elementwise h || (h.earlier e.seq).isEmpty) &&
    (!qAtOnce e.op || !qIsInstant e.op || before.all (fun f => (qStreams f.op).isEmpty && !qIsEvent f.op))

/-- Whether an earlier event of the vector queue takes place whatever stops the hart (R378): that of a load, or of a store whose
rows are written and which follows only events of that kind. -/
def State.surely (s : State) (g : Nat) (f : Entry) : Bool :=
  qIsLoad f.op || (s.clear g f && ((s.hart g).before f.seq).all (fun x => !qIsEvent x.op || s.clear g x))

/-- Whether a load, which runs to completion once it is admitted (R378), can do so: no write of its register is pending, and the
events before it will have taken place, or are stores that it passes (log entry 90). -/
def State.loadFits (s : State) (g : Nat) (e : Entry) : Bool :=
  s.clear g e && ((s.hart g).before e.seq).all (fun f => !qIsEvent f.op || s.surely g f || e.passes f)

/-- What an instruction waits for, or is refused, before its admission (R246, R255, R296). -/
def State.preAdmit (s : State) (g : Nat) (e : Entry) : QRes :=
  match e.op with
  | .send .. => s.sendAdmit g e
  | .recv .. => s.recvAdmit g e
  | .mfeed .. => if s.feedIdle g || (s.mill (pairOf g)).feedReady then .done s else .wait s
  | .mdrain .. => if s.drainReady g = some false then .wait s else .done s
  | _ => .done s

/-- An entry that may be admitted takes its place in flight, its destination placed under R167, and goes on. -/
def State.intoFlight (s : State) (g : Nat) (e : Entry) (upto : Nat) : QRes :=
  match s.preAdmit g e with
  | .wait s => .wait s
  | .trap r => .trap r
  | .done s =>
    match s.rename g e with
    | none => .wait s
    | some t =>
      if qIsLoad e.op && !t.loadFits g e then .wait s
      else
        match t.goOn g e upto with
        | .wait u => if qAtOnce e.op then .wait s
          else .wait (u.setHart g ((u.hart g).updateVector e.seq (fun f => { f with admitted := true })))
        | r => r

/-- A vector-queue entry admitted, if it is not in flight already, and moved on; eager work probes it first. -/
def State.advanceVector (s : State) (g : Nat) (e : Entry) (upto : Nat) : QRes :=
  let on := fun (s : State) (e : Entry) =>
    if e.admitted then s.goOn g e upto else if s.mayAdmit g e then s.intoFlight g e upto else .wait s
  if !qIsVmem e.op || e.probed then on s e
  else if !s.eager then .wait s
  else
    match s.probeEntry g e with
    | .error r => .trap r
    | .ok none => .wait s
    | .ok (some ps) => on (s.setHart g ((s.hart g).withProbe e.seq ps)) { e with probed := true, pieces := ps }

/-! ### The matrix queue -/

/-- MSYNC (R234). -/
def State.msync (s : State) (g : Nat) (e : Entry) : QRes :=
  if (s.hart g).matrixPast e && (s.hart g).vectorPast e.seq then .done (s.setHart g ((s.hart g).dropMatrix e.seq)) else .wait s

/-- The matrix instructions that do not use the array, at the head of their queue (R233 to R235). -/
def State.runControl (s : State) (g : Nat) (e : Entry) : QRes :=
  match e.op with
  | .mprog d sl => s.mprog g e d sl.toNat
  | .mchk d clr => s.mchk g e d (clr == 1)
  | _ => s.msync g e

/-- Whether a matrix instruction is admitted to the array (R222, R252). -/
def qUsesArray (q : QOp) : Bool :=
  match q with
  | .mldb .. => true
  | .mma .. => true
  | .mrun .. => true
  | _ => false

/-- MLDB, MLDB.FF, MMA and MRUN taken into the array, when it can admit them. -/
def State.admitMatrix (s : State) (g : Nat) (e : Entry) : QRes :=
  match e.op with
  | .mrun d _ => s.mrun g e d
  | .mldb ff _ _ fmt n k sl =>
    if s.arrayFree g e then s.admitMldb g e ff fmt.toNat (dim256 n) k.toNat sl.toNat else .wait s
  | .mma _ _ _ _ _ _ sl => if s.arrayFree g e then s.admitMma g e sl.toNat else .wait s
  | _ => .wait s

/-- A matrix-queue entry run to its end (eager work). -/
def State.runMatrix (s : State) (g : Nat) (e : Entry) : QRes :=
  let pn := pairOf g
  match e.op with
  | .mldb _ _ _ _ _ _ sl =>
    match s.admitMatrix g e with
    | .done s => .done (s.loadRows pn sl.toNat 257)
    | r => r
  | .mma .. =>
    match s.admitMatrix g e with
    | .done s => .done (s.outputRows pn g e.seq 257)
    | r => r
  | .mrun .. => s.admitMatrix g e
  | _ => s.runControl g e

/-! ### Eager work -/

/-- The heads of the two queues in program order: of the matrix queue, the first that is not under way. -/
def State.heads (s : State) (g : Nat) : List Entry :=
  let h := s.hart g
  (h.vq.take 1 ++ (match s.nextMatrix g with
    | some e => [e]
    | none => [])).foldr insertSeq []

/-- A head entry run whole. -/
def State.runHead (s : State) (g : Nat) (e : Entry) : QRes :=
  if qIsMatrix e.op then s.runMatrix g e else s.advanceVector g e e.vl

/-- Heads are run, the earlier of the two first, until both queues are empty, a fault is due, or both wait. -/
def State.drain (s : State) (g : Nat) : Nat → State
  | 0 => s
  | n + 1 =>
    if (s.hart g).trapDue.isSome then s
    else
      match s.heads g with
      | [] => s
      | e :: rest =>
        match s.runHead g e with
        | .done s => State.drain s g n
        | .trap r => s.queueFault g r
        | .wait s =>
          match rest with
          | [] => s
          | f :: _ =>
            match s.runHead g f with
            | .done s => State.drain s g n
            | .trap r => s.queueFault g r
            | .wait s => s

/-- All that can run of a hart's queues, when work is eager. -/
def State.drainEager (s : State) (g : Nat) : State := if s.eager then s.drain g 97 else s

/-! ### The stop point's part (R378) -/

/-- Whether an admitted entry runs on when its hart stops: a memory instruction whose source rows are all there and which follows
no event that is not to be, a transfer whose strip is written, and MFEED as far as its rows are. -/
def State.runsOn (s : State) (g : Nat) (e : Entry) : Bool :=
  e.admitted && (match e.op with
    | .send .. => s.clear g e && (s.hart g).eventsPast e
    | .mfeed .. => true
    | q => qIsVmem q && e.probed && (e.elementwise (s.hart g) || (s.clear g e && (s.hart g).eventsPast e)))

/-- The entries of the vector queue that run on, in program order. -/
def State.runOut (s : State) (g : Nat) : List Entry → State
  | [] => s
  | e :: rest =>
    match (s.hart g).vq.find? (fun f => f.seq == e.seq) with
    | none => State.runOut s g rest
    | some f =>
      if s.runsOn g f then
        match if qIsFeed f.op then s.feedOn g f else s.runTo g f f.vl with
        | .done s => State.runOut s g rest
        | _ => State.runOut s g rest
      else State.runOut s g rest

/-- Whether a memory instruction or a transfer has still to run on: the way to its memory is not open yet, and the stop point waits
for it (R291, R378). -/
def State.runsStill (s : State) (g : Nat) : Bool := (s.hart g).vq.any (fun f => !qIsFeed f.op && s.runsOn g f)

end Sys2Proof.Machine
end

