-- ==== Sys2Proof/Machine/Accesses.lean ====
section
/-! DEFINITION. The events of the scalar stream's memory accesses (R126 to R130): a load, a store and an atomic at the place that
its translation gives, with the page bits (R69) and the caches' view of it; and an access whose event comes after the instruction
has committed (R303, R358). -/

namespace Sys2Proof.Machine

open Sys2Proof

/-- One part of a scalar access. -/
def scalarPiece (va n : Nat) (r : Reach) : List Piece := [{ i := 0, va := va, len := n, reach := r }]

/-- What a committed scalar access of n bytes leaves beside its data: page bits, cache state, far counters, and an
UNCORRECTABLE cause when it read a poisoned block. -/
def State.scalarTouched (s : State) (g va n : Nat) (r : Reach) (reads write : Bool) : State :=
  let h := s.hart g
  let s := (s.consume g (scalarPiece va n r) reads).markPage h.asid.toNat r.leaf write .plain
  if r.void then s
  else (s.scalarLine (coreOf g) r.pa n write (!h.fixed)).countFarAll h.asid.toNat [r.pa] h.codeFar

/-- The extension of Table 5-6 to a loaded value of n bytes. -/
def loadValue (signed : Bool) (n v : Nat) : Word := if signed then sext (8 * n) v else zext (8 * n) v

/-- A load of n bytes into x[d]. -/
def State.loadAt (s : State) (g : Nat) (d : XReg) (signed : Bool) (va n : Nat) (r : Reach) : State :=
  let s := s.assignPage r.leaf
  let v := loadValue signed n (ofLe (s.load r n))
  let s := s.scalarTouched g va n r true false
  s.setHart g ((s.hart g).setX d v)

/-- A store of the n low bytes of a number. -/
def State.storeAt (s : State) (g v va n : Nat) (r : Reach) : State :=
  let s := s.assignPage r.leaf
  (if r.void then s else s.put r.pa (leBytes n v)).scalarTouched g va n r false true

/-! ### Atomics (R129) -/

/-- What an atomic computes from the old value, the operand and the expected value of its width: the new value, or
nothing when a compare fails, and the flags it raises. -/
abbrev AmoFn := (bits old b e : Nat) → Option Nat × Nat

/-- A member without flags that always writes. -/
def amoPlain (f : (bits old b : Nat) → Nat) : AmoFn := fun n old b _ => (some (f n old b), 0)

def amoCompare : AmoFn := fun _ old b e => (if old = e then some b else none, 0)

/-- fadd32: RNE whatever FPCTL.RM holds (R129). -/
def amoFloat : AmoFn := fun _ old b _ =>
  let r := fp32.add 0 (fp32.value old) (fp32.value b)
  (some r.1, r.2)

/-- The members of the table, by their numbers: AMOSWAP, AMOADD, AMOAND, AMOOR, AMOXOR, AMOMIN, AMOMAX, AMOMINU, AMOMAXU, AMOCAS and
AMOFADD. -/
def amoOf (member : Nat) : AmoFn :=
  match member with
  | 0 => amoPlain fun _ _ y => y
  | 1 => amoPlain fun n x y => (x + y) % 2 ^ n
  | 2 => amoPlain fun _ x y => x &&& y
  | 3 => amoPlain fun _ x y => x ||| y
  | 4 => amoPlain fun _ x y => x ^^^ y
  | 5 => amoPlain fun n x y => if signed n x ≤ signed n y then x else y
  | 6 => amoPlain fun n x y => if signed n x ≤ signed n y then y else x
  | 7 => amoPlain fun _ x y => if x ≤ y then x else y
  | 8 => amoPlain fun _ x y => if x ≤ y then y else x
  | 9 => amoCompare
  | _ => amoFloat

/-- What a committed atomic of n bytes leaves beside its data: it executes at the home, so a data cache that holds the line
dirty writes it back, and the memory-side cache takes the line unless the access bypasses it (R46, R130). -/
def State.atomicTouched (s : State) (g : Nat) (n : Nat) (r : Reach) (write : Bool) : State :=
  let h := s.hart g
  let s := s.markPage h.asid.toNat r.leaf write .plain
  if r.void then s else s.homeTouched r.pa n write (!h.fixed)

/-- The read-modify-write at the home, which may advance a queue's TAIL (R328); a void window returns zero and is not written
(R130), and raises no flag, of which the manual says nothing (log entry 86, DESIGN CHOICE). A failed compare sets A and not
D. -/
def State.amoAt (s : State) (g : Nat) (d : XReg) (b e : Nat) (f : AmoFn) (va n : Nat) (r : Reach) : State :=
  let s := (s.assignPage r.leaf).consume g (scalarPiece va n r)
  let old := if r.void then 0 else ofLe (s.load r n)
  let res := f (8 * n) old b e
  let s := match res.1 with
    | some v => if r.void then s else ((s.dcacheClean r.pa n).store r.pa (leBytes n v)).notePosts
    | none => s
  let s := s.atomicTouched g n r res.1.isSome
  let h := if r.void then s.hart g else (s.hart g).raise (flagBits res.2)
  s.setHart g (h.setX d (sext (8 * n) old))

/-! ### An access whose event comes later -/

/-- The event of an access at its place. -/
def State.accessAt (s : State) (g : Nat) (o : LateOp) (va n : Nat) (r : Reach) : State :=
  match o with
  | .load d signed => s.loadAt g d signed va n r
  | .store v => s.storeAt g v va n r
  | .amo d b e member => s.amoAt g d b e (amoOf member) va n r
  | .sigdec d =>
    let (s, old) := s.sigDecThrough (s.space g) g true va r
    s.setHart g ((s.hart g).setX d old)
  | .tagclr mask => s.clearArrive (coreOf g) mask

/-- The oldest access that hart g has committed and not performed takes its place in the global order (R358). -/
def State.performOldest (s : State) (g : Nat) : State :=
  match (s.hart g).late with
  | [] => s
  | a :: rest =>
    let far := (s.hart g).codeFar
    let s := (s.setHart g { s.hart g with late := rest, codeFar := a.codeFar }).accessAt g a.op a.va a.n a.reach
    s.setHart g { s.hart g with codeFar := far }

/-- The n oldest of them, in program order. -/
def State.performSome (s : State) (g : Nat) : Nat → State
  | 0 => s
  | n + 1 => State.performSome (s.performOldest g) g n

/-- All of them. -/
def State.performLate (s : State) (g : Nat) : State := s.performSome g (s.hart g).late.length

end Sys2Proof.Machine
end

