-- ==== Sys2Proof/Machine/Traps.lean ====
section
/-! DEFINITION. Taking a trap or a pre-emption and returning from one (R304, R371 to R373, R378, R379): the stop point, the
entry to PL1, and the hart that ERET makes of its image. -/

namespace Sys2Proof.Machine

open Sys2Proof

/-! ### The stop point (R378) -/

/-- The array stops hart g's instructions: rows read and not yet written into a slot are discarded, and each instruction keeps its
place there, under the number that it has in the image (R238). -/
def State.suspendArray (s : State) (g : Nat) : State :=
  let p := s.pair (pairOf g)
  let h := s.hart g
  s.setPair (pairOf g) { p with
    admitted := p.admitted.filterMap (fun u =>
      if u.hart = g then (h.mq.find? (fun e => e.seq == u.seq)).map (fun e => { u with seq := orderOf h e }) else some u)
    loads := p.loads.filter (fun q => q.2.hart != g) }

/-- The array without hart g's instructions, when the hart leaves the pair. -/
def State.releaseArray (s : State) (g : Nat) : State :=
  let p := s.pair (pairOf g)
  s.setPair (pairOf g) { p with
    admitted := p.admitted.filter (fun u => u.hart != g)
    loads := p.loads.filter (fun q => q.2.hart != g) }

/-- The instructions of hart g's matrix queue that have been admitted stand in the array again (R238, R372). A mismatch before the
stop counts for an MMA resumed on the same array alone, since no image holds it (R232; log entry 116, DESIGN CHOICE). -/
def State.rejoinArray (s : State) (g : Nat) : State :=
  (s.hart g).mq.foldl (fun s e =>
    if e.admitted then
      match e.loadSlot, e.mmaSlot with
      | some sl, _ => s.setPair (pairOf g) ((s.pair (pairOf g)).use g e.seq sl true)
      | none, some sl => s.setPair (pairOf g) ((s.pair (pairOf g)).use g e.seq sl false)
      | none, none => s
    else s) s

/-- An entry as it stands when its hart has stopped: a SEND goes back to the start, and its request has gone. -/
def Entry.atStop (e : Entry) : Entry :=
  match e.op with
  | .send _ _ => { e with admitted := false, eidx := 0, stored := false }
  | _ => e

/-- What runs on to the stop point: accesses put off, and admitted memory instructions and transfers. After a PAIR_MISMATCH the
event that was compared is not performed (R388), and nothing runs on. -/
def State.ranOut (s : State) (g : Nat) (r : TrapRec) : State :=
  if r.cause = causePairMismatch then s.setHart g { s.hart g with late := [] }
  else
    let s := s.performLate g
    s.runOut g (s.hart g).vq

/-- The hart at its stop point, when what runs on has run. -/
def State.stopPoint (s : State) (g : Nat) : State :=
  let s := (s.returnGrants g).suspendArray g
  let h := s.hart g
  let c := s.core (coreOf g)
  (s.setCore (coreOf g) { c with laneQ := c.laneQ.filter (fun k => k != g) }).setHart g { h with
    vq := h.vq.map Entry.atStop, laneReq := none, waitsOn := none, yielding := none }

/-! ### Taking a trap or a pre-emption (R371) -/

/-- The queue of the reported instruction, as TRAPSTAT.WHERE codes it. -/
def TrapWhere.code (w : TrapWhere) : Nat :=
  match w with
  | .scalar => 0
  | .vector => 1
  | .matrix => 2

/-- TRAPSTAT of an entry (Table 17-1). -/
def trapstatOf (h : Hart) (r : TrapRec) (preempt : Bool) : Word :=
  BitVec.ofNat 64 ((if r.imprecise then 1 else 0) + (if preempt then 2 else 0) + r.whereAt.code * 4 +
    (if r.fatal then 16 else 0) + (if h.barWait.isSome then 32 else 0) +
    min ((h.vq ++ h.mq).filter (fun e => e.admitted)).length 8 * 2 ^ 8 + h.vq.length * 2 ^ 16 + h.mq.length * 2 ^ 24)

/-- The old versions that instructions in the image still see, by their places there (R379). -/
def Hart.versionsKept (h : Hart) : Tab OldVersion :=
  (h.old.map (fun p => (p.1, { p.2 with since := ((h.vq ++ h.mq).filter (fun e => decide (e.seq < p.2.since))).length }))).filter
    (fun p => p.2.since != 0)

/-- The trap state registers of an entry (R371, Table 17-1), and the hart at PL1 at TRAPVEC with its queues in the
image. EIDX holds the start index of the oldest entry (R379). A budget that has run out stays due until its own trap
is entered (R382). -/
def Hart.enter (h : Hart) (r : TrapRec) (preempt : Bool) : Hart :=
  { h with
    trappc := r.pc
    trapcause := BitVec.ofNat 64 r.cause
    trapaddr := r.addr
    trapeidx := BitVec.ofNat 64 r.eidx
    trapinfo := r.info
    trapstat := trapstatOf h r preempt
    scalarpc := h.pc
    fplist := r.fplist.zipIdx.map (fun p => (p.2, p.1))
    eidx := BitVec.ofNat 32 (match h.inOrder.head? with
      | some e => e.eidx
      | none => 0)
    old := h.versionsKept
    vq := [], mq := [], events := [], barWait := none, latch := false
    savedEvents := (h.events.filter (fun e => e.kind != 3)).length
    posted := imagePlaces
    trapDue := none
    budgetDue := h.budgetDue && r.cause != causeBudget
    imprecise := if r.imprecise then none else h.imprecise
    level := .pl1
    pc := h.trapvec }

/-- Hart g takes a trap or a pre-emption at PL0: stop point, image, trap registers, PL1 at TRAPVEC (R371). A trap
raised at PL1 stops the hart and is a firmware fault to PL2 (R373). Traps and pre-emptions wait for the end of a live
update (R416), and for admitted memory instructions that cannot run on yet (R291, R378). -/
def State.takeTrap (s : State) (g : Nat) (r : TrapRec) : Out :=
  let h := s.hart g
  match h.level with
  | .pl1 =>
    .next ((s.setHart g { h with run := .firmwareFault, trapDue := none, imprecise := none }).emit
      (.firmwareFault g r.cause))
  | .pl0 =>
    if s.trust.updating.isSome then .next s
    else if s.imageOk then
      let s := s.ranOut g r
      if r.cause ≠ causePairMismatch ∧ s.runsStill g then .next s
      else
      let s := (s.stopPoint g).writeImage g
      let s := if r.imprecise then s.notePc h.asid.toNat g r.pc
        else if endsContext r then s.noteEnd h.asid.toNat (s.eventOf g r) else s
      let h := s.hart g
      .next (s.setHart g { h.enter r (h.preemptDue || r.preempt) with preemptDue := h.preemptDue && !r.preempt })
    else .fault .imageOutsideHbm

/-- What hart g does before it may issue: a queued instruction's fault (R304), an imprecise cause (R375), an exhausted
budget (R382) or a pre-emption (R371, R383) enters PL1; otherwise nothing. At PL1 a pre-emption waits for ERET (R373). -/
def State.boundary (s : State) (g : Nat) : Option Out :=
  let h := s.hart g
  match h.trapDue with
  | some r => some (s.takeTrap g r)
  | none =>
    if h.level = .pl1 then none
    else
      match h.imprecise with
      | some r => some (s.takeTrap g { r with pc := h.pc })
      | none =>
        if h.budgetDue then some (s.takeTrap g { cause := causeBudget, pc := h.pc })
        else if h.preemptDue then some (s.takeTrap g { cause := 0, pc := h.pc, preempt := true })
        else none

/-- A synchronous trap of the instruction at the current hart's pc. -/
def State.trap (s : State) (cause : Nat) (addr : Word := 0) (info : Word := 0) : Out :=
  s.takeTrap s.turn { cause := cause, pc := s.cur.pc, addr := addr, info := info }

/-- The trap of a faulting access of the scalar stream, which records its one page (R86). -/
def State.trapAccess (s : State) (f : AFault) : Out :=
  let r : TrapRec := { cause := f.cause, pc := s.cur.pc, addr := BitVec.ofNat 64 f.addr
                       info := BitVec.ofNat 64 (f.code + 256), fplist := [fpEntry f.cause f.addr] }
  (s.walkConsumed (s.space s.turn) s.turn f.addr).takeTrap s.turn r

/-! ### Return from a trap (R372) -/

/-- The entry of 64 bytes of an image, when it decodes under R7 to R16 to an operation of its queue's class. -/
def entryOfBytes (matrix : Bool) (bs : List Byte) : Option Entry :=
  let w := field bs 0x08 4
  match lengthOk w with
  | .error _ => none
  | .ok () =>
    if isQueuedWord w then
      match decodeQueued w (field bs 0x0C 4) with
      | .error _ => none
      | .ok q =>
        if qIsMatrix q == matrix then
          some { pc := BitVec.ofNat 64 (field bs 0 8), op := q,
                 ops := [BitVec.ofNat 64 (field bs 0x10 8), BitVec.ofNat 64 (field bs 0x18 8),
                         BitVec.ofNat 64 (field bs 0x20 8)],
                 vl := field bs 0x28 4, eidx := field bs 0x2C 4, vconf := BitVec.ofNat 64 (field bs 0x30 8),
                 rm := BitVec.ofNat 3 (field bs 0x38 1), admitted := bit (field bs 0x39 1) 0,
                 seq := field bs 0x3A 2 }
        else none
    else none

/-- The n entries of an image from an address. -/
def readEntries (m : Memory) (matrix : Bool) : Nat → Nat → Option (List Entry)
  | _, 0 => some []
  | a, n + 1 =>
    match entryOfBytes matrix (readBytes m a 64), readEntries m matrix (a + 64) n with
    | some e, some r => some (e :: r)
    | _, _ => none

/-- The hart that an image describes (R372), or nothing when ERET finds the image unusable: VALID clear, more entries
than the queues hold, an entry that does not decode, more than 8 admitted entries, or ORDER fields that are not 0 to
VENT + MENT − 1, each once. SCALARPC is taken as it stands: ERET, or a handler's address, with bits [1:0] set makes no
MISALIGN trap (R6, R372; log entry 105, DESIGN CHOICE). The event latch is as the image has it, and set after a pre-emption (R319, TRAPSTAT.PREEMPT). -/
def State.hartOfImage (s : State) (g : Nat) : Option Hart :=
  let a := s.imageAt g
  let h := s.hart g
  let flags := readNat s.mem (a + 8) 8
  let vent := readNat s.mem (a + 0x20) 4
  let ment := readNat s.mem (a + 0x24) 4
  if bit flags 0 && decide (vent ≤ 32) && decide (ment ≤ 64) then
    match readEntries s.mem false (a + 0x40) vent, readEntries s.mem true (a + 0x840) ment with
    | some vq, some mq =>
      let all := vq ++ mq
      if decide ((all.filter (fun e => e.admitted)).length ≤ 8) &&
          (List.range (vent + ment)).all (fun i => (all.filter (fun e => e.seq == i)).length == 1) then
        let nev := min (readNat s.mem (a + 0x1840) 8) 17
        some { h with
          x := (List.range 31).map (fun i => (i + 1, BitVec.ofNat 64 (readNat s.mem (a + 0x1900 + 8 * i) 8)))
          vq := vq.foldr insertSeq [], mq := mq.foldr insertSeq [], posted := vent + ment
          old := h.old.filter (fun p => decide (p.2.since < imagePlaces)), savedEvents := 0
          events := (List.range nev).map (fun i => eventOfWord (readNat s.mem (a + 0x1848 + 8 * i) 8)) ++ h.events
          barWait := if bit flags 1 then
              some (BitVec.ofNat 64 (readNat s.mem (a + 0x10) 8), BitVec.ofNat 64 (readNat s.mem (a + 0x18) 8))
            else none
          latch := h.latch || bit flags 2 || bit h.trapstat.toNat 1
          eidx := if all.any (fun e => e.eidx != 0) then h.eidx else 0
          level := .pl0
          pc := BitVec.ofNat 64 (readNat s.mem a 8) }
      else none
    | _, _ => none
  else none

/-- ERET on a usable image: the hart it describes, with VALID cleared in memory (R372) and the check mode that a PL1
write left taking effect (R386). -/
def State.resume (s : State) (g : Nat) : Option State :=
  match s.hartOfImage g with
  | none => none
  | some h =>
    let a := s.imageAt g + 8
    some ((s.store a (leBytes 8 (putBits (readNat s.mem a 8) 0 1 0))).setHart g
      { h with checkmode := h.checkNext })

end Sys2Proof.Machine
end

