-- ==== Sys2Proof/Machine/Scalar.lean ====
section
/-! DEFINITION. The frame of every scalar-stream instruction: the interlock on pending registers (R302), the write of
x[rd] with the advance of the pc, control transfer with its alignment check (R6), and the privilege check (R16). An
instruction that waits leaves the state as it is and executes again at the hart's next step (log entry 11). -/

namespace Sys2Proof.Machine

open Sys2Proof

/-- Wait while one of the registers is pending (R302). -/
def State.whenReady (s : State) (rs : List XReg) (o : Out) : Out := if s.cur.anyPending rs then .next s else o

/-- The current hart replaced and moved past an instruction of n bytes. -/
def State.doneWith (s : State) (h : Hart) (n : Nat) : Out := .next (s.setCur (h.advance n))

/-- x[rd] := v, and on to the next instruction. -/
def State.finish (s : State) (d : XReg) (v : Word) (n : Nat) : Out := s.doneWith (s.cur.setX d v) n

/-- Continue at an address; a misaligned one traps MISALIGN at the transferring instruction and writes nothing (R6,
R312). -/
def State.jumpTo (s : State) (h : Hart) (t : Word) : Out :=
  if t.toNat % 4 = 0 then .next (s.setCur (h.setPc t)) else s.trap causeMisalign t

/-- Only at PL1; PRIV at PL0 (R16, R323, R325). -/
def State.privileged (s : State) (o : Out) : Out :=
  match s.cur.level with
  | .pl1 => o
  | .pl0 => s.trap causePriv

end Sys2Proof.Machine
end

