-- ==== Sys2Proof/Machine/Alu.lean ====
section
/-! DEFINITION. The integer register instructions, immediates, shifts and constants (R306 to R310). -/

namespace Sys2Proof.Machine

open Sys2Proof

/-! ### Operations of Table 14-4 -/

/-- 1 or 0. -/
def wordOfBool (b : Bool) : Word := if b then 1 else 0

/-- Quotient rounded toward zero (R146). -/
def divSigned (a b : Word) : Word := if b = 0 then BitVec.allOnes 64 else BitVec.ofInt 64 (a.toInt.tdiv b.toInt)

def divUnsigned (a b : Word) : Word := if b = 0 then BitVec.allOnes 64 else BitVec.ofNat 64 (a.toNat / b.toNat)

/-- Remainder with the sign of the dividend (R146). -/
def remSigned (a b : Word) : Word := if b = 0 then a else BitVec.ofInt 64 (a.toInt.tmod b.toInt)

def remUnsigned (a b : Word) : Word := if b = 0 then a else BitVec.ofNat 64 (a.toNat % b.toNat)

/-- Shift amounts are b[5:0]. -/
def shiftOf (b : Word) : Nat := b.toNat % 64

/-- Arithmetic shift right. -/
def shiftRightArith (a : Word) (n : Nat) : Word := BitVec.ofInt 64 (a.toInt / ((2 ^ n : Nat) : Int))

def rotateLeft (a : Word) (n : Nat) : Word := (a <<< n) ||| (a >>> (64 - n))
def rotateRight (a : Word) (n : Nat) : Word := (a >>> n) ||| (a <<< (64 - n))

/-- Leading zeros among the low n bits. -/
def leadingZeros (v : Nat) : Nat → Nat
  | 0 => 0
  | n + 1 => if bit v n then 0 else leadingZeros v n + 1

/-- Trailing zeros. -/
def trailingZeros (v : Nat) : Nat := (lowestBit v 64 0).getD 64

def mulHighSigned (a b : Word) : Word := BitVec.ofInt 64 (a.toInt * b.toInt / ((2 ^ 64 : Nat) : Int))
def mulHighUnsigned (a b : Word) : Word := BitVec.ofNat 64 (a.toNat * b.toNat / 2 ^ 64)

/-- x[rd] := op(x[ra], x[rb]) (R306). -/
def State.alu (s : State) (d a b : XReg) (op : Word → Word → Word) : Out :=
  s.whenReady [d, a, b] (s.finish d (op (s.cur.getX a) (s.cur.getX b)) 4)

/-- x[rd] := op(x[ra]) (R306). -/
def State.aluOne (s : State) (d a : XReg) (op : Word → Word) : Out :=
  s.whenReady [d, a] (s.finish d (op (s.cur.getX a)) 4)

/-- x[rd] := op(x[ra], sext(imm14)) (R307). -/
def State.aluImm (s : State) (d a : XReg) (i : BitVec 14) (op : Word → Word → Word) : Out :=
  s.whenReady [d, a] (s.finish d (op (s.cur.getX a) (i.signExtend 64)) 4)

/-! ### Register members -/

def execAdd (d a b : XReg) (s : State) : Out := s.alu d a b (fun x y => x + y)
def execSub (d a b : XReg) (s : State) : Out := s.alu d a b (fun x y => x - y)
def execAnd (d a b : XReg) (s : State) : Out := s.alu d a b (fun x y => x &&& y)
def execOr (d a b : XReg) (s : State) : Out := s.alu d a b (fun x y => x ||| y)
def execXor (d a b : XReg) (s : State) : Out := s.alu d a b (fun x y => x ^^^ y)
def execAndn (d a b : XReg) (s : State) : Out := s.alu d a b (fun x y => x &&& ~~~y)
def execOrn (d a b : XReg) (s : State) : Out := s.alu d a b (fun x y => x ||| ~~~y)
def execSll (d a b : XReg) (s : State) : Out := s.alu d a b (fun x y => x <<< shiftOf y)
def execSrl (d a b : XReg) (s : State) : Out := s.alu d a b (fun x y => x >>> shiftOf y)
def execSra (d a b : XReg) (s : State) : Out := s.alu d a b (fun x y => shiftRightArith x (shiftOf y))
def execRol (d a b : XReg) (s : State) : Out := s.alu d a b (fun x y => rotateLeft x (shiftOf y))
def execRor (d a b : XReg) (s : State) : Out := s.alu d a b (fun x y => rotateRight x (shiftOf y))
def execSlt (d a b : XReg) (s : State) : Out := s.alu d a b (fun x y => wordOfBool (x.slt y))
def execSltu (d a b : XReg) (s : State) : Out := s.alu d a b (fun x y => wordOfBool (x.ult y))
def execMin (d a b : XReg) (s : State) : Out := s.alu d a b (fun x y => if y.slt x then y else x)
def execMax (d a b : XReg) (s : State) : Out := s.alu d a b (fun x y => if x.slt y then y else x)
def execMinu (d a b : XReg) (s : State) : Out := s.alu d a b (fun x y => if y.ult x then y else x)
def execMaxu (d a b : XReg) (s : State) : Out := s.alu d a b (fun x y => if x.ult y then y else x)
def execMul (d a b : XReg) (s : State) : Out := s.alu d a b (fun x y => x * y)
def execMulh (d a b : XReg) (s : State) : Out := s.alu d a b mulHighSigned
def execMulhu (d a b : XReg) (s : State) : Out := s.alu d a b mulHighUnsigned
def execDiv (d a b : XReg) (s : State) : Out := s.alu d a b divSigned
def execDivu (d a b : XReg) (s : State) : Out := s.alu d a b divUnsigned
def execRem (d a b : XReg) (s : State) : Out := s.alu d a b remSigned
def execRemu (d a b : XReg) (s : State) : Out := s.alu d a b remUnsigned
def execClz (d a : XReg) (s : State) : Out := s.aluOne d a (fun x => BitVec.ofNat 64 (leadingZeros x.toNat 64))
def execCtz (d a : XReg) (s : State) : Out := s.aluOne d a (fun x => BitVec.ofNat 64 (trailingZeros x.toNat))
def execPopc (d a : XReg) (s : State) : Out := s.aluOne d a (fun x => BitVec.ofNat 64 (popc 64 x.toNat))
def execSexb (d a : XReg) (s : State) : Out := s.aluOne d a (fun x => sext 8 x.toNat)
def execSexh (d a : XReg) (s : State) : Out := s.aluOne d a (fun x => sext 16 x.toNat)
def execSexw (d a : XReg) (s : State) : Out := s.aluOne d a (fun x => sext 32 x.toNat)
def execZexw (d a : XReg) (s : State) : Out := s.aluOne d a (fun x => zext 32 x.toNat)

/-! ### Immediates and shifts -/

def execAddi (d a : XReg) (i : BitVec 14) (s : State) : Out := s.aluImm d a i (fun x y => x + y)
def execAndi (d a : XReg) (i : BitVec 14) (s : State) : Out := s.aluImm d a i (fun x y => x &&& y)
def execOri (d a : XReg) (i : BitVec 14) (s : State) : Out := s.aluImm d a i (fun x y => x ||| y)
def execXori (d a : XReg) (i : BitVec 14) (s : State) : Out := s.aluImm d a i (fun x y => x ^^^ y)
def execSlti (d a : XReg) (i : BitVec 14) (s : State) : Out := s.aluImm d a i (fun x y => wordOfBool (x.slt y))
def execSltiu (d a : XReg) (i : BitVec 14) (s : State) : Out := s.aluImm d a i (fun x y => wordOfBool (x.ult y))
def execSlli (d a : XReg) (h : BitVec 6) (s : State) : Out := s.aluOne d a (fun x => x <<< h.toNat)
def execSrli (d a : XReg) (h : BitVec 6) (s : State) : Out := s.aluOne d a (fun x => x >>> h.toNat)
def execSrai (d a : XReg) (h : BitVec 6) (s : State) : Out := s.aluOne d a (fun x => shiftRightArith x h.toNat)
def execRori (d a : XReg) (h : BitVec 6) (s : State) : Out := s.aluOne d a (fun x => rotateRight x h.toNat)

/-! ### Constants -/

/-- sext(imm19, 19) << 13. -/
def upperImm (i : BitVec 19) : Word := i.signExtend 64 <<< 13

def execLui (d : XReg) (i : BitVec 19) (s : State) : Out := s.whenReady [d] (s.finish d (upperImm i) 4)

def execAddpc (d : XReg) (i : BitVec 19) (s : State) : Out :=
  s.whenReady [d] (s.finish d ((s.cur.pc &&& ~~~(0x1FFF : Word)) + upperImm i) 4)

def execLix (d : XReg) (imm : BitVec 32) (s : State) : Out := s.whenReady [d] (s.finish d (imm.signExtend 64) 8)

def execLixh (d : XReg) (imm : BitVec 32) (s : State) : Out :=
  s.whenReady [d] (s.finish d ((imm.setWidth 64 <<< 32) ||| zext 32 (s.cur.getX d).toNat) 8)

end Sys2Proof.Machine
end

