-- ==== Sys2Proof/Machine/Cascades.lean ====
section
/-! DEFINITION. Cascades (R347 to R353): their packets, the stages' input queues with the compaction unit, and how stages
close. -/

namespace Sys2Proof.Machine

open Sys2Proof

/-! ### Packets (Table 15-10) -/

def pktMask (p : List Byte) : Nat := field p 0x08 1
def pktCount (p : List Byte) : Nat := field p 0x09 1
def pktItem (p : List Byte) (i : Nat) : Nat := field p (0x10 + 4 * i) 4

/-- Whether the bytes from a up to b of a record are all zero. -/
def zeroIn (p : List Byte) (a b : Nat) : Bool := ((p.drop a).take (b - a)).all (fun x => x == 0)

/-- Whether an emitted packet keeps to Table 15-10: COMPACTED is hardware's, and BACK is zero without it. -/
def packetOk (p : List Byte) : Bool :=
  decide (1 ≤ pktCount p) && decide (pktCount p ≤ 8) && decide (pktMask p < 2 ^ pktCount p) &&
    zeroIn p 0x0A 0x10 && zeroIn p 0x30 0x40

/-- Whether a packet is sparse for a compaction threshold (R348). -/
def packetSparse (thresh : Nat) (p : List Byte) : Bool := decide (8 * popc 8 (pktMask p) < thresh * pktCount p)

/-! ### Compaction (R351) -/

/-- The held active items, in sequence order and then ascending position: sequence, packet and position. -/
def Stage.heldItems (t : Stage) : List (Nat × List Byte × Nat) :=
  t.held.flatMap (fun h => ((List.range 8).filter (bit h.left)).map (fun i => (h.seq, h.data, i)))

/-- The compacted packet of some items. -/
def compacted (items : List (Nat × List Byte × Nat)) : List Byte :=
  let n := items.length
  let tag := match items.head? with
    | some (_, p, _) => p.take 8
    | none => zeros 8
  tag ++ leBytes 1 (2 ^ n - 1) ++ leBytes 1 n ++ leBytes 1 1 ++ zeros 5 ++
    (List.range 8).flatMap (fun i => match items[i]? with
      | some (_, p, k) => leBytes 4 (pktItem p k)
      | none => zeros 4) ++
    (List.range 8).flatMap (fun i => match items[i]? with
      | some (s, _, k) => leBytes 2 (s % 8192 * 8 + k)
      | none => zeros 2)

/-- A held packet once some items are taken. -/
def HeldPacket.without (h : HeldPacket) (items : List (Nat × List Byte × Nat)) : HeldPacket :=
  let stay := (List.range 8).filter (fun i => bit h.left i && !items.any (fun x => x.1 == h.seq && x.2.2 == i))
  { h with left := stay.foldl (fun m i => m + 2 ^ i) 0 }

/-- A compacted packet of the first eight held items, or of all when there are fewer, with the stage's next sequence. -/
def Stage.compact (t : Stage) : Stage :=
  let items := t.heldItems.take 8
  if items.isEmpty then { t with held := [] }
  else
    { t with
      nextSeq := t.nextSeq + 1
      queue := t.queue ++ [(t.nextSeq, compacted items)]
      held := (t.held.map (fun h => h.without items)).filter (fun h => h.left != 0) }

/-- Packets that count against CAP (R351). -/
def Stage.load (t : Stage) : Nat := t.queue.length + t.held.length

/-- A packet emitted to a stage: its sequence and the stage after it. -/
def Stage.emit (t : Stage) (p : List Byte) : Nat × Stage :=
  let t' := { t with nextSeq := t.nextSeq + 1 }
  if t.thresh ≠ 0 ∧ packetSparse t.thresh p then
    let t' := if pktMask p = 0 then t' else { t' with held := t'.held ++ [⟨t.nextSeq, p, pktMask p⟩] }
    (t.nextSeq, if 8 ≤ t'.heldItems.length then t'.compact else t')
  else (t.nextSeq, { t' with queue := t'.queue ++ [(t.nextSeq, p)] })

/-- The stage's input closes, and what is held is flushed. -/
def Stage.close (t : Stage) : Stage := { t.compact with closed := true }

/-- Closed and empty, with nothing held: PKTGET answers END (R353). -/
def Stage.finished (t : Stage) : Bool := t.closed && t.queue.isEmpty && t.held.isEmpty

/-! ### Stages of a task -/

/-- Stage k of a cascade task replaced. -/
def Task.setStage (t : Task) (k : Nat) (x : Stage) : Task := { t with stages := t.stages.set k x }

/-- Whether a launch has a gang left to place. -/
def Task.offers (t : Task) : Bool :=
  t.st == .ready && t.typ == 0 && (decide (t.next < field t.pkt 0x10 4) || !t.saved.isEmpty)

/-- Whether stage k of a cascade has a gang left to place. -/
def Task.stageOffers (t : Task) (k : Nat) : Bool :=
  t.st == .ready && t.typ == 3 && ((match t.stages[k]? with
    | some x => decide (0 < x.wanted)
    | none => false) || t.saved.any (fun v => v.gang.stage == some k))

/-- Whether all gangs of a stage have ended: none on cores, none saved, none to place. -/
def Task.stageIdle (t : Task) (k : Nat) : Bool :=
  !t.gangs.any (fun x => x.stage == some k) && !t.saved.any (fun v => v.gang.stage == some k) &&
    (match t.stages[k]? with
     | some x => x.wanted == 0
     | none => true)

/-- Stages 1, 2, … close behind the stages before them (R353). -/
def Task.settle (t : Task) : Task :=
  (List.range t.stages.length).foldl (fun t k =>
    match t.stages[k]?, t.stages[k + 1]? with
    | some x, some y => if !y.closed && x.finished && t.stageIdle k then t.setStage (k + 1) y.close else t
    | _, _ => t) t

/-- Whether a launch or cascade has nothing left to run (R338, R353). -/
def Task.through (t : Task) : Bool :=
  t.gangs.isEmpty && t.saved.isEmpty &&
    (if t.typ = 3 then
       (match t.stages.getLast? with
        | some x => x.closed && t.stageIdle (t.stages.length - 1)
        | none => true)
     else decide (field t.pkt 0x10 4 ≤ t.next))

end Sys2Proof.Machine
end

