-- ==== Sys2Proof/Machine/ScalarMem.lean ====
section
/-! DEFINITION. The scalar loads and stores (R126, R127) and the atomics (R128 to R130). Each is one event: alignment,
translation, region rules, then the access; and what puts its event off (R303, R358). -/

namespace Sys2Proof.Machine

open Sys2Proof

/-- The checks of R127 and R129 before an access of n bytes at a; the access then gets its place, when the way to it is open
(R291). -/
def State.scalarAccess (s : State) (k : AccKind) (a : Word) (n : Nat) (act : Reach → Out) : Out :=
  if a.toNat % n ≠ 0 then s.trap causeMisalign a
  else
    match s.probe (s.space s.turn) k a.toNat with
    | .error f => s.trapAccess f
    | .ok r => if s.reachWaits r then .next s else act r

/-- A scalar load of n bytes, with the extension of Table 5-6. -/
def State.scalarLoad (s : State) (d a : XReg) (i : BitVec 14) (n : Nat) (signed : Bool) : Out :=
  s.whenReady [d, a]
    (let va := s.cur.getX a + i.signExtend 64
     s.scalarAccess .read va n (fun r =>
       let s := s.loadAt s.turn d signed va.toNat n r
       s.doneWith s.cur 4))

/-- A scalar store of the n low bytes of x[rb]. -/
def State.scalarStore (s : State) (a b : XReg) (i : BitVec 14) (n : Nat) : Out :=
  s.whenReady [a, b]
    (let va := s.cur.getX a + i.signExtend 64
     s.scalarAccess .write va n (fun r =>
       let s := s.storeAt s.turn (s.cur.getX b).toNat va.toNat n r
       s.doneWith s.cur 4))

def execLb (d a : XReg) (i : BitVec 14) (s : State) : Out := s.scalarLoad d a i 1 true
def execLh (d a : XReg) (i : BitVec 14) (s : State) : Out := s.scalarLoad d a i 2 true
def execLw (d a : XReg) (i : BitVec 14) (s : State) : Out := s.scalarLoad d a i 4 true
def execLd (d a : XReg) (i : BitVec 14) (s : State) : Out := s.scalarLoad d a i 8 false
def execLbu (d a : XReg) (i : BitVec 14) (s : State) : Out := s.scalarLoad d a i 1 false
def execLhu (d a : XReg) (i : BitVec 14) (s : State) : Out := s.scalarLoad d a i 2 false
def execLwu (d a : XReg) (i : BitVec 14) (s : State) : Out := s.scalarLoad d a i 4 false
def execSb (a b : XReg) (i : BitVec 14) (s : State) : Out := s.scalarStore a b i 1
def execSh (a b : XReg) (i : BitVec 14) (s : State) : Out := s.scalarStore a b i 2
def execSw (a b : XReg) (i : BitVec 14) (s : State) : Out := s.scalarStore a b i 4
def execSd (a b : XReg) (i : BitVec 14) (s : State) : Out := s.scalarStore a b i 8

/-! ### Atomics (R129) -/

/-- An atomic of width W (w = 0) or D: the member of `amoOf` with a number. -/
def State.atomic (s : State) (d a b : XReg) (w : BitVec 1) (member : Nat) : Out :=
  s.whenReady [d, a, b]
    (let n := if w = 0 then 4 else 8
     let va := s.cur.getX a
     s.scalarAccess .atomic va n (fun r =>
       let s := s.amoAt s.turn d ((s.cur.getX b).toNat % 2 ^ (8 * n)) ((s.cur.getX d).toNat % 2 ^ (8 * n)) (amoOf member)
         va.toNat n r
       s.doneWith s.cur 4))

def execAmoswap (d a b : XReg) (w : BitVec 1) (s : State) : Out := s.atomic d a b w 0
def execAmoadd (d a b : XReg) (w : BitVec 1) (s : State) : Out := s.atomic d a b w 1
def execAmoand (d a b : XReg) (w : BitVec 1) (s : State) : Out := s.atomic d a b w 2
def execAmoor (d a b : XReg) (w : BitVec 1) (s : State) : Out := s.atomic d a b w 3
def execAmoxor (d a b : XReg) (w : BitVec 1) (s : State) : Out := s.atomic d a b w 4
def execAmomin (d a b : XReg) (w : BitVec 1) (s : State) : Out := s.atomic d a b w 5
def execAmomax (d a b : XReg) (w : BitVec 1) (s : State) : Out := s.atomic d a b w 6
def execAmominu (d a b : XReg) (w : BitVec 1) (s : State) : Out := s.atomic d a b w 7
def execAmomaxu (d a b : XReg) (w : BitVec 1) (s : State) : Out := s.atomic d a b w 8
def execAmocas (d a b : XReg) (w : BitVec 1) (s : State) : Out := s.atomic d a b w 9
def execAmofadd (d a b : XReg) (s : State) : Out := s.atomic d a b 0 10

/-! ### An access put off -/

/-- What puts an access off: what its event does, and how its place is found. -/
inductive LatePlace where
  | at (k : AccKind) (va n : Nat)
  | signal (va : Nat)
  | arrival (mask : Word)
  deriving DecidableEq, Repr

/-- The place of an access, when it would trap neither for its alignment nor at it, and the way to it is open. One that reaches
the Braid window commits only after its peer's answer (R293). -/
def State.lateReach (s : State) (g : Nat) (p : LatePlace) : Option (Nat × Nat × Reach) :=
  match p with
  | .at k va n =>
    if va % n ≠ 0 then none
    else match s.probe (s.space g) k va with
      | .error _ => none
      | .ok r => if placeOf r.pa = .braid then none else some (va, n, r)
  | .signal va =>
    if va % 8 ≠ 0 then none
    else match s.signalAt (s.space g) .atomic va with
      | .error _ => none
      | .ok r => some (va, 8, r)
  | .arrival mask =>
    let h := s.hart g
    if mask &&& ~~~h.tagown ≠ 0 ∨ !h.copiesIssued then none else some (0, 0, { pa := 0, leaf := none })

/-- The instructions whose access may be put off: what they do, where, and the registers they wait for (R303, R358). Those whose
checks read the object that their event changes commit with it, and so do those with a fence effect. -/
def Hart.lateForm (h : Hart) (i : Instr) : Option (LateOp × LatePlace × List XReg) :=
  let at_ := fun (a : XReg) (o : BitVec 14) => (h.getX a + o.signExtend 64).toNat
  let ld := fun (d a : XReg) (o : BitVec 14) (n : Nat) (sg : Bool) => some (LateOp.load d sg, LatePlace.at .read (at_ a o) n, [d, a])
  let st := fun (a b : XReg) (o : BitVec 14) (n : Nat) =>
    some (LateOp.store (h.getX b).toNat, LatePlace.at .write (at_ a o) n, [a, b])
  let amo := fun (d a b : XReg) (w : BitVec 1) (m : Nat) =>
    let n := if w = 0 then 4 else 8
    some (LateOp.amo d ((h.getX b).toNat % 2 ^ (8 * n)) ((h.getX d).toNat % 2 ^ (8 * n)) m,
      LatePlace.at .atomic (h.getX a).toNat n, [d, a, b])
  match i with
  | .lb d a o => ld d a o 1 true
  | .lh d a o => ld d a o 2 true
  | .lw d a o => ld d a o 4 true
  | .ld d a o => ld d a o 8 false
  | .lbu d a o => ld d a o 1 false
  | .lhu d a o => ld d a o 2 false
  | .lwu d a o => ld d a o 4 false
  | .sb a b o => st a b o 1
  | .sh a b o => st a b o 2
  | .sw a b o => st a b o 4
  | .sd a b o => st a b o 8
  | .amoswap d a b w => amo d a b w 0
  | .amoadd d a b w => amo d a b w 1
  | .amoand d a b w => amo d a b w 2
  | .amoor d a b w => amo d a b w 3
  | .amoxor d a b w => amo d a b w 4
  | .amomin d a b w => amo d a b w 5
  | .amomax d a b w => amo d a b w 6
  | .amominu d a b w => amo d a b w 7
  | .amomaxu d a b w => amo d a b w 8
  | .amocas d a b w => amo d a b w 9
  | .amofadd d a b => amo d a b 0 10
  | .sigdec d a => some (.sigdec d, .signal (h.getX a).toNat, [d, a])
  | .tagclr a => some (.tagclr (h.getX a), .arrival (h.getX a), [a])
  | _ => none

/-- Hart g's next instruction put off behind those that it has put off, when it may be. -/
def State.deferAccess (s : State) (g : Nat) (i : Instr) : Option State :=
  let h := s.hart g
  match h.lateForm i with
  | none => none
  | some (o, p, rs) =>
    if h.anyPending rs then none
    else (s.lateReach g p).map (fun x =>
      s.setHart g ({ h with late := h.late ++ [(⟨o, x.1, x.2.1, x.2.2, h.codeFar⟩ : LateAccess)] }.advance 4))

end Sys2Proof.Machine
end

