-- ==== Sys2Proof/Machine/Sync.lean ====
section
/-! DEFINITION. The fences (R359 to R362), the arrival instructions (R103), the barrier instructions (R105 to R108), the
signal instructions (R109) and the waiting instructions (R318 to R320). -/

namespace Sys2Proof.Machine

open Sys2Proof

/-! ### Fences -/

/-- FENCE.SV: the scalar accesses whose events are still to come have them now (R360). -/
def execFenceSv (s : State) : Out :=
  let s := s.performLate s.turn
  s.doneWith s.cur 4

def execFenceVs (s : State) : Out := s.fenceVs (s.doneWith s.cur 4)

def execFenceAll (s : State) : Out :=
  let s := s.performLate s.turn
  s.fenceVs (s.doneWith s.cur 4)

/-- FENCE.X: the core's dirty lines reach the far memory (R288, R361). -/
def execFenceX (s : State) : Out :=
  let s := s.performLate s.turn
  s.fenceVs (let s' := s.dcacheCleanCore (coreOf s.turn); s'.doneWith s'.cur 4)

/-- IFENCE: the words fetched ahead are discarded (R362). -/
def execIfence (s : State) : Out := s.fenceVs (s.doneWith { s.cur with ibuf := [] } 4)

/-! ### Arrival tags (R103) -/

/-- What every arrival instruction does first: interlock, earlier copies, the ownership check. -/
def State.arrival (s : State) (rs : List XReg) (k : Word) (o : Out) : Out :=
  s.whenReady rs (s.afterCopies (if k &&& ~~~s.cur.tagown ≠ 0 then s.trap causeTag else o))

/-- ARRIVE of the current hart's core. -/
def State.curArrive (s : State) : Word := (s.core (coreOf s.turn)).arrive

def execWaitany (d a : XReg) (s : State) : Out :=
  let k := s.cur.getX a
  s.arrival [d, a] k (if s.curArrive &&& k ≠ 0 ∨ k = 0 then s.finish d (s.curArrive &&& k) 4 else .next s)

def execWaitall (d a : XReg) (s : State) : Out :=
  let k := s.cur.getX a
  s.arrival [d, a] k (if s.curArrive &&& k = k then s.finish d (s.curArrive &&& k) 4 else .next s)

/-- Index of the lowest set bit, or −1. -/
def lowestSet (v : Word) : Word :=
  match lowestBit v.toNat 64 0 with
  | some i => BitVec.ofNat 64 i
  | none => BitVec.allOnes 64

def execFfr (d a : XReg) (s : State) : Out :=
  let k := s.cur.getX a
  s.arrival [d, a] k (s.finish d (lowestSet (s.curArrive &&& k)) 4)

def execTagclr (a : XReg) (s : State) : Out :=
  let k := s.cur.getX a
  s.arrival [a] k (let s' := s.clearArrive (coreOf s.turn) k; s'.doneWith s'.cur 4)

/-! ### Barriers (R105) -/

/-- A BARRIER trap with its code (R105, Table 17-2). -/
def State.barTrap (s : State) (b : Word) (code : Nat) : Out := s.trap causeBarrier b (BitVec.ofNat 64 code)

/-- The checks of every barrier instruction, in the order of R105; the update or wait then gets the record's place. -/
def State.barrier (s : State) (b : Word) (act : State → Reach → BarRec → Out) : Out :=
  if b.toNat % 32 ≠ 0 then s.trap causeMisalign b
  else
    match s.translate (s.space s.turn) .atomic b.toNat with
    | .error f => s.trapAccess f
    | .ok (pa, leaf) =>
      if placeOf pa ≠ .sram (clusterOf s.turn) then s.barTrap b 1
      else
        let place : Reach := { pa := pa, leaf := leaf, taint := s.walkTaint (s.space s.turn) b.toNat }
        let s := (s.assignPage leaf).consume s.turn (scalarPiece b.toNat 24 place)
        let r := s.barRead pa
        if r.members = 0 ∨ 65535 < r.members then s.barTrap b 2
        else if r.err then s.barTrap b 5
        else act s place r

/-- The page bits of a barrier access (R69). -/
def State.barMark (s : State) (r : Reach) (write : Bool) : State :=
  s.markPage s.cur.asid.toNat r.leaf write .plain

def execBarexp (a b : XReg) (s : State) : Out :=
  s.whenReady [a, b] (s.barrier (s.cur.getX a) (fun s r c =>
    if 2 ^ 40 - 1 < c.pending + (s.cur.getX b).toNat then
      ((s.barWrite r.pa { c with err := true }).barMark r true).barTrap (s.cur.getX a) 3
    else
      let s' := (s.barWrite r.pa { c with pending := c.pending + (s.cur.getX b).toNat }).barMark r true
      s'.doneWith s'.cur 4))

/-- The arrival of BAR and BARARR: the state after it, given to what follows. -/
def State.arrive (s : State) (b : Word) (after : State → Word → Out) : Out :=
  s.barrier b (fun s r c =>
    if c.arrived = c.members then ((s.barWrite r.pa { c with err := true }).barMark r true).barTrap b 4
    else after ((s.barSettle r.pa { c with arrived := c.arrived + 1 }).barMark r true) (BitVec.ofNat 64 c.phase))

/-- The wait of BAR and BARWT for the end of phase `token`; the record's ERR traps code 5 among the checks. -/
def State.barAwait (s : State) (d : XReg) (b token : Word) : Out :=
  s.barrier b (fun s r c =>
    if token.toNat < c.phase then
      let s := s.barMark r false
      s.doneWith ({ s.cur with barWait := none, waitsOn := none }.setX d token) 4
    else .next (s.setCur { s.cur with waitsOn := some r.pa }))

/-- BAR: arrive, then wait. A hart that has arrived goes on with the wait alone (R108). -/
def execBar (d a : XReg) (s : State) : Out :=
  s.whenReady [d, a]
    (match s.cur.barWait with
     | some (token, b) => s.barAwait d b token
     | none =>
       s.fenceVs (s.afterCopies (s.arrive (s.cur.getX a) (fun s' token =>
         let h := { s'.cur with barWait := some (token, s.cur.getX a) }
         (s'.setCur h).barAwait d (s.cur.getX a) token))))

def execBararr (d a : XReg) (s : State) : Out :=
  s.whenReady [d, a] (s.fenceVs (s.afterCopies (s.arrive (s.cur.getX a) (fun s' token => s'.finish d token 4))))

def execBarwt (d a b : XReg) (s : State) : Out :=
  s.whenReady [d, a, b] (s.barAwait d (s.cur.getX a) (s.cur.getX b))

/-! ### Signal words (R109) -/

/-- The checks of SIGDEC and SIGWAIT, then the access. -/
def State.signal (s : State) (k : AccKind) (a : Word) (act : Reach → Out) : Out :=
  if a.toNat % 8 ≠ 0 then s.trap causeMisalign a
  else
    match s.signalAt (s.space s.turn) k a.toNat with
    | .error f => s.trapAccess f
    | .ok r => act r

def execSigdec (d a : XReg) (s : State) : Out :=
  s.whenReady [d, a] (s.signal .atomic (s.cur.getX a) (fun r =>
    let (s', old) := s.sigDecThrough (s.space s.turn) s.turn true (s.cur.getX a).toNat r
    s'.finish d old 4))

def execSigwait (d a b : XReg) (s : State) : Out :=
  s.whenReady [d, a, b] (s.signal .read (s.cur.getX a) (fun r =>
    let va := (s.cur.getX a).toNat
    let s' := (s.assignPage r.leaf).consume s.turn (scalarPiece va 8 r)
    let v := BitVec.ofNat 64 (ofLe (s'.load r 8))
    if v.sle (s.cur.getX b) then (s'.scalarTouched s.turn va 8 r false false).finish d v 4 else .next s'))

/-! ### Waiting and yielding (R319, R320) -/

def execWfe (s : State) : Out := if s.cur.latch then s.doneWith { s.cur with latch := false } 4 else .next s

def execYield (s : State) : Out := s.doneWith { s.cur with yielding := some [] } 4

end Sys2Proof.Machine
end

