-- ==== Sys2Proof/Machine/Csr.lean ====
section
/-! DEFINITION. The state registers: the index map and its rights (R19, R20), what each reads as and how a write treats
its fields (Tables 1-6, 2-7, 3-1, 3-7, 4-4, 5-2, 6-5, 6-6, 7-2, 12-5, 15-2, 17-1, 17-8, 18-1), and the CSR instructions
(R316, R317). -/

namespace Sys2Proof.Machine

open Sys2Proof

/-! ### The index map (Table 1-6) -/

/-- Rights of a level to a state register. -/
inductive CsrRight where
  | none
  | read
  | write
  deriving DecidableEq, Repr

/-- The rights of PL0 and PL1 to an index, or nothing for an unlisted one. -/
def csrRights (c : Nat) : Option (CsrRight × CsrRight) :=
  if c ≤ 0x002 ∨ c = 0x004 then some (.read, .write)
  else if c ≤ 0x008 then some (.read, .read)
  else if c = 0x010 ∨ c = 0x011 then some (.write, .write)
  else if c = 0x020 then some (.read, .write)
  else if c = 0x021 then some (.read, .read)
  else if 0x030 ≤ c ∧ c ≤ 0x034 then some (.read, .read)
  else if 0x040 ≤ c ∧ c ≤ 0x042 then some (.read, .read)
  else if 0x100 ≤ c ∧ c ≤ 0x112 then some (.none, .write)
  else if c = 0x118 ∨ c = 0x120 ∨ c = 0x121 then some (.none, .write)
  else Option.none

/-- The cause that an access at a level traps with, if any (R19, R20). -/
def csrFault (c : Nat) (l : Level) (writes : Bool) : Option Nat :=
  match csrRights c with
  | Option.none => some causeIllegal
  | some (r0, r1) =>
    let mine := match l with
      | .pl0 => r0
      | .pl1 => r1
    match mine with
    | .none => some causePriv
    | .write => Option.none
    | .read => if writes then some (if r1 = .write then causePriv else causeIllegal) else Option.none

/-! ### Reading -/

/-- A pool boundary in bytes. -/
def boundaryBytes (units : Nat) : Word := BitVec.ofNat 64 (units * 65536)

/-- The value of a state register of hart g. -/
def State.csrValue (s : State) (g c : Nat) : Word :=
  let h := s.hart g
  let core := s.core (coreOf g)
  let ctx := s.ctx h.asid.toNat
  if c = 0x000 then h.vconf
  else if c = 0x001 then h.vl.setWidth 64
  else if c = 0x002 then h.eidx.setWidth 64
  else if c = 0x003 then BitVec.ofNat 64 core.alanes
  else if c = 0x004 then h.lshare.setWidth 64
  else if c = 0x005 then BitVec.ofNat 64 (s.vlmax g)
  else if c = 0x006 then boundaryBytes core.vrb
  else if c = 0x007 then boundaryBytes core.spb
  else if c = 0x008 then boundaryBytes core.ccb
  else if c = 0x010 then h.fpctl.setWidth 64
  else if c = 0x011 then h.fpstat.setWidth 64
  else if c = 0x020 then core.arrive
  else if c = 0x021 then h.tagown
  else if c = 0x030 then BitVec.ofNat 64 g
  else if c = 0x031 then h.gangpos
  else if c = 0x032 then h.gangsize
  else if c = 0x033 then h.launchidx
  else if c = 0x034 then BitVec.ofNat 64 (putBits h.clusterReg.toNat 0 2 (clusterOf g))
  else if c = 0x040 then BitVec.ofNat 64 ((s.pair (pairOf g)).cycle / 100)
  else if c = 0x041 then BitVec.ofNat 64 s.time
  else if c = 0x042 then s.energy
  else if c = 0x100 then h.trapvec
  else if c = 0x101 then h.trappc
  else if c = 0x102 then h.trapcause
  else if c = 0x103 then h.trapaddr
  else if c = 0x104 then h.trapeidx
  else if c = 0x105 then h.trapinfo
  else if c = 0x106 then h.trapstat
  else if c = 0x107 then h.scalarpc
  else if c ≤ 0x10F then tget h.fplist (c - 0x108) 0
  else if c = 0x110 then h.asid.setWidth 64
  else if c = 0x111 then h.ptbase
  else if c = 0x112 then h.checkmode.setWidth 64
  else if c = 0x118 then h.tbudget
  else if c = 0x120 then
    BitVec.ofNat 64 (ctx.holdQuota % 2 ^ 16 + ctx.holdCount % 2 ^ 16 * 2 ^ 16 + (if ctx.lostovf then 2 ^ 32 else 0))
  else if c = 0x121 then BitVec.ofNat 64 (ctx.leaseQuota % 2 ^ 16 + ctx.leaseCount % 2 ^ 16 * 2 ^ 16)
  else 0

/-- What a state register reads as on hart g's core: on a shadow's, as on its lead's (R388). -/
def State.csrOn (s : State) (g c : Nat) : Word := s.csrValue (s.leadOf g) c

/-! ### Writing -/

/-- ARRIVE written at PL1; a bit that rises wakes the hart that owns its tag (R319). -/
def State.writeArrive (s : State) (n : Nat) (v : Word) : State :=
  let rise := v &&& ~~~(s.core n).arrive
  let s := s.setCore n { s.core n with arrive := v }
  (List.range 4).foldl (fun s k =>
    if (s.hart (4 * n + k)).tagown &&& rise ≠ 0 then s.wake (4 * n + k) else s) s

/-- Bits of a word that a mask keeps. -/
def keep (v : Word) (m : Nat) : Word := v &&& BitVec.ofNat 64 m

/-- A write of a state register under the field rules of its map; SCALARPC also goes to the position image (Table
17-1). -/
def State.csrWrite (s : State) (g c : Nat) (v : Word) : State :=
  let h := s.hart g
  let a := h.asid.toNat
  let ctx := s.ctx a
  if c = 0x000 then s.setHart g { h with vconf := keep v 0x8000000000000FFF }
  else if c = 0x001 then s.setHart g { h with vl := v.setWidth 32 }
  else if c = 0x002 then s.setHart g { h with eidx := v.setWidth 32 }
  else if c = 0x004 then s.setHart g { h with lshare := v.setWidth 5 }
  else if c = 0x010 then s.setHart g { h with fpctl := if v.setWidth 3 ≤ 4#3 then v.setWidth 3 else h.fpctl }
  else if c = 0x011 then s.setHart g { h with fpstat := v.setWidth 6 }
  else if c = 0x020 then s.writeArrive (coreOf g) v
  else if c = 0x100 then s.setHart g { h with trapvec := keep v 0xFFFFFFFFFFFFC }
  else if c = 0x101 then s.setHart g { h with trappc := v }
  else if c = 0x102 then s.setHart g { h with trapcause := keep v 0xFF }
  else if c = 0x103 then s.setHart g { h with trapaddr := v }
  else if c = 0x104 then s.setHart g { h with trapeidx := keep v 0xFFFFFFFF }
  else if c = 0x105 then s.setHart g { h with trapinfo := keep v 0x1FFFFFF }
  else if c = 0x107 then
    (s.setHart g { h with scalarpc := v }).store (s.imageAt g) (leBytes 8 v.toNat)
  else if 0x108 ≤ c ∧ c ≤ 0x10F then
    s.setHart g { h with fplist := tput h.fplist (c - 0x108) (keep v 0xFFFFFFFFF00FF) }
  else if c = 0x110 then s.setHart g { h with asid := v.setWidth 16 }
  else if c = 0x111 then s.setHart g { h with ptbase := keep v 0xFFFFFFFF000 }
  else if c = 0x112 then
    if v.toNat % 4 = 3 ∨ v.toNat % 4 < ctx.minCheck then s else s.setHart g { h with checkNext := v.setWidth 2 }
  else if c = 0x118 then s.setHart g { h with tbudget := v }
  else if c = 0x120 then s.setCtx a { ctx with holdQuota := v.toNat % 2 ^ 16, lostovf := bit v.toNat 32 }
  else if c = 0x121 then s.setCtx a { ctx with leaseQuota := v.toNat % 2 ^ 16 }
  else s

/-! ### The instructions (R316, R317) -/

/-- Whether every vector and matrix instruction the hart has posted has completed. -/
def Hart.drained (h : Hart) : Bool := h.vq.isEmpty && h.mq.isEmpty

/-- Whether R317 makes an access wait. -/
def State.csrWaits (s : State) (c : Nat) (writes : Bool) : Bool :=
  ((c == 0x010 || c == 0x011) && !s.cur.drained) ||
    (c == 0x020 && !s.cur.copiesIssued) ||
    (writes && s.cur.level == .pl1 && (c == 0x000 || c == 0x001 || c == 0x002 || c == 0x004) && !s.cur.drained)

/-- One CSR instruction; `new` gives the value to write from the old one, and CSRR writes nothing. -/
def State.csr (s : State) (d : XReg) (rs : List XReg) (c : BitVec 12) (new : Option (Word → Word)) : Out :=
  match csrFault c.toNat s.cur.level new.isSome with
  | some cause => s.trap cause
  | none =>
    s.whenReady (d :: rs)
      (if s.csrWaits c.toNat new.isSome then .next s
       else
         let old := s.csrValue s.turn c.toNat
         match new with
         | none => s.finish d old 4
         | some f =>
           if c.toNat = 0x107 ∧ !s.imageOk then .fault .imageOutsideHbm
           else (s.csrWrite s.turn c.toNat (f old)).finish d old 4)

def execCsrr (d : XReg) (c : BitVec 12) (s : State) : Out := s.csr d [] c none
def execCsrw (d a : XReg) (c : BitVec 12) (s : State) : Out := s.csr d [a] c (some fun _ => s.cur.getX a)
def execCsrs (d a : XReg) (c : BitVec 12) (s : State) : Out := s.csr d [a] c (some fun old => old ||| s.cur.getX a)
def execCsrc (d a : XReg) (c : BitVec 12) (s : State) : Out := s.csr d [a] c (some fun old => old &&& ~~~(s.cur.getX a))

end Sys2Proof.Machine
end

