-- ==== Sys2Proof/Machine/Holds.lean ====
section
/-! DEFINITION. Held rows: HOLD, HREL and HQRY (R49 to R56), what drops a hold into its context's lost set (R55), and the
enable register HOLDCTL (R57). A slot's key is 8 × pseudo-channel + slot, the low 12 bits of its handles. -/

namespace Sys2Proof.Machine

open Sys2Proof

/-- Pseudo-channel of a row: stack × 64 + pseudo-channel (Table 2-5). -/
def pchOfRow (row : Nat) : Nat := row % 512
/-- Bank and bank group of a row within its pseudo-channel. -/
def bankOfRow (row : Nat) : Nat := row / 512 % 16
/-- Subarray of a row: bits [15:12] of the row number (Table 2-2). -/
def subarrayOfRow (row : Nat) : Nat := row / 16384 / 4096

def State.holdSlot (s : State) (key : Nat) : HoldSlot := tget s.holds key {}

/-- The slots of a pseudo-channel that carry a hold: key, context and row. -/
def State.heldIn (s : State) (pch : Nat) : List (Nat × Nat × Nat) :=
  (List.range 8).filterMap (fun i =>
    match (s.holdSlot (8 * pch + i)).held with
    | some (a, r) => some (8 * pch + i, a, r)
    | none => none)

/-- The handle of a slot as it stands (Table 2-5). -/
def State.holdHandle (s : State) (key : Nat) : Word := BitVec.ofNat 64 ((s.holdSlot key).gen * 4096 + key)

/-- The bank rules of R51: fewer than two holds in the bank, none in the row's subarray, no other context on the row. -/
def holdFits (held : List (Nat × Nat × Nat)) (asid row : Nat) : Bool :=
  let mine := held.filter (fun p => bankOfRow p.2.2 == bankOfRow row)
  decide (mine.length < 2) && !mine.any (fun p => subarrayOfRow p.2.2 == subarrayOfRow row) &&
    !held.any (fun p => p.2.2 == row && p.2.1 != asid)

/-- Whether holds are off for a stack (Table 2-6). -/
def State.holdsOff (s : State) (stack : Nat) : Bool := !bit s.holdctl.toNat stack || s.degraded.contains stack

/-- A hold granted in a free slot (R52). -/
def State.holdGrant (s : State) (asid row key : Nat) : State :=
  let s := s.mscDropRow row
  let slot := s.holdSlot key
  let c := s.ctx asid
  ({ s with holds := tput s.holds key ⟨(slot.gen + 1) % 256, some (asid, row)⟩ }).setCtx asid
    { c with holdCount := c.holdCount + 1 }

/-- HOLD on a row of HBM, from the enable check on (R52): the result and the state. -/
def State.holdRow (s : State) (asid row : Nat) : Word × State :=
  let pch := pchOfRow row
  let held := s.heldIn pch
  let c := s.ctx asid
  if s.holdsOff (pch / 64) then (BitVec.ofInt 64 (-4), s)
  else
    match held.find? (fun p => p.2.1 == asid && p.2.2 == row) with
    | some p => (s.holdHandle p.1, s)
    | none =>
      if c.holdQuota ≤ c.holdCount then (BitVec.ofInt 64 (-2), s)
      else
        match leastFrom (fun i => (s.holdSlot (8 * pch + i)).held.isNone) 8 0 with
        | none => (BitVec.ofInt 64 (-1), s)
        | some i =>
          if holdFits held asid row then
            let s' := s.holdGrant asid row (8 * pch + i)
            (s'.holdHandle (8 * pch + i), s')
          else (BitVec.ofInt 64 (-1), s)

def execHold (d a : XReg) (s : State) : Out :=
  s.whenReady [d, a]
    (match s.probe (s.space s.turn) .read (s.cur.getX a).toNat with
     | .error f => s.trapAccess f
     | .ok r =>
       let s := s.consume s.turn (scalarPiece (s.cur.getX a).toNat 0 r) false
       if placeOf r.pa = .hbm then
         let (v, s') := s.holdRow s.cur.asid.toNat (rowOf r.pa)
         s'.finish d v 4
       else s.finish d (BitVec.ofInt 64 (-3)) 4)

/-- What HQRY returns: 0 HELD, 1 LOST, 2 FREE (R53). -/
def State.holdState (s : State) (asid : Nat) (h : Word) : Nat :=
  let key := h.toNat % 4096
  let slot := s.holdSlot key
  let mine := match slot.held with
    | some (a, _) => a == asid
    | none => false
  if mine && s.holdHandle key == h then 0 else if (s.ctx asid).lost.contains h then 1 else 2

def execHqry (d a : XReg) (s : State) : Out :=
  s.whenReady [d, a] (s.finish d (BitVec.ofNat 64 (s.holdState s.cur.asid.toNat (s.cur.getX a))) 4)

/-- A held slot freed (R54). -/
def State.holdFree (s : State) (asid key : Nat) : State :=
  let c := s.ctx asid
  ({ s with holds := tput s.holds key { s.holdSlot key with held := none } }).setCtx asid
    { c with holdCount := c.holdCount - 1 }

/-- HREL's action on a handle (R54). -/
def State.holdRelease (s : State) (asid : Nat) (h : Word) : State :=
  match s.holdState asid h with
  | 0 => s.holdFree asid (h.toNat % 4096)
  | 1 => s.setCtx asid { s.ctx asid with lost := (s.ctx asid).lost.filter (fun x => x != h) }
  | _ => s

def execHrel (d a : XReg) (s : State) : Out :=
  s.whenReady [d, a]
    (let code := s.holdState s.cur.asid.toNat (s.cur.getX a)
     let s' := s.holdRelease s.cur.asid.toNat (s.cur.getX a)
     s'.finish d (BitVec.ofNat 64 code) 4)

/-! ### Dropping holds -/

/-- A handle enters a lost set, from which the oldest entry goes when it is full (R55). It is a set: a handle that stands in it, of an
earlier hold in the slot under the same generation, is not listed again. -/
def Ctx.lose (c : Ctx) (h : Word) : Ctx :=
  if c.lost.contains h then c
  else if c.lost.length < 65535 then { c with lost := c.lost ++ [h] }
  else { c with lost := c.lost.drop 1 ++ [h], lostovf := true }

/-- A hold dropped: its slot freed and its handle lost. -/
def State.dropHold (s : State) (key : Nat) : State :=
  match (s.holdSlot key).held with
  | none => s
  | some (a, _) =>
    let h := s.holdHandle key
    let s := s.holdFree a key
    s.setCtx a ((s.ctx a).lose h)

/-- The slots that hold rows satisfying a test, by key, context and row. -/
def State.heldKeys (s : State) (p : Nat → Nat → Nat → Bool) : List Nat :=
  s.holds.filterMap (fun q => match q.2.held with
    | some (a, r) => if p q.1 a r then some q.1 else none
    | none => none)

/-- Every hold that satisfies a test dropped. The manual gives no order in which holds dropped by one act enter the lost set; they do in
ascending order of their slots' keys (R55; log entry 109, DESIGN CHOICE). -/
def State.dropHolds (s : State) (p : Nat → Nat → Nat → Bool) : State := (s.heldKeys p).foldl (fun s k => s.dropHold k) s

/-- A write of HOLDCTL: a stack whose bit clears drops its holds (R57). -/
def State.writeHoldctl (s : State) (v : Word) : State :=
  let s := { s with holdctl := keep v 0xFF }
  s.dropHolds (fun key _ _ => !bit v.toNat (key / 512))

/-- HOLDCTL written at PL2 (R57, Table 2-8). -/
def execHoldctlWrite (v : Word) (s : State) : Out := .next (s.writeHoldctl v)

end Sys2Proof.Machine
end

