-- ==== Sys2Proof/Machine/Queue.lean ====
section
/-! DEFINITION. Posting to the vector and matrix queues (R301, R302), and the events that move a queue on when work is not
eager (R169 to R172, R221, R222). -/

namespace Sys2Proof.Machine

open Sys2Proof

/-! ### Posting (R301) -/

/-- Position 5 of R16: a register at or above NR, m0 as a mask destination (R18), a group that R228 or R255 refuses. -/
def State.qIllegal (s : State) (g : Nat) (q : QOp) : Bool :=
  let v := (s.hart g).vconf
  let nr := vcNr v
  (qVregs q).any (fun r => decide (nr ≤ r.toNat)) || qMaskDest q == some 0 ||
    (match q with
     | .mma a d mm n _ _ _ => mmaIllegal (s.groupOf g v) nr a d (dim256 mm) (dim256 n)
     | .mfeed a _ => feedIllegal (s.groupOf g v) nr a
     | .mdrain d _ => feedIllegal (s.groupOf g v) nr d
     | _ => false)

/-- Entries that a queue holds (R221, R301). -/
def queueSize (matrix : Bool) : Nat := if matrix then 64 else 32

/-- Whether the queue of an operation has room, and no MSYNC holds back every posting (R234). -/
def Hart.canPost (h : Hart) (q : QOp) : Bool :=
  decide ((if qIsMatrix q then h.mq else h.vq).length < queueSize (qIsMatrix q)) &&
    !h.mq.any (fun e => e.op == .msync)

/-- The register that an operation must find not pending in the other queue, nor by an access put off, so that the two writes land in
program order (R302). -/
def Hart.crossPending (h : Hart) (q : QOp) : Bool :=
  match qDest q with
  | none => false
  | some d => (if qIsMatrix q then h.vq else h.mq).any (fun e => qDest e.op == some d) || h.late.any (fun l => l.op.dest == some d)

/-- The entry that posting makes of an operation, with what it captures (R301). -/
def Hart.entryOf (h : Hart) (q : QOp) : Entry :=
  { pc := h.pc, op := q, ops := (qSources q).map h.getX, vl := h.vl.toNat, vconf := h.vconf, rm := h.fpctl, seq := h.posted
    codeFar := h.codeFar }

/-- The operation at the tail of its queue, and the scalar stream past it. When both queues are empty, nothing reads an old
version any more. -/
def Hart.enqueue (h : Hart) (q : QOp) : Hart :=
  let e := h.entryOf q
  let h := if h.vq.isEmpty && h.mq.isEmpty && h.level == .pl0 then { h with old := [] } else h
  let h := if qIsMatrix q then { h with mq := h.mq ++ [e] } else { h with vq := h.vq ++ [e] }
  { h with posted := h.posted + 1 }.advance q.bytes

/-- SEND and RSIG have the effect of FENCE.SV (R296). -/
def qFences (q : QOp) : Bool :=
  match q with
  | .send .. => true
  | .rsig .. => true
  | _ => false

/-- Posting an operation: the checks, the capture, the queue (R301, R302). A posting that cannot be made yet is tried again
at the hart's next step. -/
def State.post (s : State) (q : QOp) : Out :=
  let s := if qFences q then s.performLate s.turn else s
  let h := s.cur
  if qNeedsConfig q && vcIll h.vconf then s.trap causeVill
  else if s.qIllegal s.turn q then s.trap causeIllegal
  else if h.anyPending (qSources q) || h.crossPending q || !h.canPost q then .next s
  else .next ((s.setCur (h.enqueue q)).drainEager s.turn)

/-! ### The events -/

/-- Whether hart g's queues stand still: its core does, a trap is due, an entry to PL1 is due at the next boundary, before which
nothing more is admitted (R372, R373, R378), or a comparison with its shadow has failed and the compared event is not performed
(R388). -/
def State.queuesHeld (s : State) (g : Nat) : Bool :=
  let h := s.hart g
  h.trapDue.isSome || !h.placed || s.stopped g || (h.level == .pl0 && h.entryDue) || h.mismatched

/-- The memory pipe probes the next posted vector memory instruction (R172). -/
def State.vectorProbe (s : State) (g : Nat) : State :=
  if s.queuesHeld g then s
  else
    match (s.hart g).vq.find? (fun e => qIsVmem e.op && !e.probed) with
    | none => s
    | some e =>
      match s.probeEntry g e with
      | .error r => s.queueFault g r
      | .ok none => s
      | .ok (some ps) => s.setHart g ((s.hart g).withProbe e.seq ps)

def execVectorProbe (g : Nat) (s : State) : Out := .next (s.vectorProbe g)

/-- What became of a queue's entry: the state, or its trap due. -/
def State.tried (s : State) (g : Nat) (r : QRes) : State :=
  match r with
  | .done s => s
  | .wait s => s
  | .trap t => s.queueFault g t

/-- Entry k of a hart's vector queue is admitted, or goes on, up to element `upto` (R169 to R172). -/
def State.vectorAdmission (s : State) (g k upto : Nat) : State :=
  match ((s.hart g).vq.drop k).head? with
  | none => s
  | some e => if s.queuesHeld g || qIsCopy e.op then s else s.tried g (s.advanceVector g e upto)

def execVectorAdmission (g k upto : Nat) (s : State) : Out := .next (s.vectorAdmission g k upto)

/-- A probed load's data land (R172). -/
def execLoadDataArrival (g k : Nat) (s : State) : Out :=
  let h := s.hart g
  match (h.vq.drop k).head? with
  | none => .next s
  | some e =>
    if qIsLoad e.op && e.probed && !s.stopped g then
      .next (s.setHart g (h.updateVector e.seq (fun f => { f with landed := true })))
    else .next s

/-- The granules of the positions from P on, at most four of them, that translate (R82). -/
def State.walkAhead (s : State) (g : Nat) (r : StreamReg) : List Nat :=
  let k : AccKind := if r.desc.isStore then .write else .read
  let ps := (List.range (min 64 (r.desc.total - r.pos.toNat))).map (fun i => r.pos.toNat + i)
  let gs := (((ps.filter (fun p => !r.desc.clipped p 0)).map (fun p => r.desc.addr p 0 / 65536)).eraseDups).take 4
  gs.filter (fun a => match s.probe (s.space g) k (a * 65536) with
    | .ok _ => true
    | .error _ => false)

/-- The stream engine walks ahead of a bound stream and, for a load stream, fetches one more position (R82): a fault is
discarded, and nothing but timing depends on it. -/
def execStreamPrefetch (g sn : Nat) (s : State) : Out :=
  let h := s.hart g
  let r := h.stream sn
  if r.bound && !s.stopped g then
    .next (s.setHart g (h.setStream sn { r with
      ahead := s.walkAhead g r
      prefetched := if r.desc.isStore then 0 else min (r.prefetched + 1) (r.desc.total - r.pos.toNat) }))
  else .next s

/-- The copy that is next in the vector queue issues (R94, R95). -/
def execCopyIssue (g : Nat) (s : State) : Out :=
  match (s.hart g).vq.find? (fun e => !e.admitted) with
  | none => .next s
  | some e => if s.queuesHeld g || !qIsCopy e.op then .next s else .next (s.tried g (s.advanceVector g e e.vl))

/-- The heads of a hart's matrix queue that do not use the array, as far as they go. -/
def State.controls (s : State) (g : Nat) : Nat → State
  | 0 => s
  | n + 1 =>
    match s.nextMatrix g with
    | none => s
    | some e =>
      if s.queuesHeld g || qUsesArray e.op then s
      else
        match s.runControl g e with
        | .done s => State.controls s g n
        | .wait s => s
        | .trap r => s.queueFault g r

/-- The first of some harts whose next matrix entry the array admits, round-robin (R222); the turn passes on. -/
def State.admitFirst (s : State) (pn : Nat) : List Nat → State
  | [] => s
  | g :: rest =>
    match s.nextMatrix g with
    | none => State.admitFirst s pn rest
    | some e =>
      if s.queuesHeld g then State.admitFirst s pn rest
      else
        match s.admitMatrix g e with
        | .wait _ => State.admitFirst s pn rest
        | .trap r => s.queueFault g r
        | .done s => s.setPair pn { s.pair pn with rr := (g % 8 + 1) % 8 }

/-- The eight harts of a pair, from the one whose turn at the array it is. -/
def roundRobin (pn rr : Nat) : List Nat := (List.range 8).map (fun i => 8 * pn + (rr + i) % 8)

/-- The array admits one instruction (R222, R252), after the heads that need no array have run. -/
def execArrayAdmission (p : Nat) (s : State) : Out :=
  if s.islandStopped p then .next s
  else
    let hs := roundRobin p (s.pair p).rr
    .next ((hs.foldl (fun s g => s.controls g 64) s).admitFirst p hs)

end Sys2Proof.Machine
end

