-- ==== Sys2Proof/Machine/Leases.lean ====
section
/-! DEFINITION. Tributary engines and leases (R258 to R270): the awake budget, the lease queues, eviction, the four lease
instructions and the events that move a lease on. -/

namespace Sys2Proof.Machine

open Sys2Proof

/-! ### Engines of a cluster -/

/-- Engine number of a kind within a cluster's 24. -/
def engineNo (kind e : Nat) : Nat := 8 * kind + e

def Cluster.engine (c : Cluster) (n : Nat) : Engine := tget c.engines n {}

def Cluster.setEngine (c : Cluster) (n : Nat) (e : Engine) : Cluster := { c with engines := tput c.engines n e }

/-- Whether an engine counts against the awake budget (R258). -/
def Engine.awake (e : Engine) : Bool :=
  match e.st with
  | .asleep => false
  | .retired => false
  | _ => true

/-- Awake engines of a cluster. -/
def Cluster.awakeCount (c : Cluster) : Nat := ((List.range 24).filter (fun n => (c.engine n).awake)).length

/-- Lowest engine of a kind in a state (log entry 22). -/
def Cluster.firstOf (c : Cluster) (kind : Nat) (st : EngineState) : Option Nat :=
  ((List.range 8).map (engineNo kind)).find? (fun n => (c.engine n).st == st)

/-- Whether some engine of a kind still works (R265). -/
def Cluster.working (c : Cluster) (kind : Nat) : Bool :=
  ((List.range 8).map (engineNo kind)).any (fun n => (c.engine n).st != .retired)

/-- Whether an engine is awake, or on its way there, and holds no lease (R260). -/
def Engine.free (e : Engine) : Bool := e.awake && e.lease.isNone

/-- Lowest awake engine that holds no lease. -/
def Cluster.firstUnleased (c : Cluster) : Option Nat := (List.range 24).find? (fun n => (c.engine n).free)

/-- Lowest engine of a kind that is awake, or on its way there, and holds no lease. -/
def Cluster.firstFree (c : Cluster) (kind : Nat) : Option Nat :=
  ((List.range 8).map (engineNo kind)).find? (fun n => (c.engine n).free)

/-- The requests that wait for a kind, in order. -/
def Cluster.queueOf (c : Cluster) (kind : Nat) : List LeaseWait := tget c.waiting kind []

def Cluster.setQueue (c : Cluster) (kind : Nat) (l : List LeaseWait) : Cluster := { c with waiting := tput c.waiting kind l }

/-- A request behind those of its priority and above; a returned one ahead of those of its priority (R264, R265). -/
def enqueueLease (w : LeaseWait) (ahead : Bool) : List LeaseWait → List LeaseWait
  | [] => [w]
  | v :: r => if v.prio < w.prio ∨ (ahead ∧ v.prio = w.prio) then w :: v :: r else v :: enqueueLease w ahead r

/-! ### Leases of a context -/

/-- Key of a lease entry of a cluster. -/
def leaseKey (c entry : Nat) : Nat := 64 * c + entry

def Ctx.lease (x : Ctx) (key : Nat) : Lease := tget x.leases key {}

def Ctx.setLease (x : Ctx) (key : Nat) (l : Lease) : Ctx := { x with leases := tput x.leases key l }

def State.lease (s : State) (asid key : Nat) : Lease := (s.ctx asid).lease key

def State.setLease (s : State) (asid key : Nat) (l : Lease) : State := s.setCtx asid ((s.ctx asid).setLease key l)

/-- Priority and wait of a request word (Table 12-2). -/
def wordPrio (w : Word) : Nat := bits w.toNat 6 4
def wordWait (w : Word) : Nat := bits w.toNat 31 16
def wordKind (w : Word) : Nat := bits w.toNat 1 0

/-- Code of a state (Table 12-4). -/
def LeaseState.code (s : LeaseState) : Nat :=
  match s with
  | .pending => 0
  | .waking => 1
  | .ready => 2
  | .evicted => 3
  | .ended => 4

/-- TIME as the µs timers of leases count it: a thermal pause stops them (R400). -/
def State.timer (s : State) : Nat := s.time - s.paused

/-! ### Operations that end early (R266, R280, R299) -/

/-- A REDUCE operation. -/
def OpDesc.isReduce (d : OpDesc) : Bool := decide (0x20 ≤ d.opcode)

/-- The ranks of a group that have fired on peer devices (R299). -/
def State.peerRanks (s : State) (gid : Nat) : List PeerRank :=
  s.peers.flatMap (fun p => p.ranks.filter (fun r => r.gid == gid))

/-- Whether an operation of a REDUCE group has fired in a context, or on a peer, so that the group waits on its members (R299). -/
def State.groupWaits (s : State) (asid gid : Nat) : Bool :=
  (s.ctx asid).leases.any (fun p => p.2.ops.any (fun o => o.fired && o.desc.isReduce && o.desc.gid == gid)) ||
    ((s.ctx asid).members.any (fun m => m.gid == gid) && !(s.peerRanks gid).isEmpty)

/-- An operation of a lease goes to its completion actions with a status; one that has none, for want of a record and a signal,
has completed (R280). -/
def Ctx.endOp (x : Ctx) (key : Nat) (o : EngineOp) (status : Nat) : Ctx :=
  let l := x.lease key
  let e : OpEnd := { cluster := key / 64, entry := key % 64, gen := l.gen, op := o, status := status }
  { x.setLease key { l with ops := l.ops.filter (fun p => p.seq != o.seq) } with
    opEnds := if o.desc.record = 0 ∧ o.desc.donesig = 0 then x.opEnds else x.opEnds ++ [e] }

/-- The peers with a context of a group (R292). -/
def State.groupPeers (s : State) (gid : Nat) : List Peer := s.peers.filter (fun p => p.groups.any (fun q => q.1 == gid))

/-- A message to every peer of a group that can be reached. -/
def State.tellGroup (s : State) (gid : Nat) (m : Nat → Message) : State :=
  (s.groupPeers gid).foldl (fun s p => if s.peerReachable p.pos then s.toPeer p.pos (m p.pos) else s) s

/-- The peers' ranks of a group that is over. -/
def State.dropRanks (s : State) (gid : Nat) : State :=
  { s with peers := s.peers.map (fun p => { p with ranks := p.ranks.filter (fun r => r.gid != gid) }) }

/-- A lease's member of a REDUCE group: its first operation of that group id, fired or not (R299). -/
def Lease.member (l : Lease) (gid : Nat) : Option EngineOp := l.ops.find? (fun o => o.desc.isReduce && o.desc.gid == gid)

/-- Every member of a REDUCE group ends with GROUP, here and, where the context is one of the group and it waits on its members, on
the peers (R299). -/
def State.failGroup (s : State) (asid gid : Nat) : State :=
  let x := (s.ctx asid).leases.foldl (fun x p =>
    match p.2.member gid with
    | some o => x.endOp p.1 o 4
    | none => x) (s.ctx asid)
  if (s.ctx asid).members.any (fun m => m.gid == gid) && s.groupWaits asid gid then
    ((s.setCtx asid x).tellGroup gid (fun pos => .reduceGroup pos gid)).dropRanks gid
  else s.setCtx asid x

/-- The operations of a lease that is lost end with a status: EVICTED, or ABORTED by LREL. One that is a member of a REDUCE
group that waits takes the whole group to GROUP (R299). -/
def State.dropOps (s : State) (asid key status : Nat) : State :=
  (s.lease asid key).ops.foldl (fun s o =>
    if !(s.lease asid key).ops.any (fun p => p.seq == o.seq) then s
    else if o.desc.isReduce && s.groupWaits asid o.desc.gid then s.failGroup asid o.desc.gid
    else s.setCtx asid ((s.ctx asid).endOp key o status)) s

/-! ### Moving to WAKING (R260, R264) -/

/-- A lease takes an engine in a state: asleep, with a full wake, awake, with the zeroing of 1 µs, or on its way to either. This is
the grant by which leases are the most recently granted (R259; log entry 112, DESIGN CHOICE). -/
def State.wakeLease (s : State) (c n asid entry : Nat) (st : EngineState) : State :=
  let s := s.setCluster c ((s.cluster c).setEngine n ⟨st, some (asid, entry)⟩)
  let l := s.lease asid (leaseKey c entry)
  let l := { l with st := .waking, reason := 0, engine := n % 8, grantAt := s.grants, moved := true }
  { s with grants := s.grants + 1 }.setLease asid (leaseKey c entry) l

/-- An engine is power-gated. -/
def Cluster.gate (c : Cluster) (n : Nat) : Cluster := c.setEngine n {}

/-- What an engine that holds no lease does for the one that takes it: one that is awake is zeroed; one still waking or being
zeroed, whose lease has ended meanwhile, goes on with that (R260, R265). -/
def Engine.taken (e : Engine) : EngineState :=
  match e.st with
  | .waking => .waking
  | _ => .zeroing

/-- The engine that a request of a kind can take now, with the state it is in then: one of the kind without a lease, or
a sleeping one under the budget, for which an engine of another kind without a lease gives up its slot (R260, R264). -/
def Cluster.canTake (c : Cluster) (kind : Nat) : Option (Cluster × Nat × EngineState) :=
  match c.firstFree kind with
  | some n => some (c, n, (c.engine n).taken)
  | none =>
    match c.firstOf kind .asleep with
    | none => none
    | some n =>
      if c.awakeCount < c.engawake then some (c, n, .waking)
      else
        match c.firstUnleased with
        | none => none
        | some u => if (c.gate u).awakeCount < c.engawake then some (c.gate u, n, .waking) else none

/-- A request moves to WAKING, if it can. -/
def State.tryWake (s : State) (c kind asid entry : Nat) : Option State :=
  match (s.cluster c).canTake kind with
  | none => none
  | some (x, n, st) => some ((s.setCluster c x).wakeLease c n asid entry st)

/-! ### Eviction (R259, R264, R266) -/

/-- The leases of a cluster that hold an engine: engine, context and entry. -/
def Cluster.holders (c : Cluster) : List (Nat × Nat × Nat) :=
  (List.range 24).filterMap (fun n => match (c.engine n).lease with
    | some (a, e) => some (n, a, e)
    | none => none)

/-- A lease is evicted for a reason: its operations end, and its engine is gated. -/
def State.evict (s : State) (c n asid entry reason : Nat) : State :=
  let s := s.setCluster c ((s.cluster c).gate n)
  let key := leaseKey c entry
  let l := s.lease asid key
  (s.setLease asid key { l with st := .evicted, reason := reason, engine := 0 }).dropOps asid key 2

/-- The least of a list under an order, the first of equals. -/
def leastBy {α : Type} (lt : α → α → Bool) : List α → Option α
  | [] => none
  | x :: r =>
    match leastBy lt r with
    | none => some x
    | some y => if lt y x then some y else some x

/-- Lexicographic order of two lists of numbers. -/
def lexLt : List Nat → List Nat → Bool
  | [], _ => false
  | _ :: _, [] => false
  | a :: r, b :: t => decide (a < b) || (a == b && lexLt r t)

/-- The READY lease that R264 lets the cluster evict for a head of a priority and kind. -/
def State.victim (s : State) (c kind prio : Nat) : Option (Nat × Nat × Nat) :=
  let x := s.cluster c
  let sameKind := (x.firstOf kind .asleep).isNone && (x.firstFree kind).isNone
  let ok := x.holders.filter (fun p =>
    let l := s.lease p.2.1 (leaseKey c p.2.2)
    (x.engine p.1).st == .leased && decide (wordPrio l.word < prio) && decide (l.readyAt + 100000 ≤ s.timer) &&
      (!sameKind || p.1 / 8 == kind))
  let rank := fun (p : Nat × Nat × Nat) =>
    let l := s.lease p.2.1 (leaseKey c p.2.2)
    [wordPrio l.word, l.readyAt, p.1 % 8, p.1]
  leastBy (fun p q => lexLt (rank p) (rank q)) ok

/-- The head of a kind's queue moves to WAKING, or one lease is evicted for it and it moves then (R264). -/
def State.leaseAdvance (s : State) (c kind : Nat) : State :=
  match (s.cluster c).queueOf kind with
  | [] => s
  | w :: rest =>
    let popped := fun (s : State) => s.setCluster c ((s.cluster c).setQueue kind rest)
    match (popped s).tryWake c kind w.asid w.entry with
    | some s => s
    | none =>
      match s.victim c kind w.prio with
      | none => s
      | some (n, a, e) =>
        let s := s.evict c n a e 1
        if n / 8 = kind then (popped s).wakeLease c n w.asid w.entry .zeroing
        else
          match (popped s).tryWake c kind w.asid w.entry with
          | some s => s
          | none => s

/-- The lease of the lowest priority, and the most recently granted of these, among those that hold an engine (R259). -/
def State.weirVictim (s : State) (c : Nat) : Option (Nat × Nat × Nat) :=
  let rank := fun (p : Nat × Nat × Nat) =>
    let l := s.lease p.2.1 (leaseKey c p.2.2)
    [wordPrio l.word, s.grants - l.grantAt]
  leastBy (fun p q => lexLt (rank p) (rank q)) (s.cluster c).holders

/-- Leases are evicted until the awake engines fit the budget. -/
def State.evictToFit (s : State) (c : Nat) : Nat → State
  | 0 => s
  | n + 1 =>
    let x := s.cluster c
    if x.awakeCount ≤ x.engawake then s
    else
      match s.weirVictim c with
      | none => s
      | some (e, a, k) => State.evictToFit (s.evict c e a k 2) c n

/-- Every awake engine that holds no lease is power-gated. -/
def Cluster.gateUnleased (c : Cluster) : Cluster :=
  (List.range 24).foldl (fun c n => if (c.engine n).free then c.gate n else c) c

/-- A new budget of a cluster (R259). -/
def State.setBudget (s : State) (c v : Nat) : State :=
  let x := { s.cluster c with engawake := v }
  let x := if v < x.awakeCount then x.gateUnleased else x
  (s.setCluster c x).evictToFit c 24

/-! ### Handles (Tables 12-3, 12-7) -/

/-- The handle of a lease entry. -/
def leaseHandle (c entry : Nat) (l : Lease) : Word :=
  BitVec.ofNat 64 (l.gen % 256 * 2 ^ 24 + c % 4 * 2 ^ 22 + l.kind % 4 * 2 ^ 20 + entry % 64)

/-- The LEASE code a handle breaks, if any. -/
def State.handleFault (s : State) (g : Nat) (h : Word) : Option Nat :=
  let v := h.toNat
  let c := bits v 23 22
  let x := s.ctx (s.hart g).asid.toNat
  if bits v 63 32 ≠ 0 ∨ bits v 19 6 ≠ 0 ∨ c ≠ clusterOf g then some 1
  else
    match tfind x.leases (leaseKey c (bits v 5 0)) with
    | none => some 1
    | some l =>
      if bits v 21 20 ≠ l.kind then some 1
      else if !l.live || bits v 31 24 != l.gen then some 2
      else none

/-- A LEASE trap with its code. -/
def State.leaseTrap (s : State) (code : Nat) : Out := s.trap causeLease 0 (BitVec.ofNat 64 code)

/-- An instruction on a handle, after the checks of R269: its key. -/
def State.withHandle (s : State) (a : XReg) (act : Nat → Out) : Out :=
  match s.handleFault s.turn (s.cur.getX a) with
  | some code => s.leaseTrap code
  | none => act (leaseKey (clusterOf s.turn) ((s.cur.getX a).toNat % 64))

/-! ### The lease instructions (R270) -/

/-- Whether a request would head its kind's queue. -/
def Cluster.heads (c : Cluster) (kind prio : Nat) : Bool := !(c.queueOf kind).any (fun w => decide (prio ≤ w.prio))

/-- The placement of a request for an entry that is there already: the new state, or the negative status. -/
def State.placeRequest (s : State) (c asid entry : Nat) (w : Word) : Except Int State :=
  let kind := wordKind w
  let key := leaseKey c entry
  let s1 := s.setLease asid key { s.lease asid key with word := w, askedAt := s.timer, moved := false }
  if !(s.cluster c).working kind then .error (-4)
  else
    match (if (s.cluster c).heads kind (wordPrio w) then s1.tryWake c kind asid entry else none) with
    | some s => .ok s
    | none =>
      if wordWait w = 0 then .error (-1)
      else if 32 ≤ ((s.cluster c).queueOf kind).length then .error (-3)
      else
        let s := s1.setLease asid key { s1.lease asid key with st := .pending, reason := 0, engine := 0 }
        let x := s.cluster c
        .ok (s.setCluster c (x.setQueue kind (enqueueLease ⟨asid, entry, wordPrio w⟩ false (x.queueOf kind))))

/-- The lowest entry of a context that is free in a cluster. -/
def Ctx.freeLease (x : Ctx) (c : Nat) : Option Nat := leastFrom (fun e => !(x.lease (leaseKey c e)).live) 64 0

/-- LEASE (R270): a context with 64 handles in the cluster has no free entry, which its last step meets. -/
def execLease (d a : XReg) (s : State) : Out :=
  s.whenReady [d, a]
    (let w := s.cur.getX a
     let c := clusterOf s.turn
     let asid := s.cur.asid.toNat
     let x := s.ctx asid
     if wordKind w = 3 ∨ bits w.toNat 63 32 ≠ 0 ∨ bits w.toNat 15 7 ≠ 0 ∨ bits w.toNat 3 2 ≠ 0 then s.leaseTrap 3
     else if x.leaseQuota ≤ x.leaseCount then s.finish d (BitVec.ofInt 64 (-2)) 4
     else
       let entry := (x.freeLease c).getD 64
       let key := leaseKey c entry
       let l : Lease := { gen := ((x.lease key).gen + 1) % 256, kind := wordKind w, live := true }
       match (s.setCtx asid { x.setLease key l with leaseCount := x.leaseCount + 1 }).placeRequest c asid entry w with
       | .error e => s.finish d (BitVec.ofInt 64 e) 4
       | .ok s' => if entry = 64 then s.finish d (BitVec.ofInt 64 (-2)) 4 else s'.finish d (leaseHandle c entry l) 4)

def execLrenew (d a : XReg) (s : State) : Out :=
  s.whenReady [d, a] (s.withHandle a (fun key =>
    let asid := s.cur.asid.toNat
    let l := s.lease asid key
    match l.st with
    | .pending => s.finish d 0 4
    | .waking => s.finish d 0 4
    | .ready => s.finish d 0 4
    | _ =>
      match s.placeRequest (clusterOf s.turn) asid (key % 64) l.word with
      | .error e => s.finish d (BitVec.ofInt 64 e) 4
      | .ok s' => s'.finish d 0 4))

/-- A lease is freed (LREL, and the end of its context): its operations end with a status, a waiting request leaves its
queue, an engine stays awake without a lease (R260). -/
def State.freeLease (s : State) (asid key status : Nat) : State :=
  let c := key / 64
  let entry := key % 64
  let s := s.dropOps asid key status
  let l := s.lease asid key
  let x := s.cluster c
  let x := x.setQueue l.kind ((x.queueOf l.kind).filter (fun w => !(w.asid == asid && w.entry == entry)))
  let x := match x.holders.find? (fun p => p.2.1 == asid && p.2.2 == entry) with
    | some (n, _, _) =>
      x.setEngine n ⟨if (x.engine n).st = EngineState.leased then .unleased else (x.engine n).st, none⟩
    | none => x
  let s := s.setCluster c x
  let y := s.ctx asid
  s.setCtx asid { y.setLease key { l with live := false } with leaseCount := y.leaseCount - 1 }

def execLrel (d a : XReg) (s : State) : Out :=
  s.whenReady [d, a] (s.withHandle a (fun key =>
    let asid := s.cur.asid.toNat
    let code := (s.lease asid key).st.code
    let s' := s.freeLease asid key 3
    s'.finish d (BitVec.ofNat 64 code) 4))

/-- Operations of a lease posted and not yet completed. -/
def Ctx.queued (x : Ctx) (key : Nat) : Nat :=
  (x.lease key).ops.length +
    (x.opEnds.filter (fun o => leaseKey o.cluster o.entry == key && o.gen == (x.lease key).gen)).length

/-- The LQRY word (Table 12-8). -/
def leaseWord (x : Ctx) (key : Nat) : Word :=
  let l := x.lease key
  let holds := l.st == .waking || l.st == .ready
  BitVec.ofNat 64 (l.st.code + l.reason % 16 * 2 ^ 4 + x.queued key % 256 * 2 ^ 8 + l.done % 2 ^ 32 * 2 ^ 16 +
    (if holds then l.engine % 64 * 2 ^ 48 else 0))

def execLqry (d a : XReg) (s : State) : Out :=
  s.whenReady [d, a] (s.withHandle a (fun key => s.finish d (leaseWord (s.ctx s.cur.asid.toNat) key) 4))

/-! ### The events -/

def execLeaseQueueAdvance (c kind : Nat) (s : State) : Out := s.whenCool (s.leaseAdvance c kind)

/-- A lease that waits or wakes goes to ENDED with a reason, and its operations end with EVICTED (R263, R265). -/
def State.endLease (s : State) (c asid entry reason : Nat) : State :=
  let key := leaseKey c entry
  let s := s.dropOps asid key 2
  s.setLease asid key { s.lease asid key with st := .ended, reason := reason, engine := 0 }

/-- No working engine of a kind remains: its PENDING and WAKING leases end with reason 2 (R265). -/
def State.endKind (s : State) (c kind : Nat) : State :=
  if (s.cluster c).working kind then s
  else
    let q := (s.cluster c).queueOf kind
    let s := s.setCluster c ((s.cluster c).setQueue kind [])
    q.foldl (fun s w => s.endLease c w.asid w.entry 2) s

/-- An engine's wake ends: it goes to its lease, or fails its test and is retired (R265). -/
def State.engineWoken (s : State) (c n : Nat) (pass : Bool) : State :=
  let x := s.cluster c
  let e := x.engine n
  if e.st ≠ .waking then s
  else if pass then
    match e.lease with
    | none => s.setCluster c (x.setEngine n ⟨.unleased, none⟩)
    | some (a, k) =>
      let s := s.setCluster c (x.setEngine n { e with st := .leased })
      s.setLease a (leaseKey c k) { s.lease a (leaseKey c k) with st := .ready, readyAt := s.timer }
  else
    let s := ({ s with engRetired := min (s.engRetired + 1) 255 }).setCluster c (x.setEngine n ⟨.retired, none⟩)
    let s := s.logError (128 + c) true 10 0 (errInfo 0xFFFF 0 0)
    let s := match e.lease with
      | none => s
      | some (a, k) =>
        let key := leaseKey c k
        let l := s.lease a key
        let y := s.cluster c
        (s.setLease a key { l with st := .pending, engine := 0 }).setCluster c
          (y.setQueue (n / 8) (enqueueLease ⟨a, k, wordPrio l.word⟩ true (y.queueOf (n / 8))))
    s.endKind c (n / 8)

def execEngineWakeComplete (c e : Nat) (pass : Bool) (s : State) : Out := s.whenCool (s.engineWoken c e pass)

/-- The zeroing of an engine taken awake ends (R260). -/
def execEngineZeroingComplete (c e : Nat) (s : State) : Out :=
  let x := s.cluster c
  let n := x.engine e
  s.whenCool (if n.st ≠ .zeroing then s
    else
      match n.lease with
      | none => s.setCluster c (x.setEngine e ⟨.unleased, none⟩)
      | some (a, k) =>
        let s := s.setCluster c (x.setEngine e { n with st := .leased })
        s.setLease a (leaseKey c k) { s.lease a (leaseKey c k) with st := .ready, readyAt := s.timer })

/-- An engine awake without a lease is power-gated (R260). -/
def execEngineIdleTimeout (c e : Nat) (s : State) : Out :=
  let x := s.cluster c
  s.whenCool (if (x.engine e).st = .unleased then s.setCluster c (x.gate e) else s)

/-- A PENDING lease whose wait has passed goes to ENDED, unless it has left PENDING before (R263, R270). -/
def execLeaseWaitTimeout (asid c entry : Nat) (s : State) : Out :=
  let l := s.lease asid (leaseKey c entry)
  if l.live && l.st == .pending && !l.moved && decide (l.askedAt + 1000 * wordWait l.word ≤ s.timer) then
    let x := s.cluster c
    let x := x.setQueue l.kind ((x.queueOf l.kind).filter (fun w => !(w.asid == asid && w.entry == entry)))
    s.whenCool ((s.setCluster c x).endLease c asid entry 1)
  else .next s

/-- Current pressure lowers the budget by steps of two engines (R259). -/
def execWeirLowerEngawake (c steps : Nat) (s : State) : Out :=
  .next (s.setBudget c ((s.cluster c).engawake - 2 * steps))

/-- Without pressure the budget rises one step (R259). -/
def execWeirRaiseEngawake (c : Nat) (s : State) : Out :=
  s.whenCool (s.setCluster c { s.cluster c with engawake := min ((s.cluster c).engawake + 2) 6 })

end Sys2Proof.Machine
end

