-- ==== Sys2Proof/Machine/Engines.lean ====
section
/-! DEFINITION. Circular buffers and engine operations (R271 to R282, R299): CBDEF, CBADV, CBTAKE, CBRET and EOP, the
firing of an operation, its result (R276), and its completion (R279, R280). -/

namespace Sys2Proof.Machine

open Sys2Proof

/-! ### Circular buffers -/

/-- Key of a buffer id of a cluster. -/
def bufKey (c id : Nat) : Nat := 64 * c + id

def CircBuf.avail (b : CircBuf) : Nat := b.prod - b.cons
def CircBuf.room (b : CircBuf) : Nat := b.entries - b.avail

/-- Virtual address of position q (R271). -/
def CircBuf.addr (b : CircBuf) (q : Nat) : Nat := b.base.toNat + b.esize * (q % b.entries)

/-- The parts of a range within single granules. -/
def granules (va len : Nat) : List Nat := (List.range ((va + len - 1) / 65536 + 1 - va / 65536)).map (fun i => va / 65536 + i)

/-- The translation of a granule of a buffer, when every byte it covers lies in the cluster's SRAM or a scratchpad of its
cores, and is readable and writable (R273). -/
def State.bufGranule (s : State) (sp : Space) (lo hi g : Nat) : Option (Nat × Option Leaf) :=
  let a := max lo (g * 65536)
  let z := min hi (g * 65536 + 65536) - 1
  match s.translate sp .atomic a with
  | .error _ => none
  | .ok (pa, leaf) =>
    let ok := match placeOf pa with
      | .sram c => c == sp.cluster
      | .pool n => n / 32 == sp.cluster && s.inScratch n pa && s.inScratch n (pa + (z - a))
      | _ => false
    if ok then some (pa - a % 65536, leaf) else none

/-- The translations of all of a list of granules. -/
def State.bufGranules (s : State) (sp : Space) (lo hi : Nat) : List Nat → Option (List (Nat × Nat × Option Leaf))
  | [] => some []
  | g :: r =>
    match s.bufGranule sp lo hi g with
    | none => none
    | some (pa, leaf) =>
      match State.bufGranules s sp lo hi r with
      | none => none
      | some l => some ((g, pa, leaf) :: l)

/-- The buffer that 32 bytes describe, or none when they break Table 12-9 or R273. -/
def State.bufOf (s : State) (sp : Space) (bs : List Byte) : Option CircBuf :=
  let base := field bs 0 8
  let n := field bs 8 4
  let e := field bs 12 2
  let dir := field bs 14 1
  if base % 64 ≠ 0 ∨ n < 2 ∨ 16777216 < n ∨ e < 4 ∨ 4096 < e ∨ e % 4 ≠ 0 ∨ 1 < dir ∨ field bs 15 17 ≠ 0 then none
  else
    match s.bufGranules sp base (base + n * e) (granules base (n * e)) with
    | none => none
    | some gs =>
      some { base := BitVec.ofNat 64 base, entries := n, esize := e, output := dir == 1
             pages := gs.map (fun p => (p.1, p.2.1))
             leaves := (gs.filterMap (fun p => p.2.2)).eraseDups.map (fun l =>
               ⟨sp.asid, l.base, l.size, BitVec.ofNat 64 l.entry, l.entryAt⟩) }

/-- Buffer ids that an operation names. -/
def OpDesc.ids (d : OpDesc) : List Nat := [d.inBuf, d.in2, d.outBuf].filter (fun i => i != 0xFF)

/-- The operations of a context in a cluster that are not yet completed, with their lease's key. -/
def Ctx.liveOps (x : Ctx) (c : Nat) : List EngineOp :=
  (x.leases.filter (fun p => p.1 / 64 == c)).flatMap (fun p => p.2.ops) ++
    (x.opEnds.filter (fun o => o.cluster == c)).map (fun o => o.op)

/-- Buffer `id` of a context in a cluster; an id above 63, such as the 0xFF of an absent IN2, names none. -/
def State.buf (s : State) (asid c id : Nat) : Option CircBuf :=
  if id < 64 then tfind (s.ctx asid).bufs (bufKey c id) else none

def State.setBuf (s : State) (asid c id : Nat) (b : CircBuf) : State :=
  let x := s.ctx asid
  s.setCtx asid { x with bufs := tput x.bufs (bufKey c id) b }

def execCbdef (d a b : XReg) (s : State) : Out :=
  s.whenReady [d, a, b]
    (let id := (s.cur.getX a).toNat
     let va := s.cur.getX b
     let c := clusterOf s.turn
     let asid := s.cur.asid.toNat
     let x := s.ctx asid
     if 63 < id then s.leaseTrap 4
     else if (s.buf asid c id).isSome && (x.liveOps c).any (fun o => o.desc.ids.contains id) then
       s.finish d (BitVec.ofInt 64 (-1)) 4
     else if va = 0 then
       let s' := s.setCtx asid { x with bufs := tdel x.bufs (bufKey c id) }
       s'.finish d 0 4
     else
       if va.toNat % 32 ≠ 0 then s.trap causeMisalign va
       else
         match s.probe (s.space s.turn) .read va.toNat with
         | .error f => s.trapAccess f
         | .ok r =>
           if s.reachWaits r then .next s
           else
           let s := s.assignPage r.leaf
           let bs := s.load r 32
           let s := s.scalarTouched s.turn va.toNat 32 r true false
           match s.bufOf { s.space s.turn with cluster := c } bs with
           | none => s.finish d (BitVec.ofInt 64 (-2)) 4
           | some v => (s.setBuf asid c id v).finish d 0 4)

/-- A buffer instruction on an id: LEASE code 4 when it is above 63 or unbound. -/
def State.withBuf (s : State) (a : XReg) (act : Nat → CircBuf → Out) : Out :=
  let id := (s.cur.getX a).toNat
  if 63 < id then s.leaseTrap 4
  else
    match s.buf s.cur.asid.toNat (clusterOf s.turn) id with
    | none => s.leaseTrap 4
    | some b => act id b

def execCbadv (a b : XReg) (s : State) : Out :=
  s.whenReady [a, b] (s.fenceVs (s.withBuf a (fun id v =>
    if v.output then s.leaseTrap 7
    else if v.room < (s.cur.getX b).toNat then s.leaseTrap 5
    else
      let s' := s.setBuf s.cur.asid.toNat (clusterOf s.turn) id { v with prod := v.prod + (s.cur.getX b).toNat }
      s'.doneWith s'.cur 4)))

def execCbtake (d a : XReg) (s : State) : Out :=
  s.whenReady [d, a] (s.withBuf a (fun _ v =>
    s.finish d (BitVec.ofNat 64 (if v.output then v.avail else v.room)) 4))

def execCbret (a b : XReg) (s : State) : Out :=
  s.whenReady [a, b] (s.fenceVs (s.withBuf a (fun id v =>
    if !v.output then s.leaseTrap 7
    else if v.avail < (s.cur.getX b).toNat then s.leaseTrap 6
    else
      let s' := s.setBuf s.cur.asid.toNat (clusterOf s.turn) id { v with cons := v.cons + (s.cur.getX b).toNat }
      s'.doneWith s'.cur 4)))

/-! ### Operation descriptors (Tables 12-10, 12-11) -/

def opDescOf (bs : List Byte) : OpDesc :=
  { opcode := field bs 0 1, vfmt := field bs 1 1, flags := field bs 2 1, inBuf := field bs 3 1, in2 := field bs 4 1
    outBuf := field bs 5 1, count := field bs 8 4, param := field bs 12 4, donesig := BitVec.ofNat 64 (field bs 0x10 8)
    record := BitVec.ofNat 64 (field bs 0x18 8), gid := field bs 0x20 2, rank := field bs 0x22 2
    size := field bs 0x24 2, fbase := BitVec.ofNat 64 (field bs 0x28 8), flen := field bs 0x30 4
    fright := field bs 0x34 1 }

/-- Kind of an opcode, when it is one of Table 12-11. -/
def opKind (code : Nat) : Option Nat :=
  if code = 0x01 ∨ code = 0x02 ∨ code = 0x03 then some 0
  else if code = 0x10 ∨ code = 0x11 ∨ code = 0x12 ∨ code = 0x13 then some 1
  else if code = 0x20 ∨ code = 0x21 ∨ code = 0x22 then some 2
  else none

/-- The maximum output count of an operation. -/
def OpDesc.maxOut (d : OpDesc) : Nat :=
  if d.opcode = 0x02 ∨ d.opcode = 0x13 then d.param
  else if d.opcode = 0x21 then d.count / d.size
  else if d.opcode = 0x22 then d.count * d.size
  else d.count

/-- The REDUCE operator of FLAGS. -/
def OpDesc.oper (d : OpDesc) : Nat := bits d.flags 5 4

/-- Whether a value of a REDUCE entry fits ESIZE, or SIFT and SCAN entries have the size of R276. -/
def OpDesc.esizeOk (d : OpDesc) (kind e : Nat) : Bool :=
  if kind = 0 then e == (if bit d.flags 1 then 8 else 4) else if kind = 1 then e == 4 else true

/-- Whether the descriptor breaks Table 12-10 or 12-11 by itself; `bs` are its bytes. -/
def OpDesc.broken (d : OpDesc) (bs : List Byte) : Bool :=
  (opKind d.opcode).isNone || !(d.vfmt == 0 || d.vfmt == 1 || d.vfmt == 10) || bits d.flags 3 2 != 0 ||
    bits d.flags 7 6 != 0 || d.oper == 3 || field bs 6 2 != 0 || d.count == 0 ||
    (if d.opcode = 0x02 then d.param == 0 || decide (d.count < d.param)
     else if d.opcode = 0x13 then d.param == 0 || decide (65536 < d.param)
     else d.param != 0) ||
    d.record.toNat % 32 != 0 ||
    (if d.isReduce then field bs 0x26 2 != 0 || d.size == 0 || decide (4096 < d.size) else field bs 0x20 8 != 0) ||
    decide (3 < d.fright) || field bs 0x35 11 != 0 || (d.opcode == 0x13 && d.vfmt != 10) ||
    (d.opcode == 0x21 && d.count % d.size != 0) || (d.opcode != 0x12 && d.in2 != 0xFF)

/-- Whether EOP answers BADOP for a lease's kind (R277). -/
def State.badOp (s : State) (asid c kind : Nat) (d : OpDesc) (bs : List Byte) : Bool :=
  d.broken bs || opKind d.opcode != some kind || d.donesig.toNat % 8 != 0 ||
    (match s.buf asid c d.inBuf, s.buf asid c d.outBuf with
     | some i, some o =>
       i.output || !o.output || decide (i.entries < d.count) || !d.esizeOk kind i.esize || !d.esizeOk kind o.esize ||
         (d.isReduce && i.esize != o.esize) || decide (o.entries < d.maxOut)
     | _, _ => true) ||
    (d.opcode == 0x12 && (match s.buf asid c d.in2 with
      | some j => j.output || j.esize != 4
      | none => true))

def execEop (d a b : XReg) (s : State) : Out :=
  s.whenReady [d, a, b] (s.withHandle a (fun key => s.fenceVs
    (let va := s.cur.getX b
     let asid := s.cur.asid.toNat
     if va.toNat % 64 ≠ 0 then s.trap causeMisalign va
     else
       match s.probe (s.space s.turn) .read va.toNat with
       | .error f => s.trapAccess f
       | .ok r =>
         if s.reachWaits r then .next s
         else
         let s := s.assignPage r.leaf
         let bs := s.load r 64
         let s := s.scalarTouched s.turn va.toNat 64 r true false
         let l := s.lease asid key
         let q := opDescOf bs
         if l.st = .evicted ∨ l.st = .ended then s.finish d (BitVec.ofInt 64 (-2)) 4
         else if 8 ≤ (s.ctx asid).queued key then s.finish d (BitVec.ofInt 64 (-1)) 4
         else if s.badOp asid (key / 64) l.kind q bs then s.finish d (BitVec.ofInt 64 (-3)) 4
         else
           let x := s.ctx asid
           let o : EngineOp := { seq := l.nextSeq, desc := q, order := x.opOrder, run := s.cur.runId, fixed := s.cur.fixed }
           let x := { x.setLease key { l with ops := l.ops ++ [o], nextSeq := l.nextSeq + 1 } with opOrder := x.opOrder + 1 }
           (s.setCtx asid x).finish d (BitVec.ofNat 64 l.nextSeq) 4)))

/-! ### Firing (R278) -/

/-- Byte ranges with whether they are written. -/
abbrev Spans := List (Nat × Nat × Bool)

/-- The entries from position q on, n of them, as ranges modulo the ring. -/
def CircBuf.span (b : CircBuf) (q n : Nat) (write : Bool) : Spans :=
  let k := q % b.entries
  if b.entries ≤ n then [(b.base.toNat, b.base.toNat + b.entries * b.esize, write)]
  else if k + n ≤ b.entries then [(b.base.toNat + k * b.esize, b.base.toNat + (k + n) * b.esize, write)]
  else
    [(b.base.toNat + k * b.esize, b.base.toNat + b.entries * b.esize, write),
     (b.base.toNat, b.base.toNat + (k + n - b.entries) * b.esize, write)]

/-- An operation's footprint (R278). -/
def State.opFootprint (s : State) (asid c : Nat) (o : EngineOp) : Spans :=
  let d := o.desc
  let one := fun (id i n : Nat) (write : Bool) =>
    match s.buf asid c id with
    | none => []
    | some b => if o.fired then b.span ((o.start.drop i).headD 0) n write else b.span 0 b.entries write
  one d.inBuf 0 d.count false ++ one d.in2 1 d.count false ++ one d.outBuf 2 d.maxOut true ++
    (if d.flen = 0 ∨ d.fright = 0 then [] else [(d.fbase.toNat, d.fbase.toNat + d.flen, bit d.fright 1)])

/-- Whether two footprints overlap with a write on one side. -/
def spansClash (a b : Spans) : Bool :=
  a.any (fun p => b.any (fun q => decide (p.1 < q.2.1) && decide (q.1 < p.2.1) && (p.2.2 || q.2.2)))

/-- The conditions of R278 for the first operation of a lease. -/
def State.canFire (s : State) (asid c : Nat) (l : Lease) (key : Nat) (o : EngineOp) : Bool :=
  let x := s.ctx asid
  let d := o.desc
  l.st == .ready && !o.fired &&
    !x.opEnds.any (fun e => leaseKey e.cluster e.entry == key && e.gen == l.gen) &&
    d.ids.all (fun id => match s.buf asid c id with
      | some b => if b.output then decide (d.maxOut ≤ b.room) else decide (d.count ≤ b.avail)
      | none => false) &&
    !(x.liveOps c).any (fun p => decide (p.order < o.order) && spansClash (s.opFootprint asid c o) (s.opFootprint asid c p))

/-- The first operation of a lease fires when it can. -/
def State.fireOp (s : State) (asid c entry : Nat) : State :=
  let key := leaseKey c entry
  let l := s.lease asid key
  match l.ops with
  | [] => s
  | o :: rest =>
    if s.canFire asid c l key o then
      let at_ := fun (id : Nat) => match s.buf asid c id with
        | some b => if b.output then b.prod else b.cons
        | none => 0
      let o := { o with fired := true, start := [at_ o.desc.inBuf, at_ o.desc.in2, at_ o.desc.outBuf] }
      s.setLease asid key { l with ops := o :: rest }
    else s

def execEngineOpFire (asid c entry : Nat) (s : State) : Out := s.whenCool (s.fireOp asid c entry)

/-! ### Results (R276) -/

/-- The bytes of position q of a buffer, through its fixed translations. -/
def State.bufRead (s : State) (asid : Nat) (b : CircBuf) (q : Nat) : List Byte :=
  (granuleParts (b.addr q) b.esize).flatMap (fun p =>
    match b.pages.find? (fun g => g.1 == p.1 / 65536) with
    | some g => s.load { pa := g.2 + p.1 % 65536, leaf := none, void := s.voidFor asid (g.2 + p.1 % 65536) } p.2
    | none => zeros p.2)

/-- Bytes written from offset `at_` of a buffer's ring on, within it. -/
def State.bufPut (s : State) (asid : Nat) (b : CircBuf) (at_ : Nat) (bs : List Byte) : State :=
  ((granuleParts (b.base.toNat + at_) bs.length).foldl (fun (acc : State × List Byte) p =>
    match b.pages.find? (fun g => g.1 == p.1 / 65536) with
    | some g =>
      let pa := g.2 + p.1 % 65536
      (if acc.1.voidFor asid pa then acc.1 else acc.1.store pa (acc.2.take p.2), acc.2.drop p.2)
    | none => acc) (s, bs)).1

/-- The parts of position q of a buffer. -/
def State.bufPieces (s : State) (asid : Nat) (b : CircBuf) (q : Nat) : List Piece :=
  (granuleParts (b.addr q) b.esize).filterMap (fun p =>
    match b.pages.find? (fun g => g.1 == p.1 / 65536) with
    | some g => some { i := 0, va := p.1, len := p.2
                       reach := { pa := g.2 + p.1 % 65536, leaf := none, void := s.voidFor asid (g.2 + p.1 % 65536) } }
    | none => none)

/-- An operation that reads n entries of a buffer from position q on consumes what is poisoned among them (R390, R375). -/
def State.bufConsume (s : State) (asid g id c q n : Nat) : State :=
  match s.buf asid c id with
  | none => s
  | some b => s.consumeFor asid g ((List.range n).flatMap (fun k => s.bufPieces asid b (q + k)))

/-- The leaves that entries of a buffer use. -/
def CircBuf.usedLeaves (b : CircBuf) (q n : Nat) : List Leaf :=
  (b.leaves.filter (fun t => (b.span q n false).any (fun r => decide (r.1 < t.va + t.size) && decide (t.va < r.2.1)))).map
    (fun t => ⟨t.leaf.toNat, t.leafAt, t.va, t.size⟩)

/-- Pages of entries zeroed on assign before an access, and marked after it (R68, R69). -/
def State.bufAssign (s : State) (b : CircBuf) (q n : Nat) : State :=
  (b.usedLeaves q n).foldl (fun s l => s.assignPage (some l)) s

def State.bufMark (s : State) (asid : Nat) (b : CircBuf) (q n : Nat) (write : Bool) : State :=
  (b.usedLeaves q n).foldl (fun s l => s.markPage asid (some l) write .plain) s

/-- The order of keys as integers: INT32 signed; floating from −∞ up to NaN, the zeroes told apart, all NaNs equal. -/
def sortKey (vfmt v : Nat) : Int :=
  if vfmt = 10 then signed 32 v
  else
    let w := if vfmt = 0 then 32 else 16
    let f := if vfmt = 0 then fp32 else bf16
    let x := v % 2 ^ w
    if (f.value x).isNan then (2 ^ 33 : Nat)
    else if x < 2 ^ (w - 1) then (x : Nat) else -((x - 2 ^ (w - 1) : Nat) : Int) - 1

/-- An entry placed after those that come before it or are equal to it. -/
def insertEntry (desc : Bool) (k : Int) (x : List Byte) : List (Int × List Byte) → List (Int × List Byte)
  | [] => [(k, x)]
  | (j, y) :: r =>
    if (if desc then j < k else k < j) then (k, x) :: (j, y) :: r else (j, y) :: insertEntry desc k x r

/-- A stable sort (R276). -/
def sortEntries (desc : Bool) (xs : List (Int × List Byte)) : List (Int × List Byte) :=
  xs.foldl (fun acc p => insertEntry desc p.1 p.2 acc) []

/-- Each run of equal keys reduced to its first entry. -/
def uniqueEntries : List (Int × List Byte) → Option Int → List (List Byte)
  | [], _ => []
  | (k, x) :: r, last => if last = some k then uniqueEntries r last else x :: uniqueEntries r (some k)

/-- Bytes of a value as an entry holds it: a BF16 value in bytes 0 and 1. -/
def valueBytes (vfmt v : Nat) : List Byte := leBytes 4 (if vfmt = 1 then v % 65536 else v)

/-- The value of an entry's first four bytes. -/
def entryValue (vfmt : Nat) (bs : List Byte) : Nat := field bs 0 (if vfmt = 1 then 2 else 4)

/-- One addition of a SCAN or REDUCE operation, with RNE. -/
def addValue (vfmt a b : Nat) : Nat × Nat :=
  if vfmt = 10 then ((a + b) % 2 ^ 32, 0)
  else if vfmt = 0 then fp32.add 0 (fp32.value a) (fp32.value b)
  else bf16.add 0 (bf16.value a) (bf16.value b)

/-- What a sum starts from: −0, or 0 for INT32. -/
def zeroValue (vfmt : Nat) : Nat := if vfmt = 10 then 0 else if vfmt = 0 then 0x80000000 else 0x8000

/-- Prefix sums with their flags: each value comes with whether the sum restarts at it. An exclusive scan does not use the sum with
its last entry. -/
def scanValues (vfmt : Nat) (exclusive : Bool) : List (Nat × Bool) → Nat → Nat → List Nat × Nat
  | [], _, fl => ([], fl)
  | (x, restart) :: r, acc, fl =>
    let acc := if restart then zeroValue vfmt else acc
    let t := addValue vfmt acc x
    let used := !(exclusive && r.isEmpty)
    let rest := scanValues vfmt exclusive r t.1 (if used then fl ||| t.2 else fl)
    ((if exclusive then acc else t.1) :: rest.1, rest.2)

/-- HIST: the counts and how many indices fell outside. -/
def histCounts (n : Nat) : List Nat → Tab Nat → Nat → Tab Nat × Nat
  | [], t, out => (t, out)
  | x :: r, t, out =>
    if x < n then histCounts n r (tput t x (min (tget t x 0 + 1) (2 ^ 32 - 1))) out
    else histCounts n r t (min (out + 1) (2 ^ 32 - 1))

/-- One elementwise step of a REDUCE operator (R151). Flag bit 6 records a sum that is not finite (R152). -/
def reduceStep (vfmt oper a b : Nat) : Nat × Nat :=
  let f := if vfmt = 1 then bf16 else fp32
  if oper = 0 then
    let r := addValue vfmt a b
    (r.1, r.2 ||| (if vfmt = 10 ∨ (f.value r.1).isFinite then 0 else 64))
  else if vfmt = 10 then
    ((if (signed 32 a < signed 32 b) = (oper = 1) then b else a), 0)
  else f.minmax (oper == 1) a b

/-- One element position over the ranks in ascending order, with NF. -/
def reduceColumn (vfmt oper : Nat) (vs : List Nat) : Nat × Nat :=
  match vs with
  | [] => (0, 0)
  | v :: r =>
    let f := if vfmt = 1 then bf16 else fp32
    let t := r.foldl (fun acc x => let q := reduceStep vfmt oper acc.1 x; (q.1, acc.2 ||| q.2)) (v, 0)
    let nf := bit t.2 6 && vs.all (fun x => (f.value x).isFinite)
    (t.1, t.2 % 64 ||| (if nf then flNF else 0))

/-- Bytes of one value of a format. -/
def valueSize (vfmt : Nat) : Nat := if vfmt = 1 then 2 else 4

/-- The elementwise reduction of the ranks' bytes: the bytes and the flags. -/
def reduceBytes (vfmt oper n : Nat) (ranks : List (List Byte)) : List Byte × Nat :=
  let w := valueSize vfmt
  let cols := (List.range n).map (fun i => reduceColumn vfmt oper (ranks.map (fun bs => field bs (i * w) w)))
  (cols.flatMap (fun c => leBytes w c.1), cols.foldl (fun f c => f ||| c.2) 0)

/-- Bytes cut into entries. -/
def cutEntries (e : Nat) : Nat → List Byte → List (List Byte)
  | 0, _ => []
  | n + 1, bs => bs.take e :: cutEntries e n (bs.drop e)

/-- What an operation produces: its output entries, flags and OUTRANGE. `ranks` are the REDUCE group's inputs. -/
def opResult (d : OpDesc) (esize : Nat) (ins ins2 : List (List Byte)) (ranks : List (List Byte)) :
    List (List Byte) × Nat × Nat :=
  let clean := fun (bs : List Byte) => valueBytes d.vfmt (entryValue d.vfmt bs) ++ bs.drop 4
  let sorted := sortEntries (bit d.flags 0) (ins.map (fun bs => (sortKey d.vfmt (entryValue d.vfmt bs), clean bs)))
  let scan := fun (ex : Bool) (rs : List Bool) =>
    let r := scanValues d.vfmt ex ((ins.map (entryValue d.vfmt)).zip rs) (zeroValue d.vfmt) 0
    (r.1.map (valueBytes d.vfmt), r.2, 0)
  let all := reduceBytes d.vfmt d.oper (d.count * esize / valueSize d.vfmt) ranks
  if d.opcode = 0x01 then (sorted.map (·.2), 0, 0)
  else if d.opcode = 0x02 then ((sorted.take d.param).map (·.2), 0, 0)
  else if d.opcode = 0x03 then (uniqueEntries sorted none, 0, 0)
  else if d.opcode = 0x10 then scan false (ins.map (fun _ => false))
  else if d.opcode = 0x11 then scan true (ins.map (fun _ => false))
  else if d.opcode = 0x12 then scan false (ins2.map (fun bs => field bs 0 4 != 0))
  else if d.opcode = 0x13 then
    let h := histCounts d.param (ins.map (fun bs => field bs 0 4)) [] 0
    ((List.range d.param).map (fun i => leBytes 4 (tget h.1 i 0)), 0, h.2)
  else if d.opcode = 0x20 then (cutEntries esize d.count all.1, all.2, 0)
  else if d.opcode = 0x21 then
    (cutEntries esize (d.count / d.size) (all.1.drop (d.rank * (d.count / d.size) * esize)), all.2, 0)
  else (cutEntries esize (d.count * d.size) ranks.flatten, 0, 0)

/-! ### Completion (R279, R280) -/

/-- The input entries of a fired operation, read from buffer `id` at the i-th start position. -/
def State.opInputs (s : State) (asid c : Nat) (o : EngineOp) (id i : Nat) : List (List Byte) :=
  match s.buf asid c id with
  | none => []
  | some b => (List.range o.desc.count).map (fun k => s.bufRead asid b ((o.start.drop i).headD 0 + k))

/-- The pages of an operation's entries are zeroed on assign, and what is poisoned among its inputs is consumed, before it reads
them (R68, R390). -/
def State.opPrepare (s : State) (asid key : Nat) (o : EngineOp) : State :=
  let c := key / 64
  let d := o.desc
  let start := fun (i : Nat) => (o.start.drop i).headD 0
  let ready := fun (s : State) (id i n : Nat) => match s.buf asid c id with
    | some b => s.bufAssign b (start i) n
    | none => s
  let s := ready (ready (ready s d.inBuf 0 d.count) d.in2 1 d.count) d.outBuf 2 d.maxOut
  (s.bufConsume asid (s.runHart o.run) d.inBuf c (start 0) d.count).bufConsume asid (s.runHart o.run) d.in2 c (start 1) d.count

/-- What an operation produces from its inputs as they stand. -/
def State.opCompute (s : State) (asid key : Nat) (o : EngineOp) (ranks : List (List Byte)) : OpOutput :=
  let c := key / 64
  let esize := match s.buf asid c o.desc.inBuf with
    | some b => b.esize
    | none => 4
  let r := opResult o.desc esize (s.opInputs asid c o o.desc.inBuf 0) (s.opInputs asid c o o.desc.in2 1) ranks
  ⟨r.1.flatten, r.1.length, r.2.1, r.2.2⟩

/-- An operation of a lease replaced. -/
def Lease.setOp (l : Lease) (o : EngineOp) : Lease := { l with ops := l.ops.map (fun p => if p.seq = o.seq then o else p) }

/-- The next write of an operation's output, from its n-th byte on: up to the end of an aligned word of 8 bytes, or of the ring
(R357), in ascending positions, an order that the manual does not give (log entry 111, DESIGN CHOICE). The state and the number of
bytes written then. -/
def State.opWrite (s : State) (asid key : Nat) (o : EngineOp) (data : List Byte) (n : Nat) : State × Nat :=
  match s.buf asid (key / 64) o.desc.outBuf with
  | none => (s, data.length)
  | some b =>
    let ring := b.entries * b.esize
    let at_ := ((o.start.drop 2).headD 0 * b.esize + n) % ring
    let k := min (min (8 - at_ % 8) (ring - at_)) (data.length - n)
    (s.bufPut asid b at_ ((data.drop n).take k), n + k)

/-- All the writes of an operation's output that remain, at most `fuel` of them. -/
def State.opWrites (s : State) (asid key : Nat) (o : EngineOp) (data : List Byte) : (n fuel : Nat) → State
  | _, 0 => s
  | n, fuel + 1 =>
    if data.length ≤ n then s
    else
      let r := s.opWrite asid key o data n
      State.opWrites r.1 asid key o data r.2 fuel

/-- The buffer effects of an operation that is done: the rest of its output written from PROD on, CONS and PROD advanced, the
operation moved to its completion actions. -/
def State.opFinish (s : State) (asid key : Nat) (o : EngineOp) (ranks : List (List Byte)) : State :=
  let c := key / 64
  let d := o.desc
  let start := fun (i : Nat) => (o.start.drop i).headD 0
  let r := match o.output with
    | some r => r
    | none => s.opCompute asid key o ranks
  let s := s.opWrites asid key o r.data o.written (r.data.length + 1)
  let took := fun (s : State) (id i : Nat) => match s.buf asid c id with
    | none => s
    | some b => (s.setBuf asid c id { b with cons := b.cons + d.count }).bufMark asid b (start i) d.count false
  let s := took (if d.in2 = d.inBuf then s else took s d.in2 1) d.inBuf 0
  let s := match s.buf asid c d.outBuf with
    | none => s
    | some b => (s.setBuf asid c d.outBuf { b with prod := b.prod + r.count }).bufMark asid b (start 2) r.count true
  let x := s.ctx asid
  let l := x.lease key
  s.setCtx asid { x.setLease key { l with ops := l.ops.filter (fun p => p.seq != o.seq) } with
    opEnds := x.opEnds ++ [{ cluster := c, entry := key % 64, gen := l.gen, op := o, status := 1, flags := r.flags
                             out := r.count, outRange := r.outRange }] }

/-- The fired members of a REDUCE group in a context, with their leases' keys. -/
def Ctx.reduceMembers (x : Ctx) (gid : Nat) : List (Nat × EngineOp) :=
  x.leases.flatMap (fun p => (p.2.ops.filter (fun o => o.fired && o.desc.isReduce && o.desc.gid == gid)).map (fun o => (p.1, o)))

/-- Whether a group must fail (R299): not registered, a rank out of range or twice, members that disagree, a rank lost. -/
def State.groupBroken (s : State) (asid gid : Nat) : Bool :=
  let ms := (s.ctx asid).reduceMembers gid
  let ps := s.peerRanks gid
  let ranks := ms.map (fun m => m.2.desc.rank) ++ ps.map (fun r => r.rank)
  let asks := ms.map (fun m => (m.2.desc.opcode, m.2.desc.vfmt, m.2.desc.oper, m.2.desc.count)) ++
    ps.map (fun r => (r.opcode, r.vfmt, r.oper, r.count))
  let sizes := ms.map (fun m => m.2.desc.size) ++ ((s.ctx asid).members.filter (fun m => m.gid == gid)).map (fun m => m.size)
  !(s.ctx asid).members.any (fun m => m.gid == gid) || sizes.any (fun n => ranks.any (fun r => decide (n ≤ r))) ||
    ranks.eraseDups.length != ranks.length || decide (1 < asks.eraseDups.length) || ps.any (fun r => r.lost)

/-- The inputs of a group's ranks in order, once all of them have fired. -/
def State.groupInputs (s : State) (asid gid size : Nat) : Option (List (List Byte)) :=
  let ms := (s.ctx asid).reduceMembers gid
  let ps := s.peerRanks gid
  (List.range size).foldr (fun r acc =>
    match acc with
    | none => none
    | some l =>
      match ms.find? (fun m => m.2.desc.rank == r) with
      | some m => some ((s.opInputs asid (m.1 / 64) m.2 m.2.desc.inBuf 0).flatten :: l)
      | none =>
        match ps.find? (fun p => p.rank == r) with
        | some p => some (p.data :: l)
        | none => none) (some [])

/-- The local members of a group ready to be read. -/
def State.groupPrepare (s : State) (asid gid : Nat) : State :=
  ((s.ctx asid).reduceMembers gid).foldl (fun s m => if m.2.told then s else s.opPrepare asid m.1 m.2) s

/-- The local members of a group that the peers have not had yet send them what they ask for and their entries, once every peer of
the group can be reached (R299). -/
def State.groupTell (s : State) (asid gid : Nat) : State :=
  if (s.groupPeers gid).isEmpty || !(s.groupPeers gid).all (fun p => s.peerReachable p.pos) then s
  else
    let s := s.groupPrepare asid gid
    (((s.ctx asid).reduceMembers gid).filter (fun m => !m.2.told)).foldl (fun s m =>
      let d := m.2.desc
      let data := (s.opInputs asid (m.1 / 64) m.2 d.inBuf 0).flatten
      let s := s.tellGroup gid (fun pos => .reduceRank pos gid d.rank d.opcode d.vfmt d.oper d.count data)
      s.setLease asid m.1 ((s.lease asid m.1).setOp { m.2 with told := true })) s

/-- A REDUCE group completes on this device: every local member at once. -/
def State.groupFinish (s : State) (asid gid : Nat) (ranks : List (List Byte)) : State :=
  ((s.ctx asid).reduceMembers gid).foldl (fun s m => s.opFinish asid m.1 m.2 ranks) (s.dropRanks gid)

/-- The first operation of a lease, if it has fired. -/
def Lease.firing (l : Lease) : Option EngineOp := (l.ops.head?).filter (fun o => o.fired)

/-- The first operation of a lease takes effect on its buffers, if it has fired (R279, R299). -/
def State.opEffect (s : State) (asid c entry : Nat) : State :=
  let key := leaseKey c entry
  match (s.lease asid key).firing with
  | none => s
  | some o =>
    if o.desc.isReduce then
      let gid := o.desc.gid
      if s.groupBroken asid gid then s.failGroup asid gid
      else
        let s := s.groupTell asid gid
        if (s.groupInputs asid gid o.desc.size).isNone then s
        else
          let s := s.groupPrepare asid gid
          match s.groupInputs asid gid o.desc.size with
          | some ranks => s.groupFinish asid gid ranks
          | none => s
    else (s.opPrepare asid key o).opFinish asid key o []

/-- One write of the output of a lease's first operation ahead of its completion, of which an observer may see the words one by
one (R357, R366). -/
def State.engineWrite (s : State) (asid c entry : Nat) : State :=
  let key := leaseKey c entry
  if s.thermal != .normal then s
  else match (s.lease asid key).firing with
  | none => s
  | some o =>
    let gid := o.desc.gid
    if o.desc.isReduce && (s.groupBroken asid gid || (s.groupInputs asid gid o.desc.size).isNone) then s
    else
      let s := if o.desc.isReduce then s.groupPrepare asid gid else s.opPrepare asid key o
      let ranks := if o.desc.isReduce then (s.groupInputs asid gid o.desc.size).getD [] else []
      let out := match o.output with
        | some r => r
        | none => s.opCompute asid key o ranks
      if out.data.length ≤ o.written then s
      else
        let r := s.opWrite asid key o out.data o.written
        r.1.setLease asid key ((r.1.lease asid key).setOp { o with output := some out, written := r.2 })

/-- The 32 bytes of an operation record (Table 12-12). -/
def recordBytes (e : OpEnd) : List Byte :=
  leBytes 1 e.status ++ leBytes 1 (e.flags % 64) ++ zeros 2 ++ leBytes 4 e.out ++
    leBytes 4 (if e.status = 1 then e.op.desc.count else 0) ++ leBytes 4 e.outRange ++ leBytes 8 e.op.seq ++ zeros 8

/-- The space of an operation's completion actions. -/
def State.opSpace (s : State) (asid c : Nat) (fixed : Bool) : Space :=
  { asid := asid, root := (s.ctx asid).root.toNat, core := none, cluster := c, fixed := fixed }

/-- The next completion action of an ended operation: its record, then its decrement. -/
def State.opAct (s : State) (asid : Nat) (e : OpEnd) : Except AFault State :=
  let sp := s.opSpace asid e.cluster e.op.fixed
  let d := e.op.desc
  if e.acts = 0 then
    if d.record = 0 then .ok s
    else
      match s.unitPieces sp .write d.record.toNat 32 with
      | .error f => .error f
      | .ok ps =>
        let s := ((s.assignAll ps).consumeFor asid (s.runHart e.op.run) ps false).storePieces ps (recordBytes e)
        .ok (((s.unpoison ps).markAll asid ps true .plain).jobTouched ps true (!sp.fixed))
  else if d.donesig = 0 then .ok s
  else s.sigAction sp (s.runHart e.op.run) d.donesig.toNat

/-- An ended operation replaced, or removed. -/
def Ctx.updateEnd (x : Ctx) (e : OpEnd) (f : Option OpEnd) : Ctx :=
  { x with opEnds := x.opEnds.filterMap (fun o => if o.op.order = e.op.order then f else some o) }

/-- The completion actions of an ended operation as far as they go; DONE counts when all are made (Table 12-8). -/
def State.opActions (s : State) (asid : Nat) (supply : PageSupply) (e : OpEnd) : Nat → State
  | 0 => s
  | n + 1 =>
    match s.withSupply (s.ctx asid).root.toNat supply (fun s => s.opAct asid e) with
    | .waits s => s
    | .fails f s =>
      (s.setCtx asid ((s.ctx asid).updateEnd e none)).actionFailed asid (some (s.runHart e.op.run)) f
    | .done s =>
      if e.acts = 0 then
        let e' := { e with acts := 1 }
        State.opActions (s.setCtx asid ((s.ctx asid).updateEnd e (some e'))) asid supply e' n
      else
        let x := (s.ctx asid).updateEnd e none
        let key := leaseKey e.cluster e.entry
        let l := x.lease key
        s.setCtx asid (if e.status = 1 ∧ l.gen = e.gen then x.setLease key { l with done := l.done + 1 } else x)

/-- The oldest ended operation of a lease entry makes its completion actions. -/
def State.opSettle (s : State) (asid c entry : Nat) (supply : PageSupply) : State :=
  match (s.ctx asid).opEnds.find? (fun e => e.cluster == c && e.entry == entry) with
  | none => s
  | some e => s.opActions asid supply e 2

/-- An operation completes (R280): one that has ended makes its actions; otherwise the first of the lease takes effect and
makes them. -/
def execEngineOpComplete (asid c entry : Nat) (supply : PageSupply) (s : State) : Out :=
  s.whenCool (if (s.ctx asid).opEnds.any (fun e => e.cluster == c && e.entry == entry) then s.opSettle asid c entry supply
    else (s.opEffect asid c entry).opSettle asid c entry supply)

end Sys2Proof.Machine
end

