-- ==== Sys2Proof/Machine/Gangs.lean ====
section
/-! DEFINITION. Gangs on their cores (R324, R338, R345): what a hart's end, a pre-emption (R381, R384, Table 17-9) and the
end of a context (R377, Table 17-3) do. -/

namespace Sys2Proof.Machine

open Sys2Proof

/-! ### Launch descriptors (Table 15-5) -/

def shapeCores (d : List Byte) : Nat := field d 0x14 1
def shapeHarts (d : List Byte) : Nat := field d 0x15 1
def shapeLanes (d : List Byte) (i : Nat) : Nat := field d (0x16 + i) 1
def shapeCheck (d : List Byte) : Nat := field d 0x1B 1
def shapeFlags (d : List Byte) : Nat := field d 0x1C 2

/-- The descriptor that shapes a gang of a task. -/
def Task.shapeOf (t : Task) (stage : Option Nat) : List Byte :=
  match stage with
  | none => t.pkt
  | some k => match t.stages[k]? with
    | some x => x.shape
    | none => []

/-! ### The gang of a hart -/

/-- Whether hart g still runs for a gang of a task. -/
def State.onGang (s : State) (t : Task) (x : Gang) (g : Nat) : Bool :=
  (s.hart g).task == some (t.order, x.placedAt) && (s.hart g).placed

/-- The task and the gang that hart g was placed for. -/
def State.gangOf (s : State) (g : Nat) : Option (Task × Gang) :=
  match (s.hart g).task with
  | none => none
  | some (o, p) =>
    match s.tasks.find? (fun t => t.order == o) with
    | none => none
    | some t =>
      match t.gangs.find? (fun x => x.placedAt == p) with
      | none => none
      | some x => some (t, x)

/-- A gang of a task replaced. -/
def Task.setGang (t : Task) (x : Gang) : Task :=
  { t with gangs := t.gangs.map (fun y => if y.placedAt = x.placedAt then x else y) }

/-- A task without one of its gangs. -/
def Task.dropGang (t : Task) (x : Gang) : Task :=
  { t with gangs := t.gangs.filter (fun y => y.placedAt != x.placedAt) }

/-- A hart leaves its core, its shadow with it (R388); TRAPVEC is the hart's own. -/
def State.vacate (s : State) (g : Nat) (run : HartRun) : State :=
  let s := s.setHart g { s.hart g with run := run, yielding := none, codeFar := [] }
  if (s.hart (g + 4)).run = .shadow ∧ coreOf g % 2 = 0 then s.setHart (g + 4) { trapvec := (s.hart (g + 4)).trapvec }
  else s

/-! ### The end of a gang (R338, R352, R353) -/

/-- One more gang of stage k is offered; a stage that had none to offer becomes ready now (R341). -/
def Task.wantGang (t : Task) (k now : Nat) : Task :=
  match t.stages[k]? with
  | some y => t.setStage k { y with wanted := y.wanted + 1, readyAt := if t.stageOffers k then y.readyAt else now }
  | none => t

/-- A gang has ended: the packets it took count as finished, a withdrawn gang makes room for a gang of the gainer, and
the stages behind it may close. -/
def Task.endGang (t : Task) (x : Gang) (now : Nat) : Task :=
  let t := t.dropGang x
  (match x.withdrawn with
   | some k => t.wantGang k now
   | none => t).settle

/-- The copies of a run that has ended have no status to read: those that have landed are forgotten (R101). -/
def State.forgetRun (s : State) (run : Nat) : State :=
  { s with copies := s.copies.filter (fun (p : Nat × Copy) => !(p.2.task.isNone && p.2.runId == run && p.2.landed)) }

/-- Whether a run has copies that have not landed. -/
def State.runFlies (s : State) (run : Nat) : Bool := s.copies.any (fun p => p.2.task.isNone && p.2.runId == run && !p.2.landed)

/-- A run that ends with copies in flight stays known to its core, on which their tag stands (R100, R324). -/
def State.leaveRun (s : State) (g run : Nat) (gang : Option (Nat × Nat)) : State :=
  match gang with
  | none => s
  | some k =>
    let c := s.core (coreOf g)
    if s.runFlies run then
      s.setCore (coreOf g) { c with endedRuns := (c.endedRuns.filter (fun r => s.runFlies r.1)) ++ [(run, k)] }
    else s

/-- HALT at PL0 (R324): the hart ends, and with the last of its harts the gang. -/
def State.hartEnds (s : State) (g : Nat) : State :=
  let found := s.gangOf g
  let run := (s.hart g).runId
  let s := ((s.vacate g .halted).forgetRun run).leaveRun g run (s.hart g).task
  let s := s.setHart g { s.hart g with task := none, runId := 0 }
  match found with
  | none => s
  | some (t, x) => if x.harts.any (fun k => s.onGang t x k) then s else s.setTask (t.endGang x s.timer)

/-! ### A context off its cores (R63, R267, R381) -/

/-- Whether some gang of a context is placed. -/
def State.onCores (s : State) (asid : Nat) : Bool := s.tasks.any (fun t => t.asid == asid && !t.gangs.isEmpty)

/-- A lease that is not ENDED becomes EVICTED with reason 3. -/
def State.evictForPreempt (s : State) (asid key : Nat) : State :=
  let l := s.lease asid key
  if !l.live || l.st == .ended then s
  else
    let c := key / 64
    let x := s.cluster c
    let s := s.setCluster c (x.setQueue l.kind ((x.queueOf l.kind).filter (fun w => !(w.asid == asid && w.entry == key % 64))))
    match (s.cluster c).holders.find? (fun p => p.2.1 == asid && p.2.2 == key % 64) with
    | some (n, _, _) => s.evict c n asid (key % 64) 3
    | none =>
      (s.setLease asid key { l with st := .evicted, reason := 3, engine := 0 }).dropOps asid key 2

/-- What a pre-emption does to the holds and leases of a context that has no gang left on cores. -/
def State.contextOff (s : State) (asid : Nat) : State :=
  if s.onCores asid then s
  else
    let s := if (s.ctx asid).holdkeep then s else s.dropHolds (fun _ a _ => a == asid)
    ((s.ctx asid).leases.map (·.1)).foldl (fun s k => s.evictForPreempt asid k) s

/-! ### The save (R384, Table 17-9) -/

/-- Base of core n's pool window. -/
def poolAt (n : Nat) : Nat := Config.poolBase + n * Config.poolBytes

/-- The bytes of memory in a range, by offset. -/
def State.cellsIn (s : State) (a n : Nat) : List Host.Cell :=
  (s.mem.filter (fun c => decide (a ≤ c.1) && decide (c.1 < a + n))).map (fun c => (c.1 - a, c.2))

/-- What a save keeps of core n: the ARRIVE bits of the gang's own tags, the boundaries and the scratchpad. -/
def State.saveCore (s : State) (t : Task) (x : Gang) (n : Nat) : SavedCore :=
  let c := s.core n
  let own := (x.harts.filter (fun g => coreOf g == n && (s.hart g).task == some (t.order, x.placedAt))).foldl
    (fun w g => w ||| (s.hart g).tagown) 0
  { arrive := c.arrive &&& own, endedRuns := (c.endedRuns.filter (fun r => r.2 == (t.order, x.placedAt))).map (fun r => r.1)
    vrb := c.vrb, spb := c.spb, ccb := c.ccb
    scratch := s.cellsIn (poolAt n + c.vrb * 65536) ((c.spb - c.vrb) * 65536) }

/-- What a save keeps of hart g: all but what its stream registers hold ready, which is discarded (R381), and nothing of a hart
that has ended and may since serve another gang. -/
def State.saveHart (s : State) (t : Task) (x : Gang) (g : Nat) : Hart :=
  let h := s.hart g
  if h.task = some (t.order, x.placedAt) then
    { h with ibuf := [], streams := h.streams.map (fun q => (q.1, { q.2 with ahead := [], prefetched := 0 })) }
  else {}

/-- The task once a gang of it waits to be placed again: what had no gang to offer becomes ready now (R341, R344). -/
def Task.regains (t : Task) (v : SavedGang) (now : Nat) : Task :=
  let u := { t with saved := t.saved ++ [v] }
  match v.gang.stage with
  | none => { u with readyAt := if t.offers then t.readyAt else now }
  | some k => match t.stages[k]? with
    | some y => u.setStage k { y with readyAt := if t.stageOffers k then y.readyAt else now }
    | none => u

/-- Core n without the ended runs of a gang that leaves it. -/
def State.dropRuns (s : State) (t : Task) (x : Gang) (n : Nat) : State :=
  let c := s.core n
  if c.endedRuns.isEmpty then s else s.setCore n { c with endedRuns := c.endedRuns.filter (fun r => r.2 != (t.order, x.placedAt)) }

/-- What a save keeps of a core pair: the B slots, the pass counter and the millrace record. A declaration that runs on there
belongs to another gang (R381). -/
def State.savePair (s : State) (p : Nat) : Pair :=
  let v := s.pair p
  { v with admitted := [], loads := [], mill := if v.mill.ended then v.mill else {} }

/-- The save of a gang whose harts have all come to rest in PL1, and the cores they leave, the array included (R238, R381). A hart
of the gang that had ended is not saved. -/
def State.saveGang (s : State) (t : Task) (x : Gang) : State :=
  let mine := x.harts.filter (fun g => (s.hart g).task == some (t.order, x.placedAt))
  let sv : SavedGang :=
    { gang := x, cluster := clusterOf (x.harts.headD 0), harts := x.harts.map (fun g => s.saveHart t x g)
      images := x.harts.map (fun g => readBytes s.mem (s.imageAt g) 8192)
      cores := x.cores.map (fun n => s.saveCore t x n)
      pairs := (x.cores.map (fun n => n / 2)).eraseDups.map (fun p => s.savePair p) }
  let s := x.cores.foldl (fun s n => (s.dcacheCleanCore n).dropRuns t x n) s
  let s := mine.foldl (fun s g => ((s.releaseArray g).vacate g .idle).setHart g { trapvec := (s.hart g).trapvec }) s
  (s.setTask ((t.dropGang x).regains sv s.timer)).contextOff t.asid

/-! ### Pre-emption (R371, R373, R381, R383) -/

/-- Whether a declaration was issued by a hart of a gang (R381). -/
def Mill.issuedBy (m : Mill) (t : Task) (x : Gang) : Bool := m.gang == some (t.order, x.placedAt)

/-- Pairs of a gang whose declaration has not ended and ends with the gang's pre-emption: one that a hart of the gang issued, ended
since or not, and one of another gang of the context, unless its own launch keeps it from pre-emption (R250, R381). -/
def State.gangMills (s : State) (t : Task) (x : Gang) : List Nat :=
  ((x.cores.map (fun n => n / 2)).eraseDups).filter (fun p =>
    let m := s.mill p
    !m.ended && m.asid == t.asid && (m.issuedBy t x || !m.keeps))

/-- Whether the budget of a hart has run out: its trap is due, or has been entered (R382). -/
def Hart.spent (h : Hart) : Bool := h.budgetDue || (h.level == .pl1 && h.trapcause.toNat == causeBudget)

/-- Whether the budget of the hart that issued a declaration has run out, while it is of that gang still. -/
def State.millSpent (s : State) (m : Mill) : Bool := (s.hart m.hart).task == m.gang && (s.hart m.hart).spent

/-- Whether a running declaration under the non-preemptible flag holds the gang on its cores: it does until it has ended or the
budget of its hart has run out (R250, R381). -/
def State.millHolds (s : State) (t : Task) (x : Gang) : Bool :=
  (s.gangMills t x).any (fun p =>
    let m := s.mill p
    m.issuedBy t x && m.keeps && m.status == 1 && !s.millSpent m)

/-- Whether a pre-empted gang's save is complete: its harts have come to rest, and its declarations have ended. -/
def State.atRest (s : State) (t : Task) (x : Gang) : Bool :=
  x.preempted && !x.harts.any (fun k => s.onGang t x k) && (s.gangMills t x).isEmpty

/-- HALT at PL1 (R324): the hart is idle; when it is the last hart of a pre-empted gang to come to rest, the gang's save is
complete. -/
def State.hartRests (s : State) (g : Nat) : State :=
  let s := s.setHart g { s.hart g with run := .idle }
  match s.gangOf g with
  | none => s
  | some (t, x) => if s.atRest t x then s.saveGang t x else s

/-- Pre-empted gangs with a core on pair p whose saves are complete. -/
def State.resting (s : State) (p : Nat) : List (Task × Gang) :=
  s.tasks.flatMap (fun t => (t.gangs.filter (fun x => x.cores.any (fun n => n / 2 == p) && s.atRest t x)).map (fun x => (t, x)))

/-- A declaration that has closed and is drained ends (R249), with what the dispatcher does about a page that its end signal
misses; a pre-empted gang that has waited for it alone is saved. -/
def execMillraceEnd (p : Nat) (supply : PageSupply) (s : State) : Out :=
  if s.islandStopped p then .next s
  else
    let s := s.millEnd p supply
    .next ((s.resting p).foldl (fun s q => match s.task q.1.id with
      | some t => s.saveGang t q.2
      | none => s) s)

/-- A pre-emption reaches hart g: it enters PL1 at its boundary; at PL1 it waits for ERET (R373). -/
def State.requestHart (s : State) (g : Nat) : Out :=
  let s := s.setHart g { s.hart g with preemptDue := true }
  match s.boundary g with
  | some o => o
  | none => .next s

/-- The Confluence stops every hart of a gang (R381). A declaration whose end signal misses a page ends once the dispatcher has
supplied it (R440), and the gang's save follows that. The gang waits for a live update to end (R416), and for the clocks of its islands
(R398, R399). -/
def State.preemptGang (s : State) (t : Task) (x : Gang) : Out :=
  if x.preempted || s.millHolds t x || s.trust.updating.isSome || x.cores.any (fun n => s.islandStopped (n / 2)) then .next s
  else
    let mills := s.gangMills t x
    let s := s.setTask (t.setGang { x with preempted := true })
    let s := mills.foldl (fun s p => s.millPreempt p) s
    (x.harts.filter (fun g => s.onGang t x g && (s.hart g).run == .running)).foldl
      (fun o g => Out.andThen o (fun s => s.requestHart g)) (.next s)

/-- A pre-emption of the gang that stands k-th among a task's gangs. -/
def execPreemptionRequest (task gang : Nat) (s : State) : Out :=
  if s.thermal != .normal then .next s
  else
    match s.task task with
    | none => .next s
    | some t =>
      match t.gangs[gang]? with
      | none => .next s
      | some x => s.preemptGang t x

/-! ### The end of a context (R377) -/

/-- Step 1: a hart of the context stops, without an image. What it has committed takes effect. -/
def State.stopHart (s : State) (g : Nat) : State :=
  let s := (((s.performLate g).returnGrants g).releaseArray g)
  let c := s.core (coreOf g)
  (s.setCore (coreOf g) { c with laneQ := c.laneQ.filter (fun k => k != g) }).setHart g
    { trapvec := (s.hart g).trapvec }

/-- The harts of a context, on cores or at rest in PL1. -/
def State.hartsOfCtx (s : State) (asid : Nat) : List Nat :=
  (s.harts.filter (fun p => p.2.asid.toNat == asid && (p.2.placed || p.2.task.isSome))).map (·.1)

/-- Step 4: leases, buffers, holds and the lost set go. -/
def State.releaseAll (s : State) (asid : Nat) : State :=
  let x := s.ctx asid
  let s := ((x.leases.filter (fun p => p.2.live)).map (·.1)).foldl (fun s k => s.freeLease asid k 3) s
  let s := s.setCtx asid { s.ctx asid with opEnds := [], bufs := [] }
  (s.heldKeys (fun _ a _ => a == asid)).foldl (fun s k => s.holdFree asid k) s

/-- Step 5: an allocation unit of 64 KiB of a cluster's SRAM is zeroed and free (R116). -/
def State.freeUnit (s : State) (u : Nat × Nat) : State :=
  s.erase (Config.sramBase + u.1 * Config.sramBytes + u.2 * 65536) 65536

/-- Marks an owner that is a context no longer: no ASID reaches it. -/
def goneOwner : Nat := 65536

/-- The cores, pairs and cached translations of a context that is gone. -/
def State.disown (s : State) (asid : Nat) : State :=
  { s with
    cores := s.cores.map (fun p => (p.1, { p.2 with
      owner := if p.2.owner = some asid then some goneOwner else p.2.owner
      tlb := p.2.tlb.filter (fun e => e.asid != asid) }))
    pairs := s.pairs.map (fun p => (p.1, { p.2 with owner := if p.2.owner = some asid then some goneOwner else p.2.owner })) }

/-- The end record (Table 17-3). -/
def endRecord (e : EndEvent) (time : Nat) : List Byte :=
  leBytes 1 e.cause ++ leBytes 1 ((if e.imprecise then 1 else 0) + (if e.more then 2 else 0)) ++ leBytes 2 e.hart ++
    leBytes 4 e.eidx ++ leBytes 8 e.task ++ leBytes 8 e.pc.toNat ++ leBytes 8 e.addr.toNat ++ leBytes 8 e.info.toNat ++
    leBytes 8 e.page.toNat ++ leBytes 8 time ++ zeros 8

/-- The event of END_CONTEXT. -/
def endRequest : EndEvent :=
  { cause := 0, imprecise := false, more := false, hart := 0xFFFF, eidx := 0, task := 0, pc := 0, addr := 0, info := 0
    page := 0 }

/-- Firmware ends a context (R377): the seven steps in order, then the ASID is free with all that was the context's. -/
def State.endContext (s : State) (asid : Nat) : State :=
  let s := (s.hartsOfCtx asid).foldl (fun s g => s.stopHart g) s
  let mills := (s.pairs.filter (fun p => p.2.mill.asid == asid && !p.2.mill.ended)).map (·.1)
  let s := mills.foldl (fun s p => s.millAbandon p) s
  let s := { s with copies := s.copies.filter (fun p => p.2.asid != asid) }
  let s := s.releaseAll asid
  let s := (s.ctx asid).sram.foldl (fun s u => s.freeUnit u) s
  let gone := (s.tasks.filter (fun t => t.asid == asid)).map (fun t => t.order)
  let s := { s with
    tasks := s.tasks.filter (fun t => t.asid != asid)
    mirrors := s.mirrors.filter (fun m => match m.task with
      | some o => !gone.contains o
      | none => true)
    reserved := match s.reserved with
      | some r => if gone.contains r.task then none else some r
      | none => none
    regions := s.regions.filter (fun r => r.2.asid != asid) }
  let s := (s.queues.filter (fun q => q.2.asid == asid && q.2.asked)).foldl (fun s _ => s.emit (.status 0 0)) s
  let s := { s with queues := s.queues.filter (fun q => q.2.asid != asid) }
  let s := (s.incoming.filter (fun x => x.asid == asid)).foldl (fun s x => s.emit (.rdmaAccessError x.qp)) s
  let s := { s with incoming := s.incoming.filter (fun x => x.asid != asid) }
  let x := s.ctx asid
  let s := s.store x.endRec (endRecord (x.ending.getD endRequest) s.time)
  (s.disown asid).setCtx asid {}

/-- A context with a context-ending event is ended (R374, R377). -/
def execContextEnd (asid : Nat) (s : State) : Out :=
  s.whenCool (if (s.ctx asid).live && (s.ctx asid).ending.isSome then s.endContext asid else s)

end Sys2Proof.Machine
end

