-- ==== Sys2Proof/Machine/Packets.lean ====
section
/-! DEFINITION. Packets (R330, R331, R334, R347) with the checks that need no memory, LAUNCH (R340), and the packet
instructions of cascades (R349, R350). -/

namespace Sys2Proof.Machine

open Sys2Proof

/-! ### The launch descriptor (Table 15-5) -/

/-- The pool boundaries that a descriptor asks for, in units of 64 KiB, or nothing when it breaks R112 or R113. -/
def shapeBounds (d : List Byte) : Option (Nat × Nat × Nat) :=
  let v := field d 0x20 4
  let s := field d 0x24 4
  let c := field d 0x28 4
  let fixed := bit (shapeFlags d) 0
  if v = 0 ∧ s = 0 ∧ c = 0 then some (32, 48, if fixed then 48 else 56)
  else if v % 65536 = 0 ∧ s % 65536 = 0 ∧ c % 65536 = 0 ∧ v ≤ s ∧ s ≤ c ∧ c ≤ 0x400000 ∧
      0x40000 ≤ v ∧ v ≤ 0x300000 ∧ s - v ≤ 0x300000 ∧ c - s ≤ 0x280000 ∧
      0x20000 ≤ 0x400000 - c ∧ 0x400000 - c ≤ 0x100000 ∧ (fixed → c = s) then
    some (v / 65536, s / 65536, c / 65536)
  else none

/-- Sum of the four bytes of a tag division (R102). -/
def divisionSum (d : Nat) : Nat := bits d 7 0 + bits d 15 8 + bits d 23 16 + bits d 31 24

/-- The tag division in force for a field: 0 stands for 16 tags each (R102). -/
def divisionOf (d : Nat) : Nat := if d = 0 then 0x10101010 else d

/-- The lane shares of harts 0 to 3 keep R331. -/
def lanesOk (d : List Byte) : Bool :=
  (List.range 4).all (fun i => decide (shapeLanes d i ≤ 16) && (decide (i < shapeHarts d) || shapeLanes d i == 0)) &&
    decide (shapeLanes d 0 + shapeLanes d 1 + shapeLanes d 2 + shapeLanes d 3 ≤ 16)

/-- The first reason whose test holds. -/
def firstReason : List (Bool × Nat) → Option Nat
  | [] => none
  | (b, r) :: rest => if b then some r else firstReason rest

/-- The reason that a launch descriptor is refused with, by the lowest offset (R331). For a cascade stage's shape the
fields Gangs, Done, Deps and Footprint are ignored (R347). `work` is the most cores that a cluster has working (R397). A Handler that is no
multiple of 4 breaks its field (log entry 114, DESIGN CHOICE). -/
def launchReason (x : Ctx) (work : Nat) (d : List Byte) (stage : Bool) : Option Nat :=
  let check := field d 0x1B 1
  let flags := shapeFlags d
  firstReason
    [(field d 0 8 % 4 != 0, 1),
     (!stage && field d 0x10 4 == 0, 9),
     (shapeCores d == 0 || decide ((if check = 2 then 16 else 32) < shapeCores d) ||
       decide (work < shapeCores d), 4),
     (shapeHarts d == 0 || decide (4 < shapeHarts d), 5),
     (!lanesOk d, 6),
     (decide (7 < field d 0x1A 1), 8),
     (decide (2 < check) || decide (check < x.minCheck), 7),
     (decide (16 ≤ flags), 1),
     (bit flags 0 && !x.fixed, 15),
     ((shapeBounds d).isNone, 2),
     (decide (64 < divisionSum (field d 0x2C 4)), 3),
     (field d 0x30 8 == 0 && bit flags 2, 10),
     (!stage && field d 0x38 8 % 8 != 0, 1),
     (field d 0x46 2 != 0, 1),
     (!stage && field d 0x48 8 % 128 != 0, 11),
     (field d 0x50 8 % 4 != 0, 1),
     (!zeroIn d 0x58 0x7C, 1),
     (field d 0x7C 4 != 0, 1)]

/-! ### Packets of every type -/

/-- TYPE of a packet (R330). -/
def packetType (p : List Byte) : Nat := field p 0x7C 4

/-- A copy packet keeps R330 and R334: descriptors aligned as R72 says, DONE a multiple of 8, no card. -/
def copyPacketOk (p : List Byte) : Bool :=
  field p 0 8 % 64 == 0 && field p 8 8 % 64 == 0 && field p 0x38 8 % 8 == 0 && field p 0x48 8 == 0

/-- A wait packet keeps R330 and R334. -/
def waitPacketOk (p : List Byte) : Bool := field p 0 8 % 8 == 0 && field p 0x38 8 % 8 == 0 && field p 0x48 8 == 0

/-- A cascade packet keeps Table 15-9, but for its stage table. -/
def cascadePacketOk (p : List Byte) : Bool :=
  field p 0 8 % 64 == 0 && decide (1 ≤ field p 8 1) && decide (field p 8 1 ≤ 16) && zeroIn p 9 0x38 &&
    field p 0x38 8 % 8 == 0

/-- The reason a packet is refused with, as far as it shows without memory (R332, R340). -/
def packetReason (x : Ctx) (work : Nat) (p : List Byte) : Option Nat :=
  match packetType p with
  | 0 => launchReason x work p false
  | 1 => if copyPacketOk p then none else some 12
  | 2 => if waitPacketOk p then none else some 13
  | 3 => if !cascadePacketOk p then some 12 else if field p 0x48 8 % 128 ≠ 0 then some 11 else none
  | _ => some 1

/-! ### LAUNCH (R340) -/

/-- A read of n bytes at an aligned address as one event of the scalar stream: the state after it and the bytes. -/
def State.readRecord (s : State) (a : Word) (n : Nat) (act : State → List Byte → Out) : Out :=
  s.scalarAccess .read a n (fun r =>
    let s := s.assignPage r.leaf
    let bs := s.load r n
    act (s.scalarTouched s.turn a.toNat n r true false) bs)

/-- Posting a packet at queue q: one indivisible step (R340). -/
def State.postPacket (s : State) (d : XReg) (q : Nat) (p : List Byte) : Out :=
  let w := s.queue q
  if w.size ≤ s.queueDepth w then s.finish d (BitVec.ofInt 64 (-1)) 4
  else
    let pos := s.queueTail w
    let s := (s.store (w.slot pos) p).store w.ctl (leBytes 8 (pos + 1))
    let s := s.notePosts
    s.finish d (BitVec.ofNat 64 (taskId q pos)) 4

def execLaunch (d a b : XReg) (s : State) : Out :=
  s.whenReady [d, a, b] (s.fenceVs
    (let asid := s.cur.asid.toNat
     let q := (s.cur.getX b).toNat
     s.readRecord (s.cur.getX a) 128 (fun s p =>
       let w := s.queue q
       if 4095 < q ∨ !w.live ∨ w.closing ∨ w.asid ≠ asid ∨ !bit (s.queueFlags w) 0 then
         s.finish d (BitVec.ofInt 64 (-2)) 4
       else if (packetReason (s.ctx asid) 32 p).isSome then s.finish d (BitVec.ofInt 64 (-3)) 4
       else s.postPacket d q p)))

/-! ### Cascade packets (R349, R350) -/

/-- The trap of a packet instruction's use that breaks R349 (R350). -/
def State.packetTrap (s : State) : Out := s.trap causePerm 0 11

/-- The stage that hart g's gang serves: the task, the gang and the stage's number. -/
def State.stageOf (s : State) (g : Nat) : Option (Task × Gang × Nat) :=
  match s.gangOf g with
  | none => none
  | some (t, x) => match x.stage with
    | none => none
    | some k => some (t, x, k)

def execPktget (d a : XReg) (s : State) : Out :=
  s.whenReady [d, a]
    (match s.stageOf s.turn with
     | none => s.packetTrap
     | some (t, x, k) =>
       let va := s.cur.getX a
       s.scalarAccess .write va 64 (fun r =>
         match t.stages[k]? with
         | none => s.packetTrap
         | some st =>
           if x.withdrawn.isSome then s.finish d (BitVec.ofInt 64 (-2)) 4
           else
             match st.queue with
             | (seq, p) :: rest =>
               let s0 := s.assignPage r.leaf
               let s1 := if r.void then s0 else s0.put r.pa p
               let s2 := s1.scalarTouched s1.turn va.toNat 64 r false true
               let t' := (t.setStage k { st with queue := rest }).setGang { x with taken := x.taken ++ [seq] }
               (s2.setTask t').finish d (BitVec.ofNat 64 seq) 4
             | [] => if st.finished then s.finish d (BitVec.ofInt 64 (-1)) 4 else .next s))

/-- Where a PKTEMIT goes (R349). -/
inductive EmitTarget where
  | bad
  | gone
  | unread
  | stage (t : Task) (k : Nat)

/-- The target word's meaning for hart g; `closing` allows the ABS form alone. A live task of the context that is no cascade is taken
as a cascade that is not there (R349; log entry 113, DESIGN CHOICE). -/
def State.emitTarget (s : State) (g : Nat) (w : Nat) (closing : Bool) : EmitTarget :=
  let k := bits w 3 0
  if bits w 31 5 ≠ 0 then .bad
  else if bit w 4 then
    let id := bits w 63 32
    let asid := (s.hart g).asid.toNat
    if k ≠ 0 then .bad
    else
      match s.task id with
      | some t =>
        if t.asid ≠ asid then .bad
        else if t.st = .posted then .unread
        else if t.typ = 3 ∧ !t.stages.isEmpty ∧ t.st ≠ .done then .stage t 0
        else .gone
      | none =>
        let q := s.queue (id / 2 ^ 20)
        if q.live && q.asid == asid then .gone else .bad
  else if closing ∨ bits w 63 32 ≠ 0 then .bad
  else
    match s.stageOf g with
    | some (t, _, j) => if k = j + 1 ∧ k < t.stages.length then .stage t k else .bad
    | none => .bad

/-- An emitter that serves a stage of the same cascade waits for room (R352). -/
def State.noteWait (s : State) (t : Task) : State :=
  match s.stageOf s.turn with
  | some (u, _, j) =>
    if u.order = t.order then
      match t.stages[j]? with
      | some y => s.setTask (t.setStage j { y with waited := true })
      | none => s
    else s
  | none => s

/-- PKTEMIT of a packet at stage k of a cascade. -/
def State.emitPacket (s : State) (d : XReg) (t : Task) (k : Nat) (p : List Byte) : Out :=
  match t.stages[k]? with
  | none => s.finish d (BitVec.ofInt 64 (-2)) 4
  | some st =>
    if st.closed then s.finish d (BitVec.ofInt 64 (-1)) 4
    else if st.cap ≤ st.load then .next (s.noteWait t)
    else
      let r := st.emit p
      (s.setTask (t.setStage k r.2)).finish d (BitVec.ofNat 64 r.1) 4

def execPktemit (d a b : XReg) (s : State) : Out :=
  s.whenReady [d, a, b] (s.fenceVs
    (let va := s.cur.getX a
     match s.emitTarget s.turn (s.cur.getX b).toNat (va == 0) with
     | .bad => s.packetTrap
     | .unread => .next s
     | .gone =>
       if va = 0 then s.finish d 0 4
       else s.readRecord va 64 (fun s p => s.finish d (BitVec.ofInt 64 (if packetOk p then -2 else -3)) 4)
     | .stage t k =>
       if va = 0 then
         match t.stages[0]? with
         | some st => (s.setTask (t.setStage 0 st.close).settle).finish d 0 4
         | none => s.finish d 0 4
       else s.readRecord va 64 (fun s p =>
         if packetOk p then s.emitPacket d t k p else s.finish d (BitVec.ofInt 64 (-3)) 4)))

def execPktdone (a : XReg) (s : State) : Out :=
  s.whenReady [a]
    (match s.stageOf s.turn with
     | none => s.packetTrap
     | some (t, x, _) =>
       let seq := (s.cur.getX a).toNat
       if x.taken.contains seq then (s.setTask (t.setGang { x with taken := x.taken.erase seq })).doneWith s.cur 4
       else s.packetTrap)

end Sys2Proof.Machine
end

