-- ==== Sys2Proof/Machine/Confluence.lean ====
section
/-! DEFINITION. The Confluence's tasks (R329 to R338): intake with footprint cards and edges, readiness and levels (R341),
copy and wait tasks (R334), completion, and the compaction flush of cascades (R351). -/

namespace Sys2Proof.Machine

open Sys2Proof

/-! ### What the Confluence reads in a context's space -/

/-- The space of the Confluence's accesses for a context: it lies in no cluster, and reaches every cluster's SRAM (log
entry 23). -/
def State.taskSpace (s : State) (asid : Nat) : Space :=
  { asid := asid, root := (s.ctx asid).root.toNat, core := none, cluster := 4, anySram := true, fixed := (s.ctx asid).fixed }

/-- The n bytes at a virtual address, with what reading them leaves. -/
def State.readVirtual (s : State) (asid va n : Nat) : Except AFault (State × List Byte) :=
  match s.unitPieces (s.taskSpace asid) .read va n with
  | .error f => .error f
  | .ok ps =>
    let s := (s.assignAll ps).consumeFor asid Config.harts ps
    let bs := s.elemBytes ps 0
    .ok ((s.markAll asid ps false .plain).jobTouched ps false (!(s.ctx asid).fixed), bs)

/-! ### Footprints (R336, R337) -/

/-- A region of a footprint card. -/
def regionAt (card : List Byte) (j : Nat) : Footprint :=
  let r := field card (16 * j + 12) 1
  { base := field card (16 * j) 8, len := field card (16 * j + 8) 4, rd := bit r 0, wr := bit r 1 }

/-- The used regions of a card, or nothing when one gives refusal code 11. -/
def cardRegions (card : List Byte) : Option (List Footprint) :=
  let used := (List.range 8).filter (fun j => field card (16 * j + 8) 4 != 0)
  if used.any (fun j => field card (16 * j + 12) 1 == 0 || decide (2 ^ 52 < field card (16 * j) 8 + field card (16 * j + 8) 4))
  then none else some (used.map (regionAt card))

/-- Whether two regions make an edge. -/
def Footprint.meets (a b : Footprint) : Bool :=
  (a.wr || b.wr) && decide (a.base < b.base + b.len) && decide (b.base < a.base + a.len)

/-- Whether footprints order two tasks of a context. -/
def Task.conflicts (t u : Task) : Bool := t.regions.any (fun a => u.regions.any a.meets)

/-- A stream's footprint as a region. -/
def streamRegion (d : Desc) (write : Bool) : List Footprint :=
  match d.footprint with
  | some (l, h) => [⟨l, h - l, !write, write⟩]
  | none => []

/-! ### Readiness and levels (R335, R341) -/

/-- A task whose packet has been read and which has not completed. -/
def Task.open (t : Task) : Bool := t.st != .posted

/-- Whether a task's counter is 0 and its edges are released; one with a footprint also waits until every earlier packet of
its context has been read. -/
def State.canReady (s : State) (t : Task) : Bool :=
  t.st == .waiting && t.dep == 0 && t.edges.isEmpty &&
    (t.regions.isEmpty || !s.tasks.any (fun u => u.asid == t.asid && decide (u.order < t.order) && u.st == .posted))

/-- A task that becomes ready now. -/
def Task.nowReady (t : Task) (time : Nat) : Task :=
  { t with st := .ready, readyAt := time, stages := t.stages.map (fun x => { x with readyAt := time }) }

/-- Every task that can be ready is. -/
def State.promote (s : State) : State :=
  { s with tasks := s.tasks.map (fun t => if s.canReady t then t.nowReady s.timer else t) }

/-- Nanoseconds after which a level is left (R341). -/
def levelWait (l : Nat) : Nat := 1000 * 2 ^ (12 + l)

/-- A level after waiting at it until now: the level and the start of its wait. -/
def agedLevel (level readyAt now : Nat) : Nat × Nat :=
  if level < 7 ∧ levelWait level ≤ now - readyAt then (level + 1, now) else (level, readyAt)

/-- Levels rise: of a launch, or of each stage of a cascade. -/
def State.ageTask (s : State) (task : Nat) : State :=
  match s.task task with
  | none => s
  | some t =>
    let l := if t.offers then agedLevel t.level t.readyAt s.timer else (t.level, t.readyAt)
    s.setTask { t with
      level := l.1, readyAt := l.2
      stages := t.stages.zipIdx.map (fun q =>
        let l := if t.stageOffers q.2 then agedLevel q.1.level q.1.readyAt s.timer else (q.1.level, q.1.readyAt)
        { q.1 with level := l.1, readyAt := l.2 }) }

def execTaskLevelAging (task : Nat) (s : State) : Out := s.whenCool (s.promote.ageTask task)

/-! ### Refusals (R332) -/

/-- The copies whose dependence decrements came to nothing have COPYSTAT.DEPMISS (R335). -/
def State.depMissed (s : State) (ids : List Nat) : State :=
  ids.foldl (fun s id => match tfind s.copies id with
    | some c => s.setCopy id { c with depmiss := true }
    | none => s) s

/-- A refused packet: the record in its queue's control block, and its task done without running; the decrements it held are
discarded. -/
def State.refuse (s : State) (t : Task) (reason : Nat) : State :=
  let s := s.depMissed t.early
  let c := (s.queue t.queue).ctl
  let n := min (readNat s.mem (c + 0x28) 4 + 1) (2 ^ 32 - 1)
  let s := s.store (c + 0x20) (leBytes 8 t.pos ++ leBytes 4 n ++ leBytes 1 reason)
  s.setTask { t with st := .done, reason := reason }

/-! ### Intake (R329, R336) -/

/-- The most cores that a cluster has working (R397). -/
def State.workingCores (s : State) : Nat :=
  (List.range Config.clusters).foldl (fun m c => max m (bits s.coresLeft.toNat (6 * c + 5) (6 * c))) 0

/-- What reading the memory that a packet names comes to: the task with it, or a reason to refuse. -/
abbrev Intake := Except Nat Task

/-- A footprint card read. -/
def State.readCard (s : State) (t : Task) : Except AFault (State × Intake) :=
  let card := field t.pkt 0x48 8
  if card = 0 then .ok (s, .ok t)
  else
    match s.readVirtual t.asid card 128 with
    | .error f => .error f
    | .ok (s, bs) =>
      match cardRegions bs with
      | none => .ok (s, .error 11)
      | some rs => .ok (s, .ok { t with regions := rs })

/-- The stage of a record and its shape, when both are well-formed (Table 15-9). -/
def stageOfRecord (x : Ctx) (work : Nat) (r shape : List Byte) : Option Stage :=
  let cap := field r 8 4
  let ming := field r 0xC 2
  let maxg := field r 0xE 2
  let thresh := field r 0x10 1
  if 16 ≤ cap ∧ cap ≤ 65536 ∧ 2 ^ log2 cap = cap ∧ 1 ≤ ming ∧ ming ≤ maxg ∧ maxg ≤ 512 ∧ thresh ≤ 8 ∧
      zeroIn r 0x11 0x40 ∧ (launchReason x work shape true).isNone then
    some { shape := shape, level := field shape 0x1A 1, cap := cap, ming := ming, maxg := maxg, thresh := thresh,
           wanted := ming }
  else none

/-- The n stages from a stage table's address on; a malformed one gives reason 12. -/
def State.readStages (s : State) (asid : Nat) : (n va : Nat) → Except AFault (State × Except Nat (List Stage))
  | 0, _ => .ok (s, .ok [])
  | n + 1, va =>
    match s.readVirtual asid va 64 with
    | .error f => .error f
    | .ok (s1, r) =>
      match s1.readVirtual asid (field r 0 8) 128 with
      | .error f => .error f
      | .ok (s2, shape) =>
        match stageOfRecord (s2.ctx asid) s2.workingCores r shape with
        | none => .ok (s2, .error 12)
        | some st =>
          match State.readStages s2 asid n (va + 64) with
          | .error f => .error f
          | .ok (s3, .error e) => .ok (s3, .error e)
          | .ok (s3, .ok l) => .ok (s3, .ok (st :: l))

/-- The footprint of one stream of a copy task, as its descriptor stands at intake; one that cannot be read gives none. -/
def State.streamAt (s : State) (asid va : Nat) (write : Bool) : List Footprint :=
  match s.readVirtual asid va 64 with
  | .ok (_, a) => streamRegion (descOf a) write
  | .error _ => []

/-- A copy task's footprint: its two streams (R334). -/
def State.copyRegions (s : State) (t : Task) : List Footprint :=
  s.streamAt t.asid (field t.pkt 0 8) false ++ s.streamAt t.asid (field t.pkt 8 8) true

/-- Everything that a packet without a fault of its own makes the Confluence read: of a copy, its two descriptors. -/
def State.readForTask (s : State) (t : Task) : Except AFault (State × Intake) :=
  if t.typ = 1 then
    match s.readVirtual t.asid (field t.pkt 0 8) 64 with
    | .error f => .error f
    | .ok (s, a) =>
      match s.readVirtual t.asid (field t.pkt 8 8) 64 with
      | .error f => .error f
      | .ok (s, b) => .ok (s, .ok { t with regions := streamRegion (descOf a) false ++ streamRegion (descOf b) true })
  else if t.typ = 3 then
    match s.readCard t with
    | .error f => .error f
    | .ok (s, .error e) => .ok (s, .error e)
    | .ok (s, .ok t) =>
      match s.readStages t.asid (field t.pkt 8 1) (field t.pkt 0 8) with
      | .error f => .error f
      | .ok (s, .error e) => .ok (s, .error e)
      | .ok (s, .ok l) => .ok (s, .ok { t with stages := l })
  else s.readCard t

/-- A launch whose flags set mirror completion registers its DONE word (R409); nothing when it cannot, which is
so when the word's stack holds 128 registrations. A word has one registration, and a later one takes its place (log entry 85, DESIGN CHOICE). -/
def State.registerLaunch (s : State) (t : Task) : Option State :=
  if t.typ = 0 ∧ bit (shapeFlags t.pkt) 3 then
    let w := s.queue t.queue
    let done := field t.pkt 0x38 8
    if w.mirror = 0 ∨ done = 0 then none
    else
      match s.translate (s.taskSpace t.asid) .atomic done with
      | .error _ => none
      | .ok (pa, _) =>
        let s := s.walkConsumed (s.taskSpace t.asid) Config.harts done
        if placeOf pa = .hbm ∧ (s.mirrors.filter (fun m => stackOf m.sig == stackOf pa)).length < 128 then
          some { s with mirrors := s.mirrors.filter (fun m => m.sig != pa) ++ [⟨pa, w.mirror, some t.order⟩] }
        else none
  else some s

/-- The edges into a task and out of it, among the tasks of its context that have not completed (R334, R337). -/
def State.addEdges (s : State) (t : Task) : State :=
  let others := s.tasks.filter (fun u => u.asid == t.asid && u.order != t.order && u.open)
  let into := others.filter (fun u => decide (u.order < t.order) &&
    ((u.conflicts t && u.reason == 0) || (u.queue == t.queue && u.typ == 2 && u.reason == 0)))
  let s := s.setTask { t with edges := into.map (fun u => u.order) }
  { s with tasks := s.tasks.map (fun u =>
      if u.asid = t.asid ∧ t.order < u.order ∧ u.st = .waiting ∧ t.conflicts u then { u with edges := u.edges ++ [t.order] }
      else u) }

/-- A packet taken in: its task waits for its dependences and edges. Decrements held for it count now, and those beyond DEPS are
discarded (R335). -/
def State.admitTask (s : State) (t : Task) : State :=
  match s.registerLaunch t with
  | none => s.refuse t 14
  | some s =>
    let deps := field t.pkt 0x40 4
    ((s.depMissed (t.early.drop deps)).addEdges { t with
      st := .waiting, dep := deps - t.early.length, early := [], level := field t.pkt 0x1A 1 % 8 }).promote

/-- HEAD past one packet. -/
def State.advanceHead (s : State) (q : Nat) : State :=
  let w := s.queue q
  s.store (w.ctl + 8) (leBytes 8 ((s.queueHead w + 1) % 2 ^ 64))

/-- Tasks whose packets have been taken in, of which there may be 65,536. -/
def State.tasksOpen (s : State) : Nat := (s.tasks.filter (fun t => t.open)).length

/-- The reason that a packet is refused with when memory that it names cannot be read: the card's, or that of the stage table
and its shapes (R332). -/
def State.unreadReason (s : State) (t : Task) : Nat :=
  match s.readCard t with
  | .error _ => 11
  | .ok _ => 12

/-- The Confluence takes in the packet at HEAD of queue q, with what the dispatcher does about an absent page that holds a
card, a stage table or a copy's descriptor. A copy whose descriptors cannot be read is refused when it is ready (R334). -/
def State.takePacket (s : State) (q : Nat) (supply : PageSupply) : State :=
  let w := s.queue q
  match s.tasks.find? (fun t => t.queue == q && t.st == .posted) with
  | none => s
  | some t =>
    let p := readBytes s.mem (w.slot t.pos) 128
    let t := { t with pkt := p, typ := packetType p }
    let s0 := if s.poisoned (w.slot t.pos) 128 then
        s.imprecise t.asid none causeUncorrectable 0 (s.poisonAt (w.slot t.pos) 128)
      else s
    match packetReason (s.ctx t.asid) s.workingCores p with
    | some r => (s0.refuse t r).advanceHead q
    | none =>
      match s0.withSupply (s.ctx t.asid).root.toNat supply (fun s => s.readForTask t) with
      | .done (s, .ok t) => (s.admitTask t).advanceHead q
      | .done (s, .error r) => (s.refuse t r).advanceHead q
      | .waits s => s
      | .fails _ s =>
        if t.typ = 1 then (s.admitTask { t with regions := s.copyRegions t }).advanceHead q
        else (s.refuse t (s.unreadReason t)).advanceHead q

def execPacketIntake (q : Nat) (supply : PageSupply) (s : State) : Out :=
  let t := s.notePosts
  let w := t.queue q
  s.whenCool (if t.intakeOpen && w.live && !w.closing && !t.queueErr w && (t.ctx w.asid).live && decide (t.tasksOpen < 65536)
    then t.takePacket q supply else t)

/-! ### Copy and wait tasks (R334) -/

/-- The descriptors of a copy task. -/
def State.copyDescs (s : State) (t : Task) : Except AFault (State × Desc × Desc) :=
  match s.readVirtual t.asid (field t.pkt 0 8) 64 with
  | .error f => .error f
  | .ok (s, a) =>
    match s.readVirtual t.asid (field t.pkt 8 8) 64 with
    | .error f => .error f
    | .ok (s, b) => .ok (s, descOf a, descOf b)

/-- A copy task's copy, from its descriptors on: refused with 12, or in flight without ARR, SIG or DEP. -/
def State.startCopy (s : State) (t : Task) (a b : Desc) : State :=
  if (descFault a).isSome || (descFault b).isSome || (copyStreamFault (some (boundTo a)) (boundTo b)).isSome then
    s.refuse t 12
  else
    let id := s.nextCopy
    let c : Copy :=
      { core := 128 * 2 ^ 40, asid := t.asid, ptbase := (s.ctx t.asid).root, tag := 0, flags := 0
        fixed := (s.ctx t.asid).fixed
        sigAddr := 0, barAddr := 0, depTask := 0, sr := some a, dst := b, declared := b.declared, task := some t.order }
    let s := ({ s with copies := tput s.copies id c, nextCopy := id + 1 }).setTask { t with st := .running, copy := some id }
    if s.eager || c.declared == 0 then s.copyAll id .absent else s

/-- A ready copy task starts, once its descriptors can be read. -/
def State.copyTaskStart (s : State) (task : Nat) (supply : PageSupply) : State :=
  match s.task task with
  | none => s
  | some t =>
    if t.typ = 1 ∧ t.st = .ready then
      match s.withSupply (s.ctx t.asid).root.toNat supply (fun s => s.copyDescs t) with
      | .done (s, a, b) => s.startCopy t a b
      | .waits s => s
      | .fails _ s => s.refuse t 12
    else s

def execCopyTaskStart (task : Nat) (supply : PageSupply) (s : State) : Out := s.whenCool (s.promote.copyTaskStart task supply)

/-- A ready wait task's load of its signal word: at or below LIMIT it is done; a fault leaves it waiting (log entry 24). -/
def State.waitTask (s : State) (task : Nat) : State :=
  match s.task task with
  | none => s
  | some t =>
    if t.typ = 2 ∧ t.st = .ready then
      let sp := s.taskSpace t.asid
      let va := field t.pkt 0 8
      match s.signalAt sp .read va with
      | .error _ => s
      | .ok r =>
        let s := (s.assignPage r.leaf).consumeFor t.asid Config.harts [{ i := 0, va := va, len := 8, reach := r }]
        let v := BitVec.ofNat 64 (ofLe (s.load r 8))
        if v.sle (BitVec.ofNat 64 (field t.pkt 8 8)) then
          let s := s.markPage t.asid r.leaf false .plain
          (if r.void then s else s.homeTouched r.pa 8 false (!sp.fixed)).setTask { t with st := .done }
        else s
    else s

def execWaitTaskSatisfied (task : Nat) (s : State) : Out := s.whenCool (s.promote.waitTask task)

/-! ### Completion (R338) -/

/-- Whether a task has nothing left to do but complete. -/
def State.taskOver (s : State) (t : Task) : Bool :=
  match t.st with
  | .done => true
  | .ready => (t.typ == 0 || t.typ == 3) && t.through
  | .running => match t.copy with
    | some id => match tfind s.copies id with
      | some c => c.landed
      | none => false
    | none => false
  | _ => false

/-- DONE's decrement, as SIGDEC's. A refused packet's word that no signal word can be is left alone. -/
def State.doneAction (s : State) (t : Task) : Except AFault State :=
  let a := field t.pkt 0x38 8
  if a = 0 ∨ a % 8 ≠ 0 then .ok s else s.sigAction (s.taskSpace t.asid) Config.harts a

/-- A queue that is being destroyed is free once its last task has completed, and DESTROY_QUEUE is answered then (R407). -/
def State.freeQueue (s : State) (q : Nat) : State :=
  let w := s.queue q
  if w.closing && !s.tasks.any (fun t => t.queue == q) then
    let s := { s with queues := tdel s.queues q }
    if w.asked then s.emit (.status 0 0) else s
  else s

/-- Step 3: the task's edges are released, and it is gone. -/
def State.releaseTask (s : State) (t : Task) : State :=
  let s := { s with
    tasks := (s.tasks.filter (fun (u : Task) => u.order != t.order)).map
      (fun (u : Task) => { u with edges := u.edges.filter (fun o => o != t.order) })
    copies := match t.copy with
      | some id => tdel s.copies id
      | none => s.copies }
  (s.freeQueue t.queue).promote

/-- A task that is over makes its DONE decrement, and is gone. -/
def State.completeTask (s : State) (task : Nat) (supply : PageSupply) : State :=
  match s.task task with
  | none => s
  | some t =>
    if s.taskOver t then
      match s.withSupply (s.ctx t.asid).root.toNat supply (fun s => s.doneAction t) with
      | .done s => s.releaseTask t
      | .waits s => s
      | .fails f s => (s.setTask { t with st := .discarded }).actionFailed t.asid none f
    else s

def execTaskComplete (task : Nat) (supply : PageSupply) (s : State) : Out := s.whenCool (s.promote.completeTask task supply)

/-! ### The 10 µs tick of a cascade (R351) -/

/-- Held packets of every stage flush into a compacted packet, once a tick. -/
def execCompactionFlush (task : Nat) (s : State) : Out :=
  match s.task task with
  | none => .next s
  | some t =>
    let tick := s.timer / 10000
    s.whenCool (if t.flushedAt < tick then
      s.setTask ({ t with flushedAt := tick, stages := t.stages.map Stage.compact }).settle else s)

end Sys2Proof.Machine
end

