-- ==== Sys2Proof/Machine/VConfig.lean ====
section
/-! DEFINITION. VCFG with the lane allocator and the reshape (R160 to R162), and VSETL (R163). -/

namespace Sys2Proof.Machine

open Sys2Proof

/-- Lanes that hart k keeps from the free pool: its share, or a larger grant already fixed (R161). -/
def Hart.lanesHeld (h : Hart) : Nat :=
  match h.laneReq with
  | some r => max h.lshare.toNat (r.grant.getD 0)
  | none => h.lshare.toNat

/-- The four harts of core n. -/
def hartsOf (n : Nat) : List Nat := [4 * n, 4 * n + 1, 4 * n + 2, 4 * n + 3]

/-- Lanes that hart g's work takes of its core: a shadow's are its lead's (R388). -/
def State.lanesTaken (s : State) (g : Nat) : Nat :=
  if (s.hart g).placed then (s.stateAt g).lanesHeld else 0

/-- Lanes in no hart's share, of 16 (R160). -/
def State.freeLanes (s : State) (n : Nat) : Nat := 16 - ((hartsOf n).map s.lanesTaken).sum

/-- Lanes free for a hart: on both cores of its pair when it has a shadow (R388). -/
def State.lanesFor (s : State) (g : Nat) : Nat :=
  if (s.hart (g + 4)).run = .shadow then min (s.freeLanes (coreOf g)) (s.freeLanes (coreOf g + 1))
  else s.freeLanes (coreOf g)

/-- Whether a request that releases lanes is served and not yet reshaped, so that the next one waits (R161). -/
def State.laneReleasing (s : State) (n : Nat) : Bool :=
  (hartsOf n).any (fun g => match (s.hart g).laneReq with
    | some r => match r.grant with
      | some l => decide (l < (s.hart g).lshare.toNat)
      | none => false
    | none => false)

/-- The lane allocator of core n takes up its next request and fixes its grant (R161). -/
def State.laneServe (s : State) (n : Nat) : State :=
  if s.laneReleasing n then s
  else
    let c := s.core n
    match c.laneQ with
    | [] => s
    | g :: rest =>
      let s := s.setCore n { c with laneQ := rest }
      let h := s.hart g
      match h.laneReq with
      | none => s
      | some r =>
        s.setHart g { h with laneReq := some { r with grant := some (min r.lanes (h.lshare.toNat + s.lanesFor g)) } }

/-- Whether a granted request changes EW, NR or the lane share, and so reshapes the registers (R160). -/
def laneReshapes (h : Hart) (r : LaneReq) (l : Nat) : Bool :=
  bits h.vconf.toNat 1 0 != r.ew || bits h.vconf.toNat 3 2 != r.nr || vcLanes h.vconf != l

/-- The registers after a reshape (R162). -/
def Hart.reshape (h : Hart) (r : LaneReq) (vlmax : Nat) : Hart :=
  if bits h.vconf.toNat 1 0 ≠ r.ew ∨ bits h.vconf.toNat 3 2 ≠ r.nr then { h with vregs := [], masks := [] }
  else
    { h with
      vregs := h.vregs.map (fun p =>
        (p.1, if p.1 < 8 * 2 ^ r.nr then zeroTail (if r.ew = 0 then 32 else 16) vlmax p.2 else p.2))
      masks := h.masks.map (fun p => (p.1, p.2 % 2 ^ vlmax)) }

/-- A granted request done: the reshape, VCONF, LSHARE, VL and x[rd] (R160). -/
def State.laneFinish (s : State) (g : Nat) (r : LaneReq) (l : Nat) : State :=
  let h := s.hart g
  let v := vconfOf false r.lam r.gc l r.nr r.ew
  let vlmax := vlmaxOf (s.core (coreOf g)).vrb v
  let h := if laneReshapes h r l then h.reshape r vlmax else h
  let h := { h with vconf := v, lshare := BitVec.ofNat 5 l, vl := BitVec.ofNat 32 vlmax, laneReq := none }
  s.setHart g ((h.setX r.rd (BitVec.ofNat 64 vlmax)).advance 8)

/-- A hart's request as far as it can go: a reshape waits until the hart's queues are empty; with `reshapes` false it
waits for its own event. -/
def State.laneContinue (s : State) (g : Nat) (reshapes : Bool) : State :=
  let h := s.hart g
  match h.laneReq with
  | none => s
  | some r =>
    match r.grant with
    | none => s
    | some l =>
      if laneReshapes h r l then
        if reshapes && h.vq.isEmpty && h.mq.isEmpty then s.laneFinish g r l else s
      else s.laneFinish g r l

/-- A request reaches the lane allocator. -/
def State.laneRequest (s : State) (g : Nat) (r : LaneReq) : State :=
  let c := s.core (coreOf g)
  (s.setCore (coreOf g) { c with laneQ := c.laneQ ++ [g] }).setHart g { s.hart g with laneReq := some r }

/-- Whether a request is ill-formed (Table 7-4). -/
def vcfgIll (ew nr lanes gc vrb : Nat) : Bool :=
  decide (2 ≤ ew) || decide (16 < lanes) || decide (8 * 2 ^ nr / 8 < 2 ^ gc) || decide (rowsOf vrb (8 * 2 ^ nr) < 1)

/-- VCFG: an ill-formed request at once; otherwise through the allocator, and again at the hart's next step until it is
done. -/
def execVcfg (d : XReg) (ew nr : BitVec 2) (lanes : BitVec 5) (gc : BitVec 2) (lam : BitVec 1) (s : State) : Out :=
  let g := s.turn
  s.whenReady [d]
    (if vcfgIll ew.toNat nr.toNat lanes.toNat gc.toNat (s.core (coreOf g)).vrb then
       s.doneWith ({ s.cur with vconf := s.cur.vconf ||| BitVec.ofNat 64 (2 ^ 63), vl := 0 }.setX d 0) 8
     else
       let s1 := match s.cur.laneReq with
         | some _ => s
         | none => s.laneRequest g ⟨d, ew.toNat, nr.toNat, lanes.toNat, gc.toNat, lam == 1, none⟩
       if s.eager then .next ((s1.laneServe (coreOf g)).laneContinue g true)
       else .next (s1.laneContinue g false))

/-- The lane allocator of core n serves a request (R161). -/
def execLaneAllocatorServe (n : Nat) (s : State) : Out := .next (if s.islandStopped (n / 2) then s else s.laneServe n)

/-- The reshape of hart g's request ends (R162). -/
def execReshapeComplete (g : Nat) (s : State) : Out := .next (if s.stopped g then s else s.laneContinue g true)

/-- VSETL (R163). -/
def execVsetl (d a : XReg) (s : State) : Out :=
  if vcIll s.cur.vconf then s.trap causeVill
  else
    s.whenReady [d, a]
      (let n := min (s.cur.getX a).toNat (s.vlmax s.turn)
       s.doneWith ({ s.cur with vl := BitVec.ofNat 32 n }.setX d (BitVec.ofNat 64 n)) 4)

end Sys2Proof.Machine
end

