-- ==== Sys2Proof/Machine/System.lean ====
section
/-! DEFINITION. The system instructions (R322 to R325, R372), and the events that enter PL1 or wake a hart (R319, R320,
R371, R375, R382). -/

namespace Sys2Proof.Machine

open Sys2Proof

/-! ### System instructions -/

/-- TRAPI: its code in TRAPINFO[9:0] (R322). -/
def execTrapi (code : BitVec 10) (s : State) : Out := s.trap causeTrapi 0 (code.zeroExtend 64)

def execBrk (s : State) : Out := s.trap causeBrk

/-- ERET (R323, R372): the image's hart at PL0, or the end of the context with ILLEGAL when the image cannot be used. It writes
x1 to x31, and so waits until what was posted at PL1 has completed (R302; log entry 89, DESIGN CHOICE). -/
def execEret (s : State) : Out :=
  s.privileged
    (if !s.cur.drained then .next s
     else if s.imageOk then
       match s.resume s.turn with
       | some s' => .next s'
       | none =>
         let asid := s.cur.asid.toNat
         .next ((s.noteEnd asid (s.eventOf s.turn { cause := causeIllegal, pc := s.cur.pc })).endContext asid)
     else .fault .imageOutsideHbm)

/-- HALT (R324): posted work first, then the effect of FENCE.ALL, then the hart ends; at PL1 it rests. -/
def execHalt (s : State) : Out :=
  if s.cur.drained then
    match s.cur.level with
    | .pl0 => .next (s.hartEnds s.turn)
    | .pl1 => .next (s.hartRests s.turn)
  else .next s

/-! ### TLBINV (R71, R325) -/

/-- Whether a cached translation is discarded: of the address space, and covering the address when only one granule is
named. -/
def TlbEntry.hit (e : TlbEntry) (asid : Nat) (one : Bool) (va : Nat) : Bool :=
  e.asid == asid && (!one || (decide (e.va < va / 65536 * 65536 + 65536) && decide (va / 65536 * 65536 < e.va + e.size)))

/-- Whether a hart of an address space has probed a vector memory instruction that has yet to commit. -/
def Hart.probing (h : Hart) (asid : Nat) : Bool := h.asid.toNat == asid && h.vq.any (fun e => e.probed && qIsVmem e.op)

/-- Core n's cached translations of an address space discarded, with those its stream registers hold ready. -/
def State.tlbDiscard (s : State) (n asid : Nat) (one : Bool) (va : Nat) : State :=
  let c := s.core n
  let s := s.setCore n { c with tlb := c.tlb.filter (fun e => !e.hit asid one va) }
  { s with harts := s.harts.map (fun p =>
      (p.1, if coreOf p.1 = n ∧ p.2.asid.toNat = asid then
              { p.2 with streams := p.2.streams.map (fun q => (q.1, { q.2 with ahead := [] })) }
            else p.2)) }

def execTlbinv (a b : XReg) (s : State) : Out :=
  s.privileged (s.whenReady [a, b]
    (let asid := s.cur.asid.toNat
     let mine := (hartsOf (coreOf s.turn)).filter (fun g => (s.hart g).asid.toNat == asid)
     if mine.any (fun g => (s.hart g).probing asid) then .next s
     else
       let s' := (mine.foldl (fun s g => s.performLate g) s).tlbDiscard (coreOf s.turn) asid ((s.cur.getX b).getLsbD 0)
         (s.cur.getX a).toNat
       s'.doneWith s'.cur 4))

/-! ### Events -/

/-- The entry that is due at hart g's boundary (R371). -/
def execTrapEntry (g : Nat) (s : State) : Out :=
  if (s.hart g).run = .running ∧ !s.stopped g then
    match s.boundary g with
    | some o => o
    | none => .next s
  else .next s

/-- A hart whose budget has passed to 0 enters PL1 with BUDGET (R382). -/
def execBudgetExhausted (g : Nat) (s : State) : Out :=
  let h := s.hart g
  if h.run = .running ∧ h.level = .pl0 ∧ h.budgetDue ∧ !s.stopped g then
    match s.boundary g with
    | some o => o
    | none => .next s
  else .next s

/-- A context-fatal error that a check of hart g's core finds, with the record that the core's bank makes: three runs of an element
group that differ under check mode 1 (R387), or a comparison that fails under mode 2 (R388). -/
def State.checkFails (s : State) (g source : Nat) (cause : Nat) : State :=
  let asid := (s.hart g).asid.toNat
  ((s.logError (coreOf g) true source 0 (errInfo asid 0 0)).imprecise asid (some g) cause 0).attributeFatal (coreOf g)

/-- The physical address of the 64-byte block at a virtual address of hart g's space, 0 when it does not translate. -/
def State.blockOf (s : State) (g va : Nat) : Nat :=
  match s.probe (s.space g) .read va with
  | .ok r => r.pa / 64 * 64
  | .error _ => 0

/-- An imprecise, context-fatal cause for the context that hart g runs (R375): a failed check of its core, in the mode that makes the
check, or an UNCORRECTABLE cause at a virtual address that a unit reports, whose record names the physical block (Table 17-3). Under
check mode 1 only an instruction in flight in the lanes is compared (R387). -/
def execImpreciseCauseDelivery (g cause : Nat) (addr : Word) (s : State) : Out :=
  let h := s.hart g
  if h.run = .running ∧ !s.stopped g then
    if cause = causeSilentError ∧ h.comparesLanes then .next (s.checkFails g 6 cause)
    else if cause = causePairMismatch ∧ h.checkmode = 2 then .next (s.checkFails g 8 cause)
    else if cause = causeUncorrectable then
      .next (s.imprecise h.asid.toNat (some g) cause addr (BitVec.ofNat 64 (s.blockOf g addr.toNat)))
    else .next s
  else .next s

/-- TIME reaches a multiple of 10,000: every hart's event latch is set (R319). -/
def execEventLatchTick (s : State) : Out :=
  s.whenCool (if s.time % 10000 = 0 then s.wakeAll else s)

/-- The 64 cycles of a YIELD have passed (R320). -/
def execYieldExpiry (g : Nat) (s : State) : Out :=
  .next (if s.stopped g then s else s.setHart g { s.hart g with yielding := none })

end Sys2Proof.Machine
end

