-- ==== Sys2Proof/Machine/Reliability.lean ====
section
/-! DEFINITION. Reliability, power and thermal behaviour: the parity lane and lane checks (R174, R175, R391), the weir's
ALANES (R173), refresh and scrubbing (R47, R48, R59), error banks and HEALTH (R392 to R397), operating points (R398),
thermal emergencies (R399 to R401), energy (R402) and the device registers that PL2 writes. -/

namespace Sys2Proof.Machine

open Sys2Proof

/-! ### Lanes -/

/-- A slice of a register row of hart g fails parity: it is rebuilt, or, when a second one fails, its consumer's context
ends with UNCORRECTABLE (R174, R175). -/
def execParityRebuild (g lane : Nat) (second : Bool) (s : State) : Out :=
  let asid := (s.hart g).asid.toNat
  if s.islandStopped (pairOf g) then .next s
  else
  let s := s.logError (coreOf g) second 3 0 (errInfo asid lane 0)
  if second then .next ((s.imprecise asid (some g) causeUncorrectable 0).attributeFatal (coreOf g)) else .next s

/-- An element group that failed a lane check is computed again (R391): a corrected error, and no change of a value. -/
def execLaneGroupReexecution (n lane : Nat) (_rebuilt : Bool) (s : State) : Out :=
  .next (if s.islandStopped (n / 2) then s else s.logError n false 4 0 (errInfo (((s.core n).owner).getD 0xFFFF) lane 0))

/-- Current pressure lowers ALANES by steps of four (R173). -/
def execWeirLowerAlanes (n steps : Nat) (s : State) : Out :=
  s.whenCool (s.setCore n { s.core n with alanes := max 4 ((s.core n).alanes - 4 * steps) })

/-- Without pressure for 2 µs, which a thermal emergency does not count (R400), it rises one step. -/
def execWeirRaiseAlanes (n : Nat) (s : State) : Out :=
  s.whenCool (s.setCore n { s.core n with alanes := min 16 ((s.core n).alanes + 4) })

/-! ### HBM -/

def State.refreshOf (s : State) (bank : Nat) : Refresh := tget s.refresh bank .closed

def State.setRefresh (s : State) (bank : Nat) (r : Refresh) : State := { s with refresh := tput s.refresh bank r }

/-- A bank's scheduled refresh: its window opens, or is deferred behind held-row requests that have not completed, and opens
when they have (R59). -/
def execRefreshWindow (bank : Nat) (behind : Bool) (s : State) : Out :=
  match s.refreshOf bank with
  | .opened => .next s
  | _ => s.whenCool (s.setRefresh bank (if behind then .deferred else .opened))

/-- The held rows of the bank have reopened (R59). -/
def execRefreshWindowClose (bank : Nat) (s : State) : Out :=
  match s.refreshOf bank with
  | .opened => s.whenCool (s.setRefresh bank .closed)
  | _ => .next s

/-- The junction crosses 85 °C: refresh at the shorter interval above it (R59). -/
def execJunctionTemperature85C (above : Bool) (s : State) : Out := .next { s with hot := above }

/-- The bank of the stack that holds a 64-byte block. -/
def stackBank (block : Nat) : Nat := 132 + stackOf (64 * block)

/-- A 64-byte block becomes poisoned, and its page has held an uncorrectable error (R48, R396). -/
def State.poisonBlock (s : State) (block : Nat) : State :=
  { s with
    poison := if s.poison.contains block then s.poison else s.poison ++ [block]
    ucPages := if s.ucPages.contains (block / 1024) then s.ucPages else s.ucPages ++ [block / 1024] }

/-- The 16-bit symbols in which two blocks differ. -/
def symbolsApart (a b : List Byte) : Nat :=
  ((List.range 32).filter (fun i => (a.drop (2 * i)).take 2 != (b.drop (2 * i)).take 2)).length

/-- What the check of a 64-byte block of HBM finds, at a scrub, a read or a write-back (R47, R48): nothing, a symbol that is
corrected and logged, an error that is logged with its page and poisons the block, or, of three or more symbols, one that goes
undetected. -/
def State.blockChecked (s : State) (block : Nat) (found : EccOutcome) : State :=
  match found with
  | .clean => s
  | .corrected symbol =>
    let s := s.logError (stackBank block) false 1 (64 * block) (errInfo 0xFFFF 0 symbol)
    { s with corrected := (block / 1024, s.time) :: s.corrected }
  | .uncorrectable =>
    (s.poisonBlock block).logError (stackBank block) true 1 (64 * block / 65536 * 65536) (errInfo 0xFFFF 0 0)
  | .undetected bs =>
    if bs.length = 64 ∧ 3 ≤ symbolsApart bs (readBytes s.mem (64 * block) 64) then
      { s with mem := writeBytes s.mem (64 * block) bs }
    else s

/-- A scrub of a 64-byte block. -/
def execScrub (block : Nat) (found : EccOutcome) (s : State) : Out := s.whenCool (s.blockChecked block found)

/-! ### Hardware errors that no event of the table makes -/

/-- A word of 8 bytes of an SRAM becomes poisoned (R390). -/
def State.poisonWord (s : State) (w : Nat) : State :=
  if s.poisonWords.contains w then s else { s with poisonWords := s.poisonWords ++ [w] }

/-- Whether hart g's stream buffer holds a word of 8 bytes: it lies at one of the positions that a stream has fetched ahead (R82). -/
def State.inBuffer (s : State) (g w : Nat) : Bool :=
  (s.hart g).streams.any (fun q => (List.range q.2.prefetched).any (fun i =>
    let p := q.2.pos.toNat + i
    !q.2.desc.clipped p 0 && (match s.probe (s.space g) .read (q.2.desc.addr p 0) with
      | .ok r => r.pa / 8 == w
      | .error _ => false)))

/-- Whether a word of 8 bytes stands in core n's scratchpad, its data cache or its stream buffer (R390). What the latter two hold is
named by its home address, and an uncorrectable word of them is poisoned there (log entry 97, DESIGN CHOICE). -/
def State.inPool (s : State) (n w : Nat) : Bool :=
  (placeOf (8 * w) == .pool n && s.inScratch n (8 * w)) || (s.core n).dcacheHas (8 * w / 128 * 128) ||
    (hartsOf n).any (fun g => s.inBuffer g w)

/-- What a comparison of two runs of an element group comes to, from their results and a third's: the value that is written, with
whether the third run decided, or nothing when all three differ (R387). -/
def decideRuns (first second third : Nat) : Option (Nat × Bool) :=
  if first = second then some (first, false)
  else if third = first ∨ third = second then some (third, true)
  else none

/-- A shift check of an element group that hart g has in flight, from the bits in which its runs differ from the right result: a
corrected error when the third run agrees with a right one, SILENT_ERROR when there is no majority. Two runs that are wrong alike
are no error that the device finds, and the model takes in none (log entry 59). -/
def State.shiftCheck (s : State) (g lane first second third : Nat) : State :=
  if (s.hart g).run = .running ∧ (s.hart g).comparesLanes ∧ !s.stopped g then
    match decideRuns first second third with
    | some (0, true) => s.logError (coreOf g) false 6 0 (errInfo (s.hart g).asid.toNat lane 0)
    | some _ => s
    | none => s.checkFails g 6 causeSilentError
  else s

/-- The error that an event of the table makes: whether it is uncorrectable, and its source (Table 18-3); an event that makes none
has no place among the errors of a cycle. -/
def State.errorOf (s : State) (i : Instr) : Option (Bool × Nat) :=
  match i with
  | .scrub _ f => some (f == .uncorrectable, 1)
  | .parityRebuild _ _ second => some (second, 3)
  | .laneGroupReexecution _ _ _ => some (false, 4)
  | .impreciseCauseDelivery _ cause _ =>
    if cause = causeSilentError then some (true, 6) else if cause = causePairMismatch then some (true, 8) else none
  | .cRowWriteBack p true => some ((s.mmas p).head?.any (fun j => j.use.redone), 7)
  | .millraceOutputRow p true => some ((s.mill p).redoes, 7)
  | .retentionSweep _ true => some (true, 9)
  | .logicTestComplete _ false => some (true, 10)
  | .engineWakeComplete _ _ false => some (true, 10)
  | .braidFlitReceive _ false => some (false, 11)
  | .braidRetrainTimeout _ => some (true, 12)
  | .ethernetLinkError _ u _ => some (u, 13)
  | _ => none

/-- Whether an error is uncorrectable, and its source (Table 18-3). -/
def State.errorKind (s : State) (e : HwError) : Option (Bool × Nat) :=
  match e with
  | .block _ f => some (f == .uncorrectable, 1)
  | .msc _ _ u => some (u, 2)
  | .pool _ _ _ u => some (u, 5)
  | .shift _ _ a b c => some ((decideRuns a b c).isNone, 6)
  | .sram _ _ u => some (u, 14)
  | .event i => s.errorOf i

/-- An error found, beside those of events: logged in the bank of what it was found in, and the block or word poisoned when it is
uncorrectable (R47, R48, R387, R390). A corrected error of the memory-side cache counts against its page like one of the HBM, whose
stack's bank it stands in (R396). -/
def State.foundError (s : State) (e : HwError) : State :=
  match e with
  | .block b f => if b < 2 ^ 33 then s.blockChecked b f else s
  | .msc b at_ uc =>
    if (s.mscHits (64 * b) 64).isEmpty then s
    else
      let s := if uc then s.poisonBlock b else { s with corrected := (b / 1024, s.time) :: s.corrected }
      s.logError (stackBank b) uc 2 (if uc then 64 * b / 65536 * 65536 else 64 * b) (errInfo 0xFFFF 0 at_)
  | .pool n w at_ uc =>
    if n < Config.cores ∧ s.inPool n w then
      let s := if uc then s.poisonWord w else s
      s.logError n uc 5 (8 * w) (errInfo (((s.core n).owner).getD 0xFFFF) 0 at_)
    else s
  | .sram w at_ uc =>
    match placeOf (8 * w) with
    | .sram c =>
      let s := if uc then s.poisonWord w else s
      s.logError (128 + c) uc 14 (8 * w) (errInfo 0xFFFF 0 at_)
    | _ => s
  | .shift g lane first second third => s.shiftCheck g lane first second third
  | .event _ => s

/-- The errors of one cycle as they reach their banks: uncorrectable ones first, then in ascending order of their sources (R393). -/
def State.errorOrder (s : State) (l : List HwError) : List HwError :=
  let keyed := l.filterMap (fun e => (s.errorKind e).map (fun k => (k, e)))
  (sortBy (fun a b => (a.1.1 && !b.1.1) || (a.1.1 == b.1.1 && decide (a.1.2 ≤ b.1.2))) keyed).map (fun p => p.2)

/-- A stack begins or ceases to run degraded. The manual gives no event for it; the model lets it come from outside (R51; log entry
98, DESIGN CHOICE). -/
def State.setDegraded (s : State) (st : Nat) (on : Bool) : State :=
  { s with degraded := if on then (if s.degraded.contains st then s.degraded else s.degraded ++ [st]) else
      s.degraded.filter (fun x => x != st) }

/-! ### Banks and HEALTH -/

/-- CLR written to a bank (R394). -/
def execErrorBankClear (b : Nat) (s : State) : Out := .next (s.clearBank b)

/-- An Ethernet port's link error (R392). -/
def execEthernetLinkError (port : Nat) (uncorrectable : Bool) (info : Word) (s : State) : Out :=
  .next (s.logError (146 + port) uncorrectable 13 0 info.toNat)

/-- HEALTH (Table 18-6). -/
def State.health (s : State) : Word :=
  BitVec.ofNat 64 ((if s.replace || decide (1024 < s.pagesRetired) then 2 ^ 63 else 0) + s.engRetired % 256 * 2 ^ 48 +
    min s.pagesRetired 65535 * 2 ^ 32 + s.spares.toNat * 2 ^ 24 + s.coresLeft.toNat)

/-! ### Operating points (R398) -/

/-- ISLANDOP i written: a new target starts a change, during which the island's clock stops. -/
def execIslandopWrite (i : Nat) (v : Word) (s : State) : Out :=
  let p := s.pair i
  let t := v.toNat % 4
  .next (s.setPair i { p with target := t, busy := p.busy || t != p.current })

/-- The bias has settled. -/
def execOpChangeComplete (i : Nat) (s : State) : Out :=
  let p := s.pair i
  .next (if p.busy then s.setPair i { p with current := p.target, busy := false } else s)

/-- ISLANDOP as PL2 reads it (Table 18-8). -/
def Pair.islandop (p : Pair) : Word :=
  BitVec.ofNat 64 ((if p.busy then 256 else 0) + p.current % 4 * 16 + p.target % 4)

/-! ### Thermal emergencies (R399 to R401) -/

/-- 105 °C read: every compute clock is gated. -/
def execThermalEmergency (s : State) : Out :=
  .next (match s.thermal with
    | .normal => { s with thermal := .gated }
    | _ => s)

/-- 1 ms later, still above 95 °C: retention power gating, with every ENGAWAKE at 0 first. -/
def execThermalRetentionTimeout (s : State) : Out :=
  match s.thermal with
  | .gated => .next { (List.range Config.clusters).foldl (fun s c => s.setBudget c 0) s with thermal := .retention }
  | _ => .next s

/-- Every sensor below 95 °C: clocks restart, after retention with each core's sweep; the WFE latch is set. -/
def execThermalRecovery (s : State) : Out :=
  match s.thermal with
  | .normal => .next s
  | .gated => .next { s.wakeAll with thermal := .normal }
  | .retention =>
    .next { s.wakeAll with
      thermal := .normal
      cores := (List.range Config.cores).foldl (fun t n => tput t n { tget t n {} with sweep := true }) s.cores }

/-- The contexts with state on core n: its owner, when it is a context, and those of its harts. -/
def State.contextsOn (s : State) (n : Nat) : List Nat :=
  (((s.core n).owner.toList.filter (fun a => (s.ctx a).live)) ++
    ((hartsOf n).filter (fun g => (s.hart g).placed)).map (fun g => (s.hart g).asid.toNat)).eraseDups

/-- Core n's retention sweep (R401): a parity mismatch is fatal to every context with state there and holds the core back
for a logic test. A core that has been removed stays so. -/
def execRetentionSweep (n : Nat) (mismatch : Bool) (s : State) : Out :=
  if !(s.core n).sweep || s.thermal != .normal then .next s
  else
    let s := s.setCore n { s.core n with sweep := false }
    if mismatch && (s.core n).health != .retired then
      let who := s.contextsOn n
      let s := who.foldl (fun s a =>
        s.imprecise a ((hartsOf n).find? (fun g => (s.hart g).runs a)) causeRetentionLoss 0) s
      let s := s.logError n true 9 0 (errInfo (who.headD 0xFFFF) 0 0)
      .next (s.setCore n { s.core n with health := .testing })
    else .next s

/-- A core that no context uses leaves full power gating and is tested (R401). The manual does not say when a core is fully gated;
the model lets it be any core without work (log entry 99, DESIGN CHOICE). -/
def State.coreUngated (s : State) (n : Nat) : State :=
  let c := s.core n
  if s.coreIdle n && c.owner.isNone && c.health == .offered && s.thermal == .normal then s.setCore n { c with health := .testing } else s

/-- Core n's in-field logic test ends (R395, R401). -/
def execLogicTestComplete (n : Nat) (pass : Bool) (s : State) : Out :=
  if (s.core n).health = .testing ∧ s.thermal = .normal then
    if pass then .next (s.setCore n { s.core n with health := .offered })
    else .next ((s.logError n true 10 0 (errInfo 0xFFFF 0 0)).retireCore n)
  else .next s

/-! ### Energy (R402) -/

def execEnergyUpdate (microjoules : Nat) (s : State) : Out :=
  let v := s.energy.toNat + microjoules
  .next { s with energy := BitVec.ofNat 64 v, energyWrap := s.energyWrap || decide (2 ^ 64 ≤ v) }

/-- ENERGYLO read: the low half, with the high half of the same count latched. -/
def execEnergyloRead (s : State) : Out :=
  let lo := s.energy.toNat % 2 ^ 32
  .next ({ s with energyHi := BitVec.ofNat 32 (s.energy.toNat / 2 ^ 32) }.emit (.energyLow lo))

def execEnergyWrapClear (v : Word) (s : State) : Out :=
  .next (if v.getLsbD 0 then { s with energyWrap := false } else s)

/-! ### Device registers (Table 2-1, R36, R88, R371) -/

/-- MIGQBASE written: EN always, BASE only while EN was 0 (Table 3-10). -/
def execMigqbaseWrite (v : Word) (s : State) : Out :=
  let base := if s.migqOn then s.migqbase else v
  .next { s with migqbase := keep base 0xFFFFFFF0000 ||| keep v 1 }

/-- Addresses of POSBASE and of the registers with behaviour of their own, by the page of 64 KiB they lie in. -/
def posbaseAddr : Nat := 0xF0000030000

/-- A device register written by PL2: POSBASE takes its address, aligned to 4 MiB (R371); CLR in an error bank clears it (R394);
the other registers of the pages 1 to 8
are written by their own events or are read-only; any other holds what it is given. -/
def execDeviceRegisterWrite (addr : Nat) (v : Word) (s : State) : Out :=
  if addr = posbaseAddr then .next { s with posbase := keep v 0xFFFFFC00000 }
  else if errBase ≤ addr ∧ addr < bankAddr 148 ∧ addr % 32 = 0 then
    .next (if v.getLsbD 60 then s.clearBank ((addr - errBase) / 32) else s)
  else if addr < Config.devBase ∨ Config.physEnd ≤ addr ∨ (0xF0000010000 ≤ addr ∧ addr < 0xF0000090000) then .next s
  else .next { s with devRegs := tput s.devRegs (addr / 8) v }

end Sys2Proof.Machine
end

