-- ==== Sys2Proof/Machine/Braid.lean ====
section
/-! DEFINITION. What reaches the device from outside: the Braid ports (R290, R291), a peer's accesses through an aperture (R292,
R293, R365), and RDMA (R365, R366, R403 to R405). While a thermal emergency lasts, incoming traffic is held at the ports (R399). -/

namespace Sys2Proof.Machine

open Sys2Proof

/-! ### Ports (R291) -/

/-- Incoming traffic is held at the ports. -/
def State.held (s : State) : Bool := s.thermal != .normal

/-- A flit arrives: one that fails its check is resent and logged, and the sixteenth in a row starts retraining. -/
def execBraidFlitReceive (port : Nat) (ok : Bool) (s : State) : Out :=
  let p := s.port port
  match p.st with
  | .up =>
    if ok then .next (s.setPort port { p with fails := 0 })
    else
      let s := s.logError (140 + port) false 11 0 (errInfo 0xFFFF 0 0)
      .next (s.setPort port (if 16 ≤ p.fails + 1 then { p with st := .retraining, fails := 0 } else { p with fails := p.fails + 1 }))
  | _ => .next s

/-- A port that retrained in time takes its traffic again. -/
def execBraidPortRetrained (port : Nat) (s : State) : Out :=
  match (s.port port).st with
  | .retraining => .next (s.portBecomes port .up)
  | _ => .next s

/-- A port that failed to retrain in 100 µs is down, and its bank records it; what waited there takes the other way round. -/
def execBraidRetrainTimeout (port : Nat) (s : State) : Out :=
  match (s.port port).st with
  | .retraining => .next ((s.logError (140 + port) true 12 0 (errInfo 0xFFFF 0 0)).portBecomes port .down)
  | _ => .next s

/-- A port comes back, and the routes through it with it (R290). -/
def execBraidPortUp (port : Nat) (s : State) : Out :=
  match (s.port port).st with
  | .down => .next (s.portBecomes port .up)
  | _ => .next s

/-! ### A peer's access (R292, R365) -/

/-- The context of a Braid group on this device, and what its aperture maps at an offset: a virtual address. -/
def State.apertureAt (s : State) (gid offset : Nat) : Option (Nat × Nat) :=
  match s.ctxs.find? (fun p => p.2.live && p.2.members.any (fun m => m.gid == gid)) with
  | none => none
  | some (asid, x) =>
    match tfind x.apertures (offset / 65536) with
    | none => none
    | some va => some (asid, va + offset % 65536)

/-- Bytes that an access takes. -/
def braidLen (o : BraidOp) : Nat :=
  match o with
  | .load n => n
  | .store bs => bs.length
  | .sigdec => 8

/-- What kind of access it is. -/
def braidKind (o : BraidOp) : AccKind :=
  match o with
  | .load _ => .read
  | .store _ => .write
  | .sigdec => .atomic

/-- The parts of an access within single aperture pages, each translated to its home in HBM, when every page is mapped. -/
def State.aperturePieces (s : State) (gid : Nat) (k : AccKind) : List (Nat × Nat) → Option (List Piece)
  | [] => some []
  | (offset, n) :: rest =>
    match s.apertureAt gid offset with
    | none => none
    | some (asid, va) =>
      match s.translate (s.taskSpace asid) k va, State.aperturePieces s gid k rest with
      | .ok (pa, leaf), some ps =>
        if placeOf pa = .hbm then
          some ({ i := 0, va := va, len := n, reach := ⟨pa, leaf, false, s.walkTaint (s.taskSpace asid) va⟩ } :: ps)
        else none
      | _, _ => none

/-- The context of a group consumes the poisoned blocks that the walks for a refused access read (R48). -/
def State.apertureWalks (s : State) (gid : Nat) (l : List (Nat × Nat)) : State :=
  l.foldl (fun s q => match s.apertureAt gid q.1 with
    | some (asid, va) => s.walkConsumed (s.taskSpace asid) Config.harts va
    | none => s) s

/-- A peer's access performed at its home in HBM as one event, or refused (R292, R365). A peer's longer accesses arrive as one
such access for each of their events. Pages that wait for their zeroes have them first (R68). -/
def State.braidAccess (s : State) (a : BraidAccess) : State :=
  let l := granuleParts a.offset (braidLen a.op)
  let refused := (s.apertureWalks a.gid l).emit .braidRefused
  match s.apertureAt a.gid a.offset, s.aperturePieces a.gid (braidKind a.op) l with
  | some (asid, va), some ps =>
    let sp := s.taskSpace asid
    match a.op with
    | .load _ =>
      let s := (s.assignAll ps).consumeFor asid Config.harts ps false
      if ps.any (fun p => p.reach.taint.isSome || s.poisoned p.reach.pa p.len) then s.emit .braidPoisoned
      else
        let bs := s.elemBytes ps 0
        ((s.markAll asid ps false .plain).jobTouched ps false (!sp.fixed)).emit (.braidData bs)
    | .store bs =>
      let s := ((s.assignAll ps).consumeFor asid Config.harts ps false).storePieces ps bs
      (((s.unpoison ps).markAll asid ps true .plain).jobTouched ps true (!sp.fixed)).emit .braidDone
    | .sigdec =>
      match ps with
      | [p] =>
        if va % 8 ≠ 0 then refused
        else ((s.sigDecThrough sp Config.harts false va p.reach).1).emit .braidDone
      | _ => refused
  | _, _ => refused

def execBraidIncomingAccess (acc : BraidAccess) (s : State) : Out :=
  if s.held then .next s else .next (s.braidAccess acc)

/-! ### RDMA operations and their checks (R403, R404) -/

/-- Queue pairs of the two ports, and the longest message (Table 19-1). -/
def queuePairs : Nat := 2 * 8192
def messageMax : Nat := 2 ^ 31

/-- The region of an rkey when n bytes at a virtual address lie inside it and it gives the rights asked for. -/
def State.regionFor (s : State) (rkey va n : Nat) (rd wr : Bool) : Option Region :=
  match tfind s.regions rkey with
  | none => none
  | some r =>
    if r.base ≤ va ∧ va + n ≤ r.base + r.len ∧ (rd → r.rd) ∧ (wr → r.wr) then some r else none

/-- An operation answered with "invalid request": its queue pair enters the error state. -/
def State.rdmaInvalid (s : State) (qp : Nat) : State := { s with qpErrors := s.qpErrors ++ [qp] }.emit (.rdmaInvalid qp)

/-- Whether RDMA operations are answered with "remote access error" alone: intake is closed, but for a live update's (R414). -/
def State.rdmaShut (s : State) : Bool := !s.intakeOpen && s.trust.updating.isNone

/-- An operation on a queue pair that has no error and no operation under way, while nothing is held at the ports: the operations of
a queue pair are performed in the order in which they arrive (R365). -/
def State.rdma (s : State) (qp : Nat) (act : State) : Out :=
  .next (if s.held || decide (queuePairs ≤ qp) || s.qpErrors.contains qp || s.incoming.any (fun x => x.qp == qp) then s
    else if s.rdmaShut then s.emit (.rdmaAccessError qp)
    else act)

/-- The parts of an operation's bytes, each translated, when every check of R404 holds; otherwise the state in which it is answered
with "remote access error", its context having consumed what its walks read of poisoned blocks (R48). A page that waits for its
zeroes holds no poison (R68). -/
def State.rdmaPieces (s : State) (rkey va n : Nat) (k : AccKind) : Except State (Region × List Piece) :=
  let wr := k != .read
  match s.regionFor rkey va n (!wr) wr with
  | none => .error s
  | some r =>
    let sp := s.taskSpace r.asid
    match s.probeAll sp k [⟨0, va, n, false⟩] with
    | (t :: _, _) => .error (s.walkConsumed sp Config.harts t.f.addr)
    | ([], ps) =>
      if ps.any (fun p => p.reach.taint.isSome) then .error (s.consumeFor r.asid Config.harts ps false)
      else if ps.any (fun p => (s.assignAll ps).poisoned p.reach.pa p.len) then .error s
      else .ok (r, ps)

/-! ### Words of an operation (R365, R366) -/

/-- The aligned words of 8 bytes that n bytes from an address touch. -/
def wordsIn (va n : Nat) : Nat := if n = 0 then 0 else (va % 8 + n + 7) / 8

/-- Address and length of the k-th word's part of a range. -/
def wordPart (va n k : Nat) : Nat × Nat :=
  let a := max va (va / 8 * 8 + 8 * k)
  (a, min (va + n) (va / 8 * 8 + 8 * k + 8) - a)

/-- The part of an operation's places that a word takes. -/
def Incoming.piece (x : Incoming) (k : Nat) : Option Piece :=
  let (a, n) := wordPart x.va x.data.length k
  (x.pieces.find? (fun p => decide (p.va ≤ a) && decide (a < p.va + p.len))).map (fun p =>
    { i := 0, va := a, len := n, reach := { p.reach with pa := p.reach.pa + (a - p.va) } })

/-- The operation under way on a queue pair replaced, or, with no word left, answered. -/
def State.setIncoming (s : State) (x : Incoming) : State :=
  if x.left.isEmpty then
    { s with incoming := s.incoming.filter (fun y => y.qp != x.qp) }.emit
      (if x.read then .rdmaData x.qp x.data else .rdmaAck x.qp)
  else { s with incoming := s.incoming.map (fun y => if y.qp = x.qp then x else y) }

/-- One word of an operation, as one event at its home. -/
def State.wordEvent (s : State) (x : Incoming) (k : Nat) : State :=
  match x.piece k with
  | none => s
  | some p =>
    let off := p.va - x.va
    let fixed := (s.ctx x.asid).fixed
    if x.read then
      let s := s.assignAll [p]
      if s.poisoned p.reach.pa p.len then
        { s with incoming := s.incoming.filter (fun y => y.qp != x.qp) }.emit (.rdmaAccessError x.qp)
      else
        let bs := s.elemBytes [p] 0
        ((s.markAll x.asid [p] false .plain).jobTouched [p] false (!fixed)).setIncoming
          { x with data := x.data.take off ++ bs ++ x.data.drop (off + p.len), left := x.left.filter (fun j => j != k) }
    else
      let s := (s.assignAll [p]).storePieces [p] ((x.data.drop off).take p.len)
      ((s.markAll x.asid [p] true .plain).jobTouched [p] true (!fixed)).setIncoming
        { x with left := x.left.filter (fun j => j != k) }

/-- The next event of the operation on a queue pair: a write's words are performed in ascending order, a read's in any (R365, R366). -/
def State.rdmaWord (s : State) (qp k : Nat) : State :=
  match s.incoming.find? (fun x => x.qp == qp) with
  | none => s
  | some x =>
    if !s.held && (if x.read then x.left.contains k else x.left.head? == some k) then s.wordEvent x k else s

/-- An accepted operation: under way, or, when work is eager or it has no bytes, performed. -/
def State.accepted (s : State) (x : Incoming) : State :=
  let s : State := { s with incoming := s.incoming ++ [x] }
  if x.left.isEmpty then s.setIncoming x
  else if s.eager then x.left.foldl (fun s k => s.rdmaWord x.qp k) s
  else s

/-- An RDMA write or read of some bytes; a longer message than Table 19-1 allows is invalid (R403). -/
def State.rdmaMove (s : State) (qp rkey va : Nat) (data : List Byte) (read : Bool) : State :=
  if messageMax < data.length then s.rdmaInvalid qp
  else
    match s.rdmaPieces rkey va data.length (if read then .read else .write) with
    | .error s => s.emit (.rdmaAccessError qp)
    | .ok (r, ps) =>
      s.accepted { qp := qp, rkey := rkey, asid := r.asid, read := read, pieces := ps, va := va, data := data
                   left := List.range (wordsIn va data.length) }

def execRdmaWrite (qp rkey : Nat) (va : Word) (data : List Byte) (s : State) : Out :=
  s.rdma qp (s.rdmaMove qp rkey va.toNat data false)

def execRdmaRead (qp rkey : Nat) (va : Word) (len : Nat) (s : State) : Out :=
  s.rdma qp (if messageMax < len then s.rdmaInvalid qp else s.rdmaMove qp rkey va.toNat (zeros len) true)

/-! ### Atomics -/

/-- An incoming atomic of region r at a translated place. -/
def State.rdmaAtomicAt (s : State) (qp : Nat) (r : Region) (p : Piece) (new : Word → Option Word) : State :=
  let s := (s.assignAll [p]).dcacheClean p.reach.pa 8
  let old := BitVec.ofNat 64 (readNat s.mem p.reach.pa 8)
  let s := match new old with
    | some v => (s.store p.reach.pa (leBytes 8 v.toNat)).notePosts
    | none => s
  ((s.markAll r.asid [p] (new old).isSome .plain).homeTouched p.reach.pa 8 (new old).isSome (!(s.ctx r.asid).fixed)).emit
    (.rdmaValue qp old)

/-- An incoming atomic (R404): one that is not aligned to 8, or that falls outside HBM, is invalid; `new` gives the word to write,
if any. -/
def State.rdmaAtomic (s : State) (qp rkey : Nat) (va : Word) (new : Word → Option Word) : State :=
  if va.toNat % 8 ≠ 0 then s.rdmaInvalid qp
  else
    match s.regionFor rkey va.toNat 8 false true with
    | none => s.emit (.rdmaAccessError qp)
    | some r =>
      let sp := s.taskSpace r.asid
      match s.translate sp .atomic va.toNat with
      | .error _ => (s.walkConsumed sp Config.harts va.toNat).emit (.rdmaAccessError qp)
      | .ok (pa, leaf) =>
        let p : Piece := { i := 0, va := va.toNat, len := 8, reach := ⟨pa, leaf, false, none⟩ }
        if placeOf pa ≠ .hbm then s.rdmaInvalid qp
        else if (s.walkTaint sp va.toNat).isSome then (s.walkConsumed sp Config.harts va.toNat).emit (.rdmaAccessError qp)
        else if (s.assignAll [p]).poisoned pa 8 then s.emit (.rdmaAccessError qp)
        else s.rdmaAtomicAt qp r p new

def execRdmaFetchAndAdd (qp rkey : Nat) (va add : Word) (s : State) : Out :=
  s.rdma qp (s.rdmaAtomic qp rkey va (fun old => some (old + add)))

def execRdmaCompareAndSwap (qp rkey : Nat) (va expect swap : Word) (s : State) : Out :=
  s.rdma qp (s.rdmaAtomic qp rkey va (fun old => if old = expect then some swap else none))

/-- An operation outside Table 19-1 (R403). -/
def execRdmaInvalidRequest (qp : Nat) (s : State) : Out := s.rdma qp (s.rdmaInvalid qp)

end Sys2Proof.Machine
end

