-- ==== Sys2Proof/Machine/Boot.lean ====
section
/-! DEFINITION. The root of trust: reset and the boot chain (R410 to R415), the security state record in flash, SPDM
sessions and measurements, and the firmware updates of Table 19-2 with the live update of R416. -/

namespace Sys2Proof.Machine

open Sys2Proof

/-! ### Flash (R412, R416) -/

/-- A flash write completes; the root of trust's slot marker is rewritten with its slot (R407). -/
def Trust.commit (t : Trust) : Trust :=
  match t.writing with
  | none => t
  | some (.record r toB) =>
    if toB then { t with recB := some r, writing := none } else { t with recA := some r, writing := none }
  | some (.scheduler img toB) =>
    if toB then { t with schedB := some img, writing := none } else { t with schedA := some img, writing := none }
  | some (.rot img toB) =>
    if toB then { t with rotB := some img, rotMarkB := true, writing := none }
    else { t with rotA := some img, rotMarkB := false, writing := none }
  | some (.config c) => { t with config := some c, writing := none }

/-- A flash write that a loss of supply interrupts: the copy or slot it went to no longer verifies, and the configuration
block of before stays. -/
def Trust.tear (t : Trust) : Trust :=
  match t.writing with
  | none => t
  | some (.record _ toB) => if toB then { t with recB := none, writing := none } else { t with recA := none, writing := none }
  | some (.scheduler _ toB) =>
    if toB then { t with schedB := none, writing := none } else { t with schedA := none, writing := none }
  | some (.rot _ toB) => if toB then { t with rotB := none, writing := none } else { t with rotA := none, writing := none }
  | some (.config _) => { t with writing := none }

/-- The copy of the security state record in force: the one with the higher count of those whose MAC verifies (R412); true
says copy B. -/
def Trust.inForce (t : Trust) : Option (SecRecord × Bool) :=
  match t.recA, t.recB with
  | none, none => none
  | some a, none => some (a, false)
  | none, some b => some (b, true)
  | some a, some b => if a.seq < b.seq then some (b, true) else some (a, false)

/-- The minimum security version in force, 0 without a record. -/
def Trust.minimum (t : Trust) : Nat := match t.inForce with
  | some (r, _) => r.minVersion
  | none => 0

/-- Whether an image verifies under R410 and R411. -/
def Trust.accepts (t : Trust) (i : Image) : Bool := i.sigOk && decide (t.minimum ≤ i.version)

/-- Whether a configuration block is at least what the record holds (R412). -/
def Trust.allows (t : Trust) (c : ConfigBlock) : Bool :=
  match t.inForce with
  | some (r, _) => decide (r.cfgVersion ≤ c.version) && decide (r.minVersion ≤ c.minVersion)
  | none => true

/-- Of two slots, B first when it is marked: the first image that verifies, and whether it stands in B. -/
def Trust.firstOf (t : Trust) (a b : Option Image) (bFirst : Bool) : Option (Image × Bool) :=
  let usable := fun (o : Option Image) (isB : Bool) => match o with
    | some i => if t.accepts i then some (i, isB) else none
    | none => none
  if bFirst then (match usable b true with
    | some x => some x
    | none => usable a false)
  else (match usable a false with
    | some x => some x
    | none => usable b true)

/-! ### The boot chain (R410 to R414, Table 19-3) -/

/-- Values the measurements start from at a reset: index 1 the mask ROM's, the others not yet measured (Table 19-4). -/
def Trust.fresh (t : Trust) : Trust :=
  { stage := .rom, rotA := t.rotA, rotB := t.rotB, rotMarkB := t.rotMarkB, schedA := t.schedA, schedB := t.schedB
    activeB := t.activeB, config := t.config, recA := t.recA, recB := t.recB, m1 := Config.sha512 0 }

/-- The write of the record before a block with higher values is applied (R412), into the copy not in force. -/
def Trust.raise (t : Trust) (c : ConfigBlock) : Trust :=
  match t.inForce with
  | none => t
  | some (r, inB) =>
    if r.cfgVersion < c.version ∨ r.minVersion < c.minVersion then
      { t with writing := some (.record ⟨r.seq + 1, c.version, c.minVersion, c.owner⟩ (!inB)) }
    else t

/-- What the boot chain comes to, with the configuration block once it is applied; recovery is a stage of its own. `replace` says
that the device asks to be replaced. -/
structure Booted where
  trust   : Trust
  config  : Option ConfigBlock := none
  replace : Bool := false

/-- The chain from the root of trust's firmware on, under a record in force. -/
def Trust.boot (t : Trust) : Booted :=
  match t.firstOf t.rotA t.rotB t.rotMarkB with
  | none => { trust := { t with stage := .recovery, recBroken := t.inForce.isNone }, replace := t.inForce.isNone }
  | some (rot, rotB) =>
    let t := { t with rotBooted := some rotB, m2 := rot.digest }
    match t.inForce with
    | none => { trust := { t with stage := .recovery, recBroken := true }, replace := true }
    | some _ =>
      match t.config with
      | none => { trust := { t with stage := .recovery } }
      | some c =>
        if !(c.sigOk && t.allows c) then { trust := { t with stage := .recovery } }
        else
          let t := { (t.raise c).commit with m3 := c.digest }
          match t.firstOf t.schedA t.schedB t.activeB with
          | none => { trust := { t with stage := .recovery }, config := some c }
          | some (img, _) => { trust := { t with stage := .scheduler, schedNow := some img, m4 := img.digest }, config := some c }

/-- Far memory and the peers' own, which a reset of this device leaves alone: the far window, and what the peers' apertures map,
beyond every physical address (R292). -/
def outsideMemory (m : Memory) : Memory :=
  m.filter (fun c => decide (Config.farBase ≤ c.1) && decide (c.1 < Config.braidEnd) || decide (2 ^ 64 ≤ c.1))

/-- The device after a loss of its volatile state: flash, what others own, and what has left it remain. -/
def State.cold (s : State) (t : Trust) : State :=
  { agenda := s.agenda, eager := s.eager, fresh := s.fresh, mem := outsideMemory s.mem, farHost := s.farHost
    peers := s.peers, out := s.out, trust := t }

/-- The Configuration stage (Table 19-3): trims, MAC addresses and BRAIDPOS, whose other bits are zero (Table 13-2). The owner's
certificate and the minimum security version stand in the security state record. -/
def State.withConfig (s : State) (c : Option ConfigBlock) : State :=
  match c with
  | none => s
  | some c => { s with trims := c.trims, macs := c.macs, braidpos := keep c.braidpos 0x0FFF0FFF }

/-- DEVICE_RESET: the boot chain runs, or the device enters recovery; `puf` says whether the derived identity key matches
its certificate (R415). -/
def execDeviceReset (puf : Bool) (s : State) : Out :=
  let b := ({ s.trust.commit.fresh with identity := puf }).boot
  .next ({ s.cold b.trust with replace := b.replace || !puf }.withConfig b.config)

/-- Loss of supply: nothing runs until the next reset. -/
def execPowerLoss (s : State) : Out := .next (s.cold s.trust.tear.fresh)

/-- The scheduler's first heartbeat opens management and RDMA intake. -/
def execSchedulerFirstHeartbeat (s : State) : Out :=
  if s.trust.stage = .scheduler then
    .next { s with trust := { s.trust.commit with stage := .open }, intakeOpen := true }
  else .next s

/-! ### Requests (R406, R413, R414) -/

/-- A status answered. -/
def State.answer (s : State) (code : Int) (value : Nat) : State := s.emit (.status code value)

/-- An earlier flash write has completed when the next request is performed. -/
def State.flashed (s : State) : State := { s with trust := s.trust.commit }

/-- Whether the request being performed travels in a session whose requester is authorised (R406). -/
def Trust.inSession (t : Trust) : Bool :=
  match t.asking with
  | some k => t.sessions.contains k
  | none => false

/-- A request that travels in no such session, or that recovery does not accept (R414), is not performed, and is answered with a
negative status; which one, the manual does not say (R406; log entry 66). -/
def State.unauthorised (s : State) : State :=
  let (w, s) := s.drawWord
  s.answer (-(1 + (w.toNat % 7 : Nat))) 0

/-- A request while management is open. -/
def State.managed (s : State) (act : State → State) : Out :=
  .next (match s.trust.stage with
    | .open => if s.trust.inSession then act s.flashed else s.unauthorised
    | .recovery => s.unauthorised
    | _ => s)

/-- A request that recovery accepts too. -/
def State.recovered (s : State) (act : State → State) : Out :=
  .next (if s.trust.stage ≠ .open ∧ s.trust.stage ≠ .recovery then s
    else if s.trust.inSession then act s.flashed else s.unauthorised)

/-- Whether the management endpoint answers at all. -/
def Trust.endpoint (t : Trust) : Bool := t.stage == .open || t.stage == .recovery

/-- Whether a certificate chain authorises its requester: the owner's digest in the record, or the root key when the record
is unusable (R406, R413). -/
def Trust.authorises (t : Trust) (c : CertChain) : Bool :=
  match t.inForce with
  | some (r, _) => if t.recBroken then c.toRoot else c.owner == r.owner
  | none => c.toRoot

/-! ### SPDM (R415, Table 19-4) -/

def Trust.measurements (t : Trust) : List Nat := [t.m1, t.m2, t.m3, t.m4, t.m5]

def execSpdmChallenge (_nonce : Nat) (s : State) : Out :=
  if s.trust.endpoint then
    .next (if s.trust.identity then s.emit (.spdm true s.trust.measurements) else s.emit (.spdm false []))
  else .next s

def execSessionKeyExchange (chain : CertChain) (s : State) : Out :=
  if s.trust.endpoint then
    let s := s.flashed
    if s.trust.identity && s.trust.authorises chain then
      let k := s.trust.nextSession
      .next ({ s with trust := { s.trust with sessions := s.trust.sessions ++ [k], nextSession := k + 1 } }.emit (.spdm true []))
    else .next (s.emit (.spdm false []))
  else .next s

/-- READ_HEALTH: HEALTH to anyone, and the named banks inside a session whose authority is not the root key alone. -/
def execReadHealth (banks : List Nat) (session : Bool) (s : State) : Out :=
  if s.trust.endpoint then
    let full := session && s.trust.inSession && !s.trust.recBroken
    .next (s.emit (.health s.health (if full then banks.map (fun b => (b, (s.bank b).words)) else [])))
  else .next s

def execClearBank (b : Nat) (s : State) : Out :=
  s.managed (fun s => if b < 148 then (s.clearBank b).answer 0 0 else s.answer (-2) 0)

/-! ### Live update (R416) -/

/-- The digest of an image added to index 5. -/
def Trust.extend (t : Trust) (digest : Nat) : Trust := { t with m5 := Config.sha512 (t.m5 * 2 ^ 512 + digest) }

/-- Rolling back: the old image runs on and intake reopens. -/
def State.rollBack (s : State) : State :=
  ({ s with trust := { s.trust with updating := none }, intakeOpen := true }).answer (-7) 0

/-- An image written to the inactive scheduler slot. -/
def Trust.putScheduler (t : Trust) (img : Image) : Trust :=
  if t.activeB then { t with schedA := some img } else { t with schedB := some img }

/-- Steps 2 to 4 of the live update: intake is quiesced, index 5 extended, and the handover structure written, whose contents the
manual does not give (log entry 69). -/
def State.handOver (s : State) (img : Image) : State :=
  let (version, s) := s.drawWord
  let (heartbeatAt, s) := s.drawWord
  { s with
    trust := { s.trust.extend img.digest with updating := some img, handover := some ⟨version, heartbeatAt⟩, heartbeat := 0 }
    intakeOpen := false }

/-- Steps 1 to 5 of the live update, or the write for the next reset. -/
def State.update (s : State) (img : Image) : State :=
  if s.trust.updating.isSome then s.answer (-1) 0
  else if s.trust.stage = .recovery then
    let s := { s with trust := { s.trust with writing := some (.scheduler img (!s.trust.activeB)) } }
    if !img.sigOk then s.answer (-5) 0 else if img.version < s.trust.minimum then s.answer (-6) 0 else s.answer 0 0
  else
    let s := { s with trust := s.trust.putScheduler img }
    if !img.sigOk then s.answer (-5) 0
    else if img.version < s.trust.minimum then s.answer (-6) 0
    else
      let s := s.handOver img
      if img.handover then s else s.rollBack

def execUpdate (img : Image) (s : State) : Out := s.recovered (fun s => s.update img)

/-- Step 6: the new image writes its heartbeat word; the switch is complete, and the other slot is active from now on. -/
def execUpdateHeartbeat (s : State) : Out :=
  match s.trust.updating with
  | none => .next s
  | some img =>
    let s := s.flashed
    .next (({ s with
      trust := { s.trust with updating := none, heartbeat := 1, schedNow := some img, activeB := !s.trust.activeB }
      intakeOpen := true }).answer 0 0)

/-- Step 7: no heartbeat came within 100 ms. -/
def execUpdateHeartbeatTimeout (s : State) : Out :=
  match s.trust.updating with
  | none => .next s
  | some _ => .next s.flashed.rollBack

/-! ### Other updates -/

def State.updateConfig (s : State) (c : ConfigBlock) : State :=
  if s.trust.updating.isSome then s.answer (-1) 0
  else if !c.sigOk then s.answer (-5) 0
  else if !s.trust.allows c then s.answer (-6) 0
  else ({ s with trust := { s.trust with writing := some (.config c) } }).answer 0 0

/-- In a recovery without a usable record the block that is installed also begins a new record, without which no later
reset could leave recovery (R413). -/
def State.newRecord (s : State) (c : ConfigBlock) : State :=
  if s.trust.stage = .recovery ∧ s.trust.inForce.isNone ∧ c.sigOk then
    { s with trust := { s.trust with recA := some ⟨1, c.version, c.minVersion, c.owner⟩ } }
  else s

def execUpdateConfig (cfg : ConfigBlock) (s : State) : Out :=
  s.recovered (fun s => (s.updateConfig cfg).newRecord cfg)

/-- The image goes to the slot that did not boot; slot A when neither did. -/
def State.updateRot (s : State) (img : Image) : State :=
  if s.trust.updating.isSome then s.answer (-1) 0
  else if !img.sigOk then s.answer (-5) 0
  else if img.version < s.trust.minimum then s.answer (-6) 0
  else
    ({ s with trust := { s.trust with writing := some (.rot img (s.trust.rotBooted == some false)) } }).answer 0 0

def execUpdateRot (img : Image) (s : State) : Out := s.recovered (fun s => s.updateRot img)

end Sys2Proof.Machine
end

