-- ==== Sys2Proof/Machine/Control.lean ====
section
/-! DEFINITION. Branches and jumps (R311, R312). -/

namespace Sys2Proof.Machine

open Sys2Proof

/-- Continue at P + 4 × sext(off, n) when the relation holds, at P + 4 otherwise (R311). -/
def State.branch (s : State) (a b : XReg) (o : BitVec 11) (rel : Word → Word → Bool) : Out :=
  s.whenReady [a, b]
    (if rel (s.cur.getX a) (s.cur.getX b) then s.jumpTo s.cur (s.cur.pc + o.signExtend 64 * 4)
     else s.doneWith s.cur 4)

def execBeq (a b : XReg) (o : BitVec 11) (s : State) : Out := s.branch a b o (fun x y => x == y)
def execBne (a b : XReg) (o : BitVec 11) (s : State) : Out := s.branch a b o (fun x y => x != y)
def execBlt (a b : XReg) (o : BitVec 11) (s : State) : Out := s.branch a b o (fun x y => x.slt y)
def execBge (a b : XReg) (o : BitVec 11) (s : State) : Out := s.branch a b o (fun x y => !x.slt y)
def execBltu (a b : XReg) (o : BitVec 11) (s : State) : Out := s.branch a b o (fun x y => x.ult y)
def execBgeu (a b : XReg) (o : BitVec 11) (s : State) : Out := s.branch a b o (fun x y => !x.ult y)

/-- J: P + 4 × sext(off24, 24). -/
def execJ (o : BitVec 24) (s : State) : Out := s.jumpTo s.cur (s.cur.pc + o.signExtend 64 * 4)

/-- JL: the same, with x1 := P + 4. -/
def execJl (o : BitVec 24) (s : State) : Out :=
  s.whenReady [1] (s.jumpTo (s.cur.setX 1 (s.cur.pc + 4)) (s.cur.pc + o.signExtend 64 * 4))

/-- JLR: to x[ra] + sext(imm14), from x[ra] before the write of x[rd] := P + 4. -/
def execJlr (d a : XReg) (i : BitVec 14) (s : State) : Out :=
  s.whenReady [d, a] (s.jumpTo (s.cur.setX d (s.cur.pc + 4)) (s.cur.getX a + i.signExtend 64))

end Sys2Proof.Machine
end

