-- ==== Sys2Proof/Machine/Elementwise.lean ====
section
/-! DEFINITION. The elementwise vector instructions (R182 to R199).
The scalar stream posts each; `runVector` or `runMatrix` gives its effect at the head of its queue. -/

namespace Sys2Proof.Machine

open Sys2Proof

/-! R189 -/

def execVfaddVV (d a b : VReg) (m : MReg) (s : State) : Out := s.post (.bin .fadd d a (.vec b) m)
def execVfaddVX (d a : VReg) (x : XReg) (m : MReg) (s : State) : Out := s.post (.bin .fadd d a (.sc x) m)
def execVfsubVV (d a b : VReg) (m : MReg) (s : State) : Out := s.post (.bin .fsub d a (.vec b) m)
def execVfsubVX (d a : VReg) (x : XReg) (m : MReg) (s : State) : Out := s.post (.bin .fsub d a (.sc x) m)
def execVfmulVV (d a b : VReg) (m : MReg) (s : State) : Out := s.post (.bin .fmul d a (.vec b) m)
def execVfmulVX (d a : VReg) (x : XReg) (m : MReg) (s : State) : Out := s.post (.bin .fmul d a (.sc x) m)
def execVfdivVV (d a b : VReg) (m : MReg) (s : State) : Out := s.post (.bin .fdiv d a (.vec b) m)
def execVfdivVX (d a : VReg) (x : XReg) (m : MReg) (s : State) : Out := s.post (.bin .fdiv d a (.sc x) m)
def execVfminVV (d a b : VReg) (m : MReg) (s : State) : Out := s.post (.bin .fmin d a (.vec b) m)
def execVfminVX (d a : VReg) (x : XReg) (m : MReg) (s : State) : Out := s.post (.bin .fmin d a (.sc x) m)
def execVfmaxVV (d a b : VReg) (m : MReg) (s : State) : Out := s.post (.bin .fmax d a (.vec b) m)
def execVfmaxVX (d a : VReg) (x : XReg) (m : MReg) (s : State) : Out := s.post (.bin .fmax d a (.sc x) m)
def execVfsgnjVV (d a b : VReg) (m : MReg) (s : State) : Out := s.post (.bin .fsgnj d a (.vec b) m)
def execVfsgnjVX (d a : VReg) (x : XReg) (m : MReg) (s : State) : Out := s.post (.bin .fsgnj d a (.sc x) m)
def execVfsgnjnVV (d a b : VReg) (m : MReg) (s : State) : Out := s.post (.bin .fsgnjn d a (.vec b) m)
def execVfsgnjnVX (d a : VReg) (x : XReg) (m : MReg) (s : State) : Out := s.post (.bin .fsgnjn d a (.sc x) m)

/-! R197 -/

def execVfscaleVV (d a b : VReg) (m : MReg) (s : State) : Out := s.post (.bin .fscale d a (.vec b) m)
def execVfscaleVX (d a : VReg) (x : XReg) (m : MReg) (s : State) : Out := s.post (.bin .fscale d a (.sc x) m)

/-! R198 -/

def execVaddVV (d a b : VReg) (m : MReg) (s : State) : Out := s.post (.bin .add d a (.vec b) m)
def execVaddVX (d a : VReg) (x : XReg) (m : MReg) (s : State) : Out := s.post (.bin .add d a (.sc x) m)
def execVsubVV (d a b : VReg) (m : MReg) (s : State) : Out := s.post (.bin .sub d a (.vec b) m)
def execVsubVX (d a : VReg) (x : XReg) (m : MReg) (s : State) : Out := s.post (.bin .sub d a (.sc x) m)
def execVmulVV (d a b : VReg) (m : MReg) (s : State) : Out := s.post (.bin .mul d a (.vec b) m)
def execVmulVX (d a : VReg) (x : XReg) (m : MReg) (s : State) : Out := s.post (.bin .mul d a (.sc x) m)
def execVandVV (d a b : VReg) (m : MReg) (s : State) : Out := s.post (.bin .and d a (.vec b) m)
def execVandVX (d a : VReg) (x : XReg) (m : MReg) (s : State) : Out := s.post (.bin .and d a (.sc x) m)
def execVorVV (d a b : VReg) (m : MReg) (s : State) : Out := s.post (.bin .or d a (.vec b) m)
def execVorVX (d a : VReg) (x : XReg) (m : MReg) (s : State) : Out := s.post (.bin .or d a (.sc x) m)
def execVxorVV (d a b : VReg) (m : MReg) (s : State) : Out := s.post (.bin .xor d a (.vec b) m)
def execVxorVX (d a : VReg) (x : XReg) (m : MReg) (s : State) : Out := s.post (.bin .xor d a (.sc x) m)
def execVminVV (d a b : VReg) (m : MReg) (s : State) : Out := s.post (.bin .min d a (.vec b) m)
def execVminVX (d a : VReg) (x : XReg) (m : MReg) (s : State) : Out := s.post (.bin .min d a (.sc x) m)
def execVmaxVV (d a b : VReg) (m : MReg) (s : State) : Out := s.post (.bin .max d a (.vec b) m)
def execVmaxVX (d a : VReg) (x : XReg) (m : MReg) (s : State) : Out := s.post (.bin .max d a (.sc x) m)
def execVsllVV (d a b : VReg) (m : MReg) (s : State) : Out := s.post (.bin .sll d a (.vec b) m)
def execVsllVX (d a : VReg) (x : XReg) (m : MReg) (s : State) : Out := s.post (.bin .sll d a (.sc x) m)
def execVsrlVV (d a b : VReg) (m : MReg) (s : State) : Out := s.post (.bin .srl d a (.vec b) m)
def execVsrlVX (d a : VReg) (x : XReg) (m : MReg) (s : State) : Out := s.post (.bin .srl d a (.sc x) m)
def execVsraVV (d a b : VReg) (m : MReg) (s : State) : Out := s.post (.bin .sra d a (.vec b) m)
def execVsraVX (d a : VReg) (x : XReg) (m : MReg) (s : State) : Out := s.post (.bin .sra d a (.sc x) m)
def execVminuVV (d a b : VReg) (m : MReg) (s : State) : Out := s.post (.bin .minu d a (.vec b) m)
def execVminuVX (d a : VReg) (x : XReg) (m : MReg) (s : State) : Out := s.post (.bin .minu d a (.sc x) m)
def execVmaxuVV (d a b : VReg) (m : MReg) (s : State) : Out := s.post (.bin .maxu d a (.vec b) m)
def execVmaxuVX (d a : VReg) (x : XReg) (m : MReg) (s : State) : Out := s.post (.bin .maxu d a (.sc x) m)
def execVmulhVV (d a b : VReg) (m : MReg) (s : State) : Out := s.post (.bin .mulh d a (.vec b) m)
def execVmulhVX (d a : VReg) (x : XReg) (m : MReg) (s : State) : Out := s.post (.bin .mulh d a (.sc x) m)

/-! R190 -/

def execVfmaVV (d a b : VReg) (m : MReg) (s : State) : Out := s.post (.fma .fma d a (.vec b) m)
def execVfmaVX (d a : VReg) (x : XReg) (m : MReg) (s : State) : Out := s.post (.fma .fma d a (.sc x) m)
def execVfmsVV (d a b : VReg) (m : MReg) (s : State) : Out := s.post (.fma .fms d a (.vec b) m)
def execVfmsVX (d a : VReg) (x : XReg) (m : MReg) (s : State) : Out := s.post (.fma .fms d a (.sc x) m)
def execVfnmaVV (d a b : VReg) (m : MReg) (s : State) : Out := s.post (.fma .fnma d a (.vec b) m)
def execVfnmaVX (d a : VReg) (x : XReg) (m : MReg) (s : State) : Out := s.post (.fma .fnma d a (.sc x) m)
def execVfnmsVV (d a b : VReg) (m : MReg) (s : State) : Out := s.post (.fma .fnms d a (.vec b) m)
def execVfnmsVX (d a : VReg) (x : XReg) (m : MReg) (s : State) : Out := s.post (.fma .fnms d a (.sc x) m)

/-! R191 -/

def execVfceqVV (d : MReg) (a b : VReg) (m : MReg) (s : State) : Out := s.post (.cmp .fceq d a (.vec b) m)
def execVfceqVX (d : MReg) (a : VReg) (x : XReg) (m : MReg) (s : State) : Out := s.post (.cmp .fceq d a (.sc x) m)
def execVfcltVV (d : MReg) (a b : VReg) (m : MReg) (s : State) : Out := s.post (.cmp .fclt d a (.vec b) m)
def execVfcltVX (d : MReg) (a : VReg) (x : XReg) (m : MReg) (s : State) : Out := s.post (.cmp .fclt d a (.sc x) m)
def execVfcleVV (d : MReg) (a b : VReg) (m : MReg) (s : State) : Out := s.post (.cmp .fcle d a (.vec b) m)
def execVfcleVX (d : MReg) (a : VReg) (x : XReg) (m : MReg) (s : State) : Out := s.post (.cmp .fcle d a (.sc x) m)
def execVfcneVV (d : MReg) (a b : VReg) (m : MReg) (s : State) : Out := s.post (.cmp .fcne d a (.vec b) m)
def execVfcneVX (d : MReg) (a : VReg) (x : XReg) (m : MReg) (s : State) : Out := s.post (.cmp .fcne d a (.sc x) m)

/-! R199 -/

def execVceqVV (d : MReg) (a b : VReg) (m : MReg) (s : State) : Out := s.post (.cmp .ceq d a (.vec b) m)
def execVceqVX (d : MReg) (a : VReg) (x : XReg) (m : MReg) (s : State) : Out := s.post (.cmp .ceq d a (.sc x) m)
def execVcltVV (d : MReg) (a b : VReg) (m : MReg) (s : State) : Out := s.post (.cmp .clt d a (.vec b) m)
def execVcltVX (d : MReg) (a : VReg) (x : XReg) (m : MReg) (s : State) : Out := s.post (.cmp .clt d a (.sc x) m)

/-! R192 -/

def execVfsqrt (d a : VReg) (r : BitVec 3) (m : MReg) (s : State) : Out := s.post (.un .sqrt d a r m)

/-! R194 -/

def execVfrec (d a : VReg) (m : MReg) (s : State) : Out := s.post (.un .recip d a 0 m)
def execVfrsq (d a : VReg) (m : MReg) (s : State) : Out := s.post (.un .rsq d a 0 m)

/-! R195 -/

def execVfexpf (d a : VReg) (m : MReg) (s : State) : Out := s.post (.un .expf d a 0 m)

/-! R192 -/

def execVfrint (d a : VReg) (r : BitVec 3) (m : MReg) (s : State) : Out := s.post (.un .rint d a r m)
def execVfclass (d a : VReg) (m : MReg) (s : State) : Out := s.post (.un .cls d a 0 m)
def execVfabs (d a : VReg) (m : MReg) (s : State) : Out := s.post (.un .abs d a 0 m)
def execVfneg (d a : VReg) (m : MReg) (s : State) : Out := s.post (.un .neg d a 0 m)

/-! R196 -/

def execVfcvtWF (d a : VReg) (r : BitVec 3) (m : MReg) (s : State) : Out := s.post (.un .cvtWF d a r m)
def execVfcvtFW (d a : VReg) (r : BitVec 3) (m : MReg) (s : State) : Out := s.post (.un .cvtFW d a r m)

/-! R192 -/

def execVfcvtBF (d a : VReg) (r : BitVec 3) (m : MReg) (s : State) : Out := s.post (.un .cvtBF d a r m)
def execVfcvtFB (d a : VReg) (m : MReg) (s : State) : Out := s.post (.un .cvtFB d a 0 m)
def execVfgetexp (d a : VReg) (m : MReg) (s : State) : Out := s.post (.un .getexp d a 0 m)
def execVfgetmant (d a : VReg) (m : MReg) (s : State) : Out := s.post (.un .getmant d a 0 m)

end Sys2Proof.Machine
end

