-- ==== Sys2Proof/Machine/Host.lean ====
section
/-! DEFINITION. Management requests about contexts and what they expose (R123, R406 to R409, Table 19-2). Each is one event
of the global order, in an authorised session, and has one answer. -/

namespace Sys2Proof.Machine

open Sys2Proof

/-! ### Cluster SRAM (R123) -/

/-- Units of 64 KiB in a cluster, and in a bank group. -/
def sramUnits : Nat := 1024
def groupUnits : Nat := 128

/-- Units of cluster c that contexts hold. -/
def State.takenUnits (s : State) (c : Nat) : List Nat :=
  s.ctxs.flatMap (fun p => if p.2.live then (p.2.sram.filter (fun u => u.1 == c)).map (·.2) else [])

/-- Bank groups of cluster c that fixed-timing contexts hold. -/
def State.fixedGroups (s : State) (c : Nat) : List Nat :=
  s.ctxs.flatMap (fun p =>
    if p.2.live && p.2.fixed then ((p.2.sram.filter (fun u => u.1 == c)).map (fun u => u.2 / groupUnits)).eraseDups else [])

/-- Free units of cluster c for a context without fixed timing: n of them, lowest first. -/
def State.someUnits (s : State) (c n : Nat) : Option (List Nat) :=
  let taken := s.takenUnits c
  let kept := s.fixedGroups c
  let free := (List.range sramUnits).filter (fun u => !taken.contains u && !kept.contains (u / groupUnits))
  if n ≤ free.length then some (free.take n) else none

/-- Whole free bank groups of cluster c that hold n units, lowest first. -/
def State.wholeGroups (s : State) (c n : Nat) : Option (List Nat) :=
  let taken := s.takenUnits c
  let free := (List.range (sramUnits / groupUnits)).filter (fun b => !taken.any (fun u => u / groupUnits == b))
  let want := (n + groupUnits - 1) / groupUnits
  if want ≤ free.length then
    some ((free.take want).flatMap (fun b => (List.range groupUnits).map (fun i => groupUnits * b + i)))
  else none

/-- The units of every cluster, or nothing. -/
def State.allUnits (s : State) (fixed : Bool) : (c : Nat) → List Nat → Option (List (Nat × Nat))
  | _, [] => some []
  | c, n :: rest =>
    match (if fixed then s.wholeGroups c n else s.someUnits c n), s.allUnits fixed (c + 1) rest with
    | some us, some more => some (us.map (fun u => (c, u)) ++ more)
    | _, _ => none

/-! ### Contexts -/

/-- Contexts resident at once. -/
def residentMax : Nat := 64

/-- The lowest free ASID from 1 on. -/
def State.freeAsid (s : State) : Option Nat :=
  (List.range 65535).findSome? (fun i => if (s.ctx (i + 1)).live then none else some (i + 1))

/-- Whether CREATE_CONTEXT's arguments are good. -/
def contextArgs (root : Word) (minCheck : Nat) (endRec : Word) (units : List Nat) : Bool :=
  decide (minCheck ≤ 2) && decide (root.toNat % 4096 = 0) && decide (root.toNat < Config.hbmBytes) &&
    decide (endRec.toNat % 64 = 0) && decide (endRec.toNat < Config.hbmBytes) && decide (units.length = 4)

def State.createContext (s : State) (root : Word) (minCheck : Nat) (endRec : Word) (units : List Nat) (fixed : Bool) : State :=
  if residentMax ≤ (s.ctxs.filter (fun p => p.2.live)).length then s.answer (-1) 0
  else if !contextArgs root minCheck endRec units then s.answer (-2) 0
  else
    match s.allUnits fixed 0 units, s.freeAsid with
    | some us, some a =>
      (s.setCtx a { live := true, root := root, minCheck := minCheck, endRec := endRec.toNat, sram := us, fixed := fixed }).answer
        0 a
    | _, _ => s.answer (-3) 0

def execCreateContext (root : Word) (minCheck : Nat) (endRec : Word) (units : List Nat) (fixed : Bool) (s : State) : Out :=
  s.managed (fun s => s.createContext root minCheck endRec units fixed)

/-- END_CONTEXT: CAUSE 0, unless another event came first. -/
def execEndContext (asid : Nat) (s : State) : Out :=
  s.managed (fun s =>
    if (s.ctx asid).live then ((s.noteEnd asid endRequest).endContext asid).answer 0 0 else s.answer (-2) 0)

/-! ### Queues -/

/-- Where the control block of queue q stands: in a page of 64 KiB of its own, among the highest of HBM, so that a poster's page
reaches no other context's queue (R5; log entry 8). -/
def controlBlock (q : Nat) : Nat := 0x7FF0000000 + 65536 * q

/-- The lowest free queue. -/
def State.freeQueueNumber (s : State) : Option Nat :=
  (List.range 4096).findSome? (fun q => if (s.queue q).live then none else some q)

/-- Whether CREATE_QUEUE's arguments are good (Table 15-3). -/
def queueArgs (ring : Word) (size quantum : Nat) (mirror : Word) : Bool :=
  decide (size ∈ [16, 32, 64, 128, 256, 512, 1024, 2048, 4096, 8192, 16384, 32768, 65536]) &&
    decide (ring.toNat % 128 = 0) && decide (ring.toNat + 128 * size ≤ Config.hbmBytes) && decide (quantum < 65536) &&
    decide (mirror.toNat % 32 = 0) && decide (mirror.toNat + 32 ≤ Config.hbmBytes)

/-- The control block of a new queue. -/
def newControl (ring : Word) (size asid quantum : Nat) (device : Bool) : List Byte :=
  zeros 16 ++ leBytes 8 ring.toNat ++ leBytes 4 size ++ leBytes 2 asid ++ leBytes 2 quantum ++ zeros 13 ++
    leBytes 1 (if device then 1 else 0) ++ zeros 18

def State.createQueue (s : State) (asid : Nat) (ring : Word) (size quantum : Nat) (device : Bool) (mirror : Word) : State :=
  match s.freeQueueNumber with
  | none => s.answer (-1) 0
  | some q =>
    if !(s.ctx asid).live || !queueArgs ring size quantum mirror then s.answer (-2) 0
    else
      let s := s.store (controlBlock q) (newControl ring size asid quantum device)
      (s.setQueue q { live := true, asid := asid, ctl := controlBlock q, ring := ring.toNat, size := size, quantum := quantum,
                        mirror := mirror.toNat }).answer 0 q

def execCreateQueue (asid : Nat) (ring : Word) (size quantum : Nat) (device : Bool) (mirror : Word) (s : State) : Out :=
  s.managed (fun s => s.createQueue asid ring size quantum device mirror)

/-- A task that waits no more for some tasks. -/
def Task.withoutEdges (t : Task) (gone : List Nat) : Task := { t with edges := t.edges.filter (fun o => !gone.contains o) }

/-- DESTROY_QUEUE: what has not been taken in is discarded; the queue is free, and the request answered, once its last task has
completed. -/
def State.destroyQueue (s : State) (q : Nat) : State :=
  if !(s.queue q).live || (s.queue q).closing then s.answer (-2) 0
  else
    let gone := (s.tasks.filter (fun (t : Task) => t.queue == q && t.st == .posted)).map (fun (t : Task) => t.order)
    let s := s.setQueue q { s.queue q with closing := true, asked := true }
    let left := (s.tasks.filter (fun (t : Task) => !gone.contains t.order)).map (fun (t : Task) => t.withoutEdges gone)
    ({ s with tasks := left }.freeQueue q).promote

def execDestroyQueue (q : Nat) (s : State) : Out := s.managed (fun s => s.destroyQueue q)

/-! ### Exposed regions -/

def State.exposeRegion (s : State) (asid : Nat) (base len : Nat) (rd wr : Bool) : State :=
  if !(s.ctx asid).live || base % 65536 != 0 || len % 65536 != 0 || len == 0 || decide (2 ^ 52 < base + len) then s.answer (-2) 0
  else if 1024 ≤ (s.regions.filter (fun r => r.2.asid == asid)).length then s.answer (-1) 0
  else
    ({ s with regions := tput s.regions s.nextRkey (⟨asid, base, len, rd, wr⟩ : Region), nextRkey := s.nextRkey + 1 }).answer 0 s.nextRkey

def execExpose (asid : Nat) (base : Word) (len : Nat) (rd wr : Bool) (s : State) : Out :=
  s.managed (fun s => s.exposeRegion asid base.toNat len rd wr)

/-- UNEXPOSE: it is performed once every operation already accepted on its rkey has been (R407). -/
def execUnexpose (rkey : Nat) (s : State) : Out :=
  if s.incoming.any (fun x => x.rkey == rkey) then .next s
  else s.managed (fun s =>
    match tfind s.regions rkey with
    | none => s.answer (-2) 0
    | some _ => ({ s with regions := tdel s.regions rkey }).answer 0 0)

/-! ### Mirrors (R408) -/

def State.registerMirror (s : State) (sig record : Nat) : State :=
  if sig % 8 ≠ 0 ∨ Config.hbmBytes ≤ sig ∨ record % 32 ≠ 0 ∨ Config.hbmBytes ≤ record ∨
      s.mirrors.any (fun m => m.sig == sig) then s.answer (-2) 0
  else if 128 ≤ (s.mirrors.filter (fun m => stackOf m.sig == stackOf sig)).length then s.answer (-1) 0
  else ({ s with mirrors := s.mirrors ++ [({ sig := sig, record := record } : Mirror)] }).answer 0 0

def execRegisterMirror (sig record : Word) (s : State) : Out :=
  s.managed (fun s => s.registerMirror sig.toNat record.toNat)

def execUnregisterMirror (sig : Word) (s : State) : Out :=
  s.managed (fun s =>
    if s.mirrors.any (fun m => m.sig == sig.toNat) then
      ({ s with mirrors := s.mirrors.filter (fun m => m.sig != sig.toNat) }).answer 0 0
    else s.answer (-2) 0)

/-! ### Braid groups and apertures (R292, R299) -/

def State.joinGroup (s : State) (asid gid rank size : Nat) : State :=
  let x := s.ctx asid
  if !x.live || decide (65536 ≤ gid) || decide (size ≤ rank) || x.members.any (fun m => m.gid == gid && m.size != size) then
    s.answer (-2) 0
  else if x.members.any (fun m => m.gid == gid && m.rank == rank) ||
      s.ctxs.any (fun p => p.1 != asid && p.2.live && p.2.members.any (fun m => m.gid == gid)) then s.answer (-4) 0
  else (s.setCtx asid { x with members := x.members ++ [⟨gid, rank, size⟩] }).answer 0 0

def execJoinGroup (asid gid rank size : Nat) (s : State) : Out := s.managed (fun s => s.joinGroup asid gid rank size)

/-- Every REDUCE operation of a group that has not completed, fired or not, completes with GROUP (R407). -/
def Ctx.endGroup (x : Ctx) (gid : Nat) : Ctx :=
  x.leases.foldl (fun x p => p.2.ops.foldl (fun x o =>
    if o.desc.isReduce && o.desc.gid == gid then x.endOp p.1 o 4 else x) x) x

/-- LEAVE_GROUP: the operations of the group end at this member and, by a message, at every member that can be reached. -/
def State.leaveGroup (s : State) (asid gid : Nat) : State :=
  let x := s.ctx asid
  if x.live && x.members.any (fun m => m.gid == gid) then
    let y := x.endGroup gid
    let s := s.setCtx asid { y with members := y.members.filter (fun m => m.gid != gid) }
    ((s.tellGroup gid (fun pos => .reduceGroup pos gid)).dropRanks gid).answer 0 0
  else s.answer (-2) 0

def execLeaveGroup (asid gid : Nat) (s : State) : Out := s.managed (fun s => s.leaveGroup asid gid)

/-- Whether a virtual page of a context lies in HBM. -/
def State.hbmPage (s : State) (asid va : Nat) : Bool :=
  match s.translate (s.taskSpace asid) .read va with
  | .ok (pa, _) => decide (placeOf pa = .hbm)
  | .error _ => false

def State.mapAperture (s : State) (asid page va : Nat) : State :=
  let x := s.ctx asid
  if !x.live || decide (4096 ≤ page) || va % 65536 != 0 || !s.hbmPage asid va then s.answer (-2) 0
  else (s.setCtx asid { x with apertures := tput x.apertures page va }).answer 0 0

def execMapAperture (asid page : Nat) (va : Word) (s : State) : Out := s.managed (fun s => s.mapAperture asid page va.toNat)

def execUnmapAperture (asid page : Nat) (s : State) : Out :=
  s.managed (fun s =>
    let x := s.ctx asid
    match tfind x.apertures page with
    | none => s.answer (-2) 0
    | some _ =>
      if x.live then (s.setCtx asid { x with apertures := tdel x.apertures page }).answer 0 0 else s.answer (-2) 0)

end Sys2Proof.Machine
end

