-- ==== Sys2Proof/Machine/Jobs.lean ====
section
/-! DEFINITION. The copy, register-transfer, matrix and millrace instructions that a queue holds (R92 to R101, R223 to R235, R252 to R255, R294 to R297).
The scalar stream posts each; `runVector` or `runMatrix` gives its effect at the head of its queue. The scalar members of the
millrace group stand at the end. -/

namespace Sys2Proof.Machine

open Sys2Proof

/-! R95 -/

def execCopy (d a b : XReg) (src dst : SReg) (tag : BitVec 6) (fl : BitVec 4) (s : State) : Out :=
  s.post (.copy d a b src dst tag fl)
def execCopyf (d a b : XReg) (dst : SReg) (tag : BitVec 6) (fl : BitVec 4) (s : State) : Out :=
  s.post (.copyf d a b dst tag fl)

/-! R101 -/

def execCopystat (d : XReg) (tag : BitVec 6) (s : State) : Out := s.post (.copystat d tag)

/-! R255 -/

def execMfeed (a : VReg) (x : XReg) (s : State) : Out := s.post (.mfeed a x)
def execMdrain (d : VReg) (x : XReg) (s : State) : Out := s.post (.mdrain d x)

/-! R296 -/

def execSend (a : VReg) (x : XReg) (s : State) : Out := s.post (.send a x)
def execRecv (d : XReg) (v : VReg) (x : XReg) (s : State) : Out := s.post (.recv d v x)
def execRsig (x : XReg) (s : State) : Out := s.post (.rsig x)

/-! R224 -/

def execMldb (a b : XReg) (fmt n : BitVec 8) (k : BitVec 9) (slot : BitVec 1) (s : State) : Out :=
  s.post (.mldb false a b fmt n k slot)
def execMldbFf (a b : XReg) (fmt n : BitVec 8) (k : BitVec 9) (slot : BitVec 1) (s : State) : Out :=
  s.post (.mldb true a b fmt n k slot)

/-! R229 -/

def execMma (a d : VReg) (mm n : BitVec 8) (k : BitVec 9) (acc slot : BitVec 1) (s : State) : Out :=
  s.post (.mma a d mm n k acc slot)

/-! R233 -/

def execMprog (d : XReg) (slot : BitVec 1) (s : State) : Out := s.post (.mprog d slot)

/-! R234 -/

def execMsync (s : State) : Out := s.post (.msync)

/-! R235 -/

def execMchk (d : XReg) (clr : BitVec 1) (s : State) : Out := s.post (.mchk d clr)

/-! R252 -/

def execMrun (d x : XReg) (s : State) : Out := s.post (.mrun d x)

/-! ### The scalar members (R253, R254, R256) -/

/-- What an instruction of major 0x39 does under a well-formed configuration; otherwise VILL (R164). -/
def State.configured (s : State) (o : Out) : Out := if vcIll s.cur.vconf then s.trap causeVill else o

def execMstop (s : State) : Out :=
  s.configured
    (let pn := pairOf s.turn
     let m := s.mill pn
     let s' := if m.ended || m.status != 1 then s else (s.setMill pn { m with stopReq := true }).millEager pn
     s'.doneWith s'.cur 4)

/-- MWAITD: the oldest undelivered event whose kind the mask names. -/
def execMwaitd (d x : XReg) (s : State) : Out :=
  s.configured (s.whenReady [d, x]
    (let mask := (s.cur.getX x).toNat % 8
     let h := s.cur
     match h.events.find? (fun e => bit mask (e.kind - 1)) with
     | some e =>
       let s1 := s.setCur { h with events := h.events.erase e }
       let s2 := s1.millEager (pairOf s.turn)
       s2.finish d (BitVec.ofNat 64 (eventWord e)) 4
     | none =>
       if mask = 0 ∨ (s.mill (pairOf s.turn)).ended then s.finish d 0 4
       else .next (s.millEager (pairOf s.turn))))

def execMlah (d : XReg) (sel : BitVec 6) (s : State) : Out :=
  s.configured (s.whenReady [d] (s.finish d (BitVec.ofNat 64 ((s.mill (pairOf s.turn)).look sel.toNat)) 4))

end Sys2Proof.Machine
end

