-- ==== Sys2Proof/Machine/Lanes.lean ====
section
/-! DEFINITION. The mask, permutation, reduction and generator instructions (R200 to R218).
The scalar stream posts each; `runVector` or `runMatrix` gives its effect at the head of its queue. -/

namespace Sys2Proof.Machine

open Sys2Proof

/-! R201 -/

def execVmand (d a b m : MReg) (s : State) : Out := s.post (.mask2 .and d a b m)
def execVmor (d a b m : MReg) (s : State) : Out := s.post (.mask2 .or d a b m)
def execVmxor (d a b m : MReg) (s : State) : Out := s.post (.mask2 .xor d a b m)
def execVmandn (d a b m : MReg) (s : State) : Out := s.post (.mask2 .andn d a b m)
def execVmnot (d a m : MReg) (s : State) : Out := s.post (.maskNot d a m)
def execVmset (d m : MReg) (s : State) : Out := s.post (.maskSet d m)

/-! R202 -/

def execVmpopc (d : XReg) (a m : MReg) (s : State) : Out := s.post (.maskPopc d a m)
def execVmfirst (d : XReg) (a m : MReg) (s : State) : Out := s.post (.maskFirst d a m)

/-! R205 -/

def execVslideup (d a : VReg) (x : XReg) (m : MReg) (s : State) : Out :=
  if d = a then s.trap causeIllegal else s.post (.slideUp d a x m)
def execVslidedn (d a : VReg) (x : XReg) (m : MReg) (s : State) : Out :=
  if d = a then s.trap causeIllegal else s.post (.slideDn d a x m)
def execVgather (d a b : VReg) (m : MReg) (s : State) : Out :=
  if d = a ∨ d = b then s.trap causeIllegal else s.post (.gather d a b m)

/-! R206 -/

def execVcompress (d a : VReg) (m : MReg) (s : State) : Out :=
  if d = a then s.trap causeIllegal else s.post (.compress d a m)
def execVexpand (d a : VReg) (m : MReg) (s : State) : Out :=
  if d = a then s.trap causeIllegal else s.post (.expand d a m)

/-! R207 -/

def execVmerge (d a b : VReg) (m : MReg) (s : State) : Out := s.post (.merge d a b m)
def execVbcast (d : VReg) (x : XReg) (m : MReg) (s : State) : Out := s.post (.bcast d x m)

/-! R205 -/

def execVextract (d : XReg) (a : VReg) (x : XReg) (s : State) : Out := s.post (.extract d a x)

/-! R148 -/

def execVfredsum (d a b : VReg) (m : MReg) (s : State) : Out := s.post (.red .fsum d a b m)

/-! R210 -/

def execVfredmax (d a b : VReg) (m : MReg) (s : State) : Out := s.post (.red .fmax d a b m)
def execVfredmin (d a b : VReg) (m : MReg) (s : State) : Out := s.post (.red .fmin d a b m)
def execVredsum (d a b : VReg) (m : MReg) (s : State) : Out := s.post (.red .sum d a b m)
def execVredmax (d a b : VReg) (m : MReg) (s : State) : Out := s.post (.red .max d a b m)
def execVredmin (d a b : VReg) (m : MReg) (s : State) : Out := s.post (.red .min d a b m)

/-! R150 -/

def execVfredosum (d a b : VReg) (m : MReg) (s : State) : Out := s.post (.red .fosum d a b m)

/-! R213 -/

def execVseq (m : MReg) (d : VReg) (start inc : BitVec 16) (s : State) : Out := s.post (.seq m d start inc)
def execVfbcasti (m : MReg) (d : VReg) (imm : BitVec 32) (s : State) : Out := s.post (.fbcasti m d imm)
def execVbcasti (m : MReg) (d : VReg) (imm : BitVec 32) (s : State) : Out := s.post (.bcasti m d imm)

/-! R215 -/

def execVrand (m : MReg) (x : XReg) (d : VReg) (sid : BitVec 16) (kind : BitVec 2) (s : State) : Out :=
  s.post (.rand m x d sid kind)

end Sys2Proof.Machine
end

