-- ==== Sys2Proof/Machine/Placement.lean ====
section
/-! DEFINITION. Placement (R113 to R117, R333, R341 to R345): what is offered, which cores are fit, how a gang starts or is
restored on them (R385), the queues' deficits, reservations and their pre-emptions, and a cascade's rebalancing (R352). -/

namespace Sys2Proof.Machine

open Sys2Proof

/-! ### Offers -/

/-- A gang that a task has to place: new, with its index, or saved. -/
structure Offer where
  task  : Task
  stage : Option Nat
  saved : Option SavedGang
  idx   : Nat
  level : Nat
  shape : List Byte

/-- Cores that a gang counts for. -/
def Offer.cores (o : Offer) : Nat := shapeCores o.shape
def Offer.harts (o : Offer) : Nat := shapeHarts o.shape
def Offer.paired (o : Offer) : Bool := shapeCheck o.shape == 2

/-- The boundaries a gang needs: its saved ones, or its descriptor's. -/
def Offer.bounds (o : Offer) : Nat × Nat × Nat :=
  match o.saved with
  | some v => match v.cores.head? with
    | some c => (c.vrb, c.spb, c.ccb)
    | none => (32, 48, 56)
  | none => (shapeBounds o.shape).getD (32, 48, 56)

/-- Lanes that a saved gang's harts held on its i-th core (R155). -/
def SavedGang.lanesAt (v : SavedGang) (n : Nat) : Nat :=
  (((v.harts.zip v.gang.harts).filter (fun q => coreOf q.2 == n)).map (fun q => q.1.lshare.toNat)).sum

/-- Lanes that a gang needs on each core: its descriptor's shares, or the most that its saved harts hold on one (R155). -/
def Offer.lanes (o : Offer) : Nat :=
  match o.saved with
  | some v => (v.gang.cores.map v.lanesAt).foldl max 0
  | none => shapeLanes o.shape 0 + shapeLanes o.shape 1 + shapeLanes o.shape 2 + shapeLanes o.shape 3

/-- The saved gang of the lowest index among those of a stage, or of a launch. -/
def Task.firstSaved (t : Task) (stage : Option Nat) : Option SavedGang :=
  leastBy (fun v w => decide (v.gang.idx < w.gang.idx)) (t.saved.filter (fun v => v.gang.stage == stage))

/-- What a ready task offers at a level: the next gang of a launch, or of the first stage of a cascade that has one. -/
def Task.offerAt (t : Task) (l : Nat) : Option Offer :=
  if t.offers && t.level == l then
    some (match t.firstSaved none with
      | some v => ⟨t, none, some v, v.gang.idx, l, t.pkt⟩
      | none => ⟨t, none, none, t.next, l, t.pkt⟩)
  else
    (List.range t.stages.length).findSome? (fun k =>
      match t.stages[k]? with
      | none => none
      | some x =>
        if t.stageOffers k && x.level == l then
          some (match t.firstSaved (some k) with
            | some v => ⟨t, some k, some v, v.gang.idx, l, x.shape⟩
            | none => ⟨t, some k, none, x.placed, l, x.shape⟩)
        else none)

/-- The first offer of a queue at a level, in intake order. -/
def State.queueOffer (s : State) (q l : Nat) : Option Offer :=
  (s.tasks.filter (fun t => t.queue == q)).findSome? (fun t => t.offerAt l)

/-! ### Fitness (R343) -/

/-- A hart with no work and no gang. -/
def Hart.free (h : Hart) : Bool := (h.run == .idle || h.run == .halted) && h.task.isNone

/-- The free harts of core n, lowest first. -/
def State.freeHarts (s : State) (n : Nat) : List Nat := (hartsOf n).filter (fun g => (s.hart g).free)

/-- A core none of whose harts runs, or rests for, a gang. -/
def State.coreFree (s : State) (n : Nat) : Bool := (s.freeHarts n).length == 4

/-- Whether core n is fit for a gang of a context, as far as it shows at the core itself. -/
def State.fitCore (s : State) (o : Offer) (n : Nat) : Bool :=
  let c := s.core n
  let twin := if n % 2 = 0 then n + 1 else n - 1
  let division := divisionOf (field o.shape 0x2C 4)
  c.health == .offered &&
    (s.coreFree n || (c.owner == some o.task.asid && o.bounds == (c.vrb, c.spb, c.ccb) &&
      divisionOf c.division.toNat == division)) &&
    (s.coreFree twin || (s.core twin).owner == some o.task.asid) &&
    decide (o.harts ≤ (s.freeHarts n).length) && decide (o.lanes ≤ s.freeLanes n)

/-- The harts of a position on core n: the lowest free ones, free on both cores of the pair under check mode 2. -/
def State.pickHarts (s : State) (o : Offer) (n : Nat) : List Nat :=
  ((s.freeHarts n).filter (fun g => !o.paired || (s.hart (g + 4)).free)).take o.harts

/-- Whether core n is fit as a position of a gang. -/
def State.fitPosition (s : State) (o : Offer) (n : Nat) : Bool :=
  if o.paired then
    n % 2 == 0 && s.fitCore o n && s.fitCore o (n + 1) && (s.core (n + 1)).health != .retired &&
      decide (o.harts ≤ (s.pickHarts o n).length)
  else s.fitCore o n

/-- The fit positions of a cluster, lowest first. -/
def State.fitCores (s : State) (o : Offer) (c : Nat) : List Nat :=
  ((List.range 32).map (fun i => 32 * c + i)).filter (s.fitPosition o)

/-- The clusters in which a gang may be placed, from the one after the previous placement; a saved gang stays in its own
(R384). -/
def State.clusterOrder (s : State) (o : Offer) : List Nat :=
  match o.saved with
  | some v => [v.cluster]
  | none => (List.range Config.clusters).map (fun i => (s.lastCluster + 1 + i) % Config.clusters)

/-- Whether a reservation keeps an offer out of a cluster (R344). -/
def State.keptOut (s : State) (o : Offer) (c : Nat) : Bool :=
  match s.reserved with
  | none => false
  | some r => r.cluster == c && decide (o.level ≤ r.level) && !(r.task == o.task.order && r.stage == o.stage)

/-- The cluster that takes a gang now, with its cores. -/
def State.findPlace (s : State) (o : Offer) : Option (Nat × List Nat) :=
  (s.clusterOrder o).findSome? (fun c =>
    let fit := s.fitCores o c
    if !s.keptOut o c && decide (o.cores ≤ fit.length) then some (c, fit.take o.cores) else none)

/-! ### Preparing a core (R113 to R117) -/

/-- Memory of a core's pool window after a change of owner or of boundaries: all of it zero, or all but the scratchpad
bytes that stay scratchpad (R116, R117). -/
def State.clearPool (s : State) (n lo hi : Nat) : State :=
  let a := poolAt n
  (s.erase a (lo * 65536)).erase (a + hi * 65536) (Config.poolBytes - hi * 65536)

/-- Registers of core n's harts zeroed. -/
def State.clearRegisters (s : State) (n : Nat) : State :=
  (hartsOf n).foldl (fun s g => s.setHart g { s.hart g with vregs := [], masks := [] }) s

/-- A hart's registers once the register file ends at another place: the rows that lie in it under both boundaries (R116). -/
def Hart.cutRows (h : Hart) (vrb : Nat) : Hart :=
  { h with vregs := h.vregs.map (fun q => (q.1, q.2 % 2 ^ (rowsOf vrb (vcNr h.vconf) * 256 * vcLanes h.vconf))) }

/-- The registers of core n's harts as a move of VRB leaves them. -/
def State.cutRegisters (s : State) (n vrb : Nat) : State :=
  (hartsOf n).foldl (fun s g => s.setHart g ((s.hart g).cutRows vrb)) s

/-- A core made ready for a gang: a free one takes the gang's boundaries and division, and is zeroed when it passes to
another context; the zeroing ends with its event. -/
def State.prepareCore (s : State) (o : Offer) (n : Nat) : State :=
  if s.coreFree n then
    let c := s.core n
    let (v, p, cc) := o.bounds
    let other := c.owner != some o.task.asid
    let moved := other || (c.vrb, c.spb, c.ccb) != (v, p, cc)
    let s := if moved then s.dcacheCleanCore n else s
    let s := if other then (s.clearPool n 64 64).clearRegisters n
      else if moved then (s.clearPool n (max c.vrb v) (max (max c.vrb v) (min c.spb p))).cutRegisters n (min c.vrb v)
      else s
    s.setCore n { s.core n with
      owner := some o.task.asid, vrb := v, spb := p, ccb := cc, arrive := 0
      division := BitVec.ofNat 32 (field o.shape 0x2C 4)
      dcache := if moved then [] else (s.core n).dcache
      health := if moved && !s.eager then .zeroing else (s.core n).health }
  else s

/-- The pair of core n passes to a context: its slots are zeroed (R220). -/
def State.preparePair (s : State) (o : Offer) (n : Nat) : State :=
  let p := s.pair (n / 2)
  if p.owner = some o.task.asid then s
  else s.setPair (n / 2) { owner := some o.task.asid, target := p.target, current := p.current, busy := p.busy, cycle := p.cycle }

/-- Core n with its shadow prepared. -/
def State.prepare (s : State) (o : Offer) (n : Nat) : State :=
  let s := (s.preparePair o n).prepareCore o n
  if o.paired then s.prepareCore o (n + 1) else s

/-! ### Starting a gang (R327, R333) -/

/-- The tags of hart k of a core under a division (R102). -/
def tagsOf (division k : Nat) : Word :=
  let d := divisionOf division
  let first := ((List.range k).map (fun i => bits d (8 * i + 7) (8 * i))).sum
  let n := bits d (8 * k + 7) (8 * k)
  BitVec.ofNat 64 ((2 ^ n - 1) * 2 ^ first)

/-- A hart at the start of a gang: core position i, hart position j of it, in the run that `run` numbers. `old` is what the hart
was, whose vector and mask registers stand when `keeps` says so. -/
def startHart (o : Offer) (x : Ctx) (old : Hart) (placedAt run g i j : Nat) (keeps : Bool) : Hart :=
  let lanes := shapeLanes o.shape j
  let v := vconfOf false true 0 lanes 2 0
  let casc := match o.stage with
    | some k => 256 + k % 16 * 16
    | none => 0
  { run := .running, trapvec := old.trapvec
    pc := BitVec.ofNat 64 (field o.shape 0 8)
    x := [(10, BitVec.ofNat 64 (field o.shape 8 8)), (11, BitVec.ofNat 64 o.idx)]
    vconf := v, lshare := BitVec.ofNat 5 lanes, vl := BitVec.ofNat 32 (vlmaxOf o.bounds.1 v)
    asid := BitVec.ofNat 16 o.task.asid, ptbase := x.root
    checkmode := BitVec.ofNat 2 (shapeCheck o.shape), checkNext := BitVec.ofNat 2 (shapeCheck o.shape)
    tbudget := BitVec.ofNat 64 (field o.shape 0x30 8)
    tagown := tagsOf (field o.shape 0x2C 4) (g % 4)
    gangpos := BitVec.ofNat 64 (i * 256 + j)
    gangsize := BitVec.ofNat 64 (o.harts * 256 + o.cores)
    launchidx := BitVec.ofNat 64 (o.task.id % 2 ^ 32 * 2 ^ 32 + o.idx % 2 ^ 32)
    clusterReg := BitVec.ofNat 64 (casc + clusterOf g % 4)
    vregs := if keeps then old.vregs else [], masks := if keeps then old.masks else []
    task := some (o.task.order, placedAt), runId := run, fixed := bit (shapeFlags o.shape) 0
    millKeeps := bit (shapeFlags o.shape) 2 }

/-- The shadow of hart g, if the gang runs under check mode 2 (R388). -/
def State.startShadow (s : State) (o : Offer) (g placedAt : Nat) : State :=
  if o.paired then
    s.setHart (g + 4)
      { run := .shadow, trapvec := (s.hart (g + 4)).trapvec, asid := BitVec.ofNat 16 o.task.asid
        task := some (o.task.order, placedAt) }
  else s

/-- One hart started: what it finds in its vector registers is a free choice between zero and what its context left
(R117, R333). -/
def State.startAt (s : State) (o : Offer) (placedAt g i j : Nat) : State :=
  let old := s.hart g
  let (w, s) := s.drawWord
  let s := { s with nextRun := s.nextRun + 1 }
  let h := startHart o (s.ctx o.task.asid) old placedAt s.nextRun g i j (w.getLsbD 0 && old.asid.toNat == o.task.asid)
  let s := s.clearArrive (coreOf g) h.tagown
  (s.setHart g h).startShadow o g placedAt

/-- Harts of a gang on some cores, in position order. -/
def State.gangHarts (s : State) (o : Offer) (cores : List Nat) : List (Nat × Nat × Nat) :=
  cores.zipIdx.flatMap (fun q => (s.pickHarts o q.1).zipIdx.map (fun h => (h.1, q.2, h.2)))

/-- The task with one more gang on cores. -/
def Offer.placed (o : Offer) (t : Task) (x : Gang) (now : Nat) : Task :=
  let t := { t with gangs := t.gangs ++ [x], readyAt := now }
  match o.saved with
  | some v =>
    let t := { t with saved := t.saved.filter (fun w => w.gang.placedAt != v.gang.placedAt) }
    match v.gang.stage with
    | none => t
    | some k => match t.stages[k]? with
      | some y => t.setStage k { y with readyAt := now }
      | none => t
  | none =>
    match o.stage with
    | none => { t with next := t.next + 1 }
    | some k => match t.stages[k]? with
      | some y => t.setStage k { y with placed := y.placed + 1, wanted := y.wanted - 1, readyAt := now }
      | none => t

/-! ### Restoring a gang (R385) -/

/-- Whether some hart of core n, or at rest there, belongs to a gang of a context. -/
def State.sharedBy (s : State) (asid n : Nat) : Bool :=
  (hartsOf n).any (fun g => (s.hart g).task.isSome && (s.hart g).asid.toNat == asid)

/-- The bytes of a saved scratchpad back on core n, and on its shadow (R119, R385, R388). -/
def State.restoreScratch (s : State) (o : Offer) (c : SavedCore) (n : Nat) : State :=
  let a := poolAt n + c.vrb * 65536
  let len := (c.spb - c.vrb) * 65536
  let s := if o.paired then s.erase (a + Config.poolBytes) len else s
  c.scratch.foldl (fun s q => s.put (a + q.1) [q.2]) (s.erase a len)

/-- The leaves of a page table below a node, as the addresses of their entries with the entries. -/
def leavesBelow (m : Memory) : (levels : List (Nat × Nat)) → (node : Nat) → List (Nat × Nat)
  | [], _ => []
  | (level, lo) :: rest, node =>
    (List.range 512).flatMap (fun i =>
      let at_ := node + 8 * i
      let e := readNat m at_ 8
      if !pteV e then []
      else if pteT e then (if pointerBad level e then [] else leavesBelow m rest (ptePA e))
      else if leafBad level (2 ^ lo) e then [] else [(at_, e)])

/-- The dispatcher maps a context's scratchpad pages of some cores to the same places on others, all at once, and no core holds a
translation of the old ones (R119). -/
def State.remapPools (s : State) (asid : Nat) (moves : List (Nat × Nat)) : State :=
  let moveOf := fun (e : Nat) => moves.find? (fun m =>
    decide (poolAt m.1 ≤ ptePA e) && decide (ptePA e < poolAt m.1 + Config.poolBytes))
  let s := (leavesBelow s.mem walkLevels (s.ctx asid).root.toNat).foldl (fun s q =>
    match moveOf q.2 with
    | some m => s.store q.1 (leBytes 8 (putBits q.2 12 32 ((ptePA q.2 - poolAt m.1 + poolAt m.2) / 4096)))
    | none => s) s
  { s with cores := s.cores.map (fun p => (p.1, { p.2 with
      tlb := p.2.tlb.filter (fun e => !(e.asid == asid && (moveOf e.leaf.toNat).isSome)) })) }

/-- A saved core's scratchpad and ARRIVE on core n (R383, R385). Where another gang of the context still stands on the core that
was left, the scratchpad is still there, with what that gang has written since, and its pages still map it; it is neither
restored nor mapped elsewhere (log entry 96, DESIGN CHOICE). `stands` says so of a core. -/
def State.restoreCore (s : State) (o : Offer) (c : SavedCore) (old n placedAt : Nat) (stands : Nat → Bool) : State :=
  let s := if stands old then s else s.restoreScratch o c n
  let y := s.core n
  s.setCore n { y with
    arrive := y.arrive ||| c.arrive, endedRuns := y.endedRuns ++ c.endedRuns.map (fun r => (r, o.task.order, placedAt)) }

/-- A saved hart on hart g: its state, its position image, and ERET, with the array's instructions that it had there. One that had
ended when the gang was saved is not there. -/
def State.restoreHart (s : State) (o : Offer) (h : Hart) (img : List Byte) (placedAt g : Nat) : State :=
  if h.task.isNone then s
  else
    let s := s.store (s.imageAt g) img
    let s := s.clearArrive (coreOf g) h.tagown
    let s := s.setHart g { h with
      run := .running, trapvec := (s.hart g).trapvec, task := some (o.task.order, placedAt), preemptDue := false
      clusterReg := BitVec.ofNat 64 (putBits h.clusterReg.toNat 0 2 (clusterOf g)) }
    let s := match s.resume g with
      | some s' => s'.rejoinArray g
      | none => s.noteEnd o.task.asid (s.eventOf g { cause := causeIllegal, pc := h.pc })
    s.startShadow o g placedAt

/-- The matrix slots, the pass counter and the millrace record of a pair, restored on pair p (R385). Where another gang of the context
has stayed on the same pair, what stands there is what both use and stays (log entry 93, DESIGN CHOICE); and a declaration that runs
there keeps its slots. -/
def State.restorePair (s : State) (v : Pair) (old p : Nat) (stands : Nat → Bool) : State :=
  if (old == p && (stands (2 * p) || stands (2 * p + 1))) || !(s.mill p).ended then s
  else s.setPair p { s.pair p with b0 := v.b0, b1 := v.b1, pass := v.pass, mill := v.mill }

/-- The pair that a restored gang's new pair takes its state from: the one that the first of its cores there came from. When cores
regroup into other pairs, each new pair has the state of one old one; the manual does not say which (R220, R385; log entry 107,
DESIGN CHOICE). -/
def SavedGang.pairFor (v : SavedGang) (cores : List Nat) (p : Nat) : Option (Nat × Pair) :=
  match (cores.zip v.gang.cores).find? (fun q => q.1 / 2 == p) with
  | none => none
  | some q => (((v.gang.cores.map (fun n => n / 2)).eraseDups).zip v.pairs).find? (fun r => r.1 == q.2 / 2)

/-- A saved gang back on cores: its pairs, its harts, its cores and the pages of its scratchpads (R385). -/
def State.restoreGang (s : State) (o : Offer) (v : SavedGang) (x : Gang) : State :=
  let stands := fun n => s.sharedBy o.task.asid n
  let s := ((x.cores.map (fun n => n / 2)).eraseDups).foldl (fun s p => match v.pairFor x.cores p with
    | some r => s.restorePair r.2 r.1 p stands
    | none => s) s
  let s := (x.harts.zip (v.harts.zip v.images)).foldl (fun s q => s.restoreHart o q.2.1 q.2.2 x.placedAt q.1) s
  let s := (x.cores.zip (v.cores.zip v.gang.cores)).foldl (fun s q => s.restoreCore o q.2.1 q.2.2 q.1 x.placedAt stands) s
  s.remapPools o.task.asid ((v.gang.cores.zip x.cores).filter (fun m => m.1 != m.2 && !stands m.1))

/-! ### Placing -/

/-- A gang placed on the cores found for it (R345). Which HOLDKEEP flag holds for a context whose launches differ in it the manual
does not say; the model takes that of the gang placed last (R63; log entry 95, DESIGN CHOICE). -/
def State.placeGang (s : State) (o : Offer) (c : Nat) (cores : List Nat) : State :=
  let s := cores.foldl (fun s n => s.prepare o n) s
  let at_ := s.gangHarts o cores
  let x : Gang :=
    { idx := o.idx, cores := cores, harts := at_.map (·.1), stage := o.stage, level := o.level, placedAt := s.placeCount }
  let flags := shapeFlags o.shape
  let y := s.ctx o.task.asid
  let s := s.setCtx o.task.asid { y with
    holdQuota := field o.shape 0x1E 2, leaseQuota := field o.shape 0x44 2, holdkeep := bit flags 1 }
  let s : State := match o.saved with
    | some v => s.restoreGang o v { x with withdrawn := v.gang.withdrawn, taken := v.gang.taken }
    | none => at_.foldl (fun (s : State) (q : Nat × Nat × Nat) => s.startAt o x.placedAt q.1 q.2.1 q.2.2) s
  let x := match o.saved with
    | some v => { x with withdrawn := v.gang.withdrawn, taken := v.gang.taken }
    | none => x
  let s : State := match s.tasks.find? (fun (t : Task) => t.order == o.task.order) with
    | some t => s.setTask (o.placed t x s.timer)
    | none => s
  { s with placeCount := s.placeCount + 1, lastCluster := c }

/-! ### Reservations (R344) -/

/-- The cluster in which the fewest more cores would make a gang fit. -/
def State.nearest (s : State) (o : Offer) : Nat :=
  let cs := match o.saved with
    | some v => [v.cluster]
    | none => List.range Config.clusters
  (leastBy (fun a b => decide (o.cores - (s.fitCores o a).length < o.cores - (s.fitCores o b).length)) cs).getD 0

/-- A candidate that fits nowhere is reserved a cluster, unless one of its level or above holds a reservation. -/
def State.reserve (s : State) (o : Offer) : State :=
  let new : Reservation := ⟨o.task.order, o.stage, o.level, s.nearest o, s.timer⟩
  match s.reserved with
  | none => { s with reserved := some new }
  | some r => if r.level < o.level then { s with reserved := some new } else s

/-- What a reservation is for, if it is still offered. -/
def State.reservedOffer (s : State) : Option Offer :=
  match s.reserved with
  | none => none
  | some r =>
    match s.tasks.find? (fun t => t.order == r.task) with
    | none => none
    | some t =>
      ((List.range 8).findSome? (fun i => match t.offerAt (7 - i) with
        | some o => if o.stage == r.stage then some o else none
        | none => none))

/-- A reservation whose candidate is gone lapses, and one whose candidate has risen keeps its level. -/
def State.checkReserved (s : State) : State :=
  match s.reserved, s.reservedOffer with
  | some r, some o => { s with reserved := some { r with level := o.level } }
  | _, _ => { s with reserved := none }

/-! ### A placement opportunity (R342) -/

/-- Queues that offer a gang at a level, in round-robin order after the one served last. -/
def State.queuesAt (s : State) (l : Nat) : List Nat :=
  let qs := ((s.queues.map (·.1)).filter (fun q => (s.queueOffer q l).isSome))
  qs.filter (fun q => decide (s.lastQueue < q)) ++ qs.filter (fun q => decide (q ≤ s.lastQueue))

/-- A queue's turn at a level: gangs are placed while its deficit lasts; the second part says that its next gang fits
nowhere. -/
def State.turnOf (s : State) (q l : Nat) : Nat → State × Bool
  | 0 => (s, true)
  | n + 1 =>
    match s.queueOffer q l with
    | none => (s, false)
    | some o =>
      let w := s.queue q
      if w.deficit < o.cores then (s, false)
      else
        match s.findPlace o with
        | some (c, cores) =>
          let s := (s.placeGang o c cores).setQueue q { w with deficit := w.deficit - o.cores }
          State.turnOf s.checkReserved q l n
        | none => (s.reserve o, true)

/-- QUANTUM is added at the start of a turn whose deficit does not reach the next gang. -/
def State.startTurn (s : State) (q l : Nat) : State :=
  match s.queueOffer q l with
  | none => s
  | some o =>
    let w := s.queue q
    if w.deficit < o.cores then s.setQueue q { w with deficit := w.deficit + w.share } else s

/-- Turns at a level until every queue that offers there is blocked. -/
def State.serveLevel (s : State) (l : Nat) (blocked : List Nat) : Nat → State
  | 0 => s
  | n + 1 =>
    match (s.queuesAt l).find? (fun q => !blocked.contains q) with
    | none => s
    | some q =>
      let r := (s.startTurn q l).turnOf q l 65536
      State.serveLevel { r.1 with lastQueue := q } l (if r.2 then q :: blocked else blocked) n

/-- The reserved candidate, when it fits now, before any other gang at its level. -/
def State.serveReserved (s : State) (l : Nat) : State :=
  match s.reservedOffer with
  | none => s
  | some o =>
    if o.level = l then
      match s.findPlace o with
      | some (c, cores) =>
        let w := s.queue o.task.queue
        let s := s.setQueue o.task.queue { w with deficit := w.deficit - o.cores }
        ({ s with reserved := none }).placeGang o c cores
      | none => s
    else s

/-- A queue that offers nothing has its deficit set to 0. -/
def State.resetDeficits (s : State) : State :=
  { s with queues := s.queues.map (fun p => (p.1,
      if (List.range 8).any (fun l => (s.queueOffer p.1 l).isSome) then p.2 else { p.2 with deficit := 0 })) }

/-- Gangs are placed, level by level from the highest, until none can be. -/
def State.placement (s : State) : State :=
  let s := s.promote.checkReserved
  let s := (List.range 8).foldl (fun s i => (s.serveReserved (7 - i)).serveLevel (7 - i) [] 1048576) s
  s.resetDeficits

def execGangPlacement (s : State) : Out := s.whenCool s.placement

/-! ### Pre-emption for a reservation (R344) -/

/-- The gangs of a cluster at lower levels that can be pre-empted, in the order in which they would be: the lowest level
first, then the most recently placed. -/
def State.displaceable (s : State) (c level : Nat) : List (Task × Gang) :=
  let all := s.tasks.flatMap (fun t => (t.gangs.filter (fun x =>
    !x.preempted && !s.millHolds t x && decide (x.level < level) && x.cores.any (fun n => n / 32 == c))).map (fun x => (t, x)))
  sortBy (fun p q => decide (p.2.level < q.2.level) || (p.2.level == q.2.level && decide (q.2.placedAt ≤ p.2.placedAt))) all

/-- The state as it would be without some gangs, for the test of fitness. -/
def State.without (s : State) (xs : List Gang) : State :=
  xs.foldl (fun s x => x.harts.foldl (fun s g =>
    (s.vacate g .idle).setHart g { (s.vacate g .idle).hart g with task := none }) s) s

/-- Gangs whose pre-emption is under way. -/
def State.leaving (s : State) : List Gang := s.tasks.flatMap (fun t => t.gangs.filter (fun x => x.preempted))

/-- The gangs to pre-empt, one by one, until the candidate fits. -/
def State.choose (s : State) (o : Offer) (c : Nat) (gone : List Gang) : List (Task × Gang) → List (Task × Gang)
  | [] => []
  | p :: r =>
    if o.cores ≤ ((s.without gone).fitCores o c).length then [] else p :: State.choose s o c (gone ++ [p.2]) r

def execReservationPreemption (s : State) : Out :=
  if s.thermal != .normal then .next s
  else
  let s := s.promote.checkReserved
  match s.reserved, s.reservedOffer with
  | some r, some o =>
    let all := s.displaceable r.cluster o.level
    if r.since + 100000 ≤ s.timer ∧
        o.cores ≤ ((s.without (s.leaving ++ all.map (·.2))).fitCores o r.cluster).length then
      (s.choose o r.cluster s.leaving all).foldl (fun out p => Out.andThen out (fun s => s.preemptGang p.1 p.2)) (.next s)
    else .next s
  | _, _ => .next s

/-! ### Zeroing (R116) -/

/-- The zeroing of core n's pool ends. -/
def execPoolZeroingComplete (n : Nat) (s : State) : Out :=
  s.whenCool (if (s.core n).health = .zeroing then s.setCore n { s.core n with health := .offered } else s)

/-! ### Rebalancing (R352) -/

/-- Gangs that a stage keeps, on cores or saved: those that are not withdrawn. -/
def Task.keptGangs (t : Task) (k : Nat) : List Gang :=
  ((t.gangs ++ t.saved.map (fun v => v.gang)).filter (fun x => x.stage == some k && x.withdrawn.isNone))

/-- Gangs of a stage, with those to be placed: offered ones, and one for each gang withdrawn for it. -/
def Task.stageGangs (t : Task) (k : Nat) : Nat :=
  (t.keptGangs k).length + ((t.gangs ++ t.saved.map (fun v => v.gang)).filter (fun x => x.withdrawn == some k)).length +
    (match t.stages[k]? with
     | some x => x.wanted
     | none => 0)

/-- Occupancy of a stage in 65,536ths. -/
def Stage.occ (x : Stage) : Nat := x.load * 65536 / x.cap

/-- The stage that gains a gang. -/
def Task.gainer (t : Task) : Option (Nat × Stage) :=
  let cands := (t.stages.zipIdx.map (fun q => (q.2, q.1))).filter (fun q =>
    decide (t.stageGangs q.1 < q.2.maxg) && !q.2.waited && !q.2.finished)
  leastBy (fun a b => decide (b.2.occ < a.2.occ)) cands

/-- The stage that gives one up. -/
def Task.donor (t : Task) (g : Nat × Stage) : Option (Nat × Stage) :=
  let cands := ((t.stages.zipIdx.map (fun q => (q.2, q.1))).reverse).filter (fun q =>
    q.1 != g.1 && decide (q.2.ming < (t.keptGangs q.1).length) && decide (q.2.occ + 16384 ≤ g.2.occ))
  leastBy (fun a b => decide (a.2.occ < b.2.occ)) cands

/-- The most recently placed gang of a stage that is not withdrawn yet. -/
def Task.lastGang (t : Task) (k : Nat) : Option Gang :=
  leastBy (fun x y => decide (y.placedAt < x.placedAt)) (t.keptGangs k)

/-- A gang withdrawn for a stage, on its cores or saved. -/
def Task.withdraw (t : Task) (x : Gang) (k : Nat) : Task :=
  let mark := fun (y : Gang) => if y.placedAt = x.placedAt then { y with withdrawn := some k } else y
  { t with gangs := t.gangs.map mark, saved := t.saved.map (fun v => { v with gang := mark v.gang }) }

/-- One tick's rebalancing of a cascade. -/
def State.rebalance (s : State) (t : Task) : State :=
  let fresh : Task := { t with balancedAt := s.timer / 10000, stages := t.stages.map (fun x => { x with waited := false }) }
  match t.gainer with
  | none => s.setTask fresh
  | some (k, y) =>
    match t.donor (k, y) with
    | some (j, _) =>
      match t.lastGang j with
      | some x => s.setTask (fresh.withdraw x k)
      | none => s.setTask fresh
    | none =>
      let o : Offer := ⟨t, some k, none, y.placed, y.level, y.shape⟩
      if (s.findPlace o).isSome then s.setTask (fresh.wantGang k s.timer)
      else s.setTask fresh

def execCascadeRebalance (task : Nat) (s : State) : Out :=
  match s.task task with
  | none => .next s
  | some t =>
    s.whenCool (if t.typ = 3 ∧ t.st = .ready ∧ t.balancedAt < s.timer / 10000 then s.rebalance t else s)

end Sys2Proof.Machine
end

