-- ==== Sys2Proof/Machine/ScalarFp.lean ====
section
/-! DEFINITION. Scalar floating point (R313 to R315). Operands are x[n][31:0]; a result is written to the low bits with
zeros above; flags are raised at commit. -/

namespace Sys2Proof.Machine

open Sys2Proof

/-- x[n][31:0]. -/
def Hart.f32 (h : Hart) (r : XReg) : Nat := (h.getX r).toNat % 2 ^ 32

/-- x[n][31:0] as an FP32 value. -/
def Hart.fval (h : Hart) (r : XReg) : FVal := fp32.value (h.f32 r)

/-- Write a result and raise its flags. -/
def State.finishFp (s : State) (d : XReg) (v : Word) (fl : Nat) (n : Nat) : Out :=
  s.doneWith ((s.cur.setX d v).raise (flagBits fl)) n

/-- Two operands under a rounding mode. -/
def State.fpTwo (s : State) (d a b : XReg) (r : BitVec 3) (op : Nat → FVal → FVal → Nat × Nat) : Out :=
  s.whenReady [d, a, b]
    (let x := op (rmOf r s.cur.fpctl) (s.cur.fval a) (s.cur.fval b)
     s.finishFp d (BitVec.ofNat 64 x.1) x.2 4)

/-- Two operands on their bits, without rounding. -/
def State.fpBits (s : State) (d a b : XReg) (op : Nat → Nat → Nat × Nat) : Out :=
  s.whenReady [d, a, b]
    (let x := op (s.cur.f32 a) (s.cur.f32 b)
     s.finishFp d (BitVec.ofNat 64 x.1) x.2 4)

/-- A relation of two values, with NV for a signalling NaN (R145). -/
def State.fpRel (s : State) (d a b : XReg) (rel : FVal → FVal → Bool) : Out :=
  s.fpBits d a b (fun x y =>
    (if rel (fp32.value x) (fp32.value y) then 1 else 0, snanFlag (fp32.value x) (fp32.value y)))

/-- One operand, its register's word, to a result and flags. -/
def State.fpOne (s : State) (d a : XReg) (r : BitVec 3) (op : Nat → Word → Word × Nat) : Out :=
  s.whenReady [d, a]
    (let x := op (rmOf r s.cur.fpctl) (s.cur.getX a)
     s.finishFp d x.1 x.2 4)

def execFaddF (d a b : XReg) (r : BitVec 3) (s : State) : Out := s.fpTwo d a b r (fun rm x y => fp32.add rm x y)
def execFsubF (d a b : XReg) (r : BitVec 3) (s : State) : Out := s.fpTwo d a b r (fun rm x y => fp32.add rm x y.negate)
def execFmulF (d a b : XReg) (r : BitVec 3) (s : State) : Out := s.fpTwo d a b r (fun rm x y => fp32.mul rm x y)
def execFdivF (d a b : XReg) (r : BitVec 3) (s : State) : Out := s.fpTwo d a b r (fun rm x y => fp32.div rm x y)

def execFsqrtF (d a : XReg) (r : BitVec 3) (s : State) : Out :=
  s.fpOne d a r (fun rm x => let v := fp32.sqrt rm (fp32.value (x.toNat % 2 ^ 32)); (BitVec.ofNat 64 v.1, v.2))

def execFminF (d a b : XReg) (s : State) : Out := s.fpBits d a b (fp32.minmax false)
def execFmaxF (d a b : XReg) (s : State) : Out := s.fpBits d a b (fp32.minmax true)
def execFeqF (d a b : XReg) (s : State) : Out := s.fpRel d a b FVal.eqv
def execFltF (d a b : XReg) (s : State) : Out := s.fpRel d a b (FVal.lt false)
def execFleF (d a b : XReg) (s : State) : Out := s.fpRel d a b (fun x y => x.lt false y || x.eqv y)

def execFclassF (d a : XReg) (s : State) : Out :=
  s.fpOne d a 0 (fun _ x => (BitVec.ofNat 64 (fp32.classMask (x.toNat % 2 ^ 32)), 0))

def execFcvtWF (d a : XReg) (r : BitVec 3) (s : State) : Out :=
  s.fpOne d a r (fun rm x => let v := toIntSat 32 rm (fp32.value (x.toNat % 2 ^ 32)); (sext 32 v.1, v.2))

def execFcvtLF (d a : XReg) (r : BitVec 3) (s : State) : Out :=
  s.fpOne d a r (fun rm x => let v := toIntSat 64 rm (fp32.value (x.toNat % 2 ^ 32)); (BitVec.ofNat 64 v.1, v.2))

def execFcvtFW (d a : XReg) (r : BitVec 3) (s : State) : Out :=
  s.fpOne d a r (fun rm x => let v := fp32.round rm (FVal.ofInt (signed 32 x.toNat)); (BitVec.ofNat 64 v.1, v.2))

def execFcvtFL (d a : XReg) (r : BitVec 3) (s : State) : Out :=
  s.fpOne d a r (fun rm x => let v := fp32.round rm (FVal.ofInt x.toInt); (BitVec.ofNat 64 v.1, v.2))

def execFcvtBF (d a : XReg) (r : BitVec 3) (s : State) : Out :=
  s.fpOne d a r (fun rm x => let v := bf16.convert rm (fp32.value (x.toNat % 2 ^ 32)); (BitVec.ofNat 64 v.1, v.2))

def execFcvtFB (d a : XReg) (s : State) : Out :=
  s.fpOne d a 0 (fun _ x => let v := fp32.convert 0 (bf16.value (x.toNat % 2 ^ 16)); (BitVec.ofNat 64 v.1, v.2))

/-- a's bits [30:0] with a sign. -/
def signInject (a : Nat) (neg : Bool) : Nat × Nat := (a % 2 ^ 31 + (if neg then 2 ^ 31 else 0), 0)

def execFsgnj (d a b : XReg) (s : State) : Out := s.fpBits d a b (fun x y => signInject x (bit y 31))
def execFsgnjn (d a b : XReg) (s : State) : Out := s.fpBits d a b (fun x y => signInject x (!bit y 31))
def execFsgnjx (d a b : XReg) (s : State) : Out := s.fpBits d a b (fun x y => signInject x (bit x 31 != bit y 31))

/-- A fused multiply-add of three registers, of 8 bytes (R315). -/
def State.fpFma (s : State) (d a b c : XReg) (r : BitVec 3) (op : Nat → FVal → FVal → FVal → Nat × Nat) : Out :=
  s.whenReady [d, a, b, c]
    (let x := op (rmOf r s.cur.fpctl) (s.cur.fval a) (s.cur.fval b) (s.cur.fval c)
     s.finishFp d (BitVec.ofNat 64 x.1) x.2 8)

def execFmaddF (d a b c : XReg) (r : BitVec 3) (s : State) : Out := s.fpFma d a b c r fp32.fma
def execFmsubF (d a b c : XReg) (r : BitVec 3) (s : State) : Out :=
  s.fpFma d a b c r (fun rm x y z => fp32.fma rm x y z.negate)
def execFnmaddF (d a b c : XReg) (r : BitVec 3) (s : State) : Out :=
  s.fpFma d a b c r (fun rm x y z => fp32.fma rm x.negate y z.negate)
def execFnmsubF (d a b c : XReg) (r : BitVec 3) (s : State) : Out :=
  s.fpFma d a b c r (fun rm x y z => fp32.fma rm x.negate y z)

end Sys2Proof.Machine
end

