-- ==== Sys2Proof/Machine/VectorMem.lean ====
section
/-! DEFINITION. The vector memory instructions, combining scatter, paired and progress stores, and the stream instructions (R79 to R81, R176 to R181, R282 to R287).
The scalar stream posts each; `runVector` or `runMatrix` gives its effect at the head of its queue. -/

namespace Sys2Proof.Machine

open Sys2Proof

/-! R178 -/

def execVld (d : VReg) (sn : SReg) (m : MReg) (s : State) : Out := s.post (.ld d sn m)
def execVldx (d b : VReg) (sn : SReg) (m : MReg) (s : State) : Out := s.post (.ldx d b sn m)
def execVst (d : VReg) (sn : SReg) (m : MReg) (s : State) : Out := s.post (.st d sn m)
def execVstx (d b : VReg) (sn : SReg) (m : MReg) (s : State) : Out := s.post (.stx d b sn m)
def execVsld (d : VReg) (sn : SReg) (m : MReg) (s : State) : Out := s.post (.sld d sn m)

/-! R180 -/

def execVldSeq (d : VReg) (sn : SReg) (m : MReg) (s : State) : Out := s.post (.ldSeq d sn m)
def execVstSeq (d : VReg) (sn : SReg) (m : MReg) (s : State) : Out := s.post (.stSeq d sn m)

/-! R287 -/

def execVstn (d : VReg) (sn : SReg) (m : MReg) (s : State) : Out := s.post (.stn d sn m)

/-! R284 -/

def execVamoaddF (d b : VReg) (sn : SReg) (m : MReg) (s : State) : Out := s.post (.amo .addF d b sn m)
def execVamoaddW (d b : VReg) (sn : SReg) (m : MReg) (s : State) : Out := s.post (.amo .addW d b sn m)
def execVamominF (d b : VReg) (sn : SReg) (m : MReg) (s : State) : Out := s.post (.amo .minF d b sn m)
def execVamomaxF (d b : VReg) (sn : SReg) (m : MReg) (s : State) : Out := s.post (.amo .maxF d b sn m)
def execVamominW (d b : VReg) (sn : SReg) (m : MReg) (s : State) : Out := s.post (.amo .minW d b sn m)
def execVamomaxW (d b : VReg) (sn : SReg) (m : MReg) (s : State) : Out := s.post (.amo .maxW d b sn m)

/-! R286 -/

def execVstp (d : VReg) (t sn : SReg) (m : MReg) (s : State) : Out := s.post (.stp d t sn m)

/-! R81 -/

def execSdesc (b : XReg) (sn : SReg) (s : State) : Out := s.post (.sdesc b sn)
def execSbase (b : XReg) (sn : SReg) (s : State) : Out := s.post (.sbase b sn)
def execSseek (b : XReg) (sn : SReg) (s : State) : Out := s.post (.sseek b sn)
def execSsave (b : XReg) (sn : SReg) (s : State) : Out := s.post (.ssave b sn)
def execSpos (d : XReg) (sn : SReg) (s : State) : Out := s.post (.spos d sn)
def execSrel (sn : SReg) (s : State) : Out := s.post (.srel sn)

end Sys2Proof.Machine
end

