-- ==== Sys2Proof/Machine/Dispatch.lean ====
section
/-! DEFINITION. Which meaning each row of the opcode table has: one arm per constructor. -/

namespace Sys2Proof.Machine

open Sys2Proof

/-- The outcome of one instruction, operation or event in a state. -/
def exec (i : Instr) (s : State) : Host.Outcome State Fault Refusal :=
  match i with
  | .add d a b => Sys2Proof.Machine.execAdd d a b s
  | .sub d a b => Sys2Proof.Machine.execSub d a b s
  | .and d a b => Sys2Proof.Machine.execAnd d a b s
  | .or d a b => Sys2Proof.Machine.execOr d a b s
  | .xor d a b => Sys2Proof.Machine.execXor d a b s
  | .andn d a b => Sys2Proof.Machine.execAndn d a b s
  | .orn d a b => Sys2Proof.Machine.execOrn d a b s
  | .sll d a b => Sys2Proof.Machine.execSll d a b s
  | .srl d a b => Sys2Proof.Machine.execSrl d a b s
  | .sra d a b => Sys2Proof.Machine.execSra d a b s
  | .rol d a b => Sys2Proof.Machine.execRol d a b s
  | .ror d a b => Sys2Proof.Machine.execRor d a b s
  | .slt d a b => Sys2Proof.Machine.execSlt d a b s
  | .sltu d a b => Sys2Proof.Machine.execSltu d a b s
  | .min d a b => Sys2Proof.Machine.execMin d a b s
  | .max d a b => Sys2Proof.Machine.execMax d a b s
  | .minu d a b => Sys2Proof.Machine.execMinu d a b s
  | .maxu d a b => Sys2Proof.Machine.execMaxu d a b s
  | .mul d a b => Sys2Proof.Machine.execMul d a b s
  | .mulh d a b => Sys2Proof.Machine.execMulh d a b s
  | .mulhu d a b => Sys2Proof.Machine.execMulhu d a b s
  | .div d a b => Sys2Proof.Machine.execDiv d a b s
  | .divu d a b => Sys2Proof.Machine.execDivu d a b s
  | .rem d a b => Sys2Proof.Machine.execRem d a b s
  | .remu d a b => Sys2Proof.Machine.execRemu d a b s
  | .clz d a => Sys2Proof.Machine.execClz d a s
  | .ctz d a => Sys2Proof.Machine.execCtz d a s
  | .popc d a => Sys2Proof.Machine.execPopc d a s
  | .sexb d a => Sys2Proof.Machine.execSexb d a s
  | .sexh d a => Sys2Proof.Machine.execSexh d a s
  | .sexw d a => Sys2Proof.Machine.execSexw d a s
  | .zexw d a => Sys2Proof.Machine.execZexw d a s
  | .addi d a k => Sys2Proof.Machine.execAddi d a k s
  | .andi d a k => Sys2Proof.Machine.execAndi d a k s
  | .ori d a k => Sys2Proof.Machine.execOri d a k s
  | .xori d a k => Sys2Proof.Machine.execXori d a k s
  | .slti d a k => Sys2Proof.Machine.execSlti d a k s
  | .sltiu d a k => Sys2Proof.Machine.execSltiu d a k s
  | .slli d a h => Sys2Proof.Machine.execSlli d a h s
  | .srli d a h => Sys2Proof.Machine.execSrli d a h s
  | .srai d a h => Sys2Proof.Machine.execSrai d a h s
  | .rori d a h => Sys2Proof.Machine.execRori d a h s
  | .lui d k => Sys2Proof.Machine.execLui d k s
  | .addpc d k => Sys2Proof.Machine.execAddpc d k s
  | .lix d imm => Sys2Proof.Machine.execLix d imm s
  | .lixh d imm => Sys2Proof.Machine.execLixh d imm s
  | .lb d a k => Sys2Proof.Machine.execLb d a k s
  | .lh d a k => Sys2Proof.Machine.execLh d a k s
  | .lw d a k => Sys2Proof.Machine.execLw d a k s
  | .ld d a k => Sys2Proof.Machine.execLd d a k s
  | .lbu d a k => Sys2Proof.Machine.execLbu d a k s
  | .lhu d a k => Sys2Proof.Machine.execLhu d a k s
  | .lwu d a k => Sys2Proof.Machine.execLwu d a k s
  | .sb a b k => Sys2Proof.Machine.execSb a b k s
  | .sh a b k => Sys2Proof.Machine.execSh a b k s
  | .sw a b k => Sys2Proof.Machine.execSw a b k s
  | .sd a b k => Sys2Proof.Machine.execSd a b k s
  | .beq a b o => Sys2Proof.Machine.execBeq a b o s
  | .bne a b o => Sys2Proof.Machine.execBne a b o s
  | .blt a b o => Sys2Proof.Machine.execBlt a b o s
  | .bge a b o => Sys2Proof.Machine.execBge a b o s
  | .bltu a b o => Sys2Proof.Machine.execBltu a b o s
  | .bgeu a b o => Sys2Proof.Machine.execBgeu a b o s
  | .j o => Sys2Proof.Machine.execJ o s
  | .jl o => Sys2Proof.Machine.execJl o s
  | .jlr d a k => Sys2Proof.Machine.execJlr d a k s
  | .amoswap d a b w => Sys2Proof.Machine.execAmoswap d a b w s
  | .amoadd d a b w => Sys2Proof.Machine.execAmoadd d a b w s
  | .amoand d a b w => Sys2Proof.Machine.execAmoand d a b w s
  | .amoor d a b w => Sys2Proof.Machine.execAmoor d a b w s
  | .amoxor d a b w => Sys2Proof.Machine.execAmoxor d a b w s
  | .amomin d a b w => Sys2Proof.Machine.execAmomin d a b w s
  | .amomax d a b w => Sys2Proof.Machine.execAmomax d a b w s
  | .amominu d a b w => Sys2Proof.Machine.execAmominu d a b w s
  | .amomaxu d a b w => Sys2Proof.Machine.execAmomaxu d a b w s
  | .amocas d a b w => Sys2Proof.Machine.execAmocas d a b w s
  | .amofadd d a b => Sys2Proof.Machine.execAmofadd d a b s
  | .faddF d a b r => Sys2Proof.Machine.execFaddF d a b r s
  | .fsubF d a b r => Sys2Proof.Machine.execFsubF d a b r s
  | .fmulF d a b r => Sys2Proof.Machine.execFmulF d a b r s
  | .fdivF d a b r => Sys2Proof.Machine.execFdivF d a b r s
  | .fsqrtF d a r => Sys2Proof.Machine.execFsqrtF d a r s
  | .fminF d a b => Sys2Proof.Machine.execFminF d a b s
  | .fmaxF d a b => Sys2Proof.Machine.execFmaxF d a b s
  | .feqF d a b => Sys2Proof.Machine.execFeqF d a b s
  | .fltF d a b => Sys2Proof.Machine.execFltF d a b s
  | .fleF d a b => Sys2Proof.Machine.execFleF d a b s
  | .fclassF d a => Sys2Proof.Machine.execFclassF d a s
  | .fcvtWF d a r => Sys2Proof.Machine.execFcvtWF d a r s
  | .fcvtLF d a r => Sys2Proof.Machine.execFcvtLF d a r s
  | .fcvtFW d a r => Sys2Proof.Machine.execFcvtFW d a r s
  | .fcvtFL d a r => Sys2Proof.Machine.execFcvtFL d a r s
  | .fcvtBF d a r => Sys2Proof.Machine.execFcvtBF d a r s
  | .fcvtFB d a => Sys2Proof.Machine.execFcvtFB d a s
  | .fsgnj d a b => Sys2Proof.Machine.execFsgnj d a b s
  | .fsgnjn d a b => Sys2Proof.Machine.execFsgnjn d a b s
  | .fsgnjx d a b => Sys2Proof.Machine.execFsgnjx d a b s
  | .fmaddF d a b c r => Sys2Proof.Machine.execFmaddF d a b c r s
  | .fmsubF d a b c r => Sys2Proof.Machine.execFmsubF d a b c r s
  | .fnmaddF d a b c r => Sys2Proof.Machine.execFnmaddF d a b c r s
  | .fnmsubF d a b c r => Sys2Proof.Machine.execFnmsubF d a b c r s
  | .fenceSv => Sys2Proof.Machine.execFenceSv s
  | .fenceVs => Sys2Proof.Machine.execFenceVs s
  | .fenceAll => Sys2Proof.Machine.execFenceAll s
  | .fenceX => Sys2Proof.Machine.execFenceX s
  | .ifence => Sys2Proof.Machine.execIfence s
  | .waitany d a => Sys2Proof.Machine.execWaitany d a s
  | .waitall d a => Sys2Proof.Machine.execWaitall d a s
  | .ffr d a => Sys2Proof.Machine.execFfr d a s
  | .tagclr a => Sys2Proof.Machine.execTagclr a s
  | .bar d a => Sys2Proof.Machine.execBar d a s
  | .barexp a b => Sys2Proof.Machine.execBarexp a b s
  | .bararr d a => Sys2Proof.Machine.execBararr d a s
  | .barwt d a b => Sys2Proof.Machine.execBarwt d a b s
  | .sigdec d a => Sys2Proof.Machine.execSigdec d a s
  | .sigwait d a b => Sys2Proof.Machine.execSigwait d a b s
  | .wfe => Sys2Proof.Machine.execWfe s
  | .yield => Sys2Proof.Machine.execYield s
  | .csrr d c => Sys2Proof.Machine.execCsrr d c s
  | .csrw d a c => Sys2Proof.Machine.execCsrw d a c s
  | .csrs d a c => Sys2Proof.Machine.execCsrs d a c s
  | .csrc d a c => Sys2Proof.Machine.execCsrc d a c s
  | .trapi c => Sys2Proof.Machine.execTrapi c s
  | .eret => Sys2Proof.Machine.execEret s
  | .brk => Sys2Proof.Machine.execBrk s
  | .halt => Sys2Proof.Machine.execHalt s
  | .tlbinv a b => Sys2Proof.Machine.execTlbinv a b s
  | .vcfg d ew nr lanes gc lam => Sys2Proof.Machine.execVcfg d ew nr lanes gc lam s
  | .vsetl d a => Sys2Proof.Machine.execVsetl d a s
  | .vfaddVV d a b m => Sys2Proof.Machine.execVfaddVV d a b m s
  | .vfsubVV d a b m => Sys2Proof.Machine.execVfsubVV d a b m s
  | .vfmulVV d a b m => Sys2Proof.Machine.execVfmulVV d a b m s
  | .vfdivVV d a b m => Sys2Proof.Machine.execVfdivVV d a b m s
  | .vfminVV d a b m => Sys2Proof.Machine.execVfminVV d a b m s
  | .vfmaxVV d a b m => Sys2Proof.Machine.execVfmaxVV d a b m s
  | .vfsgnjVV d a b m => Sys2Proof.Machine.execVfsgnjVV d a b m s
  | .vfsgnjnVV d a b m => Sys2Proof.Machine.execVfsgnjnVV d a b m s
  | .vfaddVX d a x m => Sys2Proof.Machine.execVfaddVX d a x m s
  | .vfsubVX d a x m => Sys2Proof.Machine.execVfsubVX d a x m s
  | .vfmulVX d a x m => Sys2Proof.Machine.execVfmulVX d a x m s
  | .vfdivVX d a x m => Sys2Proof.Machine.execVfdivVX d a x m s
  | .vfminVX d a x m => Sys2Proof.Machine.execVfminVX d a x m s
  | .vfmaxVX d a x m => Sys2Proof.Machine.execVfmaxVX d a x m s
  | .vfsgnjVX d a x m => Sys2Proof.Machine.execVfsgnjVX d a x m s
  | .vfsgnjnVX d a x m => Sys2Proof.Machine.execVfsgnjnVX d a x m s
  | .vfmaVV d a b m => Sys2Proof.Machine.execVfmaVV d a b m s
  | .vfmsVV d a b m => Sys2Proof.Machine.execVfmsVV d a b m s
  | .vfnmaVV d a b m => Sys2Proof.Machine.execVfnmaVV d a b m s
  | .vfnmsVV d a b m => Sys2Proof.Machine.execVfnmsVV d a b m s
  | .vfceqVV d a b m => Sys2Proof.Machine.execVfceqVV d a b m s
  | .vfcltVV d a b m => Sys2Proof.Machine.execVfcltVV d a b m s
  | .vfcleVV d a b m => Sys2Proof.Machine.execVfcleVV d a b m s
  | .vfcneVV d a b m => Sys2Proof.Machine.execVfcneVV d a b m s
  | .vfmaVX d a x m => Sys2Proof.Machine.execVfmaVX d a x m s
  | .vfmsVX d a x m => Sys2Proof.Machine.execVfmsVX d a x m s
  | .vfnmaVX d a x m => Sys2Proof.Machine.execVfnmaVX d a x m s
  | .vfnmsVX d a x m => Sys2Proof.Machine.execVfnmsVX d a x m s
  | .vfceqVX d a x m => Sys2Proof.Machine.execVfceqVX d a x m s
  | .vfcltVX d a x m => Sys2Proof.Machine.execVfcltVX d a x m s
  | .vfcleVX d a x m => Sys2Proof.Machine.execVfcleVX d a x m s
  | .vfcneVX d a x m => Sys2Proof.Machine.execVfcneVX d a x m s
  | .vfsqrt d a r m => Sys2Proof.Machine.execVfsqrt d a r m s
  | .vfrec d a m => Sys2Proof.Machine.execVfrec d a m s
  | .vfrsq d a m => Sys2Proof.Machine.execVfrsq d a m s
  | .vfexpf d a m => Sys2Proof.Machine.execVfexpf d a m s
  | .vfrint d a r m => Sys2Proof.Machine.execVfrint d a r m s
  | .vfclass d a m => Sys2Proof.Machine.execVfclass d a m s
  | .vfabs d a m => Sys2Proof.Machine.execVfabs d a m s
  | .vfneg d a m => Sys2Proof.Machine.execVfneg d a m s
  | .vfcvtWF d a r m => Sys2Proof.Machine.execVfcvtWF d a r m s
  | .vfcvtFW d a r m => Sys2Proof.Machine.execVfcvtFW d a r m s
  | .vfcvtBF d a r m => Sys2Proof.Machine.execVfcvtBF d a r m s
  | .vfcvtFB d a m => Sys2Proof.Machine.execVfcvtFB d a m s
  | .vfgetexp d a m => Sys2Proof.Machine.execVfgetexp d a m s
  | .vfgetmant d a m => Sys2Proof.Machine.execVfgetmant d a m s
  | .vfscaleVV d a b m => Sys2Proof.Machine.execVfscaleVV d a b m s
  | .vfscaleVX d a x m => Sys2Proof.Machine.execVfscaleVX d a x m s
  | .vaddVV d a b m => Sys2Proof.Machine.execVaddVV d a b m s
  | .vsubVV d a b m => Sys2Proof.Machine.execVsubVV d a b m s
  | .vmulVV d a b m => Sys2Proof.Machine.execVmulVV d a b m s
  | .vandVV d a b m => Sys2Proof.Machine.execVandVV d a b m s
  | .vorVV d a b m => Sys2Proof.Machine.execVorVV d a b m s
  | .vxorVV d a b m => Sys2Proof.Machine.execVxorVV d a b m s
  | .vminVV d a b m => Sys2Proof.Machine.execVminVV d a b m s
  | .vmaxVV d a b m => Sys2Proof.Machine.execVmaxVV d a b m s
  | .vaddVX d a x m => Sys2Proof.Machine.execVaddVX d a x m s
  | .vsubVX d a x m => Sys2Proof.Machine.execVsubVX d a x m s
  | .vmulVX d a x m => Sys2Proof.Machine.execVmulVX d a x m s
  | .vandVX d a x m => Sys2Proof.Machine.execVandVX d a x m s
  | .vorVX d a x m => Sys2Proof.Machine.execVorVX d a x m s
  | .vxorVX d a x m => Sys2Proof.Machine.execVxorVX d a x m s
  | .vminVX d a x m => Sys2Proof.Machine.execVminVX d a x m s
  | .vmaxVX d a x m => Sys2Proof.Machine.execVmaxVX d a x m s
  | .vsllVV d a b m => Sys2Proof.Machine.execVsllVV d a b m s
  | .vsrlVV d a b m => Sys2Proof.Machine.execVsrlVV d a b m s
  | .vsraVV d a b m => Sys2Proof.Machine.execVsraVV d a b m s
  | .vminuVV d a b m => Sys2Proof.Machine.execVminuVV d a b m s
  | .vmaxuVV d a b m => Sys2Proof.Machine.execVmaxuVV d a b m s
  | .vmulhVV d a b m => Sys2Proof.Machine.execVmulhVV d a b m s
  | .vceqVV d a b m => Sys2Proof.Machine.execVceqVV d a b m s
  | .vcltVV d a b m => Sys2Proof.Machine.execVcltVV d a b m s
  | .vsllVX d a x m => Sys2Proof.Machine.execVsllVX d a x m s
  | .vsrlVX d a x m => Sys2Proof.Machine.execVsrlVX d a x m s
  | .vsraVX d a x m => Sys2Proof.Machine.execVsraVX d a x m s
  | .vminuVX d a x m => Sys2Proof.Machine.execVminuVX d a x m s
  | .vmaxuVX d a x m => Sys2Proof.Machine.execVmaxuVX d a x m s
  | .vmulhVX d a x m => Sys2Proof.Machine.execVmulhVX d a x m s
  | .vceqVX d a x m => Sys2Proof.Machine.execVceqVX d a x m s
  | .vcltVX d a x m => Sys2Proof.Machine.execVcltVX d a x m s
  | .vmand d a b m => Sys2Proof.Machine.execVmand d a b m s
  | .vmor d a b m => Sys2Proof.Machine.execVmor d a b m s
  | .vmxor d a b m => Sys2Proof.Machine.execVmxor d a b m s
  | .vmandn d a b m => Sys2Proof.Machine.execVmandn d a b m s
  | .vmnot d a m => Sys2Proof.Machine.execVmnot d a m s
  | .vmset d m => Sys2Proof.Machine.execVmset d m s
  | .vmpopc d a m => Sys2Proof.Machine.execVmpopc d a m s
  | .vmfirst d a m => Sys2Proof.Machine.execVmfirst d a m s
  | .vslideup d a x m => Sys2Proof.Machine.execVslideup d a x m s
  | .vslidedn d a x m => Sys2Proof.Machine.execVslidedn d a x m s
  | .vgather d a b m => Sys2Proof.Machine.execVgather d a b m s
  | .vcompress d a m => Sys2Proof.Machine.execVcompress d a m s
  | .vexpand d a m => Sys2Proof.Machine.execVexpand d a m s
  | .vmerge d a b m => Sys2Proof.Machine.execVmerge d a b m s
  | .vbcast d x m => Sys2Proof.Machine.execVbcast d x m s
  | .vextract d a x => Sys2Proof.Machine.execVextract d a x s
  | .vfredsum d a b m => Sys2Proof.Machine.execVfredsum d a b m s
  | .vfredmax d a b m => Sys2Proof.Machine.execVfredmax d a b m s
  | .vfredmin d a b m => Sys2Proof.Machine.execVfredmin d a b m s
  | .vredsum d a b m => Sys2Proof.Machine.execVredsum d a b m s
  | .vredmax d a b m => Sys2Proof.Machine.execVredmax d a b m s
  | .vredmin d a b m => Sys2Proof.Machine.execVredmin d a b m s
  | .vfredosum d a b m => Sys2Proof.Machine.execVfredosum d a b m s
  | .vseq m d start inc => Sys2Proof.Machine.execVseq m d start inc s
  | .vfbcasti m d imm => Sys2Proof.Machine.execVfbcasti m d imm s
  | .vbcasti m d imm => Sys2Proof.Machine.execVbcasti m d imm s
  | .vrand m x d sid kind => Sys2Proof.Machine.execVrand m x d sid kind s
  | .vld d sn m => Sys2Proof.Machine.execVld d sn m s
  | .vldx d b sn m => Sys2Proof.Machine.execVldx d b sn m s
  | .vst d sn m => Sys2Proof.Machine.execVst d sn m s
  | .vstx d b sn m => Sys2Proof.Machine.execVstx d b sn m s
  | .vsld d sn m => Sys2Proof.Machine.execVsld d sn m s
  | .vldSeq d sn m => Sys2Proof.Machine.execVldSeq d sn m s
  | .vstSeq d sn m => Sys2Proof.Machine.execVstSeq d sn m s
  | .vstn d sn m => Sys2Proof.Machine.execVstn d sn m s
  | .vamoaddF d b sn m => Sys2Proof.Machine.execVamoaddF d b sn m s
  | .vamoaddW d b sn m => Sys2Proof.Machine.execVamoaddW d b sn m s
  | .vamominF d b sn m => Sys2Proof.Machine.execVamominF d b sn m s
  | .vamomaxF d b sn m => Sys2Proof.Machine.execVamomaxF d b sn m s
  | .vamominW d b sn m => Sys2Proof.Machine.execVamominW d b sn m s
  | .vamomaxW d b sn m => Sys2Proof.Machine.execVamomaxW d b sn m s
  | .vstp d t sn m => Sys2Proof.Machine.execVstp d t sn m s
  | .sdesc b sn => Sys2Proof.Machine.execSdesc b sn s
  | .sbase b sn => Sys2Proof.Machine.execSbase b sn s
  | .spos d sn => Sys2Proof.Machine.execSpos d sn s
  | .sseek b sn => Sys2Proof.Machine.execSseek b sn s
  | .srel sn => Sys2Proof.Machine.execSrel sn s
  | .ssave b sn => Sys2Proof.Machine.execSsave b sn s
  | .hold d a => Sys2Proof.Machine.execHold d a s
  | .hrel d a => Sys2Proof.Machine.execHrel d a s
  | .hqry d a => Sys2Proof.Machine.execHqry d a s
  | .copy d a b src dst tag fl => Sys2Proof.Machine.execCopy d a b src dst tag fl s
  | .copyf d a b dst tag fl => Sys2Proof.Machine.execCopyf d a b dst tag fl s
  | .copystat d tag => Sys2Proof.Machine.execCopystat d tag s
  | .lease d a => Sys2Proof.Machine.execLease d a s
  | .lrenew d a => Sys2Proof.Machine.execLrenew d a s
  | .lrel d a => Sys2Proof.Machine.execLrel d a s
  | .lqry d a => Sys2Proof.Machine.execLqry d a s
  | .cbdef d a b => Sys2Proof.Machine.execCbdef d a b s
  | .cbadv a b => Sys2Proof.Machine.execCbadv a b s
  | .cbtake d a => Sys2Proof.Machine.execCbtake d a s
  | .cbret a b => Sys2Proof.Machine.execCbret a b s
  | .eop d a b => Sys2Proof.Machine.execEop d a b s
  | .mldb a b fmt n k slot => Sys2Proof.Machine.execMldb a b fmt n k slot s
  | .mldbFf a b fmt n k slot => Sys2Proof.Machine.execMldbFf a b fmt n k slot s
  | .mma a d mm n k acc slot => Sys2Proof.Machine.execMma a d mm n k acc slot s
  | .mprog d slot => Sys2Proof.Machine.execMprog d slot s
  | .msync => Sys2Proof.Machine.execMsync s
  | .mchk d clr => Sys2Proof.Machine.execMchk d clr s
  | .mrun d x => Sys2Proof.Machine.execMrun d x s
  | .mstop => Sys2Proof.Machine.execMstop s
  | .mfeed a x => Sys2Proof.Machine.execMfeed a x s
  | .mdrain d x => Sys2Proof.Machine.execMdrain d x s
  | .mlah d sn => Sys2Proof.Machine.execMlah d sn s
  | .mwaitd d x => Sys2Proof.Machine.execMwaitd d x s
  | .send a x => Sys2Proof.Machine.execSend a x s
  | .recv d v x => Sys2Proof.Machine.execRecv d v x s
  | .rsig x => Sys2Proof.Machine.execRsig x s
  | .launch d a b => Sys2Proof.Machine.execLaunch d a b s
  | .pktget d a => Sys2Proof.Machine.execPktget d a s
  | .pktemit d a b => Sys2Proof.Machine.execPktemit d a b s
  | .pktdone a => Sys2Proof.Machine.execPktdone a s
  | .vectorProbe g => Sys2Proof.Machine.execVectorProbe g s
  | .vectorAdmission g k upto => Sys2Proof.Machine.execVectorAdmission g k upto s
  | .loadDataArrival g k => Sys2Proof.Machine.execLoadDataArrival g k s
  | .streamPrefetch g sn => Sys2Proof.Machine.execStreamPrefetch g sn s
  | .laneAllocatorServe n => Sys2Proof.Machine.execLaneAllocatorServe n s
  | .reshapeComplete g => Sys2Proof.Machine.execReshapeComplete g s
  | .parityRebuild g lane second => Sys2Proof.Machine.execParityRebuild g lane second s
  | .laneGroupReexecution n lane rebuilt => Sys2Proof.Machine.execLaneGroupReexecution n lane rebuilt s
  | .weirLowerAlanes n steps => Sys2Proof.Machine.execWeirLowerAlanes n steps s
  | .weirRaiseAlanes n => Sys2Proof.Machine.execWeirRaiseAlanes n s
  | .weirLowerEngawake c steps => Sys2Proof.Machine.execWeirLowerEngawake c steps s
  | .weirRaiseEngawake c => Sys2Proof.Machine.execWeirRaiseEngawake c s
  | .arrayAdmission p => Sys2Proof.Machine.execArrayAdmission p s
  | .mldbRowArrival p slot => Sys2Proof.Machine.execMldbRowArrival p slot s
  | .cRowWriteBack p mismatch => Sys2Proof.Machine.execCRowWriteBack p mismatch s
  | .millraceOperandEvent p => Sys2Proof.Machine.execMillraceOperandEvent p s
  | .beatStart p => Sys2Proof.Machine.execBeatStart p s
  | .bTileLoadComplete p => Sys2Proof.Machine.execBTileLoadComplete p s
  | .millraceOutputRow p mismatch => Sys2Proof.Machine.execMillraceOutputRow p mismatch s
  | .millraceEnd p supply => Sys2Proof.Machine.execMillraceEnd p supply s
  | .copyIssue g => Sys2Proof.Machine.execCopyIssue g s
  | .copyBlockWrite id supply => Sys2Proof.Machine.execCopyBlockWrite id supply s
  | .copyComplete id supply => Sys2Proof.Machine.execCopyComplete id supply s
  | .leaseQueueAdvance c kind => Sys2Proof.Machine.execLeaseQueueAdvance c kind s
  | .engineWakeComplete c e pass => Sys2Proof.Machine.execEngineWakeComplete c e pass s
  | .engineZeroingComplete c e => Sys2Proof.Machine.execEngineZeroingComplete c e s
  | .engineIdleTimeout c e => Sys2Proof.Machine.execEngineIdleTimeout c e s
  | .leaseWaitTimeout asid c entry => Sys2Proof.Machine.execLeaseWaitTimeout asid c entry s
  | .engineOpFire asid c entry => Sys2Proof.Machine.execEngineOpFire asid c entry s
  | .engineOpComplete asid c entry supply => Sys2Proof.Machine.execEngineOpComplete asid c entry supply s
  | .receiveSlotGrant g slot => Sys2Proof.Machine.execReceiveSlotGrant g slot s
  | .stripDelivery g slot strip => Sys2Proof.Machine.execStripDelivery g slot strip s
  | .braidFlitReceive port ok => Sys2Proof.Machine.execBraidFlitReceive port ok s
  | .braidRetrainTimeout port => Sys2Proof.Machine.execBraidRetrainTimeout port s
  | .braidPortUp port => Sys2Proof.Machine.execBraidPortUp port s
  | .braidIncomingAccess acc => Sys2Proof.Machine.execBraidIncomingAccess acc s
  | .rdmaWrite qp rkey va data => Sys2Proof.Machine.execRdmaWrite qp rkey va data s
  | .rdmaRead qp rkey va len => Sys2Proof.Machine.execRdmaRead qp rkey va len s
  | .rdmaFetchAndAdd qp rkey va add => Sys2Proof.Machine.execRdmaFetchAndAdd qp rkey va add s
  | .rdmaCompareAndSwap qp rkey va expect swap => Sys2Proof.Machine.execRdmaCompareAndSwap qp rkey va expect swap s
  | .rdmaInvalidRequest qp => Sys2Proof.Machine.execRdmaInvalidRequest qp s
  | .packetIntake q supply => Sys2Proof.Machine.execPacketIntake q supply s
  | .gangPlacement => Sys2Proof.Machine.execGangPlacement s
  | .taskLevelAging task => Sys2Proof.Machine.execTaskLevelAging task s
  | .reservationPreemption => Sys2Proof.Machine.execReservationPreemption s
  | .copyTaskStart task supply => Sys2Proof.Machine.execCopyTaskStart task supply s
  | .waitTaskSatisfied task => Sys2Proof.Machine.execWaitTaskSatisfied task s
  | .taskComplete task supply => Sys2Proof.Machine.execTaskComplete task supply s
  | .cascadeRebalance task => Sys2Proof.Machine.execCascadeRebalance task s
  | .compactionFlush task => Sys2Proof.Machine.execCompactionFlush task s
  | .preemptionRequest task gang => Sys2Proof.Machine.execPreemptionRequest task gang s
  | .trapEntry g => Sys2Proof.Machine.execTrapEntry g s
  | .budgetExhausted g => Sys2Proof.Machine.execBudgetExhausted g s
  | .impreciseCauseDelivery g cause addr => Sys2Proof.Machine.execImpreciseCauseDelivery g cause addr s
  | .contextEnd asid => Sys2Proof.Machine.execContextEnd asid s
  | .eventLatchTick => Sys2Proof.Machine.execEventLatchTick s
  | .yieldExpiry g => Sys2Proof.Machine.execYieldExpiry g s
  | .refreshWindow bank behind => Sys2Proof.Machine.execRefreshWindow bank behind s
  | .refreshWindowClose bank => Sys2Proof.Machine.execRefreshWindowClose bank s
  | .scrub block found => Sys2Proof.Machine.execScrub block found s
  | .thermalEmergency => Sys2Proof.Machine.execThermalEmergency s
  | .thermalRetentionTimeout => Sys2Proof.Machine.execThermalRetentionTimeout s
  | .thermalRecovery => Sys2Proof.Machine.execThermalRecovery s
  | .retentionSweep n mismatch => Sys2Proof.Machine.execRetentionSweep n mismatch s
  | .logicTestComplete n pass => Sys2Proof.Machine.execLogicTestComplete n pass s
  | .islandopWrite k v => Sys2Proof.Machine.execIslandopWrite k v s
  | .opChangeComplete k => Sys2Proof.Machine.execOpChangeComplete k s
  | .energyUpdate microjoules => Sys2Proof.Machine.execEnergyUpdate microjoules s
  | .energyloRead => Sys2Proof.Machine.execEnergyloRead s
  | .energyWrapClear v => Sys2Proof.Machine.execEnergyWrapClear v s
  | .holdctlWrite v => Sys2Proof.Machine.execHoldctlWrite v s
  | .migqbaseWrite v => Sys2Proof.Machine.execMigqbaseWrite v s
  | .errorBankClear b => Sys2Proof.Machine.execErrorBankClear b s
  | .deviceRegisterWrite addr v => Sys2Proof.Machine.execDeviceRegisterWrite addr v s
  | .createContext root minCheck endRec units fixed => Sys2Proof.Machine.execCreateContext root minCheck endRec units fixed s
  | .endContext asid => Sys2Proof.Machine.execEndContext asid s
  | .createQueue asid ring size quantum device mirror => Sys2Proof.Machine.execCreateQueue asid ring size quantum device mirror s
  | .expose asid base len rd wr => Sys2Proof.Machine.execExpose asid base len rd wr s
  | .registerMirror sig record => Sys2Proof.Machine.execRegisterMirror sig record s
  | .joinGroup asid gid rank size => Sys2Proof.Machine.execJoinGroup asid gid rank size s
  | .mapAperture asid page va => Sys2Proof.Machine.execMapAperture asid page va s
  | .readHealth banks session => Sys2Proof.Machine.execReadHealth banks session s
  | .clearBank b => Sys2Proof.Machine.execClearBank b s
  | .update img => Sys2Proof.Machine.execUpdate img s
  | .updateConfig cfg => Sys2Proof.Machine.execUpdateConfig cfg s
  | .updateRot img => Sys2Proof.Machine.execUpdateRot img s
  | .destroyQueue q => Sys2Proof.Machine.execDestroyQueue q s
  | .unexpose rkey => Sys2Proof.Machine.execUnexpose rkey s
  | .unregisterMirror sig => Sys2Proof.Machine.execUnregisterMirror sig s
  | .leaveGroup asid gid => Sys2Proof.Machine.execLeaveGroup asid gid s
  | .unmapAperture asid page => Sys2Proof.Machine.execUnmapAperture asid page s
  | .spdmChallenge nonce => Sys2Proof.Machine.execSpdmChallenge nonce s
  | .sessionKeyExchange chain => Sys2Proof.Machine.execSessionKeyExchange chain s
  | .updateHeartbeat => Sys2Proof.Machine.execUpdateHeartbeat s
  | .updateHeartbeatTimeout => Sys2Proof.Machine.execUpdateHeartbeatTimeout s
  | .deviceReset puf => Sys2Proof.Machine.execDeviceReset puf s
  | .schedulerFirstHeartbeat => Sys2Proof.Machine.execSchedulerFirstHeartbeat s
  | .junctionTemperature85C above => Sys2Proof.Machine.execJunctionTemperature85C above s
  | .braidPortRetrained port => Sys2Proof.Machine.execBraidPortRetrained port s
  | .powerLoss => Sys2Proof.Machine.execPowerLoss s
  | .poolZeroingComplete n => Sys2Proof.Machine.execPoolZeroingComplete n s
  | .ethernetLinkError port uncorrectable info => Sys2Proof.Machine.execEthernetLinkError port uncorrectable info s

end Sys2Proof.Machine
end

