-- ==== Sys2Proof/Machine/Firmware.lean ====
section
/-! DEFINITION. What dispatch firmware does (log entry 25): about a hart that has entered PL1 (Table 17-2, R376, R381), and
with pages: it consumes the migration queue (R90), migrates a far page into HBM (R91) and retires a page of HBM (R396, R62). -/

namespace Sys2Proof.Machine

open Sys2Proof

/-! ### Traps -/

/-- The handler that the launch descriptor of hart g's gang names, or 0 (Table 15-5). -/
def State.handlerOf (s : State) (g : Nat) : Nat :=
  match s.gangOf g with
  | some (t, x) => field (t.shapeOf x.stage) 0x50 8
  | none => 0

/-- The pages that a trap of hart g lists as absent, by their addresses. -/
def Hart.absentPages (h : Hart) : List Nat :=
  (h.fplist.map (fun p => p.2.toNat)).filterMap (fun w =>
    if w % 256 == causeFetchAbsent || w % 256 == causeLoadAbsent || w % 256 == causeStoreAbsent then some (w / 65536 * 65536)
    else none)

/-- ERET run by firmware on hart g. -/
def State.eretOn (s : State) (g : Nat) : Out :=
  match execEret { s with turn := g } with
  | .next t => .next { t with turn := s.turn }
  | .fault f => .fault f
  | .refused r => .refused r

/-- Reflection (R376): x1, x2 and x3 of the image, and SCALARPC, then ERET. -/
def State.reflect (s : State) (g handler : Nat) : Out :=
  let h := s.hart g
  let a := s.imageAt g
  let regs := leBytes 8 (h.trappc + 4).toNat ++ leBytes 8 h.trapcause.toNat ++ leBytes 8 (bits h.trapinfo.toNat 9 0)
  let s := (s.store a (leBytes 8 handler)).store (a + 0x1900) regs
  (s.setHart g { h with scalarpc := BitVec.ofNat 64 handler }).eretOn g

/-- Firmware decides that the trap that took hart g to PL1 ends the context, and leaves the hart there. -/
def State.endByTrap (s : State) (g : Nat) : State :=
  let h := s.hart g
  let s := s.noteEnd h.asid.toNat
    (s.eventOf g { cause := bits h.trapcause.toNat 7 0, pc := h.trappc, addr := h.trapaddr, eidx := h.trapeidx.toNat, info := h.trapinfo })
  s.setHart g { s.hart g with run := .idle }

/-- Whether the trap that took a hart to PL1 ends the context in any case, as was noted when it was taken; an imprecise cause does,
whatever its number (R375, R440). -/
def Hart.trapEnds (h : Hart) : Bool :=
  bit h.trapstat.toNat 0 || endsContext { cause := bits h.trapcause.toNat 7 0, pc := h.trappc, info := h.trapinfo }

/-- What firmware does about hart g, which stands at PL1: a pre-empted hart is left at rest (R381); an absent page is
supplied for each listed one, from the physical pages and rights given, and the hart returns; TRAPI and BRK are reflected to
the launch's handler; without a page or a handler the context is to end. A pre-emption that came with a trap takes effect once
the trap has been handled, at ERET (R383). -/
def State.firmware (s : State) (g : Nat) (pages : List (Nat × Nat)) : Out :=
  let h := s.hart g
  if !s.stopped g ∧ h.run = .running ∧ h.level = .pl1 ∧ !h.trapEnds then
    let cause := bits h.trapcause.toNat 7 0
    let need := h.absentPages
    if cause = 0 then .next (s.hartRests g)
    else if cause = causeTrapi ∨ cause = causeBrk then
      if s.handlerOf g = 0 then .next (s.endByTrap g) else s.reflect g (s.handlerOf g)
    else if need ≠ [] ∧ need.length ≤ pages.length then
      ((need.zip pages).foldl (fun s p => s.supplyPageAs h.ptbase.toNat p.1 p.2.1 p.2.2) s).eretOn g
    else .next (s.endByTrap g)
  else .next s

/-! ### Pages -/

/-- The oldest entry of the migration queue consumed: its word 0 is swapped with 0, and HEAD advances (R90); HBM refreshes itself
during a thermal emergency (R399). -/
def State.consumeMigration (s : State) : State :=
  let head := readNat s.mem s.migq 8
  if readNat s.mem (s.migq + 8) 8 = head ∨ s.thermal ≠ .normal then s
  else
    let s := s.store (s.migq + 64 + 16 * (head % 4096)) (zeros 8)
    s.store s.migq (leBytes 8 (head + 1))

/-- The leaf of a context's page, as a walk finds it. -/
def State.pageLeaf (s : State) (asid va : Nat) : Option Leaf :=
  match walk s.mem va (s.ctx asid).root.toNat walkLevels with
  | .found l => if (s.ctx asid).live then some l else none
  | _ => none

/-- Rows of HBM that n bytes from a page's address touch. -/
def pageRows (pa n : Nat) : List Nat := (List.range (n / 256)).map (fun k => rowOf (pa + 256 * k))

/-- Whether the page contains a HELD row (R62). -/
def State.pageHeld (s : State) (pa n : Nat) : Bool :=
  decide (pa < Config.hbmBytes) && (pageRows pa n).any (fun r => s.rowHeld r)

/-- Cores that run a context. -/
def State.coresOf (s : State) (asid : Nat) : List Nat :=
  ((s.harts.filter (fun p => p.2.placed && p.2.asid.toNat == asid)).map (fun p => coreOf p.1)).eraseDups

/-- A leaf's page copied to a fresh page of HBM, its poisoned blocks with it; the leaf is rewritten with F = 0, and TLBINV
runs on every core that runs the context. -/
def State.movePage (s : State) (asid : Nat) (l : Leaf) (fresh : Nat) : State :=
  let old := ptePA l.entry
  let moved := (s.poison.filter (fun b => decide (old / 64 ≤ b) && decide (b < (old + l.size) / 64))).map
    (fun b => b - old / 64 + fresh / 64)
  let s := (s.dcacheClean old l.size).store fresh (readBytes s.mem old l.size)
  let s := { s with poison := s.poison ++ moved }
  let s := s.store l.entryAt (leBytes 8 (putBits (putBits l.entry 12 32 (fresh / 4096)) 9 1 0))
  (s.coresOf asid).foldl (fun s n => s.tlbDiscard n asid true l.base) s

/-- Whether a leaf's page may be moved to a fresh one now: no core that runs the context has a vector memory instruction between
its probe and its commit, for which TLBINV waits (R71). -/
def State.movable (s : State) (asid : Nat) (l : Leaf) (fresh : Nat) : Bool :=
  s.thermal == .normal && aligned fresh l.size && decide (fresh + l.size ≤ Config.hbmBytes) && !s.retiredIn fresh l.size &&
    (s.coresOf asid).all (fun n => !(hartsOf n).any (fun g => (s.hart g).probing asid))

/-- A far page migrated into HBM (R91). -/
def State.migratePage (s : State) (asid va fresh : Nat) : State :=
  match s.pageLeaf asid va with
  | none => s
  | some l => if pteF l.entry && s.movable asid l fresh then s.movePage asid l fresh else s

/-- Whether a page of HBM is to be retired: it held an uncorrectable error, or 16 corrected errors within 24 hours. -/
def State.worn (s : State) (pa : Nat) : Bool :=
  s.ucPages.contains (pa / 65536) ||
    decide (16 ≤ (s.corrected.filter (fun p => p.1 == pa / 65536 && decide (s.time - p.2 ≤ dayNs))).length)

/-- A page of 64 KiB of HBM retired (R396), with the whole of the leaf that maps it. One that contains a HELD row is left alone, or,
when retirement cannot wait, its holds are dropped into their contexts' lost sets first (R62). -/
def State.retirePage (s : State) (asid va fresh : Nat) (force : Bool) : State :=
  match s.pageLeaf asid va with
  | none => s
  | some l =>
    let pa := ptePA l.entry
    if !(decide (l.pa va < Config.hbmBytes) && s.worn (l.pa va) && s.movable asid l fresh && (force || !s.pageHeld pa l.size)) then s
    else
      let rows := pageRows pa l.size
      let s := s.dropHolds (fun _ _ r => rows.contains r)
      { s.movePage asid l fresh with pagesRetired := s.pagesRetired + 1, retiredAt := s.retiredAt ++ [l.pa va / 65536] }

end Sys2Proof.Machine
end

