-- ==== Sys2Proof/Machine/Front.lean ====
section
/-! DEFINITION. The front end of a hart: what it does at an instruction boundary, the fetch of an instruction's words
(R7, R8, R9), and what the agenda brings beside instructions: the passing of time (R19, R382), words fetched ahead
(R362), cached translations (R71) and what outside parties do to memory they own. -/

namespace Sys2Proof.Machine

open Sys2Proof

/-! ### Fetch -/

/-- Where a word at an address stands among the words that a hart has fetched ahead: what is fetched at PL1, untranslated, stands
apart. -/
def Hart.ibufKey (h : Hart) (va : Nat) : Nat := if h.level = .pl0 then va else va + 2 ^ 64

/-- One instruction word: the state with a page that was waiting for its zeroes zeroed (R68), the word and its place. A
word fetched ahead since the last IFENCE stands for what memory holds now (R362). -/
def State.fetchWord (s : State) (g : Nat) (va : Nat) : Except AFault (State × Nat × Reach) :=
  match s.probe (s.space g) .fetch va with
  | .error f => .error f
  | .ok r =>
    let s := s.assignPage r.leaf
    match tfind (s.hart g).ibuf ((s.hart g).ibufKey va) with
    | some w => .ok (s, w.toNat, r)
    | none => .ok (s.consume g [{ i := 0, va := va, len := 4, reach := r }], ofLe (s.load r 4), r)

/-- A fetch fault: its page in FPLIST0 (R86), TRAPADDR the first absent byte (R8) or, for FETCH_NOEXEC, the first byte
of the page (Table 17-2). -/
def fetchFault (f : AFault) : AFault :=
  if f.cause = causeFetchNoexec then { f with addr := f.addr / 65536 * 65536 } else f

/-- A page used by a fetch, of an instruction that executes (R69). -/
def State.fetched (s : State) (r : Reach) : State := s.markPage s.cur.asid.toNat r.leaf false .plain

/-- The current hart with the far granules that its instruction's words come from (R87). -/
def State.withCode (s : State) (rs : List Reach) : State :=
  let far := farGranules (rs.map (fun r => r.pa))
  if s.cur.codeFar = far then s else s.setCur { s.cur with codeFar := far }

/-- The decoded instruction at the current hart's pc with the state its fetch leaves, or the trap it takes: a fetch
fault first (R16), then ILLEGAL. The pages of the words have A set when the instruction executes (R69), which the model takes to be as
soon as its words decode, though it then waits or traps (log entry 115, DESIGN CHOICE). -/
noncomputable def State.fetchDecode (s : State) : Except Out (State × Instr) :=
  let g := s.turn
  let pc := s.cur.pc.toNat
  match s.fetchWord g pc with
  | .error f => .error (s.trapAccess (fetchFault f))
  | .ok (s1, w, r1) =>
    match fetchLength w with
    | none => .error (s1.trap causeIllegal)
    | some 4 =>
      match decodeWords w 0 with
      | .ok i => .ok ((s1.fetched r1).withCode [r1], i)
      | .error _ => .error (s1.trap causeIllegal)
    | some _ =>
      match s1.fetchWord g (pc + 4) with
      | .error f => .error (s1.trapAccess (fetchFault f))
      | .ok (s2, e, r2) =>
        match decodeWords w e with
        | .ok i => .ok (((s2.fetched r1).fetched r2).withCode [r1, r2], i)
        | .error _ => .error (s2.trap causeIllegal)

/-! ### One step of a hart -/

/-- The fetches of an instruction that has committed count at the far granules that its words lie in (R87). Its hart has gone on to
the next instruction; one that only waits, or traps, leaves them. -/
def State.countCode (before t : State) : State :=
  if (t.hart before.turn).codeFar.isEmpty then
    before.cur.codeFar.foldl (fun t k => t.countFar before.cur.asid.toNat (k * 65536)) t
  else t

/-- Whether a first word is of an instruction that makes no access and orders none: the integer and scalar floating-point operations
and the control transfers (Tables 1-3, 1-4). -/
def isQuietWord (w : Nat) : Bool :=
  let m := fld w 7 2
  decide (1 ≤ m ∧ m ≤ 0x0B) || decide (0x17 ≤ m ∧ m ≤ 0x1A) || m == 0x1C || m == 0x1D

/-- Whether accesses that have been put off may stay so while the next instruction of the current hart executes: it goes to a queue,
or makes no access and orders none (R303, R358). -/
def State.lateStays (s : State) : Bool :=
  match s.fetchWord s.turn s.cur.pc.toNat with
  | .ok (_, w, _) => isQueuedWord w || isQuietWord w
  | .error _ => false

/-- Accesses put off are performed before an instruction that they may not be put off behind. -/
def State.settleLate (s : State) : State := if s.cur.late.isEmpty || s.lateStays then s else s.performLate s.turn

/-- What an instruction leaves: its fetches counted; one that waits lets the oldest access that has been put off take place. -/
def State.issued (before t : State) : State :=
  if t.cur = before.cur ∧ t.turn = before.turn then t.performOldest before.turn else before.countCode t

/-- The next instruction of the current hart, or the entry that is due at its boundary. -/
noncomputable def State.issue (s : State) : Out :=
  match s.boundary s.turn with
  | some o => o
  | none =>
    match s.settleLate.fetchDecode with
    | .error o => o
    | .ok (s', i) =>
      match exec i s' with
      | .next t => .next (s'.issued t)
      | o => o

/-- Harts of the current hart's core that a YIELD holds see that its turn has come (R320). -/
def State.turnSeen (s : State) : State :=
  ((hartsOf (coreOf s.turn)).filter (fun k => k != s.turn && (s.hart k).yielding.isSome)).foldl (fun s k =>
    s.setHart k { s.hart k with yielding := (s.hart k).yielding.map (fun l => s.turn :: l) }) s

/-- Whether a YIELD still holds the current hart: some hart of its core that runs, and that no YIELD holds, has not had its turn
(R320). -/
def State.yieldHolds (s : State) : Bool :=
  match s.cur.yielding with
  | none => false
  | some l => (hartsOf (coreOf s.turn)).any (fun k =>
      k != s.turn && (s.hart k).run == .running && (s.hart k).yielding.isNone && !l.contains k)

/-- The current hart goes on: the entry that is due at its boundary, or, after what can run of its queues, its next
instruction. -/
noncomputable def State.goes (s : State) : Out :=
  match s.boundary s.turn with
  | some o => o
  | none => (s.drainEager s.turn).issue

/-- The current hart's step: nothing when it has no work, its core stands still, a YIELD holds it, or it
stands at PL1 and a comparison with its shadow has failed (R388); otherwise it goes on. -/
noncomputable def State.hartStep (s : State) : Out :=
  if s.cur.run ≠ .running then .next s
  else if s.stopped s.turn then .next s
  else if s.cur.level = .pl1 ∧ s.cur.mismatched then .next s
  else
    let s := s.turnSeen
    if s.yieldHolds then .next s
    else if s.cur.yielding.isSome then State.goes (s.setCur { s.cur with yielding := none })
    else s.goes

/-- Hart g's next instruction, an access, is put off behind those that are (R303, R358). -/
noncomputable def State.defer (s : State) (g : Nat) : State :=
  if (s.hart g).run ≠ .running ∨ s.stopped g ∨ (s.hart g).yielding.isSome ∨ (s.boundary g).isSome then s
  else
    match State.fetchDecode { s with turn := g } with
    | .error _ => s
    | .ok (s', i) =>
      match s'.deferAccess g i with
      | some t => { s'.countCode t with turn := s.turn }
      | none => s

/-- The oldest access that hart g has put off takes place (R358); after a failed comparison with its shadow none does (R388). -/
def State.settleOne (s : State) (g : Nat) : State := if s.stopped g || (s.hart g).mismatched then s else s.performOldest g

/-! ### Time -/

/-- Hundredths of an island cycle that pass in 1 ns at an operating point (Table 0-1); OP3 stops the clock. -/
def cyclesPerNs (op : Nat) : Nat :=
  match op with
  | 0 => 100
  | 1 => 85
  | 2 => 60
  | _ => 0

/-- A hart's budget after some cycles of its island in which it was placed and running at PL0 (R382). -/
def Hart.spend (h : Hart) (cycles : Nat) : Hart :=
  if h.run = .running ∧ h.level = .pl0 ∧ h.tbudget ≠ 0 then
    if h.tbudget.toNat ≤ cycles then { h with tbudget := 0, budgetDue := true }
    else { h with tbudget := h.tbudget - BitVec.ofNat 64 cycles }
  else h

/-- A pair after some hundredths of a cycle. -/
def addCycles (x : Pair) (n : Nat) : Pair := { x with cycle := x.cycle + n }

/-- Hundredths of a cycle that pair p's island runs in n ns. -/
def State.gain (s : State) (n p : Nat) : Nat :=
  if s.thermal != .normal || (s.pair p).busy then 0 else n * cyclesPerNs (s.pair p).current

/-- n ns pass: TIME, the islands' cycles and the budgets move, and the timers unless an emergency pauses them (R400); the
event latch of every hart is set when TIME reaches a multiple of 10,000 (R319). -/
def State.pass (s : State) (n : Nat) : State :=
  let s := s.promote
  let s := if s.time / 10000 < (s.time + n) / 10000 then s.wakeAll else s
  { s with
    time := s.time + n
    paused := if s.thermal = .normal then s.paused else s.paused + n
    harts := s.harts.map (fun q =>
      (q.1, q.2.spend (((s.pair (pairOf q.1)).cycle % 100 + s.gain n (pairOf q.1)) / 100)))
    pairs := (List.range Config.pairs).foldl (fun ps p => tput ps p (addCycles (tget ps p {}) (s.gain n p))) s.pairs }

/-! ### What the agenda brings -/

/-- A word fetched ahead of need, when its fetch would not fault now (R82, R362). A page that waits for its zeroes, and a poisoned
block, give nothing ahead of the fetch itself (R48, R68). -/
def State.prefetch (s : State) (g : Nat) (va : Word) : State :=
  if s.stopped g then s
  else
  match s.probe (s.space g) .fetch va.toNat with
  | .error _ => s
  | .ok r =>
    let waits := match r.leaf with
      | some l => s.sameLeaf l && pteZA (readNat s.mem l.entryAt 8) == 1
      | none => false
    if waits || r.taint.isSome || s.poisoned r.pa 4 then s
    else
      let h := s.hart g
      s.setHart g { h with ibuf := tput h.ibuf (h.ibufKey va.toNat) (BitVec.ofNat 32 (ofLe (s.load r 4))) }

/-- A translation that a core caches (R71): the leaf a walk finds now. What a walk of no instruction reads from a poisoned block is not
kept (R48). -/
def State.cacheLeaf (s : State) (g : Nat) (va : Word) : State :=
  let sp := { s.space g with core := none }
  if s.stopped g || (s.walkTaint sp va.toNat).isSome then s
  else
  match s.leafOf sp va.toNat with
  | .found l =>
    let n := coreOf g
    let c := s.core n
    s.setCore n { c with tlb := ⟨sp.asid, l.base, l.size, BitVec.ofNat 64 l.entry, l.entryAt⟩ :: c.tlb }
  | _ => s

/-- What the owner of far memory, or a peer in its own, writes: bytes of the far window or of a group's Braid window. -/
def State.outsideWrite (s : State) (pa : Nat) (bs : List Byte) : State :=
  if (Config.farBase ≤ pa ∧ pa + bs.length ≤ Config.braidBase) ∨ 2 ^ 64 ≤ pa then
    let s := s.store pa bs
    s.farWriteBack pa bs.length
  else s

/-- What dispatch firmware writes to HBM at PL1: page tables, and the sections that its loader places (R438); no core runs
during a thermal emergency (R399). -/
def State.loadedBytes (s : State) (pa : Nat) (bs : List Byte) : State :=
  if pa + bs.length ≤ Config.hbmBytes ∧ s.thermal = .normal then (s.store pa bs).notePosts else s

/-- An event of the agenda: an operation of the table that no word encodes and that names parts the device has. -/
def State.runEvent (s : State) (i : Instr) : Out :=
  if i.wf ∧ i.bytes = 0 then exec i s else .next s

/-- One error of a cycle: what an event of the table makes of its own, or one that is found (R393). -/
def State.oneError (s : State) (e : HwError) : State :=
  match e with
  | .event i =>
    match s.runEvent i with
    | .next t => t
    | _ => s
  | _ => s.foundError e

/-- The errors of one cycle, in the order in which they reach their banks (R393). -/
def State.hwErrors (s : State) (l : List HwError) : State := (s.errorOrder l).foldl State.oneError s

/-- A request that travels in an SPDM session (R406). -/
def State.runRequest (s : State) (session : Nat) (i : Instr) : Out :=
  match State.runEvent { s with trust := { s.trust with asking := some session } } i with
  | .next t => .next { t with trust := { t.trust with asking := none } }
  | o => o

/-- Whether hart g has asked a slot of a peer's hart and still waits (R296). -/
def State.asks (s : State) (pos : Nat) (q : Nat × Nat × Nat) : Bool :=
  (s.hart q.1).vq.any (fun e => e.stored && (match e.op with
    | .send _ _ =>
      let w := (e.ops.headD 0).toNat
      !bit w 13 && sendPeer w == pos && sendHart w == q.2.1 && sendSlot w == q.2.2
    | _ => false))

/-- A peer as it is known from now on. A grant or a refusal for a SEND that no longer asks has come too late and is nothing (R297). -/
def State.setPeer (s : State) (p : Peer) : State :=
  let p := { p with granted := p.granted.filter (s.asks p.pos), refused := p.refused.filter (s.asks p.pos) }
  { s with peers := p :: s.peers.filter (fun q => q.pos != p.pos) }

/-! ### Placing a program -/

/-- Where `placeProgram` puts its page tables: four nodes of 4 KiB. -/
def tableBase : Nat := 0x1000000
/-- Where `placeProgram` puts its one page of 64 KiB, which virtual address 0 maps. -/
def pageBase : Nat := 0x2000000

/-- A state in which hart 0 is about to fetch the given bytes at virtual address 0 of context 1, with one readable,
writable and executable page (log entry 16). -/
def State.placeProgram (s : State) (bs : List Byte) : State :=
  let m := writeNat s.mem tableBase 8 (tableBase + 0x1000 + 3)
  let m := writeNat m (tableBase + 0x1000) 8 (tableBase + 0x2000 + 3)
  let m := writeNat m (tableBase + 0x2000) 8 (tableBase + 0x3000 + 3)
  let m := writeNat m (tableBase + 0x3000) 8 (pageBase + 0x1D)
  let s := { s with agenda := [], turn := 0, mem := writeBytes m pageBase bs, thermal := .normal, poison := [] }
  let s := s.setCtx 1 { s.ctx 1 with live := true, root := BitVec.ofNat 64 tableBase }
  let s := s.setCore 0 { s.core 0 with owner := some 1, tlb := [], health := .offered, sweep := false }
  let s := s.setPair 0 { s.pair 0 with busy := false, target := 0, current := 0 }
  let h := s.hart 0
  s.setHart 0 { h with
    run := .running, level := .pl0, pc := 0, asid := 1, ptbase := BitVec.ofNat 64 tableBase
    yielding := none, trapDue := none, imprecise := none, budgetDue := false, preemptDue := false, ibuf := [], vq := [], mq := []
    late := [], old := [], codeFar := [] }

end Sys2Proof.Machine
end

