-- ==== Sys2Proof/Machine/Step.lean ====
section
/-! DEFINITION. One step of the device: what the agenda lists first, otherwise the hart whose turn it is (log entry 1). -/

namespace Sys2Proof.Machine

open Sys2Proof

/-- One step. -/
noncomputable def step (s : State) : Host.Outcome State Fault Refusal :=
  match s.agenda with
  | [] => s.hartStep
  | .event i :: r => State.runEvent { s with agenda := r } i
  | .turn g :: r => State.hartStep { s with agenda := r, turn := g }
  | .defer g :: r => .next (State.defer { s with agenda := r } g)
  | .settle g :: r => .next (State.settleOne { s with agenda := r } g)
  | .request session i :: r => State.runRequest { s with agenda := r } session i
  | .pass n :: r => .next (State.pass { s with agenda := r } n)
  | .prefetchWord g va :: r => .next (State.prefetch { s with agenda := r } g va)
  | .cacheTranslation g va :: r => .next (State.cacheLeaf { s with agenda := r } g va)
  | .outside pa bs :: r => .next (State.outsideWrite { s with agenda := r } pa bs)
  | .loaded pa bs :: r => .next (State.loadedBytes { s with agenda := r } pa bs)
  | .hwErrors l :: r => .next (State.hwErrors { s with agenda := r } l)
  | .stackDegraded st on :: r => .next (State.setDegraded { s with agenda := r } st on)
  | .coreUngated n :: r => .next (State.coreUngated { s with agenda := r } n)
  | .rdmaWord qp k :: r => .next (State.rdmaWord { s with agenda := r } qp k)
  | .engineWrite asid c e :: r => .next (State.engineWrite { s with agenda := r } asid c e)
  | .slotRequest gid pos sender g k :: r => .next (State.slotRequestFrom { s with agenda := r } gid pos sender g k)
  | .firmware g pages :: r => State.firmware { s with agenda := r } g pages
  | .slotReturn pos sender g k :: r => .next (State.slotReturnFrom { s with agenda := r } pos sender g k)
  | .consumeMigration :: r => .next (State.consumeMigration { s with agenda := r })
  | .migratePage asid va fresh :: r => .next (State.migratePage { s with agenda := r } asid va fresh)
  | .retirePage asid va fresh force :: r => .next (State.retirePage { s with agenda := r } asid va fresh force)
  | .peer p :: r => .next (State.setPeer { s with agenda := r } p)

/-- The state with the instruction of `nbits` bits w, zero above them, where the next step fetches (log entry 16). -/
def State.withFetchWord (s : State) (nbits w : Nat) : State :=
  s.placeProgram (bytesOfWord (w % 2 ^ nbits) ++ bytesOfWord (w % 2 ^ nbits / 2 ^ 32))

end Sys2Proof.Machine
end

