-- ==== Sys2Proof/Machine/Assembly.lean ====
section
/-! DEFINITION. What the Smio tools make of operands, pseudo-instructions, directives and relocations (R22 to R32, R438):
the numbers that come to stand in words and bytes. The text of a source line (R21) is no part of the machine. -/

namespace Sys2Proof.Machine

open Sys2Proof

/-! ### Expressions and immediates (R23) -/

/-- An expression of a source line: numbers, symbols, and the operators of R23. -/
inductive AsmExpr where
  | num (v : Word)
  | sym (name : String)
  | neg (a : AsmExpr)
  | not (a : AsmExpr)
  | add (a b : AsmExpr)
  | sub (a b : AsmExpr)
  | mul (a b : AsmExpr)
  | div (a b : AsmExpr)
  | shl (a b : AsmExpr)
  | shr (a b : AsmExpr)
  | and (a b : AsmExpr)
  | or (a b : AsmExpr)
  | xor (a b : AsmExpr)
  deriving DecidableEq, Repr

/-- The value of an expression in 64-bit two's complement (R23); none is an assembly error. Quotients round toward zero and
right shifts keep the sign; division by zero and shifts by 64 or more are errors (log entry 78). -/
def AsmExpr.value (syms : List (String × Word)) : AsmExpr → Option Word
  | .num v => some v
  | .sym n => (syms.find? (fun p => p.1 == n)).map (·.2)
  | .neg a => (a.value syms).map (fun x => -x)
  | .not a => (a.value syms).map (fun x => ~~~x)
  | .add a b => (a.value syms).bind (fun x => (b.value syms).map (fun y => x + y))
  | .sub a b => (a.value syms).bind (fun x => (b.value syms).map (fun y => x - y))
  | .mul a b => (a.value syms).bind (fun x => (b.value syms).map (fun y => x * y))
  | .div a b => (a.value syms).bind (fun x => (b.value syms).bind (fun y => if y = 0 then none else some (x.sdiv y)))
  | .shl a b => (a.value syms).bind (fun x => (b.value syms).bind (fun y => if 64 ≤ y.toNat then none else some (x <<< y.toNat)))
  | .shr a b => (a.value syms).bind (fun x => (b.value syms).bind (fun y =>
      if 64 ≤ y.toNat then none else some (x.sshiftRight y.toNat)))
  | .and a b => (a.value syms).bind (fun x => (b.value syms).map (fun y => x &&& y))
  | .or a b => (a.value syms).bind (fun x => (b.value syms).map (fun y => x ||| y))
  | .xor a b => (a.value syms).bind (fun x => (b.value syms).map (fun y => x ^^^ y))

/-- A value as a field of n bits: signed fields take −2^(n−1) to 2^(n−1) − 1, the others 0 to 2^n − 1 (R23). -/
def fieldOf (n : Nat) (isSigned : Bool) (v : Int) : Option (BitVec n) :=
  let ok := if isSigned then decide (-(2 ^ (n - 1) : Int) ≤ v) && decide (v < 2 ^ (n - 1)) else decide (0 ≤ v) && decide (v < 2 ^ n)
  if ok then some (BitVec.ofInt n v) else none

/-- A decimal floating-point immediate, digits × 10^tens, rounded to the format with RNE (R23). -/
def floatImm (f : Fmt) (neg : Bool) (digits : Nat) (tens : Int) : Nat :=
  match tens with
  | .ofNat t => (f.round 0 (FVal.ofMag neg (digits * 10 ^ t) 0)).1
  | .negSucc t =>
    let (q, x) := quotient (f.fb + 4) digits (10 ^ (t + 1)) 0
    (f.round 0 (FVal.ofMag neg q x)).1

/-! ### Relocation operators and branch operands (R22, R24) -/

/-- lo(v) (R24). -/
def loPart (v : Word) : Word := (v.setWidth 13).signExtend 64

/-- hi(v) (R24). -/
def hiPart (v : Word) : Word := (v - loPart v).sshiftRight 13

/-- %pc(S) at the address P of its instruction (Table 1-7). -/
def pcPart (p s : Word) : Word := (s - loPart s - (p &&& ~~~(0x1FFF : Word))).sshiftRight 13

/-- The signed field of n bits of the branch or jump at P that continues at a target (R22): the difference must be a multiple
of 4 and within reach. -/
def branchField (n : Nat) (p target : Word) : Option (BitVec n) :=
  let d := (target - p).toInt
  if d % 4 = 0 then fieldOf n true (d / 4) else none

/-! ### Pseudo-instructions (R25) -/

/-- The forms of Table 1-10. -/
inductive Pseudo where
  | nop
  | mv (d a : XReg)
  | li (d : XReg) (imm : Word)
  | la (d : XReg) (s : Word)
  | ret
  deriving DecidableEq, Repr

/-- The instructions a pseudo-instruction at P stands for; none is an assembly error. -/
noncomputable def Pseudo.expand (p : Word) : Pseudo → Option (List Instr)
  | .nop => some [.addi 0 0 0]
  | .mv d a => some [.addi d a 0]
  | .li d imm =>
    match fieldOf 14 true imm.toInt with
    | some i => some [.addi d 0 i]
    | none =>
      match fieldOf 32 true imm.toInt with
      | some i => some [.lix d i]
      | none => some [.lix d (imm.setWidth 32), .lixh d ((imm >>> 32).setWidth 32)]
  | .la d s => (fieldOf 19 true (pcPart p s).toInt).map (fun i => [.addpc d i, .addi d d ((loPart s).setWidth 14)])
  | .ret => some [.jlr 0 1 0]

/-! ### Relocations (R30) -/

/-- The relocation types of Table 1-13. -/
inductive Reloc where
  | none
  | abs64
  | abs32
  | hi19
  | lo14
  | pc19
  | br11
  | jp24
  | e32
  | e32h
  | linkPc19
  | linkLo14
  | linkent
  deriving DecidableEq, Repr

/-- The types in the order of their values, 0 to 12. -/
def relocTypes : List Reloc :=
  [.none, .abs64, .abs32, .hi19, .lo14, .pc19, .br11, .jp24, .e32, .e32h, .linkPc19, .linkLo14, .linkent]

/-- The type of a value, and the value of a type (Table 1-13). -/
def Reloc.ofCode (n : Nat) : Option Reloc := relocTypes[n]?
def Reloc.code (r : Reloc) : Nat := relocTypes.idxOf r

/-- Bytes of the field that a relocation is about. -/
def Reloc.bytes (r : Reloc) : Nat :=
  match r with
  | .none => 0
  | .abs64 | .linkent => 8
  | _ => 4

/-- The word at P of 64 bits (abs64) or 32 bits (the others) after a relocation by symbol S and addend A, with L the linkage
entry of the symbol; none is a link error. A linkage entry itself is set at load. -/
def Reloc.apply (r : Reloc) (w : Nat) (s a p l : Word) : Option Nat :=
  let v := s + a
  match r with
  | .none | .linkent => some w
  | .abs64 => some v.toNat
  | .abs32 => if v.toNat < 2 ^ 32 ∨ (-(2 ^ 31 : Int) ≤ v.toInt ∧ v.toInt < 2 ^ 31) then some (v.toNat % 2 ^ 32) else Option.none
  | .hi19 => (fieldOf 19 true (hiPart v).toInt).map (fun x => putBits w 13 19 x.toNat)
  | .lo14 => (fieldOf 14 true (loPart v).toInt).map (fun x => putBits w 18 14 x.toNat)
  | .pc19 => (fieldOf 19 true (pcPart p v).toInt).map (fun x => putBits w 13 19 x.toNat)
  | .br11 => (branchField 11 p v).map (fun x => putBits w 21 11 x.toNat)
  | .jp24 => (branchField 24 p v).map (fun x => putBits w 8 24 x.toNat)
  | .e32 => some (v.toNat % 2 ^ 32)
  | .e32h => some (v.toNat / 2 ^ 32)
  | .linkPc19 => (fieldOf 19 true (pcPart p (l + a)).toInt).map (fun x => putBits w 13 19 x.toNat)
  | .linkLo14 => (fieldOf 14 true (loPart (l + a)).toInt).map (fun x => putBits w 18 14 x.toNat)

/-! ### Data and block directives (R26, R27) -/

/-- A value in n bytes. One that does not fit is an assembly error (R23); data and block fields take a value that fits them with or
without a sign (log entry 78). -/
def dataBytes (n : Nat) (v : Word) : Option (List Byte) :=
  if v.toNat < 256 ^ n ∨ (-(128 * 256 ^ (n - 1)) : Int) ≤ v.toInt ∧ v.toInt < 0 then some (leBytes n v.toNat) else none

/-- The padding of .align n at an address: the nop word in an executable place, and zero elsewhere. None is an error: nops do
not fill a gap that is no multiple of 4. -/
def alignBytes (n pos : Nat) (executable : Bool) : Option (List Byte) :=
  let gap := (n - pos % n) % n
  if executable then
    (if gap % 4 = 0 then some ((List.replicate (gap / 4) (bytesOfWord 0x00000009)).flatten) else none)
  else some (zeros gap)

/-- A line of a block: its keyword, how many values it takes, and the bytes of each; the empty keyword is a gap that stays zero. -/
structure BlockRow where
  key   : String
  count : Nat
  size  : Nat
  deriving DecidableEq, Repr

/-- The keywords of .launch in the order of Table 15-5. -/
def launchRows : List BlockRow :=
  [⟨"entry", 1, 8⟩, ⟨"args", 1, 8⟩, ⟨"gangs", 1, 4⟩, ⟨"cores", 1, 1⟩, ⟨"harts", 1, 1⟩, ⟨"lanes", 4, 1⟩, ⟨"priority", 1, 1⟩,
   ⟨"check", 1, 1⟩, ⟨"flags", 1, 2⟩, ⟨"holdq", 1, 2⟩, ⟨"vrb", 1, 4⟩, ⟨"spb", 1, 4⟩, ⟨"ccb", 1, 4⟩, ⟨"tags", 4, 1⟩,
   ⟨"budget", 1, 8⟩, ⟨"done", 1, 8⟩, ⟨"deps", 1, 4⟩, ⟨"leaseq", 1, 2⟩, ⟨"", 2, 1⟩, ⟨"footprint", 1, 8⟩, ⟨"handler", 1, 8⟩,
   ⟨"", 40, 1⟩]

/-- The keywords of .decl in the order of Table 11-1 (R27, R240). -/
def declRows : List BlockRow :=
  [⟨"bbase", 1, 8⟩, ⟨"endsig", 1, 8⟩, ⟨"bstride", 1, 8⟩, ⟨"kstride", 1, 8⟩, ⟨"nstride", 1, 8⟩, ⟨"period", 1, 4⟩, ⟨"mb", 1, 2⟩,
   ⟨"nb", 1, 2⟩, ⟨"kb", 1, 2⟩, ⟨"bfmt", 1, 1⟩, ⟨"lookahead", 1, 1⟩, ⟨"policy", 1, 1⟩, ⟨"", 1, 1⟩, ⟨"feeder", 1, 1⟩,
   ⟨"drainer", 1, 1⟩, ⟨"start", 1, 8⟩]

/-- The operands of .stream in the order of Table 3-4. -/
def streamSizes : List Nat := [8, 1, 1, 2, 4] ++ List.replicate 12 4

/-- Bytes one after the other, unless one of them is an error. -/
def joinBytes : List (Option (List Byte)) → Option (List Byte)
  | [] => some []
  | x :: r => x.bind (fun a => (joinBytes r).map (fun b => a ++ b))

/-- The values of a row: those of its line, or zeros. -/
def BlockRow.values (r : BlockRow) (lines : List (String × List Word)) : List Word :=
  ((lines.find? (fun l => l.1 == r.key && r.key != "")).map (·.2)).getD (List.replicate r.count 0)

/-- The bytes of a block from its lines. An unknown or repeated keyword, a wrong number of values and a value that does not fit its
field are assembly errors (R27). -/
def blockBytes (rows : List BlockRow) (lines : List (String × List Word)) : Option (List Byte) :=
  if lines.any (fun l => !rows.any (fun r => r.key != "" && r.key == l.1 && r.count == l.2.length)) ||
      (lines.map (·.1)).eraseDups.length != lines.length then none
  else joinBytes (rows.map (fun r => joinBytes ((r.values lines).map (dataBytes r.size))))

/-- The 64 bytes of a .stream from its operands (R27). -/
def streamBytes (ops : List Word) : Option (List Byte) :=
  if ops.length ≠ streamSizes.length then none else joinBytes ((streamSizes.zip ops).map (fun p => dataBytes p.1 p.2))

/-! ### Code objects (R28, R29, R438) and the disassembler (R32) -/

/-- Whether the loader takes an object of this identification (R28): class 2 is ELFCLASS64, data 1 is ELFDATA2LSB. -/
def objectAccepted (fileClass fileData osabi machine flags : Nat) : Bool :=
  fileClass == 2 && fileData == 1 && osabi == 0 && machine == 0xA7E5 && flags == 2

/-- A kernel record (R29). -/
def kernelRecord (entry size name : Nat) : List Byte := leBytes 8 entry ++ leBytes 4 size ++ leBytes 4 name ++ zeros 16

/-- The rights of a section's pages, R 4, W 8 and X 16, from its flags; a section that is not allocated is not loaded (R438). -/
def pageRights (allocate write execute : Bool) : Option Nat :=
  if allocate then some (4 + (if write then 8 else 0) + (if execute then 16 else 0)) else none

/-- An instruction that decodes and that R16 makes ILLEGAL for its encoding all the same: a permute whose destination is a source
(R204). -/
def illegalPermute : Instr → Bool
  | .vslideup d a _ _ => d == a
  | .vslidedn d a _ _ => d == a
  | .vgather d a b _ => d == a || d == b
  | .vcompress d a _ => d == a
  | .vexpand d a _ => d == a
  | _ => false

/-- What smio-dis prints at the front of some bytes: an instruction, or a word that is none, with the bytes to go on from. -/
noncomputable def disassemble (bs : List Byte) : Sum Instr (List Byte) × List Byte :=
  match decode bs with
  | .ok (i, rest) => if illegalPermute i then (.inr (bs.take 4), bs.drop 4) else (.inl i, rest)
  | .error _ => (.inr (bs.take 4), bs.drop 4)

end Sys2Proof.Machine
end

