-- ==== Sys2Proof/Machine/Objects.lean ====
section
/-! DEFINITION. Assembling statements into the sections of a code object, linking it and loading it (R26 to R31, R426, R438). The
text of a source line (R21) is no part of the machine: a statement is given by its parts. -/

namespace Sys2Proof.Machine

open Sys2Proof

/-! ### Sections (R26, R29) -/

/-- A relocation of a section: where its field stands, its type, its symbol and its addend (R30). -/
structure AsmReloc where
  pos    : Nat
  typ    : Reloc
  sym    : String
  addend : Word
  deriving DecidableEq, Repr

/-- A section of an object: its flags a, w and x, its contents, its alignment and its relocations. -/
structure AsmSection where
  name    : String
  alloc   : Bool
  write   : Bool
  execute : Bool
  bytes   : List Byte := []
  align   : Nat := 1
  relocs  : List AsmReloc := []
  deriving DecidableEq, Repr

/-- The types of Table 1-12: SHT_KLOCA_LINK and SHT_KLOCA_KERNELS; other sections have none of Kloca's own. -/
def AsmSection.klocaType (s : AsmSection) : Option Nat :=
  if s.name = ".link" then some 0x70000001 else if s.name = ".kloca.kernels" then some 0x70000002 else none

/-- Bytes of an entry of a section of Table 1-12. -/
def AsmSection.entrySize (s : AsmSection) : Nat :=
  match s.klocaType with
  | some 0x70000001 => 8
  | some _ => 32
  | none => 0

/-- A new section of a name, with the flags of the standard section of that name (Table 1-12, R438); any other allocates. -/
def newSection (name : String) : AsmSection :=
  let own := name == ".link" || name == ".kloca.kernels"
  { name := name, alloc := true, write := name == ".data" || name == ".bss" || name == ".link", execute := name == ".text"
    align := if own then 8 else 1 }

/-- What a symbol stands for: a value of .equ, or a place in a section. -/
inductive AsmSym where
  | value (v : Word)
  | place (sec : String) (pos : Nat)
  deriving DecidableEq, Repr

/-- An object as far as it has been assembled: its sections and the one selected, its symbols, those it exports and imports, the
names of .strtab, and the kernel that is open with the place of its code. -/
structure AsmObject where
  sections : List AsmSection := []
  now      : String := ".text"
  syms     : List (String × AsmSym) := []
  globals  : List String := []
  externs  : List String := []
  strtab   : List Byte := [0]
  kernel   : Option (String × Nat) := none
  deriving DecidableEq, Repr

/-- A statement (R26, R27): an instruction with the relocations of its words, or a directive. -/
inductive AsmStmt where
  | instr (i : Instr) (relocs : List AsmReloc)
  | select (name : String) (flags : Option (Bool × Bool × Bool))
  | align (n : Nat)
  | data (size : Nat) (vs : List AsmExpr)
  | space (n : Nat) (fill : AsmExpr)
  | equ (name : String) (e : AsmExpr)
  | global (name : String)
  | extern (name : String)
  | link (sym : String)
  | kernel (name : String)
  | kend
  | launch (lines : List (String × List AsmExpr))
  | stream (ops : List AsmExpr)
  | decl (lines : List (String × List AsmExpr))
  deriving DecidableEq, Repr

def AsmObject.find (o : AsmObject) (name : String) : AsmSection :=
  (o.sections.find? (fun s => s.name == name)).getD (newSection name)

/-- A section replaced, or added. -/
def AsmObject.put (o : AsmObject) (s : AsmSection) : AsmObject :=
  { o with sections := if o.sections.any (fun t => t.name == s.name)
                       then o.sections.map (fun t => if t.name == s.name then s else t)
                       else o.sections ++ [s] }

/-- The next free place of the section that is selected. -/
def AsmObject.here (o : AsmObject) : Nat := (o.find o.now).bytes.length

/-- The symbols that have a value already (R23). -/
def AsmObject.values (o : AsmObject) : List (String × Word) :=
  o.syms.filterMap (fun p => match p.2 with
    | .value v => some (p.1, v)
    | .place _ _ => none)

/-! ### Statements -/

/-- A symbol defined once. -/
def AsmObject.define (o : AsmObject) (name : String) (v : AsmSym) : Option AsmObject :=
  if o.syms.any (fun p => p.1 == name) then none else some { o with syms := o.syms ++ [(name, v)] }

/-- Bytes at the end of the selected section, with the relocations of their fields, whose places count from the bytes. -/
def AsmObject.emit (o : AsmObject) (bs : List Byte) (rs : List AsmReloc := []) : AsmObject :=
  let s := o.find o.now
  o.put { s with bytes := s.bytes ++ bs, relocs := s.relocs ++ rs.map (fun r => { r with pos := r.pos + s.bytes.length }) }

/-- Padding to a multiple of n, a power of two (R26). -/
def AsmObject.pad (o : AsmObject) (n : Nat) : Option AsmObject :=
  if n = 0 ∨ 2 ^ log2 n ≠ n then none
  else
    let s := o.find o.now
    (alignBytes n s.bytes.length s.execute).map (fun bs => (o.put { s with align := max s.align n }).emit bs)

/-- An expression as a symbol plus a number, or as a number alone; none where it is neither (R23, R30). -/
def AsmExpr.linear (known : List (String × Word)) (e : AsmExpr) : Option (Option String × Word) :=
  match e.value known with
  | some v => some (none, v)
  | none =>
    match e with
    | .sym n => some (some n, 0)
    | .add (.sym n) b => (b.value known).map (fun v => (some n, v))
    | .add a (.sym n) => (a.value known).map (fun v => (some n, v))
    | .sub (.sym n) b => (b.value known).map (fun v => (some n, -v))
    | _ => none

/-- An operand of n bytes: its value now, and the relocation that fixes it where it rests on an address (R30). -/
def AsmObject.operand (o : AsmObject) (n : Nat) (e : AsmExpr) : Option (Word × List AsmReloc) :=
  match e.linear o.values with
  | some (none, v) => some (v, [])
  | some (some sym, v) =>
    if n = 8 then some (0, [⟨0, .abs64, sym, v⟩]) else if n = 4 then some (0, [⟨0, .abs32, sym, v⟩]) else none
  | none => none

/-- The values of operands of given sizes that stand one after the other, with their relocations. -/
def AsmObject.operands (o : AsmObject) : List Nat → List AsmExpr → Option (List Word × List AsmReloc)
  | n :: ns, e :: es =>
    (o.operand n e).bind (fun x => (AsmObject.operands o ns es).map (fun y =>
      (x.1 :: y.1, x.2 ++ y.2.map (fun r => { r with pos := r.pos + n }))))
  | _, _ => some ([], [])

/-- The lines of a block with their values, and the relocations of its fields. -/
def AsmObject.blockLines (o : AsmObject) (lines : List (String × List AsmExpr)) :
    List BlockRow → Nat → Option (List (String × List Word) × List AsmReloc)
  | [], _ => some ([], [])
  | r :: rest, pos =>
    let es := ((lines.find? (fun l => l.1 == r.key && r.key != "")).map (·.2)).getD []
    (o.operands (List.replicate es.length r.size) es).bind (fun x =>
      (AsmObject.blockLines o lines rest (pos + r.count * r.size)).map (fun y =>
        ((if es.isEmpty then [] else [(r.key, x.1)]) ++ y.1, x.2.map (fun q => { q with pos := q.pos + pos }) ++ y.2)))

/-- A block of lines, aligned to n (R27). -/
def AsmObject.block (o : AsmObject) (rows : List BlockRow) (lines : List (String × List AsmExpr)) : Option AsmObject :=
  if (blockBytes rows (lines.map (fun l => (l.1, l.2.map (fun _ => 0))))).isNone then none
  else (o.blockLines lines rows 0).bind (fun x => (blockBytes rows x.1).map (fun bs => o.emit bs x.2))

/-- Where the linkage entry for a symbol stands in .link (R31). -/
def AsmObject.entryFor (o : AsmObject) (sym : String) : Option Nat :=
  ((o.find ".link").relocs.find? (fun r => r.typ == .linkent && r.sym == sym)).map (·.pos)

/-- A linkage entry for a symbol, aligned to 8, unless there is one: duplicate entries are merged (R24, R26, R31). -/
def AsmObject.linkFor (o : AsmObject) (sym : String) : AsmObject :=
  match o.entryFor sym with
  | some _ => o
  | none =>
    let s := o.find ".link"
    let gap := (8 - s.bytes.length % 8) % 8
    o.put { s with bytes := s.bytes ++ zeros (gap + 8), align := max s.align 8
                   relocs := s.relocs ++ [⟨s.bytes.length + gap, .linkent, sym, 0⟩] }

/-- The alignment that a statement inserts before its content (R26). -/
def AsmStmt.padding : AsmStmt → Nat
  | .align n => n
  | .launch _ => 128
  | .stream _ => 64
  | .decl _ => 64
  | _ => 1

/-- A kernel's range and record (R26, R29). -/
def AsmObject.endKernel (o : AsmObject) : Option AsmObject :=
  match o.kernel with
  | none => none
  | some (name, start) =>
    let k := o.find ".kloca.kernels"
    let record := kernelRecord 0 (o.here - start) o.strtab.length
    some { (o.put { k with
      bytes := k.bytes ++ record, relocs := k.relocs ++ [⟨k.bytes.length, .abs64, name, 0⟩] }) with
        strtab := o.strtab ++ name.toUTF8.toList.map (fun b => BitVec.ofNat 8 b.toNat) ++ [0], kernel := none }

/-- The content of a statement after its padding; none is an assembly error. -/
noncomputable def AsmObject.content (o : AsmObject) : AsmStmt → Option AsmObject
  | .instr i rs =>
    if o.here % 4 ≠ 0 then none
    else
      let o := rs.foldl (fun o r => if r.typ = .linkPc19 ∨ r.typ = .linkLo14 then o.linkFor r.sym else o) o
      some (o.emit (encode i) rs)
  | .select name flags =>
    let s := o.find name
    let s := match flags with
      | some (a, w, x) => { s with alloc := a, write := w, execute := x }
      | none => s
    some { o.put s with now := name }
  | .align _ => some o
  | .data n vs =>
    (o.operands (List.replicate vs.length n) vs).bind (fun x => (joinBytes (x.1.map (dataBytes n))).map (fun bs => o.emit bs x.2))
  | .space n fill => (fill.value o.values).bind (fun v => (dataBytes 1 v).map (fun b => o.emit ((List.replicate n b).flatten)))
  | .equ name e => (e.value o.values).bind (fun v => o.define name (.value v))
  | .global name => some { o with globals := o.globals ++ [name] }
  | .extern name => some { o with externs := o.externs ++ [name] }
  | .link sym => some (o.linkFor sym)
  | .kernel name => if o.kernel.isSome then none else some { o with kernel := some (name, o.here) }
  | .kend => o.endKernel
  | .launch lines => o.block launchRows lines
  | .stream ops =>
    if ops.length ≠ streamSizes.length then none
    else (o.operands streamSizes ops).bind (fun x => (streamBytes x.1).map (fun bs => o.emit bs x.2))
  | .decl lines => o.block declRows lines

/-- One line: its label names the first byte of the statement's own content, after the padding that the statement inserts (R26). -/
noncomputable def AsmObject.line (o : AsmObject) (label : Option String) (st : Option AsmStmt) : Option AsmObject :=
  ((match st with
    | some x => if x.padding = 1 then some o else o.pad x.padding
    | none => some o).bind (fun o =>
      (match label with
       | some n => o.define n (.place o.now o.here)
       | none => some o).bind (fun o =>
         match st with
         | some x => o.content x
         | none => some o)))

/-- A source file. -/
noncomputable def assemble : List (Option String × Option AsmStmt) → AsmObject → Option AsmObject
  | [], o => some o
  | (l, st) :: r, o => (o.line l st).bind (assemble r)

/-! ### Linking (R30) and loading (R31, R426, R438) -/

/-- The value of a symbol of an object whose sections stand at given addresses, among symbols that other objects export. -/
def AsmObject.symbol (o : AsmObject) (base : List (String × Word)) (known : List (String × Word)) (name : String) : Option Word :=
  match o.syms.find? (fun p => p.1 == name) with
  | some (_, .value v) => some v
  | some (_, .place sec pos) => ((base.find? (fun p => p.1 == sec)).map (·.2)).map (fun b => b + BitVec.ofNat 64 pos)
  | none => (known.find? (fun p => p.1 == name)).map (·.2)

/-- One relocation of a section at its address applied to the section's bytes; none is a link error. -/
def AsmObject.relocate (o : AsmObject) (base known : List (String × Word)) (at_ : Word) (bs : List Byte) (r : AsmReloc) :
    Option (List Byte) :=
  let n := r.typ.bytes
  if r.typ = .none ∨ r.typ = .linkent then some bs
  else
    let entry := (o.entryFor r.sym).bind (fun k => (base.find? (fun p => p.1 == ".link")).map (fun b => b.2 + BitVec.ofNat 64 k))
    let viaEntry := r.typ = .linkPc19 ∨ r.typ = .linkLo14
    match (if viaEntry then some 0 else o.symbol base known r.sym), (if viaEntry then entry else some 0) with
    | some s, some l =>
      (r.typ.apply (field bs r.pos n) s r.addend (at_ + BitVec.ofNat 64 r.pos) l).map (fun w =>
        bs.take r.pos ++ leBytes n w ++ bs.drop (r.pos + n))
    | _, _ => none

/-- The bytes of a section placed at an address, with all its relocations. -/
def AsmObject.linked (o : AsmObject) (base known : List (String × Word)) (s : AsmSection) : Option (List Byte) :=
  ((base.find? (fun p => p.1 == s.name)).map (·.2)).bind (fun at_ =>
    s.relocs.foldl (fun acc r => acc.bind (fun bs => o.relocate base known at_ bs r)) (some s.bytes))

/-- The resolver stub of a symbol: the object's own global symbol with .resolve after its name, in a section that is executable; none
makes the loader refuse the object (R426). -/
def AsmObject.stub (o : AsmObject) (base : List (String × Word)) (sym : String) : Option Word :=
  let name := sym ++ ".resolve"
  match o.syms.find? (fun p => p.1 == name) with
  | some (_, .place sec _) =>
    if o.globals.contains name && (o.find sec).execute then o.symbol base [] name else none
  | _ => none

/-- What the loader puts into the linkage entry of a symbol: its address when its object is loaded, or it is this object's own, and the
resolver stub otherwise (R31, R426); none refuses the object. -/
def AsmObject.entryValue (o : AsmObject) (base loaded : List (String × Word)) (sym : String) : Option Word :=
  match o.symbol base loaded sym with
  | some v => some v
  | none => o.stub base sym

/-- The bytes of a section as the loader writes them: its linkage entries set (R31). -/
def AsmObject.loaded (o : AsmObject) (base known : List (String × Word)) (s : AsmSection) : Option (List Byte) :=
  s.relocs.foldl (fun acc r => acc.bind (fun bs =>
    if r.typ = .linkent then
      (o.entryValue base known r.sym).map (fun v => bs.take r.pos ++ leBytes 8 v.toNat ++ bs.drop (r.pos + 8))
    else some bs)) (o.linked base known s)

/-- An object loaded at addresses of its sections: the address, the bytes and the rights of each section that is allocated, or a
refusal (R28, R31, R426, R438). -/
def AsmObject.load (o : AsmObject) (base known : List (String × Word)) : Option (List (Word × List Byte × Nat)) :=
  (o.sections.filter (fun s => s.alloc)).foldr (fun s acc =>
    acc.bind (fun l => (o.loaded base known s).bind (fun bs =>
      (((base.find? (fun p => p.1 == s.name)).map (·.2)).bind (fun a =>
        (pageRights s.alloc s.write s.execute).map (fun r => (a, bs, r) :: l)))))) (some [])

end Sys2Proof.Machine
end

