-- ==== Sys2Proof/Safety.lean ====
section
/-! DEFINITION. What a safe run is: the invariants that claims use. Memory keeps its canonical form (log entry 3). -/

namespace Sys2Proof.Machine

open Sys2Proof

/-- Both memories are in canonical form. -/
def State.memInv (s : State) : Prop := Memory.wf s.mem = true ∧ Memory.wf s.farHost = true

/-- A step that stops neither with a fault nor with a refusal. -/
def State.runs (s : State) : Prop := ∃ t, step s = .next t

end Sys2Proof.Machine
end

