-- ==== Sys2Proof/Certificates/Slice0/Obligations.lean ====
section
/-! DEFINITION. The statements for the provers. Helpers that several statements use stand in `Claims`. -/

namespace Sys2Proof.Claims

open Sys2Proof Sys2Proof.Machine

/-- The state after x[d] := v with the current hart past n bytes. -/
def wrote (s : State) (d : XReg) (v : Word) (n : Nat) : State := s.setCur ((s.cur.setX d v).advance n)

/-- The same with flags raised (R142). -/
def wroteFp (s : State) (d : XReg) (v : Word) (flags : Nat) (n : Nat) : State :=
  s.setCur (((s.cur.setX d v).raise (flagBits flags)).advance n)

/-- An outcome is a next state with a property. -/
def Gives (o : Out) (p : State → Prop) : Prop := ∃ t, o = .next t ∧ p t

/-- An outcome traps with a cause, an address and INFO at the instruction at the current hart's pc (R371). -/
def Traps (o : Out) (s : State) (cause : Nat) (addr info : Word) : Prop :=
  o = s.takeTrap s.turn { cause := cause, pc := s.cur.pc, addr := addr, info := info }

/-- Every byte of memory reads the same. -/
def sameBytes (s t : State) : Prop := ∀ a, readByte t.mem a = readByte s.mem a

/-- Work is eager (log entry 4), the hart's queues are empty, no queued trap is due, no scalar access is put off (R303), and a
hart at PL1 keeps no old versions for its image (R379). -/
def idle (s : State) : Prop :=
  s.eager = true ∧ s.cur.vq = [] ∧ s.cur.mq = [] ∧ s.cur.trapDue = none ∧ s.cur.late = [] ∧
    (s.cur.level = .pl0 ∨ s.cur.old = [])

/-- EIDX once a vector instruction has left its queue: 0 at PL0; at PL1 it stays what the entry there made it (R158, R379). -/
def pastEidx (h : Hart) : BitVec 32 := if h.level = .pl0 then 0 else h.eidx

/-- VCONF is in force and has the registers named (R18, R164). -/
def configured (s : State) (vs : List VReg) : Prop :=
  vcIll s.cur.vconf = false ∧ ∀ v ∈ vs, v.toNat < vcNr s.cur.vconf

/-- Element k of a vector register, of the width that VCONF gives. -/
def el (h : Hart) (v : VReg) (k : Nat) : BitVec (vcEw h.vconf) := BitVec.ofNat _ (elem (h.vreg v.toNat) (vcEw h.vconf) k)

/-- active(k) of Table 1-14. -/
def active (h : Hart) (m : MReg) (k : Nat) : Prop := m = 0 ∨ bit (h.mreg m.toNat) k = true

/-- VL as a number. -/
def vl (s : State) : Nat := s.cur.vl.toNat

/-- FPSTAT gets the flags that the active elements below VL raise, and keeps those it has (R142, R165). -/
def raised (s t : State) (m : MReg) (fl : Nat → Nat) : Prop :=
  ∀ j, j < 6 → (t.cur.fpstat.getLsbD j = true ↔
    s.cur.fpstat.getLsbD j = true ∨ ∃ k, k < vl s ∧ active s.cur m k ∧ (fl k).testBit j = true)

open Classical in
/-- An instruction of n bytes runs to its end and gives every active element below VL of vector register d the value f has
for it; inactive elements keep their value, the tail is zero, and with VL = 0 nothing is written (R165, R184). Nothing
else changes but the pc, FPSTAT, EIDX, which PL0 finds 0, the count of posted operations, and old versions of registers and far
granules of the fetched words, which nothing reads any more. -/
def Elementwise (s : State) (i : Instr) (n : Nat) (d : VReg) (m : MReg) (f : Nat → BitVec (vcEw s.cur.vconf))
    (fl : Nat → Nat) : Prop :=
  Gives (exec i s) fun t =>
    t = s.setCur { s.cur with
      pc := s.cur.pc + BitVec.ofNat 64 n, posted := s.cur.posted + 1, eidx := pastEidx s.cur, old := []
      codeFar := []
      vregs := t.cur.vregs, fpstat := t.cur.fpstat } ∧
    (∀ v, v ≠ d → t.cur.vreg v.toNat = s.cur.vreg v.toNat) ∧
    (vl s = 0 → t.cur.vreg d.toNat = s.cur.vreg d.toNat) ∧
    (vl s ≠ 0 → ∀ k, BitVec.ofNat _ (elem (t.cur.vreg d.toNat) (vcEw s.cur.vconf) k) =
      if vl s ≤ k then 0 else if active s.cur m k then f k else el s.cur d k) ∧
    raised s t m fl

open Classical in
/-- The same for an instruction that writes mask register d (R200, R191, R199). -/
def Maskwise (s : State) (i : Instr) (n : Nat) (d m : MReg) (f : Nat → Bool) (fl : Nat → Nat) : Prop :=
  Gives (exec i s) fun t =>
    t = s.setCur { s.cur with
      pc := s.cur.pc + BitVec.ofNat 64 n, posted := s.cur.posted + 1, eidx := pastEidx s.cur, old := []
      codeFar := []
      masks := t.cur.masks, fpstat := t.cur.fpstat } ∧
    (∀ q, q ≠ d → t.cur.mreg q.toNat = s.cur.mreg q.toNat) ∧
    (vl s = 0 → t.cur.mreg d.toNat = s.cur.mreg d.toNat) ∧
    (vl s ≠ 0 → ∀ k, bit (t.cur.mreg d.toNat) k =
      if vl s ≤ k then false else if active s.cur m k then f k else bit (s.cur.mreg d.toNat) k) ∧
    raised s t m fl

/-- No flags. -/
def noFlags : Nat → Nat := fun _ => 0

/-- Whether an address lies outside the page-table entry whose bits the access updates (R69); the entry lies in HBM, as every node
of a walk does (R66). -/
def offEntry (r : Reach) (a : Nat) : Prop :=
  ∀ l, r.leaf = some l → (a < l.entryAt ∨ l.entryAt + 8 ≤ a) ∧ l.entryAt < Config.hbmBytes

/-- What is left of a hart when the cause that an access of poisoned data may leave due is set aside (R48). -/
def butImprecise (h : Hart) : Hart := { h with imprecise := none }

/-- Every hart but the current one as before, but for such a cause, and every core but for its data cache. -/
def othersKept (s t : State) : Prop :=
  t.turn = s.turn ∧ (∀ g, g ≠ s.turn → butImprecise (t.hart g) = butImprecise (s.hart g)) ∧
  (∀ n, { t.core n with dcache := (s.core n).dcache } = s.core n)

end Sys2Proof.Claims

open Sys2Proof Sys2Proof.Machine Sys2Proof.Claims

/-! ### The scalar stream -/

/-- R306, R146, R17: each ALU member writes op(x[ra], x[rb]) of Table 14-4 and goes on at P + 4. -/
def Sys2Proof.Claims.IntegerRegisterResults : Prop :=
  ∀ (d a b : XReg) (s : State), s.cur.anyPending [d, a, b] = false →
    let x := s.cur.getX a
    let y := s.cur.getX b
    let sh := y.toNat % 64
    exec (.add d a b) s = .next (wrote s d (x + y) 4) ∧
    exec (.sub d a b) s = .next (wrote s d (x - y) 4) ∧
    exec (.and d a b) s = .next (wrote s d (x &&& y) 4) ∧
    exec (.or d a b) s = .next (wrote s d (x ||| y) 4) ∧
    exec (.xor d a b) s = .next (wrote s d (x ^^^ y) 4) ∧
    exec (.andn d a b) s = .next (wrote s d (x &&& ~~~y) 4) ∧
    exec (.orn d a b) s = .next (wrote s d (x ||| ~~~y) 4) ∧
    exec (.sll d a b) s = .next (wrote s d (x <<< sh) 4) ∧
    exec (.srl d a b) s = .next (wrote s d (x >>> sh) 4) ∧
    exec (.sra d a b) s = .next (wrote s d (x.sshiftRight sh) 4) ∧
    exec (.rol d a b) s = .next (wrote s d (x.rotateLeft sh) 4) ∧
    exec (.ror d a b) s = .next (wrote s d (x.rotateRight sh) 4) ∧
    exec (.slt d a b) s = .next (wrote s d (if x.toInt < y.toInt then 1 else 0) 4) ∧
    exec (.sltu d a b) s = .next (wrote s d (if x.toNat < y.toNat then 1 else 0) 4) ∧
    exec (.min d a b) s = .next (wrote s d (BitVec.ofInt 64 (min x.toInt y.toInt)) 4) ∧
    exec (.max d a b) s = .next (wrote s d (BitVec.ofInt 64 (max x.toInt y.toInt)) 4) ∧
    exec (.minu d a b) s = .next (wrote s d (BitVec.ofNat 64 (min x.toNat y.toNat)) 4) ∧
    exec (.maxu d a b) s = .next (wrote s d (BitVec.ofNat 64 (max x.toNat y.toNat)) 4) ∧
    exec (.mul d a b) s = .next (wrote s d (BitVec.ofNat 64 (x.toNat * y.toNat)) 4) ∧
    exec (.mulh d a b) s = .next (wrote s d (((x.signExtend 128 * y.signExtend 128) >>> 64).setWidth 64) 4) ∧
    exec (.mulhu d a b) s = .next (wrote s d (((x.setWidth 128 * y.setWidth 128) >>> 64).setWidth 64) 4)

/-- R306, R146 and the line below Table 14-4: quotients round toward zero, remainders take the sign of the dividend; by zero
they give all ones and the dividend, and −2^63 by −1 gives −2^63 with remainder 0. -/
def Sys2Proof.Claims.DivideAndRemainderResults : Prop :=
  ∀ (d a b : XReg) (s : State), s.cur.anyPending [d, a, b] = false →
    let x := s.cur.getX a
    let y := s.cur.getX b
    exec (.div d a b) s = .next (wrote s d (if y = 0 then BitVec.allOnes 64 else x.sdiv y) 4) ∧
    exec (.divu d a b) s = .next (wrote s d (if y = 0 then BitVec.allOnes 64 else x / y) 4) ∧
    exec (.rem d a b) s = .next (wrote s d (if y = 0 then x else x.srem y) 4) ∧
    exec (.remu d a b) s = .next (wrote s d (if y = 0 then x else x % y) 4) ∧
    (x = BitVec.intMin 64 → y = BitVec.allOnes 64 →
      exec (.div d a b) s = .next (wrote s d (BitVec.intMin 64) 4) ∧ exec (.rem d a b) s = .next (wrote s d 0 4))

/-- R306: the unary members, each said by what its result is and not by how it is counted. -/
def Sys2Proof.Claims.UnaryResults : Prop :=
  ∀ (d a : XReg) (s : State), s.cur.anyPending [d, a] = false →
    let x := s.cur.getX a
    (∃ n, exec (.clz d a) s = .next (wrote s d (BitVec.ofNat 64 n) 4) ∧ n ≤ 64 ∧ x.toNat < 2 ^ (64 - n) ∧
      (n < 64 → 2 ^ (63 - n) ≤ x.toNat)) ∧
    (∃ n, exec (.ctz d a) s = .next (wrote s d (BitVec.ofNat 64 n) 4) ∧ n ≤ 64 ∧ (∀ i, i < n → x.getLsbD i = false) ∧
      (n < 64 → x.getLsbD n = true)) ∧
    exec (.popc d a) s =
      .next (wrote s d (BitVec.ofNat 64 ((List.range 64).filter (fun i => x.getLsbD i)).length) 4) ∧
    exec (.sexb d a) s = .next (wrote s d ((x.setWidth 8).signExtend 64) 4) ∧
    exec (.sexh d a) s = .next (wrote s d ((x.setWidth 16).signExtend 64) 4) ∧
    exec (.sexw d a) s = .next (wrote s d ((x.setWidth 32).signExtend 64) 4) ∧
    exec (.zexw d a) s = .next (wrote s d ((x.setWidth 32).setWidth 64) 4)

/-- R307, R308: the immediate members take sext(imm14, 14), the logical ones too, and SLTIU compares it unsigned; the shifts
take the amount of their field. -/
def Sys2Proof.Claims.ImmediateAndShiftResults : Prop :=
  ∀ (d a : XReg) (i : BitVec 14) (h : BitVec 6) (s : State), s.cur.anyPending [d, a] = false →
    let x := s.cur.getX a
    let k := i.signExtend 64
    exec (.addi d a i) s = .next (wrote s d (x + k) 4) ∧
    exec (.andi d a i) s = .next (wrote s d (x &&& k) 4) ∧
    exec (.ori d a i) s = .next (wrote s d (x ||| k) 4) ∧
    exec (.xori d a i) s = .next (wrote s d (x ^^^ k) 4) ∧
    exec (.slti d a i) s = .next (wrote s d (if x.toInt < k.toInt then 1 else 0) 4) ∧
    exec (.sltiu d a i) s = .next (wrote s d (if x.toNat < k.toNat then 1 else 0) 4) ∧
    exec (.slli d a h) s = .next (wrote s d (x <<< h.toNat) 4) ∧
    exec (.srli d a h) s = .next (wrote s d (x >>> h.toNat) 4) ∧
    exec (.srai d a h) s = .next (wrote s d (x.sshiftRight h.toNat) 4) ∧
    exec (.rori d a h) s = .next (wrote s d (x.rotateRight h.toNat) 4)

/-- R309: LUI and ADDPC, of major 0x09 and 0x0A, where P is the ADDPC's own address. -/
def Sys2Proof.Claims.UpperImmediates : Prop :=
  ∀ (d : XReg) (i : BitVec 19) (s : State),
    (encodeWords (.lui d i)).map (fun w => fld w 7 2) = [0x09] ∧
    (encodeWords (.addpc d i)).map (fun w => fld w 7 2) = [0x0A] ∧
    (s.cur.anyPending [d] = false →
      exec (.lui d i) s = .next (wrote s d (i.signExtend 64 <<< 13) 4) ∧
      exec (.addpc d i) s = .next (wrote s d ((s.cur.pc &&& ~~~(0x1FFF : Word)) + (i.signExtend 64 <<< 13)) 4))

/-- R310: LIX writes sext(E, 32), LIXH puts E above x[rd][31:0]; both go on at P + 8 and have major 0x0B with E as the second
word. LIXH reads x[rd] and so waits while it is pending. -/
def Sys2Proof.Claims.LongImmediates : Prop :=
  ∀ (d : XReg) (e : BitVec 32) (s : State),
    (encodeWords (.lix d e)).map (fun w => fld w 7 2) = [0x0B, fld e.toNat 7 2] ∧ (encodeWords (.lix d e)).drop 1 = [e.toNat] ∧
    (encodeWords (.lixh d e)).map (fun w => fld w 7 2) = [0x0B, fld e.toNat 7 2] ∧ (encodeWords (.lixh d e)).drop 1 = [e.toNat] ∧
    (s.cur.anyPending [d] = true → exec (.lixh d e) s = .next s) ∧
    (s.cur.anyPending [d] = false →
      exec (.lix d e) s = .next (wrote s d (e.signExtend 64) 8) ∧
      exec (.lixh d e) s = .next (wrote s d (e ++ (s.cur.getX d).setWidth 32) 8))

/-- R311: a branch continues at P + 4 × sext(off11, 11) when its comparison of x[ra] with x[rb] holds, and at P + 4
otherwise; it changes nothing but the pc. -/
def Sys2Proof.Claims.BranchesContinue : Prop :=
  ∀ (a b : XReg) (o : BitVec 11) (s : State), s.cur.anyPending [a, b] = false → s.cur.pc.toNat % 4 = 0 →
    let x := s.cur.getX a
    let y := s.cur.getX b
    let at_ := fun (p : Prop) [Decidable p] =>
      Host.Outcome.next (ρ := Refusal) (φ := Fault)
        (s.setCur (s.cur.setPc (if p then s.cur.pc + BitVec.ofInt 64 (4 * o.toInt) else s.cur.pc + 4)))
    exec (.beq a b o) s = at_ (x = y) ∧
    exec (.bne a b o) s = at_ (x ≠ y) ∧
    exec (.blt a b o) s = at_ (x.toInt < y.toInt) ∧
    exec (.bge a b o) s = at_ (y.toInt ≤ x.toInt) ∧
    exec (.bltu a b o) s = at_ (x.toNat < y.toNat) ∧
    exec (.bgeu a b o) s = at_ (y.toNat ≤ x.toNat)

/-- R312: J, JL and JLR. JLR forms its target from x[ra] before it writes x[rd]; a misaligned target traps MISALIGN (R6)
and no register is written: the trap is that of the state before. -/
def Sys2Proof.Claims.JumpsContinue : Prop :=
  ∀ (d a : XReg) (o : BitVec 24) (i : BitVec 14) (s : State), s.cur.pc.toNat % 4 = 0 →
    let p := s.cur.pc
    let q := p + BitVec.ofInt 64 (4 * o.toInt)
    let t := s.cur.getX a + i.signExtend 64
    exec (.j o) s = .next (s.setCur (s.cur.setPc q)) ∧
    (s.cur.anyPending [1] = false → exec (.jl o) s = .next (s.setCur ((s.cur.setX 1 (p + 4)).setPc q))) ∧
    (s.cur.anyPending [d, a] = false →
      (t.toNat % 4 = 0 → exec (.jlr d a i) s = .next (s.setCur ((s.cur.setX d (p + 4)).setPc t))) ∧
      (t.toNat % 4 ≠ 0 → Traps (exec (.jlr d a i) s) s causeMisalign t 0))

/-- R302: a scalar-stream instruction that reads or writes a pending register waits, and so leaves the state as it is; x0 is
never pending. Said of the ALU, immediate, shift, constant, branch and scalar floating-point members. -/
def Sys2Proof.Claims.PendingRegistersWait : Prop :=
  ∀ (d a b c : XReg) (i : BitVec 14) (o : BitVec 11) (e : BitVec 32) (r : BitVec 3) (s : State), s.cur.pending 0 = false ∧
    (s.cur.anyPending [d, a, b] = true →
      exec (.add d a b) s = .next s ∧ exec (.div d a b) s = .next s ∧ exec (.mulhu d a b) s = .next s ∧
      exec (.faddF d a b r) s = .next s ∧ exec (.fsgnj d a b) s = .next s ∧ exec (.amoadd d a b 0) s = .next s) ∧
    (s.cur.anyPending [d, a] = true →
      exec (.addi d a i) s = .next s ∧ exec (.clz d a) s = .next s ∧ exec (.ld d a i) s = .next s ∧
      exec (.jlr d a i) s = .next s ∧ exec (.hold d a) s = .next s ∧ exec (.lease d a) s = .next s) ∧
    (s.cur.anyPending [a, b] = true → exec (.beq a b o) s = .next s ∧ exec (.sd a b i) s = .next s) ∧
    (s.cur.anyPending [d] = true → exec (.lix d e) s = .next s) ∧
    (s.cur.anyPending [d, a, b, c] = true → exec (.fmaddF d a b c r) s = .next s)

/-- R306, R307, R308: the words of the ALU, immediate and shift members: major, rd, ra, and rb with fn9, imm14, or the amount with its kind; every
other bit is zero. -/
def Sys2Proof.Claims.ArithmeticEncodings : Prop :=
  ∀ (d a b : XReg) (i : BitVec 14) (h : BitVec 6),
    let word := fun (x : Instr) (major rest : Nat) =>
      encodeWords x = [1 + major * 2 ^ 2 + d.toNat * 2 ^ 8 + a.toNat * 2 ^ 13 + rest * 2 ^ 18]
    let alu := fun (x : Instr) (fn9 : Nat) => word x 0x01 (b.toNat + fn9 * 2 ^ 5)
    let un := fun (x : Instr) (fn9 : Nat) => word x 0x01 (fn9 * 2 ^ 5)
    let sh := fun (x : Instr) (kind : Nat) => word x 0x08 (h.toNat + kind * 2 ^ 6)
    alu (.add d a b) 0 ∧ alu (.sub d a b) 1 ∧ alu (.and d a b) 2 ∧ alu (.or d a b) 3 ∧ alu (.xor d a b) 4 ∧
    alu (.andn d a b) 5 ∧ alu (.orn d a b) 6 ∧ alu (.sll d a b) 7 ∧ alu (.srl d a b) 8 ∧ alu (.sra d a b) 9 ∧
    alu (.rol d a b) 10 ∧ alu (.ror d a b) 11 ∧ alu (.slt d a b) 12 ∧ alu (.sltu d a b) 13 ∧ alu (.min d a b) 14 ∧
    alu (.max d a b) 15 ∧ alu (.minu d a b) 16 ∧ alu (.maxu d a b) 17 ∧ alu (.mul d a b) 18 ∧ alu (.mulh d a b) 19 ∧
    alu (.mulhu d a b) 20 ∧ alu (.div d a b) 21 ∧ alu (.divu d a b) 22 ∧ alu (.rem d a b) 23 ∧ alu (.remu d a b) 24 ∧
    un (.clz d a) 25 ∧ un (.ctz d a) 26 ∧ un (.popc d a) 27 ∧ un (.sexb d a) 28 ∧ un (.sexh d a) 29 ∧
    un (.sexw d a) 30 ∧ un (.zexw d a) 31 ∧ word (.addi d a i) 2 i.toNat ∧ word (.andi d a i) 3 i.toNat ∧
    word (.ori d a i) 4 i.toNat ∧ word (.xori d a i) 5 i.toNat ∧ word (.slti d a i) 6 i.toNat ∧
    word (.sltiu d a i) 7 i.toNat ∧ sh (.slli d a h) 0 ∧ sh (.srli d a h) 1 ∧ sh (.srai d a h) 2 ∧ sh (.rori d a h) 3

/-- R311: the words of the branches, with cond of Table 1-4 and off11. -/
def Sys2Proof.Claims.BranchEncodings : Prop :=
  ∀ (a b : XReg) (o : BitVec 11),
    let word := fun (x : Instr) (cond : Nat) =>
      encodeWords x = [1 + 0x17 * 2 ^ 2 + a.toNat * 2 ^ 8 + b.toNat * 2 ^ 13 + cond * 2 ^ 18 + o.toNat * 2 ^ 21]
    word (.beq a b o) 0 ∧ word (.bne a b o) 1 ∧ word (.blt a b o) 2 ∧ word (.bge a b o) 3 ∧ word (.bltu a b o) 4 ∧
    word (.bgeu a b o) 5

/-! ### The vector stream -/

/-- R165, R183, R184, R198: the integer members of majors 0x2A and 0x2C, of a vector or a broadcast scalar as second source.
Shift amounts are the second operand modulo EW; VMULH takes the high half of the signed product.
The model's own choices here: log entry 4. -/
def Obligations.VectorIntegerResults : Prop :=
  ∀ (s : State) (d a b : VReg) (x : XReg) (m : MReg), idle s → configured s [d, a, b] →
    let w := vcEw s.cur.vconf
    let p := fun k => el s.cur a k
    let both := fun (vv vx : Instr) (f : BitVec w → BitVec w → BitVec w) =>
      Elementwise s vv 4 d m (fun k => f (p k) (el s.cur b k)) noFlags ∧
      Elementwise s vx 4 d m (fun k => f (p k) ((s.cur.getX x).setWidth w)) noFlags
    both (.vaddVV d a b m) (.vaddVX d a x m) (fun p q => p + q) ∧
    both (.vsubVV d a b m) (.vsubVX d a x m) (fun p q => p - q) ∧
    both (.vmulVV d a b m) (.vmulVX d a x m) (fun p q => p * q) ∧
    both (.vandVV d a b m) (.vandVX d a x m) (fun p q => p &&& q) ∧
    both (.vorVV d a b m) (.vorVX d a x m) (fun p q => p ||| q) ∧
    both (.vxorVV d a b m) (.vxorVX d a x m) (fun p q => p ^^^ q) ∧
    both (.vminVV d a b m) (.vminVX d a x m) (fun p q => if p.toInt ≤ q.toInt then p else q) ∧
    both (.vmaxVV d a b m) (.vmaxVX d a x m) (fun p q => if q.toInt ≤ p.toInt then p else q) ∧
    both (.vminuVV d a b m) (.vminuVX d a x m) (fun p q => if p.toNat ≤ q.toNat then p else q) ∧
    both (.vmaxuVV d a b m) (.vmaxuVX d a x m) (fun p q => if q.toNat ≤ p.toNat then p else q) ∧
    both (.vsllVV d a b m) (.vsllVX d a x m) (fun p q => p <<< (q.toNat % w)) ∧
    both (.vsrlVV d a b m) (.vsrlVX d a x m) (fun p q => p >>> (q.toNat % w)) ∧
    both (.vsraVV d a b m) (.vsraVX d a x m) (fun p q => p.sshiftRight (q.toNat % w)) ∧
    both (.vmulhVV d a b m) (.vmulhVX d a x m)
      (fun p q => BitVec.ofInt w (p.toInt * q.toInt / ((2 ^ w : Nat) : Int)))

/-- R183 to R185, R189, R190, R197: the floating members of majors 0x24 to 0x27 and VFSCALE. Each result is that of the
scalar operation of R144 to R147 in the format of EW, rounded by FPCTL.RM, and raises its flags. -/
def Sys2Proof.Claims.VectorFloatElementwise : Prop :=
  ∀ (s : State) (d a b : VReg) (x : XReg) (m : MReg), idle s → configured s [d, a, b] →
    let w := vcEw s.cur.vconf
    let f := elFmt w
    let rm := s.cur.fpctl.toNat
    let both := fun (vv vx : Instr) (g : Nat → Nat → Nat → Nat × Nat) =>
      let gv := fun k => g (el s.cur a k).toNat (el s.cur b k).toNat (el s.cur d k).toNat
      let gx := fun k => g (el s.cur a k).toNat ((s.cur.getX x).toNat % 2 ^ w) (el s.cur d k).toNat
      Elementwise s vv 4 d m (fun k => BitVec.ofNat w (gv k).1) (fun k => (gv k).2) ∧
      Elementwise s vx 4 d m (fun k => BitVec.ofNat w (gx k).1) (fun k => (gx k).2)
    let scaled := fun (i : Instr) (n : Nat → Int) =>
      Elementwise s i 4 d m (fun k => BitVec.ofNat w (scaleElem w rm (el s.cur a k).toNat (n k)).1)
        (fun k => (scaleElem w rm (el s.cur a k).toNat (n k)).2)
    both (.vfaddVV d a b m) (.vfaddVX d a x m) (fun p q _ => f.add rm (f.value p) (f.value q)) ∧
    both (.vfsubVV d a b m) (.vfsubVX d a x m) (fun p q _ => f.add rm (f.value p) (f.value q).negate) ∧
    both (.vfmulVV d a b m) (.vfmulVX d a x m) (fun p q _ => f.mul rm (f.value p) (f.value q)) ∧
    both (.vfdivVV d a b m) (.vfdivVX d a x m) (fun p q _ => f.div rm (f.value p) (f.value q)) ∧
    both (.vfminVV d a b m) (.vfminVX d a x m) (fun p q _ => f.minmax false p q) ∧
    both (.vfmaxVV d a b m) (.vfmaxVX d a x m) (fun p q _ => f.minmax true p q) ∧
    both (.vfsgnjVV d a b m) (.vfsgnjVX d a x m)
      (fun p q _ => (p % 2 ^ (w - 1) + q / 2 ^ (w - 1) % 2 * 2 ^ (w - 1), 0)) ∧
    both (.vfsgnjnVV d a b m) (.vfsgnjnVX d a x m)
      (fun p q _ => (p % 2 ^ (w - 1) + (1 - q / 2 ^ (w - 1) % 2) * 2 ^ (w - 1), 0)) ∧
    both (.vfmaVV d a b m) (.vfmaVX d a x m) (fun p q r => f.fma rm (f.value p) (f.value q) (f.value r)) ∧
    both (.vfmsVV d a b m) (.vfmsVX d a x m) (fun p q r => f.fma rm (f.value p) (f.value q) (f.value r).negate) ∧
    both (.vfnmaVV d a b m) (.vfnmaVX d a x m)
      (fun p q r => f.fma rm (f.value p).negate (f.value q) (f.value r).negate) ∧
    both (.vfnmsVV d a b m) (.vfnmsVX d a x m) (fun p q r => f.fma rm (f.value p).negate (f.value q) (f.value r)) ∧
    scaled (.vfscaleVV d a b m) (fun k => (el s.cur b k).toInt) ∧
    scaled (.vfscaleVX d a x m) (fun _ => (s.cur.getX x).toInt)

/-- R192 to R196: the one-source floating members of major 0x28, each with the rounding mode of its RM field (7 takes
FPCTL.RM); VFABS and VFNEG set the sign alone, VFCLASS gives the class mask and raises nothing. -/
def Sys2Proof.Claims.VectorUnaryResults : Prop :=
  ∀ (s : State) (d a : VReg) (r : BitVec 3) (m : MReg), idle s → configured s [d, a] →
    let w := vcEw s.cur.vconf
    let f := elFmt w
    let rm := rmOf r s.cur.fpctl
    let one := fun (i : Instr) (g : Nat → Nat × Nat) =>
      Elementwise s i 4 d m (fun k => BitVec.ofNat w (g (el s.cur a k).toNat).1) (fun k => (g (el s.cur a k).toNat).2)
    one (.vfsqrt d a r m) (fun p => f.sqrt rm (f.value p)) ∧
    one (.vfrec d a m) (recipElem w) ∧
    one (.vfrsq d a m) (rsqElem w) ∧
    one (.vfexpf d a m) (expElem w) ∧
    one (.vfrint d a r m) (f.rint rm) ∧
    one (.vfclass d a m) (fun p => (f.classMask p, 0)) ∧
    one (.vfabs d a m) (fun p => (p % 2 ^ (w - 1), 0)) ∧
    one (.vfneg d a m) (fun p => (p % 2 ^ (w - 1) + (1 - p / 2 ^ (w - 1) % 2) * 2 ^ (w - 1), 0)) ∧
    one (.vfcvtWF d a r m) (fun p => toIntSat w rm (f.value p)) ∧
    one (.vfcvtFW d a r m) (fun p => f.round rm (FVal.ofInt (BitVec.ofNat w p).toInt)) ∧
    one (.vfcvtBF d a r m) (unElem .cvtBF w rm) ∧
    one (.vfcvtFB d a m) (unElem .cvtFB w 0) ∧
    one (.vfgetexp d a m) (getexpElem w) ∧
    one (.vfgetmant d a m) (getmantElem w)

/-- R191, R199: the compares write the relation of each active pair of elements to a mask register; the floating ones raise NV
for a signalling NaN, and an unordered pair is unequal and otherwise unrelated. -/
def Sys2Proof.Claims.VectorCompareResults : Prop :=
  ∀ (s : State) (d : MReg) (a b : VReg) (x : XReg) (m : MReg), idle s → configured s [a, b] → d ≠ 0 →
    let w := vcEw s.cur.vconf
    let f := elFmt w
    let both := fun (vv vx : Instr) (g : BitVec w → BitVec w → Bool) (fl : FVal → FVal → Nat) =>
      Maskwise s vv 4 d m (fun k => g (el s.cur a k) (el s.cur b k))
        (fun k => fl (f.value (el s.cur a k).toNat) (f.value (el s.cur b k).toNat)) ∧
      Maskwise s vx 4 d m (fun k => g (el s.cur a k) ((s.cur.getX x).setWidth w))
        (fun k => fl (f.value (el s.cur a k).toNat) (f.value ((s.cur.getX x).setWidth w).toNat))
    let v := fun (p : BitVec w) => f.value p.toNat
    let nv := fun (p q : FVal) => if p.isSnan || q.isSnan then flNV else 0
    both (.vfceqVV d a b m) (.vfceqVX d a x m) (fun p q => (v p).eqv (v q)) nv ∧
    both (.vfcltVV d a b m) (.vfcltVX d a x m) (fun p q => (v p).lt false (v q)) nv ∧
    both (.vfcleVV d a b m) (.vfcleVX d a x m) (fun p q => (v p).lt false (v q) || (v p).eqv (v q)) nv ∧
    both (.vfcneVV d a b m) (.vfcneVX d a x m) (fun p q => !(v p).eqv (v q)) nv ∧
    both (.vceqVV d a b m) (.vceqVX d a x m) (fun p q => decide (p = q)) (fun _ _ => 0) ∧
    both (.vcltVV d a b m) (.vcltVX d a x m) (fun p q => decide (p.toInt < q.toInt)) (fun _ _ => 0)

/-- R201, R202: mask logic under a mask, where field 0 reads as all ones; VMPOPC counts and VMFIRST finds the active set bits
below VL, −1 if there is none. -/
def Sys2Proof.Claims.MaskRegisterResults : Prop :=
  ∀ (s : State) (d a b m : MReg) (r : XReg), idle s → configured s [] →
    let src := fun (q : MReg) k => q == 0 || bit (s.cur.mreg q.toNat) k
    let hits := (List.range (vl s)).filter (fun k => src m k && src a k)
    let gives := fun (i : Instr) (v : Word) => exec i s = .next (s.setCur
      { s.cur.setX r v with pc := s.cur.pc + 4, posted := s.cur.posted + 1, eidx := pastEidx s.cur, old := [], codeFar := [] })
    (d ≠ 0 →
      Maskwise s (.vmand d a b m) 4 d m (fun k => src a k && src b k) noFlags ∧
      Maskwise s (.vmor d a b m) 4 d m (fun k => src a k || src b k) noFlags ∧
      Maskwise s (.vmxor d a b m) 4 d m (fun k => src a k != src b k) noFlags ∧
      Maskwise s (.vmandn d a b m) 4 d m (fun k => src a k && !src b k) noFlags ∧
      Maskwise s (.vmnot d a m) 4 d m (fun k => !src a k) noFlags ∧
      Maskwise s (.vmset d m) 4 d m (fun _ => true) noFlags) ∧
    gives (.vmpopc r a m) (BitVec.ofNat 64 hits.length) ∧
    gives (.vmfirst r a m) (match hits with
      | k :: _ => BitVec.ofNat 64 k
      | [] => BitVec.allOnes 64)

/-- R205 to R208, R213, R214: permutations read zero outside 0 to VLMAX − 1, with indices taken without wrapping; VMERGE
takes the second source where the mask is set and writes every element; the generators write what their immediates give. -/
def Sys2Proof.Claims.PermutationAndGeneratorResults : Prop :=
  ∀ (s : State) (d a b : VReg) (x : XReg) (m : MReg) (start inc sid : BitVec 16) (imm : BitVec 32) (kind : BitVec 2),
    idle s → configured s [d, a, b] →
    let w := vcEw s.cur.vconf
    let X := s.cur.getX x
    let read := fun (j : Int) => if 0 ≤ j ∧ j < (s.vlmax s.turn : Int) then el s.cur a j.toNat else 0
    (d ≠ a →
      Elementwise s (.vslideup d a x m) 4 d m (fun k => read ((k : Int) - X.toNat)) noFlags ∧
      Elementwise s (.vslidedn d a x m) 4 d m (fun k => read ((k : Int) + X.toNat)) noFlags ∧
      (d ≠ b → Elementwise s (.vgather d a b m) 4 d m (fun k => read ((el s.cur b k).toNat : Int)) noFlags)) ∧
    Elementwise s (.vmerge d a b m) 4 d 0
      (fun k => if m == 0 || bit (s.cur.mreg m.toNat) k then el s.cur b k else el s.cur a k) noFlags ∧
    Elementwise s (.vbcast d x m) 4 d m (fun _ => X.setWidth w) noFlags ∧
    Elementwise s (.vseq m d start inc) 8 d m (fun k => BitVec.ofInt w (start.toInt + inc.toInt * (k : Int))) noFlags ∧
    Elementwise s (.vfbcasti m d imm) 8 d m
      (fun _ => BitVec.ofNat w (if w = 32 then imm.toNat else (bf16.round 0 (fp32.value imm.toNat)).1)) noFlags ∧
    Elementwise s (.vbcasti m d imm) 8 d m (fun _ => imm.setWidth w) noFlags ∧
    Elementwise s (.vrand m x d sid kind) 8 d m
      (fun k => BitVec.ofNat w (randElem w kind.toNat X.toNat sid.toNat (el s.cur d k).toNat)) noFlags

namespace Sys2Proof.Claims

open Classical in
/-- The active indices below VL, ascending. -/
noncomputable def actives (s : State) (m : MReg) : List Nat := (List.range (vl s)).filter (fun k => decide (active s.cur m k))

/-- The current hart past a posted and finished instruction of 4 bytes. -/
def finished (s : State) (h : Hart) : State :=
  s.setCur { h with pc := s.cur.pc + 4, posted := s.cur.posted + 1, eidx := pastEidx s.cur, old := [], codeFar := [] }

/-- What a vector instruction captures when it is posted to an idle hart (R301). -/
def captured (s : State) : Cap :=
  { ew := vcEw s.cur.vconf, vl := vl s, vlmax := s.vlmax s.turn, lanes := vcLanes s.cur.vconf, lam := vcLam s.cur.vconf
    rm := s.cur.fpctl, ops := [] }

end Sys2Proof.Claims

/-- R148, R150, R209 to R212: a reduction folds the active elements below VL of its first source into element 0 of its second, in
ascending order for all but the canonical and slotted sums, and writes the result to element 0 of the destination with zeros
above; with VL = 0 it writes nothing. VFREDSUM gives the sum of R148 or R149 as LAM says. -/
def Sys2Proof.Claims.ReductionsFold : Prop :=
  ∀ (s : State) (d a b : VReg) (m : MReg), idle s → configured s [d, a, b] →
    let w := vcEw s.cur.vconf
    let f := elFmt w
    let init := el s.cur b 0
    let xs := (actives s m).map (el s.cur a)
    let gives := fun (i : Instr) (v : Nat) (fl : Nat) =>
      (vl s = 0 → exec i s = .next (finished s s.cur)) ∧
      (vl s ≠ 0 → exec i s = .next (finished s
        { s.cur with vregs := tput s.cur.vregs d.toNat v, fpstat := s.cur.fpstat ||| flagBits fl }))
    let pick := fun (big : Bool) => xs.foldl (fun (p : Nat × Nat) x =>
      ((f.minmax big p.1 x.toNat).1, p.2 ||| (f.minmax big p.1 x.toNat).2))
      (init.toNat, if (f.value init.toNat).isSnan then flNV else 0)
    let sums := fun (op : RedOp) =>
      floatSum op (captured s) (activeIn m (s.cur.mreg m.toNat)) (s.cur.vreg a.toNat) init.toNat
    gives (.vredsum d a b m) (xs.foldl (· + ·) init).toNat 0 ∧
    gives (.vredmax d a b m) (xs.foldl (fun p x => if p.toInt < x.toInt then x else p) init).toNat 0 ∧
    gives (.vredmin d a b m) (xs.foldl (fun p x => if x.toInt < p.toInt then x else p) init).toNat 0 ∧
    gives (.vfredmax d a b m) (pick true).1 (pick true).2 ∧
    gives (.vfredmin d a b m) (pick false).1 (pick false).2 ∧
    gives (.vfredsum d a b m) (sums .fsum).1 (sums .fsum).2 ∧
    gives (.vfredosum d a b m) (sums .fosum).1 (sums .fosum).2 ∧
    (w = 32 → (sums .fosum).1 = (xs.foldl (fun p x => (fp32.add s.cur.fpctl.toNat (fp32.value p) (fp32.value x.toNat)).1)
      init.toNat))

namespace Sys2Proof.Claims

/-- Two values of a sum, either of which may be absent (R148). -/
def joined (rnd : Nat → Nat → Nat) : Option Nat → Option Nat → Option Nat
  | some a, some b => some (rnd a b)
  | some a, none => some a
  | none, b => b

/-- The pair tree over the 2^n leaves from lo on (R148). -/
def pairTree (rnd : Nat → Nat → Nat) (leaf : Nat → Option Nat) : (n lo : Nat) → Option Nat
  | 0, lo => leaf lo
  | n + 1, lo => joined rnd (pairTree rnd leaf n lo) (pairTree rnd leaf n (lo + 2 ^ n))

/-- The canonical sum (R148): the tree of every block of 32 leaves, added in turn. -/
def treeSum (rnd : Nat → Nat → Nat) (leaf : Nat → Option Nat) (vl init : Nat) : Nat :=
  (List.range ((vl + 31) / 32)).foldl (fun acc b => (joined rnd (some acc) (pairTree rnd leaf 5 (32 * b))).getD acc) init

/-- The sum by p slots (R149): slot q adds its leaves i, i mod p = q, in ascending order, and the slots are the leaves of a pair tree. -/
def slotSums (rnd : Nat → Nat → Nat) (leaf : Nat → Option Nat) (vl p init : Nat) : Nat :=
  let slot := fun (q : Nat) => ((List.range vl).filter (fun i => i % p == q)).foldl (fun acc i => joined rnd acc (leaf i)) none
  (joined rnd (some init) (pairTree rnd (fun q => if q < p then slot q else none) 8 0)).getD init

end Sys2Proof.Claims

/-- R148, R149, R150: the floating sums, as trees, slots and element order. The elements and init are widened to FP32 at EW = 16, every
addition is the scalar one rounded by FPCTL.RM, and the sum is rounded to BF16 there, unless no element is active. -/
def Sys2Proof.Claims.SumsFollowTheirOrder : Prop :=
  ∀ (c : Cap) (act : Nat → Bool) (a init : Nat), c.ew = 32 ∨ c.ew = 16 → 0 < c.lanes → c.lanes ≤ 16 →
    let rm := c.rm.toNat
    let rnd := fun (x y : Nat) => (fp32.add rm (fp32.value x) (fp32.value y)).1
    let wide := fun (x : Nat) => if c.ew = 32 then x else x * 2 ^ 16
    let leaf := fun (i : Nat) => if i < c.vl ∧ act i = true then some (wide (elem a c.ew i)) else none
    let none_ := ∀ i, i < c.vl → act i = false
    let comes := fun (op : RedOp) (sum : Nat) =>
      (none_ → (floatSum op c act a init).1 = init) ∧
      (¬ none_ → (floatSum op c act a init).1 = if c.ew = 32 then sum else (bf16.convert rm (fp32.value sum)).1)
    comes .fsum (if c.lam then treeSum rnd leaf c.vl (wide init)
      else slotSums rnd leaf c.vl ((if c.ew = 32 then 8 else 16) * c.lanes) (wide init)) ∧
    comes .fosum ((List.range c.vl).foldl (fun acc i => (joined rnd (some acc) (leaf i)).getD acc) (wide init))

/-- R192, R194, R195, Table 8-9: the estimates and the exponential at EW = 32. A normal result of VFREC or VFRSQ has 12 significant bits,
lies within 2^-12 of the exact value, and sets NX when it differs from it. VFEXPF is exact at integers from −147 to 127, overflows from
128 on, gives +0 at −148, and leaves its two lowest fraction bits zero. VFGETEXP and VFGETMANT take a number apart at n with
2^n ≤ |a| < 2^(n + 1). -/
def Sys2Proof.Claims.EstimatesKeepTheirBounds : Prop :=
  ∀ (a : Nat), a < 2 ^ 32 →
    let normal := fun (v : Nat) => 0x00800000 ≤ v % 2 ^ 31 ∧ v % 2 ^ 31 < 0x7F800000
    (∀ neg m e, fp32.value a = .fin neg m e →
      (let r := recipElem 32 a
       normal r.1 → r.1 % 2 ^ 12 = 0 ∧ ∃ M E, fp32.value r.1 = .fin neg M E ∧ ∃ k : Nat, E + e = -(k : Int) ∧
        4095 * 2 ^ k ≤ 4096 * (M * m) ∧ 4096 * (M * m) ≤ 4097 * 2 ^ k ∧ r.2 = if M * m = 2 ^ k then 0 else flNX) ∧
      (neg = true → rsqElem 32 a = (fp32.canon, flNV)) ∧
      (neg = false →
        let r := rsqElem 32 a
        normal r.1 → r.1 % 2 ^ 12 = 0 ∧ ∃ M E, fp32.value r.1 = .fin false M E ∧ ∃ k : Nat, 2 * E + e = -(k : Int) ∧
          4095 ^ 2 * 2 ^ k ≤ 4096 ^ 2 * (M * M * m) ∧ 4096 ^ 2 * (M * M * m) ≤ 4097 ^ 2 * 2 ^ k ∧
          r.2 = if M * M * m = 2 ^ k then 0 else flNX) ∧
      (∃ n : Nat, 2 ^ n ≤ m ∧ m < 2 ^ (n + 1) ∧ getexpElem 32 a = ((fp32.round 0 (FVal.ofInt (e + n))).1, 0) ∧
        (getmantElem 32 a).2 = 0 ∧ ∀ M E, fp32.value (getmantElem 32 a).1 = .fin neg M E →
          ∃ k : Nat, E = -(k : Int) ∧ M * 2 ^ n = m * 2 ^ k)) ∧
    ((expElem 32 a).1 < 0x7F800000 → (expElem 32 a).1 % 4 = 0) ∧
    (∀ n : Int, a = (fp32.round 0 (FVal.ofInt n)).1 →
      (-126 ≤ n → n ≤ 127 → expElem 32 a = ((n + 127).toNat * 2 ^ 23, 0)) ∧
      (-147 ≤ n → n < -126 → expElem 32 a = (2 ^ (n + 149).toNat, 0)) ∧
      (n = -148 → expElem 32 a = (0, flUF + flNX)) ∧
      (128 ≤ n → n < 2 ^ 24 → expElem 32 a = (fp32.infBits false, flOF + flNX))) ∧
    (fp32.value a = .zero false → recipElem 32 a = (fp32.infBits false, flDZ) ∧ rsqElem 32 a = (fp32.infBits false, flDZ) ∧
      getexpElem 32 a = (fp32.infBits true, flDZ) ∧ (getmantElem 32 a).1 = a) ∧
    (fp32.value a = .zero true → recipElem 32 a = (fp32.infBits true, flDZ) ∧ rsqElem 32 a = (fp32.infBits true, flDZ)) ∧
    (fp32.value a = .inf false → recipElem 32 a = (0, 0) ∧ rsqElem 32 a = (0, 0) ∧ expElem 32 a = (fp32.infBits false, 0) ∧
      getexpElem 32 a = (fp32.infBits false, 0) ∧ getmantElem 32 a = (fp32.canon, flNV)) ∧
    (fp32.value a = .inf true → recipElem 32 a = (2 ^ 31, 0) ∧ rsqElem 32 a = (fp32.canon, flNV) ∧ expElem 32 a = (0, 0))

/-- R205, R206: VCOMPRESS packs the active elements of its source from element 0 and zeroes the rest of the destination; VEXPAND
spreads its source's elements over the active positions, leaves the inactive ones below VL and zeroes the tail; VEXTRACT reads one
element, zero-extended, and zero at or above VLMAX. Compressing or expanding a register onto itself traps ILLEGAL. -/
def Sys2Proof.Claims.CompressExpandExtract : Prop :=
  ∀ (s : State) (d a : VReg) (r x : XReg) (m : MReg), idle s → configured s [d, a] →
    let acts := actives s m
    (d ≠ a →
      Gives (exec (.vcompress d a m) s) (fun t =>
        t = finished s { s.cur with vregs := t.cur.vregs } ∧ (∀ v, v ≠ d → t.cur.vreg v.toNat = s.cur.vreg v.toNat) ∧
        (vl s = 0 → t.cur.vreg d.toNat = s.cur.vreg d.toNat) ∧
        (vl s ≠ 0 → ∀ k, elem (t.cur.vreg d.toNat) (vcEw s.cur.vconf) k = match acts[k]? with
          | some i => (el s.cur a i).toNat
          | none => 0)) ∧
      Gives (exec (.vexpand d a m) s) (fun t =>
        t = finished s { s.cur with vregs := t.cur.vregs } ∧ (∀ v, v ≠ d → t.cur.vreg v.toNat = s.cur.vreg v.toNat) ∧
        (vl s = 0 → t.cur.vreg d.toNat = s.cur.vreg d.toNat) ∧
        (vl s ≠ 0 → ∀ k, elem (t.cur.vreg d.toNat) (vcEw s.cur.vconf) k =
          if vl s ≤ k then 0
          else if k ∈ acts then (el s.cur a (acts.filter (fun j => decide (j < k))).length).toNat
          else (el s.cur d k).toNat))) ∧
    (d = a → Traps (exec (.vcompress d a m) s) s causeIllegal 0 0 ∧ Traps (exec (.vexpand d a m) s) s causeIllegal 0 0 ∧
      Traps (exec (.vslideup d a x m) s) s causeIllegal 0 0 ∧ Traps (exec (.vslidedn d a x m) s) s causeIllegal 0 0 ∧
      ∀ b, Traps (exec (.vgather d a b m) s) s causeIllegal 0 0) ∧
    exec (.vextract r a x) s = .next (finished s (s.cur.setX r
      (if (s.cur.getX x).toNat < s.vlmax s.turn then (el s.cur a (s.cur.getX x).toNat).setWidth 64 else 0)))

/-! ### Scalar accesses -/

/-- R127, Table 5-6: a scalar load whose address is aligned and whose access is permitted writes the n bytes at its physical
address, little-endian and extended as its row says, zero from a void window (R118), to x[rd], and goes on at P + 4. Nothing else changes but
the bookkeeping of the page-table entry (R69), caches, and a cause that poisoned data leave due. An access of the Braid window
waits while the port of its way retrains (R291). With the migration
queue off, every byte outside the entry reads as it does once the page is assigned (R68). -/
def Sys2Proof.Claims.LoadsReadMemory : Prop :=
  ∀ (s : State) (d a : XReg) (i : BitVec 14), s.cur.anyPending [d, a] = false →
    let va := s.cur.getX a + i.signExtend 64
    let row := fun (op : Instr) (n : Nat) (ext : Nat → Word) =>
      va.toNat % n = 0 → ∀ r, s.probe (s.space s.turn) .read va.toNat = .ok r →
        let m := (s.assignPage r.leaf).mem
        (s.reachWaits r = true → exec op s = .next s) ∧ (s.reachWaits r = false → Gives (exec op s) fun t =>
          butImprecise t.cur = butImprecise
            ((s.cur.setX d (ext (if r.void then 0 else readNat m r.pa n))).advance 4) ∧
          othersKept s t ∧
          (s.migqOn = false → ∀ p, offEntry r p → readByte t.mem p = readByte m p))
    row (.lb d a i) 1 (fun v => (BitVec.ofNat 8 v).signExtend 64) ∧
    row (.lh d a i) 2 (fun v => (BitVec.ofNat 16 v).signExtend 64) ∧
    row (.lw d a i) 4 (fun v => (BitVec.ofNat 32 v).signExtend 64) ∧
    row (.ld d a i) 8 (BitVec.ofNat 64) ∧
    row (.lbu d a i) 1 (BitVec.ofNat 64) ∧
    row (.lhu d a i) 2 (BitVec.ofNat 64) ∧
    row (.lwu d a i) 4 (BitVec.ofNat 64)

/-- R127: a scalar store whose address is aligned and whose access is permitted writes the n low bytes of x[rb],
little-endian, at its physical address and, when the core leads a shadow, at the same place of the shadow's scratchpad
(R388); a void window takes nothing (R118). Every other byte outside the page-table entry reads as it does once the page
is assigned, and nothing else changes but what a load may change. A store to the Braid window waits as a load does (R291). -/
def Sys2Proof.Claims.StoresWriteMemory : Prop :=
  ∀ (s : State) (a b : XReg) (i : BitVec 14), s.cur.anyPending [a, b] = false →
    let va := s.cur.getX a + i.signExtend 64
    let row := fun (op : Instr) (n : Nat) =>
      va.toNat % n = 0 → ∀ r, s.probe (s.space s.turn) .write va.toNat = .ok r →
        let u := s.assignPage r.leaf
        let stored := fun (base p : Nat) => base ≤ p ∧ p < base + n
        (s.reachWaits r = true → exec op s = .next s) ∧ (s.reachWaits r = false → Gives (exec op s) fun t =>
          butImprecise t.cur = butImprecise (s.cur.advance 4) ∧ othersKept s t ∧
          (s.migqOn = false → ∀ p, offEntry r p →
            (r.void = false → stored r.pa p →
              readByte t.mem p = BitVec.ofNat 8 ((s.cur.getX b).toNat / 256 ^ (p - r.pa))) ∧
            (r.void = false → ∀ q, s.shadowPlace r.pa = some q → stored q p →
              readByte t.mem p = BitVec.ofNat 8 ((s.cur.getX b).toNat / 256 ^ (p - q))) ∧
            (r.void = true ∨ (¬ stored r.pa p ∧ ∀ q, s.shadowPlace r.pa = some q → ¬ stored q p) →
              readByte t.mem p = readByte u.mem p)))
    row (.sb a b i) 1 ∧ row (.sh a b i) 2 ∧ row (.sw a b i) 4 ∧ row (.sd a b i) 8

/-- R128 to R130: an atomic of 4 or 8 bytes returns the old value sign-extended, and writes what its member of R129 makes
of it and of the low bytes of x[rb]; AMOCAS compares with x[rd] and writes only when they are equal; AMOFADD adds as FADD.F does with
RNE and raises its flags. A void window gives 0 and takes nothing. What is written may advance a queue's TAIL
(R328), which `notePosts` follows up.
The model's own choices here: log entries 6, 65, 86, 92. -/
def Obligations.AtomicsUpdateMemory : Prop :=
  ∀ (s : State) (d a b : XReg) (w : BitVec 1), s.cur.anyPending [d, a, b] = false →
    let va := s.cur.getX a
    let row := fun (op : Instr) (n : Nat) (f : BitVec (8 * n) → BitVec (8 * n) → BitVec (8 * n) → Option (BitVec (8 * n)) × Nat) =>
      va.toNat % n = 0 → ∀ r, s.probe (s.space s.turn) .atomic va.toNat = .ok r →
        let u := s.assignPage r.leaf
        let old := if r.void then 0 else BitVec.ofNat (8 * n) (readNat u.mem r.pa n)
        let res := f old ((s.cur.getX b).setWidth (8 * n)) ((s.cur.getX d).setWidth (8 * n))
        let after := match res.1 with
          | some v => if r.void then u else (u.store r.pa (leBytes n v.toNat)).notePosts
          | none => u
        (s.reachWaits r = true → exec op s = .next s) ∧ (s.reachWaits r = false → Gives (exec op s) fun t =>
          butImprecise t.cur = butImprecise
            (((s.cur.raise (if r.void then 0 else flagBits res.2)).setX d (old.signExtend 64)).advance 4) ∧
          othersKept s t ∧
          (s.migqOn = false → ∀ p, offEntry r p → readByte t.mem p = readByte after.mem p))
    let n := if w = 0 then 4 else 8
    row (.amoswap d a b w) n (fun _ y _ => (some y, 0)) ∧
    row (.amoadd d a b w) n (fun x y _ => (some (x + y), 0)) ∧
    row (.amoand d a b w) n (fun x y _ => (some (x &&& y), 0)) ∧
    row (.amoor d a b w) n (fun x y _ => (some (x ||| y), 0)) ∧
    row (.amoxor d a b w) n (fun x y _ => (some (x ^^^ y), 0)) ∧
    row (.amomin d a b w) n (fun x y _ => (some (if x.toInt ≤ y.toInt then x else y), 0)) ∧
    row (.amomax d a b w) n (fun x y _ => (some (if x.toInt ≤ y.toInt then y else x), 0)) ∧
    row (.amominu d a b w) n (fun x y _ => (some (if x.toNat ≤ y.toNat then x else y), 0)) ∧
    row (.amomaxu d a b w) n (fun x y _ => (some (if x.toNat ≤ y.toNat then y else x), 0)) ∧
    row (.amocas d a b w) n (fun x y e => (if x = e then some y else none, 0)) ∧
    row (.amofadd d a b) 4 (fun x y _ =>
      let r := fp32.add 0 (fp32.value x.toNat) (fp32.value y.toNat)
      (some (BitVec.ofNat 32 r.1), r.2))

/-- R127, R129, R67: a scalar access whose address is not a multiple of its size traps MISALIGN with the address; otherwise a
refused access traps with its cause, its address, its PERM code in TRAPINFO and its one page in FPLIST (R86); a poisoned block that
its walk has read makes UNCORRECTABLE due beside it (R48). -/
def Sys2Proof.Claims.ScalarAccessTraps : Prop :=
  ∀ (s : State) (d a b : XReg) (i : BitVec 14) (w : BitVec 1),
    let at_ := s.cur.getX a + i.signExtend 64
    let bad := fun (op : Instr) (k : AccKind) (va : Word) (n : Nat) =>
      (va.toNat % n ≠ 0 → Traps (exec op s) s causeMisalign va 0) ∧
      (va.toNat % n = 0 → ∀ f, s.probe (s.space s.turn) k va.toNat = .error f →
        exec op s = (s.walkConsumed (s.space s.turn) s.turn f.addr).takeTrap s.turn
          { cause := f.cause, pc := s.cur.pc, addr := BitVec.ofNat 64 f.addr
            info := BitVec.ofNat 64 (f.code + 256), fplist := [fpEntry f.cause f.addr] })
    (s.cur.anyPending [d, a] = false →
      bad (.lb d a i) .read at_ 1 ∧ bad (.lh d a i) .read at_ 2 ∧ bad (.lw d a i) .read at_ 4 ∧
      bad (.ld d a i) .read at_ 8 ∧ bad (.lbu d a i) .read at_ 1 ∧ bad (.lhu d a i) .read at_ 2 ∧
      bad (.lwu d a i) .read at_ 4) ∧
    (s.cur.anyPending [a, b] = false →
      bad (.sb a b i) .write at_ 1 ∧ bad (.sh a b i) .write at_ 2 ∧ bad (.sw a b i) .write at_ 4 ∧
      bad (.sd a b i) .write at_ 8) ∧
    (s.cur.anyPending [d, a, b] = false →
      let n := if w = 0 then 4 else 8
      bad (.amoswap d a b w) .atomic (s.cur.getX a) n ∧ bad (.amoadd d a b w) .atomic (s.cur.getX a) n ∧
      bad (.amocas d a b w) .atomic (s.cur.getX a) n ∧ bad (.amofadd d a b) .atomic (s.cur.getX a) 4)

/-- R67: how an access at PL0 ends. An address at or above 2^52 is refused with code 4, an absent leaf with the absent cause
of its kind, a malformed entry with code 1, a missing right with code 2 or FETCH_NOEXEC; a place that no access below PL2
reaches with code 3 or 12. -/
def Sys2Proof.Claims.TranslationFollowsTheLeaf : Prop :=
  ∀ (s : State) (g : Nat) (k : AccKind) (va : Nat), (s.hart g).level = .pl0 →
    let sp := s.space g
    let refused := fun (c code : Nat) => s.translate sp k va = .error ⟨c, va, code⟩
    let absent := match k with
      | .fetch => causeFetchAbsent
      | .read => causeLoadAbsent
      | .write => causeStoreAbsent
      | .atomic => causeStoreAbsent
    (2 ^ 52 ≤ va → refused causePerm 4) ∧
    (va < 2 ^ 52 →
      (s.leafOf sp va = .absent → refused absent 0) ∧
      (s.leafOf sp va = .malformed → refused causePerm 1) ∧
      (∀ l, s.leafOf sp va = .found l →
        let e := l.entry
        let pa := ptePA e + (va - l.base)
        let lacks := match k with
          | .fetch => pteX e = false
          | .read => pteR e = false
          | .write => pteW e = false
          | .atomic => pteR e = false ∨ pteW e = false
        (lacks → if k = .fetch then refused causeFetchNoexec 0 else refused causePerm 2) ∧
        (¬ lacks →
          (placeOf (ptePA e) = .hole → refused causePerm 3) ∧
          (placeOf (ptePA e) = .device → refused causePerm 12) ∧
          (placeOf (ptePA e) ≠ .hole → placeOf (ptePA e) ≠ .device → placeOf pa ≠ .hole → placeOf pa ≠ .device →
            s.translate sp k va = .ok (pa, some l)))))

/-- R68: the first access to a page whose leaf has ZA = 1 finds it zeroed and leaves ZA clear; a page whose leaf has another
ZA, or has been changed since the walk, is not touched. Where the page does not hold its own leaf, every byte outside both is as before. -/
def Sys2Proof.Claims.ZeroOnAssign : Prop :=
  ∀ (s : State) (l : Leaf),
    let e := readNat s.mem l.entryAt 8
    let t := s.assignPage (some l)
    let inPage := fun p => ptePA e ≤ p ∧ p < ptePA e + l.size
    let inEntry := fun p => l.entryAt ≤ p ∧ p < l.entryAt + 8
    (pteV e = true ∧ ptePA e = ptePA l.entry ∧ pteZA e = 1 →
      (∀ p, inPage p → ¬ inEntry p → readByte t.mem p = 0) ∧
      (∀ p, ¬ inPage p → ¬ inEntry p → readByte t.mem p = readByte s.mem p) ∧
      ((∀ p, inEntry p → ¬ inPage p) → pteZA (readNat t.mem l.entryAt 8) = 0)) ∧
    (¬ (pteV e = true ∧ ptePA e = ptePA l.entry ∧ pteZA e = 1) → t = s)

/-- R69: a committed access sets A, and D when it writes; a use-once access sets UO unless GR is set; a gather or scatter sets
GR and clears UO. No other bit of the entry changes, and an entry that is no longer what the walk used is left alone. -/
def Sys2Proof.Claims.PageBitsOnCommit : Prop :=
  ∀ (s : State) (asid : Nat) (l : Leaf) (write : Bool) (u : PageUse), s.migqOn = false →
    let e := readNat s.mem l.entryAt 8
    let t := s.markPage asid (some l) write u
    let e' := readNat t.mem l.entryAt 8
    (pteV e = true ∧ ptePA e = ptePA l.entry →
      bit e' 5 = true ∧ (bit e' 6 = (write || bit e 6)) ∧
      (bit e' 7 = match u with
        | .plain => bit e 7
        | .useOnce => bit e 7 || !bit e 8
        | .gather => false) ∧
      (bit e' 8 = (decide (u = .gather) || bit e 8)) ∧
      (∀ j, j < 64 → j ∉ [5, 6, 7, 8] → bit e' j = bit e j) ∧
      (∀ p, p < l.entryAt ∨ l.entryAt + 8 ≤ p → readByte t.mem p = readByte s.mem p)) ∧
    (¬ (pteV e = true ∧ ptePA e = ptePA l.entry) → t = s)

/-! ### Scalar floating point -/

/-- R313 to R315: the scalar floating members read x[n][31:0] as FP32 and write their result with zeros above it; each rounds by its
rm field, where 7 takes FPCTL.RM, and raises the flags of its one rounding. Moves of the sign raise none; the fused members
are 8 bytes. -/
def Sys2Proof.Claims.ScalarFloatResults : Prop :=
  ∀ (s : State) (d a b c : XReg) (r : BitVec 3), s.cur.anyPending [d, a, b, c] = false →
    let bitsOf := fun (q : XReg) => (s.cur.getX q).toNat % 2 ^ 32
    let x := bitsOf a
    let y := bitsOf b
    let u := fp32.value x
    let v := fp32.value y
    let w := fp32.value (bitsOf c)
    let rm := if r = 7 then s.cur.fpctl.toNat else r.toNat
    let two := fun (i : Instr) (n : Nat) (res : Nat × Nat) => exec i s = .next (wroteFp s d (BitVec.ofNat 64 res.1) res.2 n)
    let sign := fun (q : Nat) => q / 2 ^ 31 % 2
    let nv := if u.isSnan || v.isSnan then flNV else 0
    two (.faddF d a b r) 4 (fp32.add rm u v) ∧
    two (.fsubF d a b r) 4 (fp32.add rm u v.negate) ∧
    two (.fmulF d a b r) 4 (fp32.mul rm u v) ∧
    two (.fdivF d a b r) 4 (fp32.div rm u v) ∧
    two (.fsqrtF d a r) 4 (fp32.sqrt rm u) ∧
    two (.fminF d a b) 4 (fp32.minmax false x y) ∧
    two (.fmaxF d a b) 4 (fp32.minmax true x y) ∧
    two (.feqF d a b) 4 (if u.eqv v then 1 else 0, nv) ∧
    two (.fltF d a b) 4 (if u.lt false v then 1 else 0, nv) ∧
    two (.fleF d a b) 4 (if u.lt false v || u.eqv v then 1 else 0, nv) ∧
    two (.fclassF d a) 4 (fp32.classMask x, 0) ∧
    two (.fsgnj d a b) 4 (x % 2 ^ 31 + sign y * 2 ^ 31, 0) ∧
    two (.fsgnjn d a b) 4 (x % 2 ^ 31 + (1 - sign y) * 2 ^ 31, 0) ∧
    two (.fsgnjx d a b) 4 (x % 2 ^ 31 + (sign x + sign y) % 2 * 2 ^ 31, 0) ∧
    two (.fmaddF d a b c r) 8 (fp32.fma rm u v w) ∧
    two (.fmsubF d a b c r) 8 (fp32.fma rm u v w.negate) ∧
    two (.fnmaddF d a b c r) 8 (fp32.fma rm u.negate v w.negate) ∧
    two (.fnmsubF d a b c r) 8 (fp32.fma rm u.negate v w)

/-- R314: the conversions. To integers they round, saturate with NV, and W results are sign-extended; from integers and between
FP32 and BF16 they round once. -/
def Sys2Proof.Claims.ScalarConversions : Prop :=
  ∀ (s : State) (d a : XReg) (r : BitVec 3), s.cur.anyPending [d, a] = false →
    let X := s.cur.getX a
    let u := fp32.value (X.toNat % 2 ^ 32)
    let rm := if r = 7 then s.cur.fpctl.toNat else r.toNat
    let one := fun (i : Instr) (v : Word) (fl : Nat) => exec i s = .next (wroteFp s d v fl 4)
    let toW := toIntSat 32 rm u
    let toL := toIntSat 64 rm u
    one (.fcvtWF d a r) ((BitVec.ofNat 32 toW.1).signExtend 64) toW.2 ∧
    one (.fcvtLF d a r) (BitVec.ofNat 64 toL.1) toL.2 ∧
    (let v := fp32.round rm (FVal.ofInt (X.setWidth 32).toInt)
     one (.fcvtFW d a r) (BitVec.ofNat 64 v.1) v.2) ∧
    (let v := fp32.round rm (FVal.ofInt X.toInt)
     one (.fcvtFL d a r) (BitVec.ofNat 64 v.1) v.2) ∧
    (let v := bf16.convert rm u
     one (.fcvtBF d a r) (BitVec.ofNat 64 v.1) v.2) ∧
    (let v := fp32.convert 0 (bf16.value (X.toNat % 2 ^ 16))
     one (.fcvtFB d a) (BitVec.ofNat 64 v.1) v.2)

/-- R35, Table 1-14: what rounding m × 2^e to a multiple of 2^q means in each mode, said by where the result lies and not by
how it is found: never a whole unit away; RNE at most half a unit away, and even on a tie; RTZ the lower magnitude; RDN and RUP
on their side; RNA at most half a unit away, and up on a tie. It is exact just when nothing is lost. -/
def Sys2Proof.Claims.RoundingModes : Prop :=
  ∀ (rm : Nat) (neg : Bool) (m : Nat) (e q : Int), e < q →
    let unit := 2 ^ (q - e).toNat
    let r := (roundUnits rm neg m e q).1
    let inexact := (roundUnits rm neg m e q).2
    (inexact = true ↔ m % unit ≠ 0) ∧
    r * unit < m + unit ∧ m < r * unit + unit ∧
    (inexact = false → r * unit = m) ∧
    (rm = 0 → 2 * (r * unit) ≤ 2 * m + unit ∧ 2 * m ≤ 2 * (r * unit) + unit ∧
      (2 * m = 2 * (r * unit) + unit ∨ 2 * (r * unit) = 2 * m + unit → r % 2 = 0)) ∧
    (rm = 1 → r * unit ≤ m) ∧
    (rm = 2 → if neg then m ≤ r * unit else r * unit ≤ m) ∧
    (rm = 3 → if neg then r * unit ≤ m else m ≤ r * unit) ∧
    (rm = 4 → 2 * (r * unit) ≤ 2 * m + unit ∧ 2 * m < 2 * (r * unit) + unit)

/-! ### Fences, waiting, arrival tags, signal words -/

/-- R318 to R320, R359 to R362: FENCE.SV, FENCE.ALL and FENCE.X perform the scalar accesses that have been put off, of which none is left;
FENCE.SV then goes on at once; the others wait until every vector-stream event of the hart has
taken place; FENCE.X also leaves the core's data cache clean with its dirty far lines in the far memory (R288), IFENCE drops the words
fetched ahead. WFE waits for the event latch and clears it; YIELD yields and goes on. -/
def Sys2Proof.Claims.FencesAndWaiting : Prop :=
  ∀ (s : State),
    let on := fun (h : Hart) => Host.Outcome.next (φ := Fault) (ρ := Refusal) (s.setCur (h.advance 4))
    let quiet := fun (x : State) => ∀ e ∈ x.cur.vq ++ x.cur.mq, qMakesEvent e.op = false
    let n := coreOf s.turn
    let u := s.performLate s.turn
    let after := Host.Outcome.next (φ := Fault) (ρ := Refusal) (u.setCur (u.cur.advance 4))
    (u.cur.late = [] ∧ (s.cur.late = [] → u = s) ∧ exec .fenceSv s = after) ∧
    (quiet s → exec .fenceVs s = on s.cur ∧ exec .ifence s = on { s.cur with ibuf := [] }) ∧
    (quiet u → exec .fenceAll s = after ∧ Gives (exec .fenceX s) fun t =>
        t.cur = u.cur.advance 4 ∧ othersKept u t ∧ t.mem = u.mem ∧ (t.core n).dirtyLines = [] ∧
        (∀ l ∈ (u.core n).dirtyLines, isFar l = true → ∀ p, l ≤ p → p < l + 128 → readByte t.farHost p = readByte u.mem p)) ∧
    (¬ quiet s → exec .fenceVs s = .next s ∧ exec .ifence s = .next s) ∧
    (¬ quiet u → exec .fenceAll s = .next u ∧ exec .fenceX s = .next u) ∧
    (s.cur.latch = true → exec .wfe s = on { s.cur with latch := false }) ∧
    (s.cur.latch = false → exec .wfe s = .next s) ∧
    exec .yield s = on { s.cur with yielding := some [] }

/-- R103: an arrival instruction waits for its registers and for earlier copies to issue, traps TAG when K names a tag the hart
does not own, and otherwise works on ARRIVE of its core: WAITANY and WAITALL wait for some or all of K and return ARRIVE AND K,
FFR returns the lowest such bit or −1, TAGCLR clears K. -/
def Sys2Proof.Claims.ArrivalTags : Prop :=
  ∀ (s : State) (d a : XReg), s.cur.anyPending [d, a] = false →
    let k := s.cur.getX a
    let got := (s.core (coreOf s.turn)).arrive &&& k
    let cleared := s.setCore (coreOf s.turn)
      { s.core (coreOf s.turn) with arrive := (s.core (coreOf s.turn)).arrive &&& ~~~k }
    ((∃ e ∈ s.cur.vq, qIsCopy e.op = true) →
      exec (.waitany d a) s = .next s ∧ exec (.waitall d a) s = .next s ∧ exec (.ffr d a) s = .next s ∧
      exec (.tagclr a) s = .next s) ∧
    ((∀ e ∈ s.cur.vq, qIsCopy e.op = false) →
      (k &&& ~~~s.cur.tagown ≠ 0 →
        Traps (exec (.waitany d a) s) s causeTag 0 0 ∧ Traps (exec (.waitall d a) s) s causeTag 0 0 ∧
        Traps (exec (.ffr d a) s) s causeTag 0 0 ∧ Traps (exec (.tagclr a) s) s causeTag 0 0) ∧
      (k &&& ~~~s.cur.tagown = 0 →
        (got ≠ 0 ∨ k = 0 → exec (.waitany d a) s = .next (wrote s d got 4)) ∧
        (got = 0 ∧ k ≠ 0 → exec (.waitany d a) s = .next s) ∧
        (got = k → exec (.waitall d a) s = .next (wrote s d got 4)) ∧
        (got ≠ k → exec (.waitall d a) s = .next s) ∧
        (∀ n, n < 64 → got.getLsbD n = true → (∀ j, j < n → got.getLsbD j = false) →
          exec (.ffr d a) s = .next (wrote s d (BitVec.ofNat 64 n) 4)) ∧
        (got = 0 → exec (.ffr d a) s = .next (wrote s d (BitVec.allOnes 64) 4)) ∧
        exec (.tagclr a) s = .next (cleared.setCur (s.cur.advance 4))))

/-- R98, R319: an arrival sets its tag's bit of ARRIVE, no other, and a rise sets the event latch of the hart of the core that
owns the tag, and no other hart's. -/
def Sys2Proof.Claims.ArrivalSetsTheTag : Prop :=
  ∀ (s : State) (n t : Nat), t < 64 →
    let u := s.setArrive n t
    let old := (s.core n).arrive
    (∀ j, j < 64 → (u.core n).arrive.getLsbD j = (old.getLsbD j || decide (j = t))) ∧
    (∀ k, k ≠ n → u.core k = s.core k) ∧
    (∀ g, ∃ l, u.hart g = { s.hart g with latch := l } ∧
      (l = true ↔ (s.hart g).latch = true ∨
        (old.getLsbD t = false ∧ coreOf g = n ∧ (s.hart g).tagown.getLsbD t = true)))

/-- R109, R110: SIGDEC returns the old value and leaves it less one, modulo 2^64; a change from 1 to 0 sends the mirror's
message when one is registered. SIGWAIT waits until the word is at most x[rb], signed, and returns it. A misaligned address
traps MISALIGN; a void window reads zero and takes nothing. -/
def Sys2Proof.Claims.SignalWords : Prop :=
  ∀ (s : State) (d a b : XReg), s.cur.anyPending [d, a, b] = false →
    let va := s.cur.getX a
    (va.toNat % 8 ≠ 0 → Traps (exec (.sigdec d a) s) s causeMisalign va 0 ∧
      Traps (exec (.sigwait d a b) s) s causeMisalign va 0) ∧
    (va.toNat % 8 = 0 →
      (∀ r, s.signalAt (s.space s.turn) .atomic va.toNat = .ok r →
        let m := (s.assignPage r.leaf).mem
        let old := if r.void then 0 else BitVec.ofNat 64 (readNat m r.pa 8)
        Gives (exec (.sigdec d a) s) fun t =>
          butImprecise t.cur = butImprecise ((s.cur.setX d old).advance 4) ∧ othersKept s t ∧
          (s.migqOn = false → ∀ p, offEntry r p →
            (r.void = false → r.pa ≤ p → p < r.pa + 8 →
              readByte t.mem p = BitVec.ofNat 8 ((old - 1).toNat / 256 ^ (p - r.pa))) ∧
            (r.void = true → readByte t.mem p = readByte m p) ∧
            (p < r.pa ∨ r.pa + 8 ≤ p → s.shadowPlace r.pa = none → readByte t.mem p = readByte m p)) ∧
          ((old ≠ 1 ∨ r.void = true ∨ ∀ x ∈ s.mirrors, x.sig ≠ r.pa) → t.out = s.out)) ∧
      (∀ r, s.signalAt (s.space s.turn) .read va.toNat = .ok r →
        let m := (s.assignPage r.leaf).mem
        let v := if r.void then 0 else BitVec.ofNat 64 (readNat m r.pa 8)
        (v.toInt ≤ (s.cur.getX b).toInt → Gives (exec (.sigwait d a b) s) fun t =>
          butImprecise t.cur = butImprecise ((s.cur.setX d v).advance 4) ∧ othersKept s t ∧
          (s.migqOn = false → ∀ p, offEntry r p → readByte t.mem p = readByte m p)) ∧
        ((s.cur.getX b).toInt < v.toInt → Gives (exec (.sigwait d a b) s) fun t =>
          butImprecise t.cur = butImprecise s.cur ∧ othersKept s t ∧ t.mem = m)))

/-- R110: a decrement that changes a mirrored word from 1 to 0 sends the one message that its record describes. -/
def Sys2Proof.Claims.MirrorsFollowSignals : Prop :=
  ∀ (s : State) (pa : Nat) (m : Mirror), s.mirrors.find? (fun x => x.sig == pa) = some m →
    let old := BitVec.ofNat 64 (readNat s.mem pa 8)
    let u := (s.sigDecAt pa).1
    (s.sigDecAt pa).2 = old ∧
    (old = 1 → ∃ raddr rkey qpn payload, u.out = s.out ++ [.mirrorWrite raddr rkey qpn payload] ∧
      raddr = BitVec.ofNat 64 (readNat (s.store pa (zeros 8)).mem m.record 8) ∧ payload.length = 16) ∧
    (old ≠ 1 → u.out = s.out)

/-! ### Barriers -/

namespace Sys2Proof.Claims

/-- The place of a barrier record. -/
def barPlaceAt (pa : Nat) (leaf : Option Leaf) : Reach := { pa := pa, leaf := leaf }

/-- A barrier instruction of the current hart reaches a record of its cluster's SRAM: its address is aligned, permitted and
translated to pa, and the record is not poisoned, nor what its translation read, and apart from its page-table entry. -/
def barPlace (s : State) (b : Word) (pa : Nat) (leaf : Option Leaf) : Prop :=
  b.toNat % 32 = 0 ∧ s.translate (s.space s.turn) .atomic b.toNat = .ok (pa, leaf) ∧
  placeOf pa = .sram (clusterOf s.turn) ∧ s.migqOn = false ∧
  s.walkTaint (s.space s.turn) b.toNat = none ∧ (s.assignPage leaf).poisoned pa 24 = false ∧ ∀ i, i < 32 → offEntry (barPlaceAt pa leaf) (pa + i)

/-- A record that R105 accepts. -/
def barValid (c : BarRec) : Prop := 1 ≤ c.members ∧ c.members ≤ 65535 ∧ c.err = false

/-- The record with one more arrival: the phase goes on when it was the last and nothing is pending (R105). -/
def barArrived (c : BarRec) : BarRec :=
  if c.arrived + 1 = c.members ∧ c.pending = 0 then { c with arrived := 0, phase := (c.phase + 1) % 2 ^ 64 }
  else { c with arrived := c.arrived + 1 }

end Sys2Proof.Claims

/-- R104, R105, R107: BAREXP adds x[rb] to PENDING; BARARR arrives, returns the phase it arrived in as its token and completes
the phase when it is the last and nothing is pending; BARWT returns its token once PHASE has passed it and otherwise leaves the
hart waiting on the record, with the pc as it was. Each changes no other byte of memory but its page-table entry's. -/
def Sys2Proof.Claims.BarrierInstructions : Prop :=
  ∀ (s : State) (d a b : XReg), s.cur.anyPending [d, a, b] = false → s.cur.copiesIssued = true → s.cur.eventsDone = true →
    ∀ pa leaf, barPlace s (s.cur.getX a) pa leaf →
      let u := s.assignPage leaf
      let c := u.barRead pa
      let rest := fun (t : State) => ∀ p, offEntry (barPlaceAt pa leaf) p → p < pa ∨ pa + 32 ≤ p → readByte t.mem p = readByte u.mem p
      barValid c →
        (c.pending + (s.cur.getX b).toNat < 2 ^ 40 → Gives (exec (.barexp a b) s) fun t =>
          t.cur = s.cur.advance 4 ∧ othersKept s t ∧ rest t ∧
          t.barRead pa = { c with pending := c.pending + (s.cur.getX b).toNat }) ∧
        (c.arrived ≠ c.members → Gives (exec (.bararr d a) s) fun t =>
          (∃ l, t.cur = (({ s.cur with latch := l } : Hart).setX d (BitVec.ofNat 64 c.phase)).advance 4) ∧ rest t ∧
          (c.arrived + 1 < 2 ^ 32 → t.barRead pa = barArrived c)) ∧
        ((s.cur.getX b).toNat < c.phase → Gives (exec (.barwt d a b) s) fun t =>
          t.cur = (({ s.cur with barWait := none, waitsOn := none } : Hart).setX d (s.cur.getX b)).advance 4 ∧
          othersKept s t ∧ rest t ∧ t.barRead pa = c) ∧
        (c.phase ≤ (s.cur.getX b).toNat →
          exec (.barwt d a b) s = .next (u.setCur { u.cur with waitsOn := some pa }))

/-- R105, R108: BAR arrives and then waits. A hart that has arrived and whose phase is over gets its token and goes on; one
whose phase is not over waits with its arrival kept, so that it does not arrive again. The first step of a BAR at PL1, where no
translation intervenes, arrives and goes on at once when it was the last and nothing is pending. -/
def Sys2Proof.Claims.BarArrivesOnceAndWaits : Prop :=
  ∀ (s : State) (d a : XReg), s.cur.anyPending [d, a] = false →
    (∀ token b pa leaf, s.cur.barWait = some (token, b) → barPlace s b pa leaf → barValid ((s.assignPage leaf).barRead pa) →
      let u := s.assignPage leaf
      (token.toNat < (u.barRead pa).phase → Gives (exec (.bar d a) s) fun t =>
        t.cur = (({ s.cur with barWait := none, waitsOn := none } : Hart).setX d token).advance 4 ∧ othersKept s t ∧
        t.barRead pa = u.barRead pa) ∧
      ((u.barRead pa).phase ≤ token.toNat →
        exec (.bar d a) s = .next (u.setCur { u.cur with waitsOn := some pa }))) ∧
    (s.cur.barWait = none → s.cur.level = .pl1 → s.cur.copiesIssued = true → s.cur.eventsDone = true →
      ∀ pa, barPlace s (s.cur.getX a) pa none →
        let c := s.barRead pa
        barValid c → c.arrived + 1 ≤ c.members → c.phase + 1 < 2 ^ 64 →
          Gives (exec (.bar d a) s) fun t =>
            t.barRead pa = barArrived c ∧
            (c.arrived + 1 = c.members ∧ c.pending = 0 →
              t.cur.pc = s.cur.pc + 4 ∧ t.cur.barWait = none ∧ t.cur.getX d = if d = 0 then 0 else BitVec.ofNat 64 c.phase) ∧
            (¬ (c.arrived + 1 = c.members ∧ c.pending = 0) →
              t.cur.pc = s.cur.pc ∧ t.cur.barWait = some (BitVec.ofNat 64 c.phase, s.cur.getX a) ∧
              t.cur.waitsOn = some pa ∧ t.cur.x = s.cur.x))

/-- R105, Table 17-2: the checks of a barrier instruction in their order. A misaligned record traps MISALIGN; one outside the
hart's cluster's SRAM traps BARRIER with code 1, one whose MEMBERS is 0 or above 65,535 with code 2, one that carries ERR with code 5. BAREXP
beyond 2^40 − 1 sets ERR and traps code 3; an arrival beyond MEMBERS sets ERR and traps code 4. -/
def Sys2Proof.Claims.BarrierTraps : Prop :=
  ∀ (s : State) (d a b : XReg), s.cur.anyPending [d, a, b] = false → s.cur.copiesIssued = true → s.cur.eventsDone = true →
    let r := s.cur.getX a
    let all := fun (code : Nat) (u : State) =>
      Traps (exec (.barexp a b) s) u causeBarrier r (BitVec.ofNat 64 code) ∧
      Traps (exec (.bararr d a) s) u causeBarrier r (BitVec.ofNat 64 code) ∧
      Traps (exec (.barwt d a b) s) u causeBarrier r (BitVec.ofNat 64 code)
    (r.toNat % 32 ≠ 0 → Traps (exec (.barexp a b) s) s causeMisalign r 0 ∧ Traps (exec (.bararr d a) s) s causeMisalign r 0 ∧
      Traps (exec (.barwt d a b) s) s causeMisalign r 0) ∧
    (r.toNat % 32 = 0 → ∀ pa leaf, s.translate (s.space s.turn) .atomic r.toNat = .ok (pa, leaf) →
      let u := s.assignPage leaf
      let c := u.barRead pa
      (placeOf pa ≠ .sram (clusterOf s.turn) → all 1 s) ∧
      (placeOf pa = .sram (clusterOf s.turn) → u.poisoned pa 24 = false → s.walkTaint (s.space s.turn) r.toNat = none →
        (c.members = 0 ∨ 65535 < c.members → all 2 u) ∧
        (1 ≤ c.members → c.members ≤ 65535 → c.err = true → all 5 u) ∧
        (barValid c → 2 ^ 40 ≤ c.pending + (s.cur.getX b).toNat →
          ∃ v, Traps (exec (.barexp a b) s) v causeBarrier r (BitVec.ofNat 64 3) ∧
            (s.migqOn = false → (∀ i, i < 32 → offEntry (barPlaceAt pa leaf) (pa + i)) → (v.barRead pa).err = true)) ∧
        (barValid c → c.arrived = c.members → ∃ v, Traps (exec (.bararr d a) s) v causeBarrier r (BitVec.ofNat 64 4) ∧
          (s.migqOn = false → (∀ i, i < 32 → offEntry (barPlaceAt pa leaf) (pa + i)) → (v.barRead pa).err = true))))

/-! ### State registers -/

namespace Sys2Proof.Claims

/-- The state registers of Table 1-6 by what the two levels may do with them: read alone at both, read at PL0 and both at PL1, both
at both, and nothing at PL0. -/
def roBoth : List Nat := [0x003, 0x005, 0x006, 0x007, 0x008, 0x021, 0x030, 0x031, 0x032, 0x033, 0x034, 0x040, 0x041, 0x042]
def rwAtPl1 : List Nat := [0x000, 0x001, 0x002, 0x004, 0x020]
def rwBoth : List Nat := [0x010, 0x011]
def pl1Only : List Nat :=
  [0x100, 0x101, 0x102, 0x103, 0x104, 0x105, 0x106, 0x107, 0x108, 0x109, 0x10A, 0x10B, 0x10C, 0x10D, 0x10E, 0x10F,
   0x110, 0x111, 0x112, 0x118, 0x120, 0x121]

/-- Whether R317 lets an access of register c go on: FPCTL and FPSTAT, and at PL1 a write of VCONF, VL, EIDX or LSHARE, wait for all
posted work; ARRIVE waits for the copies posted to issue. -/
def csrReady (s : State) (c : Nat) (writes : Bool) : Prop :=
  (c = 0x010 ∨ c = 0x011 ∨ (writes = true ∧ s.cur.level = .pl1 ∧ c ∈ [0x000, 0x001, 0x002, 0x004]) →
    s.cur.vq = [] ∧ s.cur.mq = []) ∧
  (c = 0x020 → ∀ e ∈ s.cur.vq, qIsCopy e.op = false)

end Sys2Proof.Claims

/-- R19, R20, R316: an access that Table 1-6 does not allow traps whatever it would write. An index outside the table traps
ILLEGAL; a register of PL1 read or written at PL0 traps PRIV; a write of a register that is read-only traps PRIV when PL1 may
write it, ILLEGAL when no level below PL2 may. -/
def Sys2Proof.Claims.StateRegisterRights : Prop :=
  ∀ (s : State) (d a : XReg) (c : BitVec 12),
    let n := c.toNat
    let reads := fun (cause : Nat) => Traps (exec (.csrr d c) s) s cause 0 0
    let writes := fun (cause : Nat) =>
      Traps (exec (.csrw d a c) s) s cause 0 0 ∧ Traps (exec (.csrs d a c) s) s cause 0 0 ∧
      Traps (exec (.csrc d a c) s) s cause 0 0
    (n ∉ roBoth ++ rwAtPl1 ++ rwBoth ++ pl1Only → reads causeIllegal ∧ writes causeIllegal) ∧
    (n ∈ roBoth → writes causeIllegal) ∧
    (s.cur.level = .pl0 → n ∈ rwAtPl1 → writes causePriv) ∧
    (s.cur.level = .pl0 → n ∈ pl1Only → reads causePriv ∧ writes causePriv)

/-- R316 and the registers' maps: CSRR of a register that the level may read writes its value to x[rd] and changes nothing else. Said register by register;
a hart's own registers come from the hart, pool boundaries and ARRIVE from its core, CYCLE from its island, quotas from its
context. -/
def Sys2Proof.Claims.StateRegisterReads : Prop :=
  ∀ (s : State) (d : XReg), s.cur.anyPending [d] = false →
    let h := s.cur
    let core := s.core (coreOf s.turn)
    let ctx := s.ctx h.asid.toNat
    let gives := fun (c : BitVec 12) (v : Word) => s.cur.level = .pl1 ∨ c.toNat ∉ pl1Only → csrReady s c.toNat false →
      exec (.csrr d c) s = .next (wrote s d v 4)
    (gives 0x000 h.vconf ∧ gives 0x001 (h.vl.setWidth 64) ∧ gives 0x002 (h.eidx.setWidth 64) ∧
      gives 0x003 (BitVec.ofNat 64 core.alanes) ∧ gives 0x004 (h.lshare.setWidth 64) ∧
      gives 0x005 (BitVec.ofNat 64 (s.vlmax s.turn)) ∧ gives 0x006 (BitVec.ofNat 64 (core.vrb * 65536)) ∧
      gives 0x007 (BitVec.ofNat 64 (core.spb * 65536)) ∧ gives 0x008 (BitVec.ofNat 64 (core.ccb * 65536))) ∧
    (gives 0x010 (h.fpctl.setWidth 64) ∧ gives 0x011 (h.fpstat.setWidth 64) ∧ gives 0x020 core.arrive ∧
      gives 0x021 h.tagown ∧ gives 0x030 (BitVec.ofNat 64 s.turn) ∧ gives 0x031 h.gangpos ∧ gives 0x032 h.gangsize ∧
      gives 0x033 h.launchidx ∧
      (s.turn < 512 → gives 0x034 (BitVec.ofNat 64 (h.clusterReg.toNat / 4 * 4 + clusterOf s.turn))) ∧
      gives 0x040 (BitVec.ofNat 64 ((s.pair (pairOf s.turn)).cycle / 100)) ∧
      gives 0x041 (BitVec.ofNat 64 s.time) ∧ gives 0x042 s.energy) ∧
    (gives 0x100 h.trapvec ∧ gives 0x101 h.trappc ∧ gives 0x102 h.trapcause ∧ gives 0x103 h.trapaddr ∧
      gives 0x104 h.trapeidx ∧ gives 0x105 h.trapinfo ∧ gives 0x106 h.trapstat ∧ gives 0x107 h.scalarpc ∧
      (∀ k, k < 8 → gives (BitVec.ofNat 12 (0x108 + k)) (tget h.fplist k 0))) ∧
    (gives 0x110 (h.asid.setWidth 64) ∧ gives 0x111 h.ptbase ∧ gives 0x112 (h.checkmode.setWidth 64) ∧
      gives 0x118 h.tbudget ∧
      (ctx.holdQuota < 2 ^ 16 → ctx.holdCount < 2 ^ 16 → gives 0x120
        (BitVec.ofNat 64 (ctx.holdQuota + ctx.holdCount * 2 ^ 16 + (if ctx.lostovf then 2 ^ 32 else 0)))) ∧
      (ctx.leaseQuota < 2 ^ 16 → ctx.leaseCount < 2 ^ 16 →
        gives 0x121 (BitVec.ofNat 64 (ctx.leaseQuota + ctx.leaseCount * 2 ^ 16))))

/-- R316: CSRW writes x[ra], CSRS sets and CSRC clears its bits, and x[rd] gets the old value. The new value goes to the fields that the
register's map lets the level write and to no others, said here for each register with the value x[ra] of a CSRW. -/
def Sys2Proof.Claims.StateRegisterWrites : Prop :=
  ∀ (s : State) (d a : XReg), s.cur.anyPending [d, a] = false → s.cur.level = .pl1 →
    let h := s.cur
    let v := s.cur.getX a
    let w := fun (c : BitVec 12) (old : Word) (h' : Hart) => csrReady s c.toNat true →
      exec (.csrw d a c) s = .next (s.setCur ((h'.setX d old).advance 4))
    let ctx := s.ctx h.asid.toNat
    (w 0x000 h.vconf { h with vconf := v &&& 0x8000000000000FFF } ∧
      w 0x001 (h.vl.setWidth 64) { h with vl := v.setWidth 32 } ∧
      w 0x002 (h.eidx.setWidth 64) { h with eidx := v.setWidth 32 } ∧
      w 0x004 (h.lshare.setWidth 64) { h with lshare := v.setWidth 5 } ∧
      w 0x010 (h.fpctl.setWidth 64) { h with fpctl := if v.toNat % 8 ≤ 4 then v.setWidth 3 else h.fpctl } ∧
      w 0x011 (h.fpstat.setWidth 64) { h with fpstat := v.setWidth 6 }) ∧
    (w 0x100 h.trapvec { h with trapvec := v &&& 0xFFFFFFFFFFFFC } ∧ w 0x101 h.trappc { h with trappc := v } ∧
      w 0x102 h.trapcause { h with trapcause := v &&& 0xFF } ∧ w 0x103 h.trapaddr { h with trapaddr := v } ∧
      w 0x104 h.trapeidx { h with trapeidx := v &&& 0xFFFFFFFF } ∧
      w 0x105 h.trapinfo { h with trapinfo := v &&& 0x1FFFFFF } ∧ w 0x106 h.trapstat h ∧
      (∀ k, k < 8 → w (BitVec.ofNat 12 (0x108 + k)) (tget h.fplist k 0)
        { h with fplist := tput h.fplist k (v &&& 0xFFFFFFFFF00FF) })) ∧
    (w 0x110 (h.asid.setWidth 64) { h with asid := v.setWidth 16 } ∧
      w 0x111 h.ptbase { h with ptbase := v &&& 0xFFFFFFFF000 } ∧ w 0x118 h.tbudget { h with tbudget := v } ∧
      w 0x112 (h.checkmode.setWidth 64)
        { h with checkNext := if v.toNat % 4 = 3 ∨ v.toNat % 4 < ctx.minCheck then h.checkNext else v.setWidth 2 }) ∧
    ((s.imageOk = true → exec (.csrw d a 0x107) s = .next
        ((s.store (s.imageAt s.turn) (leBytes 8 v.toNat)).setCur
          (({ h with scalarpc := v }.setX d h.scalarpc).advance 4))) ∧
      (s.imageOk = false → exec (.csrw d a 0x107) s = .fault .imageOutsideHbm) ∧
      (ctx.holdQuota < 2 ^ 16 → ctx.holdCount < 2 ^ 16 → exec (.csrw d a 0x120) s = .next
        ((s.setCtx h.asid.toNat { ctx with holdQuota := v.toNat % 2 ^ 16, lostovf := v.getLsbD 32 }).setCur
          ((h.setX d (BitVec.ofNat 64
            (ctx.holdQuota + ctx.holdCount * 2 ^ 16 + (if ctx.lostovf then 2 ^ 32 else 0)))).advance 4))) ∧
      (ctx.leaseQuota < 2 ^ 16 → ctx.leaseCount < 2 ^ 16 → exec (.csrw d a 0x121) s = .next
        ((s.setCtx h.asid.toNat { ctx with leaseQuota := v.toNat % 2 ^ 16 }).setCur
          ((h.setX d (BitVec.ofNat 64 (ctx.leaseQuota + ctx.leaseCount * 2 ^ 16))).advance 4))) ∧
      (csrReady s 0x020 true → Gives (exec (.csrw d a 0x020) s) fun t =>
        (t.core (coreOf s.turn)).arrive = v ∧ t.cur.pc = s.cur.pc + 4 ∧ t.mem = s.mem ∧
        t.cur.getX d = if d = 0 then 0 else (s.core (coreOf s.turn)).arrive)) ∧
    (csrReady s 0x010 true →
      exec (.csrs d a 0x010) s = .next (s.setCur (({ h with
        fpctl := if (h.fpctl ||| v.setWidth 3).toNat ≤ 4 then h.fpctl ||| v.setWidth 3 else h.fpctl }.setX d
          (h.fpctl.setWidth 64)).advance 4)) ∧
      exec (.csrc d a 0x010) s = .next (s.setCur (({ h with
        fpctl := if (h.fpctl &&& ~~~v.setWidth 3).toNat ≤ 4 then h.fpctl &&& ~~~v.setWidth 3 else h.fpctl }.setX d
          (h.fpctl.setWidth 64)).advance 4)))

/-- R316, R317, R141, R142 at PL0: FPCTL and FPSTAT are read and written there too, CSRS and CSRC combining with the old value;
while posted work is outstanding the access waits. -/
def Sys2Proof.Claims.FloatControlAtPl0 : Prop :=
  ∀ (s : State) (d a : XReg), s.cur.anyPending [d, a] = false → s.cur.level = .pl0 →
    let h := s.cur
    let v := s.cur.getX a
    let put := fun (h' : Hart) (old : Word) =>
      Host.Outcome.next (φ := Fault) (ρ := Refusal) (s.setCur ((h'.setX d old).advance 4))
    (h.vq = [] ∧ h.mq = [] →
      exec (.csrr d 0x011) s = put h (h.fpstat.setWidth 64) ∧
      exec (.csrw d a 0x011) s = put { h with fpstat := v.setWidth 6 } (h.fpstat.setWidth 64) ∧
      exec (.csrs d a 0x011) s = put { h with fpstat := h.fpstat ||| v.setWidth 6 } (h.fpstat.setWidth 64) ∧
      exec (.csrc d a 0x011) s = put { h with fpstat := h.fpstat &&& ~~~v.setWidth 6 } (h.fpstat.setWidth 64) ∧
      exec (.csrr d 0x010) s = put h (h.fpctl.setWidth 64)) ∧
    (h.vq ≠ [] ∨ h.mq ≠ [] →
      exec (.csrr d 0x011) s = .next s ∧ exec (.csrw d a 0x011) s = .next s ∧ exec (.csrs d a 0x010) s = .next s ∧
      exec (.csrc d a 0x010) s = .next s)

/-! ### Traps and their return -/

namespace Sys2Proof.Claims

/-- Hart g, one of the device's 512, may enter PL1: it is at PL0, no live update holds traps back, and POSBASE lies in HBM (R371,
R416). -/
def canEnter (s : State) (g : Nat) : Prop :=
  g < Config.harts ∧ (s.hart g).level = .pl0 ∧ s.trust.updating = none ∧ s.imageOk = true

/-- Nothing of hart g runs on when it stops: it has put no scalar access off, and none of its vector instructions is in flight
(R378). -/
def nothingInFlight (s : State) (g : Nat) : Prop := (s.hart g).late = [] ∧ ∀ e ∈ (s.hart g).vq, e.admitted = false

/-- An address outside the image that a hart with some queues has (Table 17-4). -/
def offImage (s : State) (g a : Nat) : Prop :=
  a < s.imageAt g ∨
    (s.imageAt g + 8192 ≤ a ∧ s.imageAt g + 0x40 + 64 * (s.hart g).vq.length ≤ a ∧
      s.imageAt g + 0x840 + 64 * (s.hart g).mq.length ≤ a ∧ s.imageAt g + 0x1848 + 8 * (s.hart g).events.length ≤ a)

/-- The 64 bytes at b of memory m say what a queue entry holds (Table 17-5), ORDER apart: its address, its words, its three captured
operands, VL, its start index, VCONF, RM and STATE. -/
def entryFields (m : Memory) (b : Nat) (e : Entry) : Prop :=
  let num := fun (off n : Nat) => readNat m (b + off) n
  (num 0 8 = e.pc.toNat ∧ num 0x08 4 = (e.op.words.headD 0) % 2 ^ 32 ∧ num 0x0C 4 = ((e.op.words.drop 1).headD 0) % 2 ^ 32) ∧
  (num 0x10 8 = (e.ops.headD 0).toNat ∧ num 0x18 8 = ((e.ops.drop 1).headD 0).toNat ∧
    num 0x20 8 = ((e.ops.drop 2).headD 0).toNat) ∧
  num 0x28 4 = e.vl % 2 ^ 32 ∧ num 0x2C 4 = e.eidx % 2 ^ 32 ∧ num 0x30 8 = e.vconf.toNat ∧
  num 0x38 1 = e.rm.toNat ∧ num 0x39 1 = (if e.admitted then 1 else 0)

/-- How many entries of a hart's two queues precede one in program order. -/
def precede (h : Hart) (e : Entry) : Nat := ((h.vq ++ h.mq).filter (fun f => decide (f.seq < e.seq))).length

/-- Hart g has entered PL1 from its stop point with a trap record: the registers of Table 17-1 with every field of TRAPSTAT, and the
image in memory with the pc, its flags, a BAR's token and record, the counts and the entries of both queues, and the scalar registers
(R371, Tables 17-1, 17-4 and 17-5). -/
def entered (s t : State) (g : Nat) (r : TrapRec) : Prop :=
  let h := s.hart g
  let u := t.hart g
  let at_ := s.imageAt g
  (u.level = .pl1 ∧ u.pc = h.trapvec ∧ u.trappc = r.pc ∧ u.trapcause = BitVec.ofNat 64 r.cause ∧ u.trapaddr = r.addr ∧
    u.trapeidx = BitVec.ofNat 64 r.eidx ∧ u.trapinfo = r.info ∧ u.scalarpc = h.pc ∧
    u.trapstat.getLsbD 0 = r.imprecise ∧ u.trapstat.getLsbD 1 = (h.preemptDue || r.preempt) ∧
    bits u.trapstat.toNat 3 2 = (match r.whereAt with
      | .scalar => 0
      | .vector => 1
      | .matrix => 2) ∧
    u.trapstat.getLsbD 4 = r.fatal ∧ u.trapstat.getLsbD 5 = h.barWait.isSome ∧
    bits u.trapstat.toNat 15 8 = min ((h.vq ++ h.mq).filter (fun e => e.admitted)).length 8 ∧
    (h.vq.length ≤ 32 → h.mq.length ≤ 64 →
      bits u.trapstat.toNat 23 16 = h.vq.length ∧ bits u.trapstat.toNat 31 24 = h.mq.length)) ∧
  (u.vq = [] ∧ u.mq = [] ∧ u.events = [] ∧ u.barWait = none ∧ u.latch = false) ∧
  (u.x = h.x ∧ u.streams = h.streams ∧ u.vregs = h.vregs ∧ u.masks = h.masks ∧ u.fpctl = h.fpctl ∧ u.fpstat = h.fpstat ∧
    u.vconf = h.vconf ∧ u.vl = h.vl ∧ u.lshare = h.lshare ∧ u.asid = h.asid ∧ u.ptbase = h.ptbase ∧ u.trapvec = h.trapvec ∧
    u.checkmode = h.checkmode ∧ u.tbudget = h.tbudget ∧ u.run = h.run) ∧
  (readNat t.mem at_ 8 = h.pc.toNat ∧ bit (readNat t.mem (at_ + 8) 8) 0 = true ∧
    (bit (readNat t.mem (at_ + 8) 8) 1 = h.barWait.isSome) ∧ (bit (readNat t.mem (at_ + 8) 8) 2 = h.latch) ∧
    (∀ i, i < 31 → readNat t.mem (at_ + 0x1900 + 8 * i) 8 = (tget h.x (i + 1) 0).toNat)) ∧
  (h.vq.length ≤ 32 → h.mq.length ≤ 64 →
    readNat t.mem (at_ + 0x20) 4 = h.vq.length ∧ readNat t.mem (at_ + 0x24) 4 = h.mq.length ∧
    (∀ i e, h.vq[i]? = some e → entryFields t.mem (at_ + 0x40 + 64 * i) e ∧
      readNat t.mem (at_ + 0x40 + 64 * i + 0x3A) 2 = precede h e) ∧
    (∀ i e, h.mq[i]? = some e → entryFields t.mem (at_ + 0x840 + 64 * i) e ∧
      readNat t.mem (at_ + 0x840 + 64 * i + 0x3A) 2 = precede h e) ∧
    (∀ token b, h.barWait = some (token, b) →
      readNat t.mem (at_ + 0x10) 8 = token.toNat ∧ readNat t.mem (at_ + 0x18) 8 = b.toNat)) ∧
  (∀ a, offImage s g a → readByte t.mem a = readByte s.mem a)

end Sys2Proof.Claims

/-- A queue entry is what the 64 bytes at b of memory m say (Table 17-5): the operation of its words, and every captured field. -/
def Sys2Proof.Claims.entryOf (m : Memory) (b : Nat) (e : Entry) : Prop :=
  let num := fun (off n : Nat) => readNat m (b + off) n
  decodeQueued (num 0x08 4) (num 0x0C 4) = .ok e.op ∧ e.pc = BitVec.ofNat 64 (num 0 8) ∧
  e.ops = [BitVec.ofNat 64 (num 0x10 8), BitVec.ofNat 64 (num 0x18 8), BitVec.ofNat 64 (num 0x20 8)] ∧
  e.vl = num 0x28 4 ∧ e.eidx = num 0x2C 4 ∧ e.vconf = BitVec.ofNat 64 (num 0x30 8) ∧ e.rm = BitVec.ofNat 3 (num 0x38 1) ∧
  e.admitted = bit (num 0x39 1) 0 ∧ e.seq = num 0x3A 2

/-- R371, R304, R378: a trap of a hart at PL0 lets what has been admitted run on, waiting while the way to its memory is shut (R291),
brings the hart to its stop point, writes the position image, sets the trap state registers
from its record, and goes on at PL1 at TRAPVEC; no other hart's registers change with that, and memory changes in the image alone.
A hart with nothing in flight is at its stop point already, but for its requests for lanes and receive slots. -/
def Sys2Proof.Claims.TrapEntry : Prop :=
  ∀ (s : State) (g : Nat) (r : TrapRec), canEnter s g →
    let ran := s.ranOut g r
    let p := ran.stopPoint g
    (r.cause ≠ causePairMismatch → ran.runsStill g = true → s.takeTrap g r = .next ran) ∧
    (r.cause = causePairMismatch ∨ ran.runsStill g = false →
      Gives (s.takeTrap g r) (fun t => entered p t g r ∧ t.turn = s.turn ∧ ∀ k, k ≠ g → t.hart k = p.hart k)) ∧
    (nothingInFlight s g → ran.runsStill g = false ∧
      ({ p.hart g with recv := (s.hart g).recv } : Hart) = { s.hart g with
        vq := (s.hart g).vq.map Entry.atStop, laneReq := none, waitsOn := none, yielding := none } ∧
      (∀ k, k ≠ g → ({ p.hart k with recv := (s.hart k).recv } : Hart) = s.hart k) ∧ p.mem = s.mem)

/-- R322, R371: TRAPI and BRK enter PL1 with their cause, TRAPPC at their own address, and TRAPINFO the code or 0, once what has been
admitted has run on (R378). -/
def Sys2Proof.Claims.SystemTraps : Prop :=
  ∀ (s : State) (code : BitVec 10), canEnter s s.turn →
    let trapi : TrapRec := { cause := causeTrapi, pc := s.cur.pc, info := code.setWidth 64 }
    let brk : TrapRec := { cause := causeBrk, pc := s.cur.pc }
    let ran := s.ranOut s.turn trapi
    ran = s.ranOut s.turn brk ∧
    (ran.runsStill s.turn = false →
      Gives (exec (.trapi code) s) (fun t => entered (ran.stopPoint s.turn) t s.turn trapi) ∧
      Gives (exec .brk s) (fun t => entered (ran.stopPoint s.turn) t s.turn brk)) ∧
    (ran.runsStill s.turn = true → exec (.trapi code) s = .next ran ∧ exec .brk s = .next ran)

/-- R373: a trap raised at PL1 stops the hart and raises a firmware fault to PL2; nothing else of the hart changes but what was
due. A pre-emption that finds it at PL1 waits. -/
def Sys2Proof.Claims.TrapAtPl1StopsTheHart : Prop :=
  ∀ (s : State) (g : Nat) (r : TrapRec), (s.hart g).level = .pl1 →
    s.takeTrap g r = .next ((s.setHart g
      { s.hart g with run := .firmwareFault, trapDue := none, imprecise := none }).emit (.firmwareFault g r.cause)) ∧
    ((s.hart g).trapDue = none → s.boundary g = none)

/-- R323, R325, R16: ERET and TLBINV trap PRIV at PL0. -/
def Sys2Proof.Claims.PrivilegedTraps : Prop :=
  ∀ (s : State) (a b : XReg), s.cur.level = .pl0 →
    Traps (exec .eret s) s causePriv 0 0 ∧ Traps (exec (.tlbinv a b) s) s causePriv 0 0

/-- R372: ERET at PL1 on a usable image takes x1 to x31, the pc, the entries of both queues, each at the place that its ORDER gives, the
BAR's token and the level from it, keeps FPSTAT and the other state registers, and clears VALID. On an image it cannot use, the context ends with ILLEGAL (R377). It waits for what was
posted at PL1. -/
def Sys2Proof.Claims.TrapReturn : Prop :=
  ∀ (s : State), s.cur.level = .pl1 → s.turn < Config.harts → s.imageOk = true →
    (s.cur.vq ≠ [] ∨ s.cur.mq ≠ [] → exec .eret s = .next s) ∧ (s.cur.vq = [] → s.cur.mq = [] →
    let g := s.turn
    let at_ := s.imageAt g
    let num := fun (off n : Nat) => readNat s.mem (at_ + off) n
    ((s.hartOfImage g).isSome = true → Gives (exec .eret s) fun t =>
      let u := t.cur
      (u.level = .pl0 ∧ u.pc = BitVec.ofNat 64 (num 0 8) ∧
        (∀ i, i < 31 → tget u.x (i + 1) 0 = BitVec.ofNat 64 (num (0x1900 + 8 * i) 8)) ∧
        u.vq.length = num 0x20 4 ∧ u.mq.length = num 0x24 4 ∧
        (∀ i, i < num 0x20 4 → ∃ e ∈ u.vq, entryOf s.mem (at_ + 0x40 + 64 * i) e) ∧
        (∀ i, i < num 0x24 4 → ∃ e ∈ u.mq, entryOf s.mem (at_ + 0x840 + 64 * i) e) ∧
        u.vq.Pairwise (fun e f => e.seq < f.seq) ∧ u.mq.Pairwise (fun e f => e.seq < f.seq) ∧
        u.barWait = (if bit (num 8 8) 1 then some (BitVec.ofNat 64 (num 0x10 8), BitVec.ofNat 64 (num 0x18 8)) else none)) ∧
      (u.fpstat = s.cur.fpstat ∧ u.fpctl = s.cur.fpctl ∧ u.vconf = s.cur.vconf ∧ u.vl = s.cur.vl ∧ u.streams = s.cur.streams ∧
        u.vregs = s.cur.vregs ∧ u.masks = s.cur.masks ∧ u.trappc = s.cur.trappc ∧ u.asid = s.cur.asid ∧
        u.ptbase = s.cur.ptbase ∧ u.checkmode = s.cur.checkNext) ∧
      bit (readNat t.mem (at_ + 8) 8) 0 = false ∧
      (∀ a, a < at_ + 8 ∨ at_ + 16 ≤ a → readByte t.mem a = readByte s.mem a)) ∧
    (bit (num 8 8) 0 = false ∨ 32 < num 0x20 4 ∨ 64 < num 0x24 4 → s.hartOfImage g = none) ∧
    (s.hartOfImage g = none → exec .eret s = .next ((s.noteEnd s.cur.asid.toNat
      (s.eventOf g { cause := causeIllegal, pc := s.cur.pc })).endContext s.cur.asid.toNat)))

/-- R325, R71: TLBINV waits while a probed vector memory instruction of the address space has yet to commit on the core; then it
discards the core's cached translations of its ASID, all of them or those that meet the granule of x[ra], and no others. Accesses
that the core's harts of that address space have put off take place first. -/
def Sys2Proof.Claims.TlbInvalidation : Prop :=
  ∀ (s : State) (a b : XReg), s.cur.level = .pl1 → s.cur.anyPending [a, b] = false →
    let n := coreOf s.turn
    let asid := s.cur.asid.toNat
    let granule := (s.cur.getX a).toNat / 65536 * 65536
    let one := (s.cur.getX b).getLsbD 0
    let mine := fun g => coreOf g = n ∧ (s.hart g).asid.toNat = asid
    ((∃ g, coreOf g = n ∧ (s.hart g).probing asid = true) → exec (.tlbinv a b) s = .next s) ∧
    ((∀ g, coreOf g = n → (s.hart g).probing asid = false) → Gives (exec (.tlbinv a b) s) fun t =>
      (∀ e, e ∈ (t.core n).tlb ↔ e ∈ (s.core n).tlb ∧
        ¬ (e.asid = asid ∧ (one = true → e.va < granule + 65536 ∧ granule < e.va + e.size))) ∧
      (∀ g, mine g → (t.hart g).late = []) ∧ t.cur.pc = s.cur.pc + 4 ∧
      ((∀ g, mine g → (s.hart g).late = []) →
        (∀ k, k ≠ n → t.core k = s.core k) ∧ t.mem = s.mem ∧ t.cur.x = s.cur.x))

/-- R324: HALT waits for everything the hart has posted; then at PL0 it ends the hart, and at PL1 it leaves the hart idle. The
last hart of a pre-empted gang that comes to rest completes the gang's save, once its declarations have ended (R249, R381,
R384). -/
def Sys2Proof.Claims.HaltEndsTheHart : Prop :=
  ∀ (s : State),
    let rested := s.setCur { s.cur with run := .idle }
    (s.cur.vq ≠ [] ∨ s.cur.mq ≠ [] → exec .halt s = .next s) ∧
    (s.cur.vq = [] → s.cur.mq = [] →
      (s.cur.level = .pl0 → Gives (exec .halt s) fun t => t.cur.run = .halted ∧ t.cur.task = none ∧ t.mem = s.mem) ∧
      (s.cur.level = .pl1 →
        (s.gangOf s.turn = none → exec .halt s = .next rested) ∧
        (∀ t x, s.gangOf s.turn = some (t, x) →
          (x.preempted = false ∨ (∃ k ∈ x.harts, rested.onGang t x k = true) ∨ rested.gangMills t x ≠ [] →
            exec .halt s = .next rested) ∧
          (x.preempted = true → (∀ k ∈ x.harts, rested.onGang t x k = false) → rested.gangMills t x = [] →
            exec .halt s = .next (rested.saveGang t x)))))

/-! ### Vector configuration and held rows -/

namespace Sys2Proof.Claims

/-- The lane grant of a request: the lanes asked for, up to the hart's share and the lanes free to it (R160). -/
def granted (s : State) (lanes : Nat) : Nat := min lanes (s.cur.lshare.toNat + s.lanesFor s.turn)

/-- VLMAX of a configuration (R157): floor(VRB / (1024 × NR)) rows of 8 or 16 elements a lane. -/
def lengthOf (vrb nr w lanes : Nat) : Nat := vrb * 65536 / (1024 * nr) * (if w = 32 then 8 else 16) * lanes

end Sys2Proof.Claims

/-- R160 and Table 7-4: an ill-formed request sets VCONF.ILL, VL and x[rd] to 0 and nothing else, and does not trap. A well-formed
one of a hart that has nothing outstanding and finds no request before it gets its grant at once: VCONF, LSHARE, VL and x[rd] as R160
says, the registers emptied when EW or NR changes (R162). -/
def Sys2Proof.Claims.VcfgConfigures : Prop :=
  ∀ (s : State) (d : XReg) (ew nr : BitVec 2) (lanes : BitVec 5) (gc : BitVec 2) (lam : BitVec 1),
    s.cur.anyPending [d] = false →
    let vrb := (s.core (coreOf s.turn)).vrb
    let regs := 8 * 2 ^ nr.toNat
    let ill := 2 ≤ ew.toNat ∨ 16 < lanes.toNat ∨ regs / 8 < 2 ^ gc.toNat ∨ vrb * 65536 / (1024 * regs) < 1
    let w := if ew.toNat = 0 then 32 else 16
    let l := granted s lanes.toNat
    let n := lengthOf vrb regs w l
    (ill → exec (.vcfg d ew nr lanes gc lam) s = .next (wrote (s.setCur
      { s.cur with vconf := s.cur.vconf ||| 0x8000000000000000, vl := 0 }) d 0 8)) ∧
    (¬ ill → s.eager = true → s.cur.laneReq = none → (s.core (coreOf s.turn)).laneQ = [] →
      s.laneReleasing (coreOf s.turn) = false → s.cur.vq = [] → s.cur.mq = [] → l ≤ 16 →
      Gives (exec (.vcfg d ew nr lanes gc lam) s) fun t =>
        let u := t.cur
        (u.pc = s.cur.pc + 8 ∧ (∀ q, u.getX q = if q = d ∧ d ≠ 0 then BitVec.ofNat 64 n else s.cur.getX q) ∧
          u.lshare.toNat = l ∧ u.vl = BitVec.ofNat 32 n) ∧
        (vcIll u.vconf = false ∧ vcEw u.vconf = w ∧ vcNr u.vconf = regs ∧ vcLanes u.vconf = l ∧ vcG u.vconf = 2 ^ gc.toNat ∧
          vcLam u.vconf = (lam == 1)) ∧
        (bits s.cur.vconf.toNat 3 0 ≠ ew.toNat + 4 * nr.toNat → u.vregs = [] ∧ u.masks = []) ∧
        (bits s.cur.vconf.toNat 3 0 = ew.toNat + 4 * nr.toNat → vcLanes s.cur.vconf = l →
          u.vregs = s.cur.vregs ∧ u.masks = s.cur.masks) ∧
        t.mem = s.mem ∧ u.laneReq = none ∧ (t.core (coreOf s.turn)).laneQ = [])

/-- R163: VSETL grants the smaller of x[ra] and VLMAX, and traps VILL when VCONF.ILL is set. -/
def Sys2Proof.Claims.VsetlGrants : Prop :=
  ∀ (s : State) (d a : XReg),
    (vcIll s.cur.vconf = true → Traps (exec (.vsetl d a) s) s causeVill 0 0) ∧
    (vcIll s.cur.vconf = false → s.cur.anyPending [d, a] = false →
      let n := min (s.cur.getX a).toNat (s.vlmax s.turn)
      exec (.vsetl d a) s = .next (wrote (s.setCur { s.cur with vl := BitVec.ofNat 32 n }) d (BitVec.ofNat 64 n) 4))

/-- R51: what lets a slot of a pseudo-channel be granted for a row, when its context has no hold on it: the row's bank carries fewer than
two holds, and none in the row's subarray, be it on another row or another context's on this one. -/
def Sys2Proof.Claims.bankFits (s : State) (pch row : Nat) : Prop :=
  let inBank := fun (i r : Nat) => i < 8 ∧ (∃ a, (s.holdSlot (8 * pch + i)).held = some (a, r)) ∧ r / 512 % 16 = row / 512 % 16
  (∀ i j r q, inBank i r → inBank j q → i = j) ∧ ∀ i r, inBank i r → r / 16384 / 4096 ≠ row / 16384 / 4096

/-- R49, R52, R53, R57: HOLD translates x[ra] as a read. Outside HBM it returns −3; where holds are off −4; the handle it already has; −2 at
the quota; −1 where R51 lets no slot be granted; else a slot of the row's pseudo-channel is granted, its generation goes up and the new
handle is HELD, which HQRY then finds. A refused access traps and grants nothing. -/
def Sys2Proof.Claims.HoldGrants : Prop :=
  ∀ (s : State) (d a : XReg), s.cur.anyPending [d, a] = false →
    let va := (s.cur.getX a).toNat
    let asid := s.cur.asid.toNat
    let ctx := s.ctx asid
    let gives := fun (v : Int) => exec (.hold d a) s = .next (wrote s d (BitVec.ofInt 64 v) 4)
    (∀ f, s.probe (s.space s.turn) .read va = .error f → exec (.hold d a) s = s.trapAccess f) ∧
    (∀ r, s.probe (s.space s.turn) .read va = .ok r →
      let row := rowOf r.pa
      let pch := pchOfRow row
      let mine := fun p => (s.holdSlot p).held = some (asid, row)
      (placeOf r.pa ≠ .hbm → gives (-3)) ∧
      (placeOf r.pa = .hbm →
        (bit s.holdctl.toNat (pch / 64) = false ∨ pch / 64 ∈ s.degraded → gives (-4)) ∧
        (bit s.holdctl.toNat (pch / 64) = true → pch / 64 ∉ s.degraded →
          (∀ i, i < 8 → mine (8 * pch + i) → (∀ j, j < i → ¬ mine (8 * pch + j)) →
            exec (.hold d a) s = .next (wrote s d (s.holdHandle (8 * pch + i)) 4)) ∧
          ((∀ i, i < 8 → ¬ mine (8 * pch + i)) →
            (ctx.holdQuota ≤ ctx.holdCount → gives (-2)) ∧
            (ctx.holdCount < ctx.holdQuota →
              ((∀ i, i < 8 → (s.holdSlot (8 * pch + i)).held ≠ none) → gives (-1)) ∧
              (¬ bankFits s pch row → gives (-1)) ∧
              (bankFits s pch row → ∀ i, i < 8 → (s.holdSlot (8 * pch + i)).held = none →
                (∀ j, j < i → (s.holdSlot (8 * pch + j)).held ≠ none) →
                Gives (exec (.hold d a) s) fun t =>
                  let key := 8 * pch + i
                  (t.holdSlot key).held = some (asid, row) ∧
                  (t.holdSlot key).gen = ((s.holdSlot key).gen + 1) % 256 ∧
                  (∀ k, k ≠ key → t.holdSlot k = s.holdSlot k) ∧
                  (t.ctx asid).holdCount = ctx.holdCount + 1 ∧
                  t.cur = (s.cur.setX d (t.holdHandle key)).advance 4 ∧
                  t.holdState asid (t.holdHandle key) = 0 ∧ t.mem = s.mem))))))

/-- R53, R54, R55: HQRY returns 0 for a handle that is HELD, 1 for one in the context's lost set, 2 otherwise, and changes nothing;
HREL returns the same and frees the slot of a held handle, or takes a lost one out of the set. -/
def Sys2Proof.Claims.HoldQueryAndRelease : Prop :=
  ∀ (s : State) (d a : XReg), s.cur.anyPending [d, a] = false →
    let h := s.cur.getX a
    let asid := s.cur.asid.toNat
    let key := h.toNat % 4096
    let held := (∃ row, (s.holdSlot key).held = some (asid, row)) ∧ s.holdHandle key = h
    let lost := h ∈ (s.ctx asid).lost
    let rel := fun (code : Word) (u : State) => exec (.hrel d a) s = .next (u.setCur ((u.cur.setX d code).advance 4))
    (held → exec (.hqry d a) s = .next (wrote s d 0 4) ∧
      rel 0 (({ s with holds := tput s.holds key { s.holdSlot key with held := none } }).setCtx asid
        { s.ctx asid with holdCount := (s.ctx asid).holdCount - 1 })) ∧
    (¬ held → lost → exec (.hqry d a) s = .next (wrote s d 1 4) ∧
      rel 1 (s.setCtx asid { s.ctx asid with lost := (s.ctx asid).lost.filter (fun x => x != h) })) ∧
    (¬ held → ¬ lost → exec (.hqry d a) s = .next (wrote s d 2 4) ∧ rel 2 s)

/-- R55, R57, Table 2-8: a write of HOLDCTL at PL2 takes its low 8 bits and drops the holds of every stack whose bit is clear; holds of the
other stacks stay. COUNT of a context goes down by the holds that it loses, and their handles pass into its lost set, which keeps what
it has while there is room; a handle that enters a full set displaces the oldest and sets LOSTOVF. -/
def Sys2Proof.Claims.HoldctlDropsHolds : Prop :=
  ∀ (s : State) (v : Word), Gives (exec (.holdctlWrite v) s) fun t =>
    t.holdctl = v &&& 0xFF ∧ t.mem = s.mem ∧
    (∀ key, key < 4096 → v.getLsbD (key / 512) = false → (t.holdSlot key).held = none) ∧
    (∀ key, key < 4096 → v.getLsbD (key / 512) = true → t.holdSlot key = s.holdSlot key) ∧
    ((∀ key, 4096 ≤ key → (s.holdSlot key).held = none) → ∀ a,
      let goes := fun (key : Nat) => v.getLsbD (key / 512) = false ∧ ((s.holdSlot key).held.map (·.1)) = some a
      let n := ((List.range 4096).filter (fun key => decide (goes key))).length
      (t.ctx a).holdCount = (s.ctx a).holdCount - n ∧
      ((s.ctx a).lost.length + n ≤ 65535 → (t.ctx a).lostovf = (s.ctx a).lostovf ∧
        ∀ h, h ∈ (t.ctx a).lost ↔ h ∈ (s.ctx a).lost ∨ ∃ key, key < 4096 ∧ goes key ∧ h = s.holdHandle key)) ∧
    (∀ (c : Ctx) (h : Word), h ∉ c.lost → c.lost.length = 65535 →
      (c.lose h).lost = c.lost.tail ++ [h] ∧ (c.lose h).lostovf = true)

/-! ### Streams and vector memory -/

namespace Sys2Proof.Claims

/-- The state with an operation at the head of the current hart's queue, which is idle. -/
def atHead (s : State) (q : QOp) : State := s.setCur (s.cur.enqueue q)

/-- Stream register sn of the current hart. -/
def stream (s : State) (sn : SReg) : StreamReg := s.cur.stream sn.toNat

/-- What R178 asks of the stream before a vector memory instruction touches anything. -/
def streamOk (s : State) (sn : SReg) (store displaced : Bool) : Prop :=
  let r := stream s sn
  r.bound = true ∧ r.desc.isStore = store ∧ widenRefused r.desc.fmtCode (vcEw s.cur.vconf) = false ∧
  (displaced = true → r.desc.blocky = false) ∧
  (store = true → r.desc.blocky = true → r.pos.toNat % 32 = 0 ∧ vl s % 32 = 0) ∧
  r.pos.toNat + vl s ≤ r.desc.total

/-- A stream register moved on by VL, with the positions fetched ahead used up. -/
def movedOn (s : State) (sn : SReg) : StreamReg :=
  { stream s sn with
    pos := BitVec.ofNat 48 ((stream s sn).pos.toNat + vl s), prefetched := (stream s sn).prefetched - vl s }

/-- The trap of a queued vector instruction is due: the entry stays at the head (R304). -/
def trapIsDue (s : State) (i : Instr) (q : QOp) (cause : Nat) (addr info : Word) : Prop :=
  exec i s = .next (s.setCur { s.cur.enqueue q with
    trapDue := some { cause := cause, pc := s.cur.pc, addr := addr, info := info, whereAt := .vector } })

/-- The way to every part of an access is open (R291). -/
def wayOpen (s : State) (ps : List Piece) : Prop := ∀ y ∈ ps, s.reachWaits y.reach = false

open Classical in
/-- A vector load runs: every page of its touched elements is permitted, and each active element gets the widened value in
memory, or FILL where it is clipped (R178). `x` says what displaces its first coordinate. -/
def LoadsThrough (s : State) (i : Instr) (q : QOp) (d : VReg) (sn : SReg) (m : MReg) (x : Displace) : Prop :=
  let p := atHead s q
  let r := stream s sn
  let w := vcEw s.cur.vconf
  let probed := p.probeAll (p.space s.turn) .read (touches p.cur r (captured s) m x false)
  let u := p.assignAll probed.2
  let value := fun k =>
    if r.desc.clipped (r.pos.toNat + k) (displaceOf s.cur r.desc w x k) then (r.desc.fill.toNat % 2 ^ w, 0)
    else if r.desc.blocky then
      widenBlock r.desc.fmtCode w (u.elemBytes probed.2 k) ((r.pos.toNat + k) % r.desc.count.d0.toNat % 32)
    else widen r.desc.fmtCode w (ofLe (u.elemBytes probed.2 k))
  streamOk s sn false (x != .none) →
  (vl s = 0 → exec i s = .next (finished s s.cur)) ∧
  (vl s ≠ 0 → probed.1 = [] → wayOpen p probed.2 → Gives (exec i s) fun t =>
    (∀ k, BitVec.ofNat _ (elem (t.cur.vreg d.toNat) w k) =
      if vl s ≤ k then 0 else if active s.cur m k then BitVec.ofNat _ (value k).1 else el s.cur d k) ∧
    raised s t m (fun k => (value k).2) ∧ stream t sn = movedOn s sn ∧
    butImprecise t.cur = butImprecise (finished s { s.cur with
      vregs := tput s.cur.vregs d.toNat (t.cur.vreg d.toNat), fpstat := t.cur.fpstat
      streams := tput s.cur.streams sn.toNat (movedOn s sn) }).cur ∧
    othersKept s t ∧
    (s.migqOn = false → ∀ a, (∀ y ∈ probed.2, offEntry y.reach a) → readByte t.mem a = readByte u.mem a))

/-- A vector store runs: what it leaves in memory, with its page bits, caches and far counters, is what `storeThrough` makes of the
strip. -/
def StoresThrough (s : State) (i : Instr) (q : QOp) (v : VReg) (sn : SReg) (m : MReg) (x : Displace) : Prop :=
  let p := atHead s q
  let r := stream s sn
  let probed := p.probeAll (p.space s.turn) .write (touches p.cur r (captured s) m x false)
  let after := p.storeThrough s.turn p.cur (captured s) v m r probed.2 x
  streamOk s sn true (x != .none) →
  (vl s = 0 → exec i s = .next (finished s s.cur)) ∧
  (vl s ≠ 0 → probed.1 = [] → wayOpen p probed.2 → Gives (exec i s) fun t =>
    t.mem = (after.1.countPieces s.cur.asid.toNat probed.2 s.cur.codeFar).mem ∧ othersKept s t ∧
    butImprecise t.cur = butImprecise (finished s { s.cur with
      fpstat := s.cur.fpstat ||| flagBits after.2, streams := tput s.cur.streams sn.toNat (movedOn s sn) }).cur)

end Sys2Proof.Claims

/-- R81: SPOS returns P, or −1 for an unbound stream; SSEEK sets P, SBASE sets BASE, SREL unbinds, and each discards what was
fetched ahead. An unbound stream traps STREAM code 6, a position beyond N code 9, a base that breaks the element alignment code 3. -/
def Sys2Proof.Claims.StreamPositionInstructions : Prop :=
  ∀ (s : State) (d b : XReg) (sn : SReg), idle s →
    let r := stream s sn
    let v := s.cur.getX b
    let put := fun (i : Instr) (r' : StreamReg) => exec i s = .next (finished s (s.cur.setStream sn.toNat r'))
    exec (.spos d sn) s = .next (finished s (s.cur.setX d (if r.bound then r.pos.setWidth 64 else BitVec.allOnes 64))) ∧
    put (.srel sn) { r with bound := false, ahead := [], prefetched := 0 } ∧
    (r.bound = true →
      (v.toNat ≤ r.desc.total → put (.sseek b sn) { r with pos := BitVec.ofNat 48 v.toNat, ahead := [], prefetched := 0 }) ∧
      (r.desc.total < v.toNat → trapIsDue s (.sseek b sn) (.sseek b sn) causeStream 0 9) ∧
      (strideOk r.desc v = true →
        put (.sbase b sn) { r with desc := { r.desc with base := v }, ahead := [], prefetched := 0 }) ∧
      (strideOk r.desc v = false → trapIsDue s (.sbase b sn) (.sbase b sn) causeStream 0 3)) ∧
    (r.bound = false → trapIsDue s (.sseek b sn) (.sseek b sn) causeStream 0 6 ∧
      trapIsDue s (.sbase b sn) (.sbase b sn) causeStream 0 6)

/-- R72, R78, R81: SDESC reads the 64 bytes at x[xb], traps STREAM with the first code of Table 3-5 that they break, and otherwise binds
the stream to the descriptor at position 0; SSAVE writes the 128 bytes of the save image. Misaligned addresses trap MISALIGN. -/
def Sys2Proof.Claims.StreamDescriptorInstructions : Prop :=
  ∀ (s : State) (b : XReg) (sn : SReg), idle s →
    let a := s.cur.getX b
    let pl := atHead s (.sdesc b sn)
    let ps := atHead s (.ssave b sn)
    (a.toNat % 64 ≠ 0 → trapIsDue s (.sdesc b sn) (.sdesc b sn) causeMisalign a 0) ∧
    (a.toNat % 128 ≠ 0 → trapIsDue s (.ssave b sn) (.ssave b sn) causeMisalign a 0) ∧
    (a.toNat % 64 = 0 → ∀ rr, pl.probe (pl.space s.turn) .read a.toNat = .ok rr → pl.reachWaits rr = false →
      let m := (pl.assignPage rr.leaf).mem
      let d := descOf (if rr.void then zeros 64 else readBytes m rr.pa 64)
      (descFault d = none → Gives (exec (.sdesc b sn) s) fun t =>
        stream t sn = { bound := true, desc := d } ∧ othersKept s t ∧
        butImprecise t.cur = butImprecise (finished s (s.cur.setStream sn.toNat { bound := true, desc := d })).cur ∧
        (s.migqOn = false → ∀ p, offEntry rr p → readByte t.mem p = readByte m p)) ∧
      (∀ code, descFault d = some code → trapIsDue s (.sdesc b sn) (.sdesc b sn) causeStream 0 (BitVec.ofNat 64 code))) ∧
    (a.toNat % 128 = 0 → ∀ rr, ps.probe (ps.space s.turn) .write a.toNat = .ok rr → ps.reachWaits rr = false →
      Gives (exec (.ssave b sn) s) fun t =>
        butImprecise t.cur = butImprecise (finished s s.cur).cur ∧ othersKept s t ∧
        (s.migqOn = false → rr.void = false → (∀ k, k < 128 → offEntry rr (rr.pa + k)) →
          readBytes t.mem rr.pa 128 = saveBytes (stream s sn)))

/-- R73, R74, R177: the coordinates of a position count its dimensions from the first, an element's address is BASE plus its
coordinates times the strides, modulo 2^64, and with clipping on an element outside a BOUND is clipped. A displacement moves the
first coordinate alone. -/
def Sys2Proof.Claims.StreamAddressing : Prop :=
  ∀ (d : Desc) (i0 i1 i2 i3 : Nat) (off : Int), d.blocky = false →
    i0 < d.count.d0.toNat → i1 < d.count.d1.toNat → i2 < d.count.d2.toNat → i3 < d.count.d3.toNat →
    let p := ((i3 * d.count.d2.toNat + i2) * d.count.d1.toNat + i1) * d.count.d0.toNat + i0
    p < d.total ∧ d.coord p = (i0, i1, i2, i3) ∧
    BitVec.ofNat 64 (d.addr p off) = d.base + BitVec.ofInt 64 (((i0 : Int) + off) * d.stride.d0.toInt +
      (i1 : Int) * d.stride.d1.toInt + (i2 : Int) * d.stride.d2.toInt + (i3 : Int) * d.stride.d3.toInt) ∧
    (d.clipped p off = true ↔ d.clips = true ∧ ((i0 : Int) + off < 0 ∨ (d.bound.d0.toNat : Int) ≤ i0 + off ∨
      d.bound.d1.toNat ≤ i1 ∨ d.bound.d2.toNat ≤ i2 ∨ d.bound.d3.toNat ≤ i3))

/-- R78: what a descriptor must satisfy, and the STREAM code of the first check that it fails. -/
def Sys2Proof.Claims.DescriptorChecks : Prop :=
  ∀ (d : Desc),
    let n := fmtBytes d.fmtCode
    let c1 := d.fmtCode ≤ 10
    let c2 := d.kind.toNat < 32
    let c3 := d.blocky = true ∨ (d.base.toNat % n = 0 ∧ d.stride.d0.toNat % n = 0 ∧ d.stride.d1.toNat % n = 0 ∧
      d.stride.d2.toNat % n = 0 ∧ d.stride.d3.toNat % n = 0)
    let c4 := d.blocky = true → d.count.d0.toNat % 32 = 0 ∧ d.bound.d0.toNat % 32 = 0 ∧ d.stride.d0.toNat = n
    let c5 := d.total ≤ 2 ^ 48
    (c1 ∧ c2 ∧ c3 ∧ c4 ∧ c5 → descFault d = none) ∧
    (¬ c1 → descFault d = some 1) ∧ (c1 → ¬ c2 → descFault d = some 2) ∧ (c1 → c2 → ¬ c3 → descFault d = some 3) ∧
    (c1 → c2 → c3 → ¬ c4 → descFault d = some 4) ∧ (c1 → c2 → c3 → c4 → ¬ c5 → descFault d = some 5)

/-- R176 to R178, R180: VLD, VLDX, VSLD and VLD.SEQ, displaced by nothing, by an index register's signed element or by SLIDE. -/
def Sys2Proof.Claims.VectorLoads : Prop :=
  ∀ (s : State) (d b : VReg) (sn : SReg) (m : MReg), idle s → configured s [d, b] →
    LoadsThrough s (.vld d sn m) (.ld d sn m) d sn m .none ∧
    LoadsThrough s (.vldSeq d sn m) (.ldSeq d sn m) d sn m .none ∧
    LoadsThrough s (.vsld d sn m) (.sld d sn m) d sn m .slide ∧
    LoadsThrough s (.vldx d b sn m) (.ldx d b sn m) d sn m (.index b)

/-- R176 to R180, R286, R287: VST, VSTX and VST.SEQ write the strip through one stream; VSTP writes it through two, which may be one and
the same, and moves both; VSTN stores the strip as VST does and then writes P + VL to the progress word at BASE − 8. With VL = 0 none
writes anything. -/
def Sys2Proof.Claims.VectorStores : Prop :=
  ∀ (s : State) (v b : VReg) (t2 sn : SReg) (m : MReg), idle s → configured s [v, b] →
    StoresThrough s (.vst v sn m) (.st v sn m) v sn m .none ∧
    StoresThrough s (.vstSeq v sn m) (.stSeq v sn m) v sn m .none ∧
    StoresThrough s (.vstx v b sn m) (.stx v b sn m) v sn m (.index b) ∧
    (streamOk s sn true false → vl s ≠ 0 →
      let p := atHead s (.stn v sn m)
      let r := stream s sn
      let ts := touches p.cur r (captured s) m .none false
      let probed := p.probeAll (p.space s.turn) .write ts
      let word := (r.desc.base - 8).toNat
      r.desc.base.toNat % 8 = 0 → probed.1 = [] → wayOpen p probed.2 →
      ∀ rr, p.probe (p.space s.turn) .write word = .ok rr → p.reachWaits rr = false →
      let strip := p.storeThrough s.turn p.cur (captured s) v m r probed.2 .none
      let u := strip.1.assignPage rr.leaf
      Gives (exec (.vstn v sn m) s) fun t =>
        othersKept s t ∧ butImprecise t.cur = butImprecise (finished s { s.cur with
          fpstat := s.cur.fpstat ||| flagBits strip.2, streams := tput s.cur.streams sn.toNat (movedOn s sn) }).cur ∧
        (s.migqOn = false → rr.void = false → s.shadowPlace rr.pa = none →
          ((∀ k, k < 8 → offEntry rr (rr.pa + k)) → readNat t.mem rr.pa 8 = r.pos.toNat + vl s) ∧
          ∀ a, offEntry rr a → a < rr.pa ∨ rr.pa + 8 ≤ a → readByte t.mem a = readByte u.mem a)) ∧
    (streamOk s sn true false → (stream s sn).desc.base.toNat % 8 = 0 → vl s = 0 →
      exec (.vstn v sn m) s = .next (finished s s.cur)) ∧
    (streamOk s sn true false → streamOk s t2 true false → vl s = 0 →
      exec (.vstp v t2 sn m) s = .next (finished s s.cur)) ∧
    (streamOk s sn true false → streamOk s t2 true false → vl s ≠ 0 →
      let p := atHead s (.stp v t2 sn m)
      let c := captured s
      let ts1 := touches p.cur (stream s sn) c m .none false
      let ts2 := touches p.cur (stream s t2) c m .none true
      let p1 := p.probeAll (p.space s.turn) .write ts1
      let p2 := p.probeAll (p.space s.turn) .write ts2
      let u := p.storeThrough s.turn p.cur c v m (stream s sn) p1.2 .none
      let u' := u.1.storeThrough s.turn p.cur c v m (stream s t2) p2.2 .none
      p1.1 = [] → p2.1 = [] → wayOpen p (p1.2 ++ p2.2) → Gives (exec (.vstp v t2 sn m) s) fun t =>
        t.mem = (u'.1.countPieces s.cur.asid.toNat (p1.2 ++ p2.2) s.cur.codeFar).mem ∧ othersKept s t ∧
        stream t sn = movedOn s sn ∧ stream t t2 = movedOn s t2 ∧
        butImprecise t.cur = butImprecise (finished s { s.cur with
          fpstat := s.cur.fpstat ||| flagBits (u.2 ||| u'.2), streams := t.cur.streams }).cur)

/-- R78, R84, R85, R178, R286, R287: how a vector memory instruction or combining scatter (R284) traps, with nothing done. The checks of R178 in their order trap
STREAM with their codes, TRAPINFO[24] set for VSTP's second stream; VSTN's BASE that is no multiple of 8 traps MISALIGN; and when the
probe meets faults the trap is that of the first, at its element, with its address and code, the distinct faulting pages, at most
eight, and their count. -/
def Sys2Proof.Claims.VectorMemoryTraps : Prop :=
  ∀ (s : State) (d b : VReg) (t2 sn : SReg) (m : MReg), idle s → configured s [d, b] →
    let n := fun (code : Nat) => BitVec.ofNat 64 code
    let code := fun (sn : SReg) (store displaced : Bool) (i : Nat → Prop) =>
      let r := stream s sn
      let c6 := r.bound = true
      let c7 := c6 ∧ r.desc.isStore = store
      let c11 := c7 ∧ widenRefused r.desc.fmtCode (vcEw s.cur.vconf) = false
      let c12 := c11 ∧ (displaced = true → r.desc.blocky = false)
      let c13 := c12 ∧ (store = true → r.desc.blocky = true → r.pos.toNat % 32 = 0 ∧ vl s % 32 = 0)
      (¬ c6 → i 6) ∧ (c6 ∧ ¬ c7 → i 7) ∧ (c7 ∧ ¬ c11 → i 11) ∧ (c11 ∧ ¬ c12 → i 12) ∧ (c12 ∧ ¬ c13 → i 13) ∧
      (c13 ∧ r.desc.total < r.pos.toNat + vl s → i 8)
    let streamTraps := fun (i : Instr) (q : QOp) (store displaced : Bool) =>
      code sn store displaced (fun k => trapIsDue s i q causeStream 0 (n k))
    let faults := fun (i : Instr) (l : List TouchFault) => ∀ t rest, l = t :: rest → vl s ≠ 0 →
      Gives (exec i s) fun u => ∃ r, u.cur.trapDue = some r ∧
        (r.cause = t.f.cause ∧ r.pc = s.cur.pc ∧ r.addr = BitVec.ofNat 64 t.f.addr ∧ r.eidx = t.i ∧ r.whereAt = .vector) ∧
        (t.f.code < 256 → bits r.info.toNat 7 0 = t.f.code ∧ r.info.getLsbD 24 = t.second ∧
          bits r.info.toNat 15 8 = min ((l.map (fun x => bits x.f.addr 51 16)).eraseDups).length 255) ∧
        (r.fplist.length = min ((l.map (fun x => bits x.f.addr 51 16)).eraseDups).length 8 ∧
          r.fplist.head? = some (BitVec.ofNat 64 (bits t.f.addr 51 16 * 65536 + t.f.cause))) ∧
        u.cur.streams = s.cur.streams ∧ u.cur.vregs = s.cur.vregs ∧ u.cur.pc = s.cur.pc + 4 ∧ u.mem = s.mem
    let probeOf := fun (q : QOp) (k : AccKind) (x : Displace) (sn : SReg) (second : Bool) =>
      let p := atHead s q
      p.probeAll (p.space s.turn) k (touches p.cur (stream s sn) (captured s) m x second)
    let one := fun (i : Instr) (q : QOp) (store : Bool) (k : AccKind) (x : Displace) =>
      streamTraps i q store (x != .none) ∧ (streamOk s sn store (x != .none) → faults i (probeOf q k x sn false).1)
    (one (.vld d sn m) (.ld d sn m) false .read .none ∧ one (.vldSeq d sn m) (.ldSeq d sn m) false .read .none ∧
      one (.vsld d sn m) (.sld d sn m) false .read .slide ∧ one (.vldx d b sn m) (.ldx d b sn m) false .read (.index b) ∧
      one (.vst d sn m) (.st d sn m) true .write .none ∧ one (.vstSeq d sn m) (.stSeq d sn m) true .write .none ∧
      one (.vstx d b sn m) (.stx d b sn m) true .write (.index b)) ∧
    (streamTraps (.vstn d sn m) (.stn d sn m) true false ∧ (streamOk s sn true false →
      let base := (stream s sn).desc.base
      (base.toNat % 8 ≠ 0 → trapIsDue s (.vstn d sn m) (.stn d sn m) causeMisalign (base - 8) 0) ∧
      (base.toNat % 8 = 0 → (∃ rr, (atHead s (.stn d sn m)).probe ((atHead s (.stn d sn m)).space s.turn) .write (base - 8).toNat
          = .ok rr) → faults (.vstn d sn m) (probeOf (.stn d sn m) .write .none sn false).1))) ∧
    (streamTraps (.vstp d t2 sn m) (.stp d t2 sn m) true false ∧ (streamOk s sn true false →
      code t2 true false (fun k => trapIsDue s (.vstp d t2 sn m) (.stp d t2 sn m) causeStream 0 (n (k + 2 ^ 24))) ∧
      (streamOk s t2 true false →
        let a := (probeOf (.stp d t2 sn m) .write .none sn false).1
        let z := (probeOf (.stp d t2 sn m) .write .none t2 true).1
        (z = [] → faults (.vstp d t2 sn m) a) ∧ (a = [] → faults (.vstp d t2 sn m) z) ∧
        (∀ x y, a.head? = some x → z.head? = some y → vl s ≠ 0 → Gives (exec (.vstp d t2 sn m) s) fun u =>
          ∃ r, u.cur.trapDue = some r ∧ r.eidx = min x.i y.i ∧
            r.addr = BitVec.ofNat 64 (if x.i ≤ y.i then x.f.addr else y.f.addr))))) ∧
    (let w := vcEw s.cur.vconf
     let amo := fun (i : Instr) (op : VAmoOp) (fmt : Nat) =>
       let q := QOp.amo op d b sn m
       streamTraps i q true true ∧ (streamOk s sn true true → (stream s sn).desc.fmtCode = fmt →
         faults i (probeOf q .atomic (.index b) sn false).1)
     let float := if w = 32 then 0 else 1
     let int := if w = 32 then 10 else 9
     amo (.vamoaddF d b sn m) .addF float ∧ amo (.vamominF d b sn m) .minF float ∧ amo (.vamomaxF d b sn m) .maxF float ∧
     amo (.vamoaddW d b sn m) .addW int ∧ amo (.vamominW d b sn m) .minW int ∧ amo (.vamomaxW d b sn m) .maxW int)

/-- R178, R179: what a store's strip does to memory. With the migration queue off, bytes off the page-table entries of its pages are what
the elements in ascending order leave of the assigned pages; and an element of a plain format whose bytes no later element, and
no shadow's copy, touches reads as narrowed. -/
def Sys2Proof.Claims.StripLandsInMemory : Prop :=
  ∀ (s : State) (g : Nat) (h : Hart) (c : Cap) (v : VReg) (m : MReg) (r : StreamReg) (is : List Nat) (ps : List Piece)
    (x : Displace),
    let u := s.assignAll ps
    (s.migqOn = false → ∀ a, (∀ y ∈ ps, offEntry y.reach a) →
      readByte (s.storeThrough g h c v m r ps x).1.mem a =
        readByte (u.storeTouched h c v m r ((ps.map (fun p => p.i)).eraseDups) ps).1.mem a) ∧
    (r.desc.blocky = false → is.Pairwise (fun i j => i < j) → ∀ i ∈ is, ∀ z, ps.filter (fun q => q.i == i) = [z] →
      let bytes := leBytes (fmtBytes r.desc.fmtCode) (narrow r.desc.fmtCode c.ew (elem (h.vreg v.toNat) c.ew i)).1
      z.reach.void = false → z.len = bytes.length → s.shadowPlace z.reach.pa = none →
      (∀ q ∈ ps, i < q.i → q.reach.void = true ∨ (s.shadowPlace q.reach.pa = none ∧
        (q.reach.pa + q.len ≤ z.reach.pa ∨ z.reach.pa + z.len ≤ q.reach.pa))) →
      readBytes (u.storeTouched h c v m r is ps).1.mem z.reach.pa z.len = bytes)

/-- R283 to R285: the combining scatters. Each needs the storage format of its element, probes every address as an atomic, and updates
each distinct address once with the elements that name it, in ascending order. -/
def Sys2Proof.Claims.CombiningScatters : Prop :=
  ∀ (s : State) (v b : VReg) (sn : SReg) (m : MReg), idle s → configured s [v, b] →
    let w := vcEw s.cur.vconf
    let runs := fun (i : Instr) (op : VAmoOp) (fmt : Nat) =>
      let q := QOp.amo op v b sn m
      let p := atHead s q
      let r := stream s sn
      let probed := p.probeAll (p.space s.turn) .atomic (touches p.cur r (captured s) m (.index b) false)
      let u := (p.assignAll probed.2).amoAll op w (s.cur.vreg v.toNat) probed.2
      streamOk s sn true true →
        (r.desc.fmtCode ≠ fmt → trapIsDue s i q causeStream 0 11) ∧
        (r.desc.fmtCode = fmt → vl s = 0 → exec i s = .next (finished s s.cur)) ∧
        (r.desc.fmtCode = fmt → vl s ≠ 0 → probed.1 = [] → wayOpen p probed.2 → Gives (exec i s) fun t =>
          othersKept s t ∧ butImprecise t.cur = butImprecise (finished s { s.cur with
            fpstat := s.cur.fpstat ||| flagBits u.2, streams := tput s.cur.streams sn.toNat (movedOn s sn) }).cur ∧
          (s.migqOn = false → ∀ a, (∀ y ∈ probed.2, offEntry y.reach a) → readByte t.mem a = readByte u.1.mem a))
    let float := if w = 32 then 0 else 1
    let int := if w = 32 then 10 else 9
    runs (.vamoaddF v b sn m) .addF float ∧ runs (.vamominF v b sn m) .minF float ∧ runs (.vamomaxF v b sn m) .maxF float ∧
    runs (.vamoaddW v b sn m) .addW int ∧ runs (.vamominW v b sn m) .minW int ∧ runs (.vamomaxW v b sn m) .maxW int

/-- R284, Table 13-1: the update of one address. The integer members give the old value plus the elements modulo 2^EW, or the
signed least or greatest of all of them, and so do not depend on the elements' order. Of finite elements VAMOADD.F adds the exact sum,
rounded once to nearest, and the floating least and greatest are one of the values, with none beyond it. -/
def Sys2Proof.Claims.CombiningUpdates : Prop :=
  ∀ (ew old : Nat) (xs ys : List Nat), ew = 32 ∨ ew = 16 → old < 2 ^ ew → (∀ x ∈ xs, x < 2 ^ ew) →
    (amoUpdate .addW ew old xs).1 = (old + xs.sum) % 2 ^ ew ∧
    (let lo := (amoUpdate .minW ew old xs).1
     lo ∈ old :: xs ∧ ∀ x ∈ old :: xs, signed ew lo ≤ signed ew x) ∧
    (let hi := (amoUpdate .maxW ew old xs).1
     hi ∈ old :: xs ∧ ∀ x ∈ old :: xs, signed ew x ≤ signed ew hi) ∧
    (let f := elFmt ew
     let values := (old :: xs).map f.value
     (∀ q : Int, (∀ v ∈ values, ∃ z, v = .zero z ∨ ∃ m e, v = .fin z m e ∧ q ≤ e) →
       let exact : FVal → Int := fun v => match v with
         | .fin neg m e => (if neg then -1 else 1) * (m * 2 ^ (e - q).toNat : Int)
         | _ => 0
       let sum : Int := ((xs.map f.value).map exact).sum
       sum ≠ 0 → (amoUpdate .addF ew old xs).1 = (f.add 0 (f.value old) (FVal.ofMag (decide (sum < 0)) sum.natAbs q)).1) ∧
     ((∀ v ∈ values, v.isNan = false) →
       let lo := (amoUpdate .minF ew old xs).1
       let hi := (amoUpdate .maxF ew old xs).1
       lo ∈ old :: xs ∧ hi ∈ old :: xs ∧
       ∀ v ∈ values, v.lt false (f.value lo) = false ∧ (f.value hi).lt false v = false)) ∧
    (xs.Perm ys → ∀ op, op = .addW ∨ op = .minW ∨ op = .maxW → amoUpdate op ew old xs = amoUpdate op ew old ys)

/-! ### Copies -/

namespace Sys2Proof.Claims

/-- A stream's descriptor, or none for a fill. -/
def srcDesc (s : State) (g : Nat) (src : Option SReg) : Option Desc := src.map (fun x => ((s.hart g).stream x.toNat).desc)

/-- The copy that a COPY or a COPYF of hart g makes (R95). -/
def newCopy (s : State) (g : Nat) (src : Option SReg) (dst : SReg) (sig bar : Word) (tag : BitVec 6) (fl : BitVec 4) : Copy :=
  let h := s.hart g
  let d := (h.stream dst.toNat).desc
  { core := coreOf g, runId := h.runId, fixed := h.fixed, asid := h.asid.toNat, ptbase := h.ptbase, tag := tag.toNat, flags := fl
    sigAddr := sig, barAddr := bar, depTask := bar.toNat % 2 ^ 32, sr := srcDesc s g src, dst := d, declared := d.declared }

/-- The checks of Table 4-2 after the tag's, with no copy in flight that the new one must wait for (R97). -/
def copyGoes (s : State) (g : Nat) (src : Option SReg) (dst : SReg) (sig bar : Word) (tag : BitVec 6) (fl : BitVec 4) : Prop :=
  let r := (s.hart g).stream dst.toNat
  (r.bound = true ∧ r.desc.isStore = true) ∧
  (∀ x, src = some x → let q := (s.hart g).stream x.toNat
    q.bound = true ∧ q.desc.isStore = false ∧ q.desc.fmtCode = r.desc.fmtCode ∧ q.desc.total = r.desc.total ∧
    footprintsMeet q.desc.footprint r.desc.footprint = false) ∧
  (fl.getLsbD 1 = true → sig.toNat % 8 = 0) ∧ (fl.getLsbD 3 = true → bar.toNat % 32 = 0) ∧
  (∀ c ∈ s.inFlight (coreOf g), (s.copyCore c = some (coreOf g) → c.tag ≠ tag.toNat) ∧ copyMustWait c (srcDesc s g src) r.desc = false)

/-- A hart with its event latch and a due cause set aside, which a completing copy may set. -/
def butWoken (h : Hart) : Hart := { h with latch := false, imprecise := none }

/-- The current hart past a posted and finished instruction of 8 bytes. -/
def finished8 (s : State) (h : Hart) : State :=
  s.setCur { h with pc := s.cur.pc + 8, posted := s.cur.posted + 1, eidx := pastEidx s.cur, old := [], codeFar := [] }

/-- A COPY or COPYF issues: it answers with its declared count, and its copy is under way, as far as it can go. -/
def Issues (s : State) (i : Instr) (d : XReg) (c : Copy) : Prop :=
  Gives (exec i s) fun t =>
    butWoken t.cur = butWoken (finished8 s (s.cur.setX d (BitVec.ofNat 64 c.declared))).cur ∧
    (∀ g, g ≠ s.turn → butWoken (t.hart g) = butWoken (s.hart g)) ∧
    t.nextCopy = s.nextCopy + 1 ∧ (∀ k, k ≠ s.nextCopy → tfind t.copies k = tfind s.copies k) ∧
    (∃ u, tfind t.copies s.nextCopy = some u ∧ u.runId = c.runId ∧ u.core = c.core ∧ u.tag = c.tag ∧ u.sr = c.sr ∧
      u.dst = c.dst ∧ u.declared = c.declared)

end Sys2Proof.Claims

/-- R94, R95, R97, R101: COPY and COPYF trap TAG when the hart does not own the tag; one that keeps Table 4-2 and waits for no copy in
flight issues and returns its declared count. COPYSTAT returns the status of the latest copy on the tag, or 0. The event of an issue
at the head of a queue puts the copy in flight, nothing of it done. -/
def Sys2Proof.Claims.CopiesIssue : Prop :=
  ∀ (s : State) (d a b : XReg) (src dst : SReg) (tag : BitVec 6) (fl : BitVec 4),
    let g := s.turn
    let sig := s.cur.getX a
    let bar := s.cur.getX b
    let mine := s.copies.filter (fun p => p.2.runId == s.cur.runId && p.2.tag == tag.toNat && p.2.task.isNone)
    (idle s →
      (s.cur.tagown.getLsbD tag.toNat = false →
        trapIsDue s (.copy d a b src dst tag fl) (.copy d a b src dst tag fl) causeTag 0 0 ∧
        trapIsDue s (.copyf d a b dst tag fl) (.copyf d a b dst tag fl) causeTag 0 0 ∧
        trapIsDue s (.copystat d tag) (.copystat d tag) causeTag 0 0) ∧
      (s.cur.tagown.getLsbD tag.toNat = true →
        (copyGoes s g (some src) dst sig bar tag fl →
          Issues s (.copy d a b src dst tag fl) d (newCopy s g (some src) dst sig bar tag fl)) ∧
        (copyGoes s g none dst sig bar tag fl →
          Issues s (.copyf d a b dst tag fl) d (newCopy s g none dst sig bar tag fl)) ∧
        exec (.copystat d tag) s = .next (finished8 s (s.cur.setX d (match mine.getLast? with
          | some p => copyStatus p.2
          | none => 0))))) ∧
    (∀ (k : Nat) (e : Entry), (s.hart k).vq = [e] → (s.hart k).mq = [] → (s.hart k).old = [] → s.queuesHeld k = false →
      s.eager = false → e.admitted = false → e.op = .copyf d a b dst tag fl → (s.hart k).tagown.getLsbD tag.toNat = true →
      let c := newCopy s k none dst (e.ops.headD 0) ((e.ops.drop 1).headD 0) tag fl
      copyGoes s k none dst (e.ops.headD 0) ((e.ops.drop 1).headD 0) tag fl → c.declared ≠ 0 →
      Gives (exec (.copyIssue k) s) fun t =>
        tfind t.copies s.nextCopy = some c ∧ (t.hart k).vq = [] ∧ t.mem = s.mem ∧
        (∀ r, (t.hart k).getX r = ((s.hart k).setX d (BitVec.ofNat 64 c.declared)).getX r))

/-- R95 to R99, R357: the part of a unit that lies in an aligned 64-byte block of the destination is written with FILL's bytes, or
with the bytes at its source, of which a word that an earlier block took is as that block found it. A block write is one event: it
writes what the copy has in its next block, and moves the copy on; one whose way retrains waits (R291), and one that meets a fault
which is no absent page puts the copy in FAULT at its position, with nothing written (R96, R298). A copy that is through and signals nothing but its arrival performs
it and has landed. During a thermal emergency neither happens (R399). -/
def Sys2Proof.Claims.CopiesMoveUnits : Prop :=
  ∀ (s : State) (id : Nat) (c : Copy) (supply : PageSupply) (b p : Nat),
    let d := c.dst
    let off := (c.partIn p b).1
    let n := (c.partIn p b).2
    let va := d.addr p 0 + off
    (c.sr = none → va % 65536 + n ≤ 65536 → ∀ w, s.probe c.space .write va = .ok w →
      ∃ t y, s.copyPart c b p = .ok (t, c, [y]) ∧ y.reach = w ∧
        (w.void = false → s.shadowPlace w.pa = none →
          readBytes t.mem w.pa n = ((fillBytes d.fmtCode d.fill).drop off).take n)) ∧
    (∀ r, c.sr = some r → r.clipped p 0 = false → ∀ ps, s.unitPieces c.space .read (r.addr p 0 + off) n = .ok ps →
      ∀ t c' w, s.copyPart c b p = .ok (t, c', [w]) → w.reach.void = false → w.len = n → t.shadowPlace w.reach.pa = none →
        readBytes t.mem w.reach.pa n = (s.assignAll ps).sourceBytes c ps (r.addr p 0 + off) n) ∧
    (tfind s.copies id = some c → s.thermal = .normal →
      (c.st = .running → c.through = false → s.copyHeld c = false → ∀ t, s.copyStep id c = .ok t →
        exec (.copyBlockWrite id supply) s = .next t ∧
        (c.handled c.pos = false → (c.blocksOf c.pos).find? (fun b => !c.written.contains b) = some b →
          ∃ c', tfind t.copies id = some c' ∧ c'.written = c.written ++ [b] ∧ c'.dst = c.dst ∧ c'.sr = c.sr)) ∧
      (c.st = .running → c.through = false → s.copyHeld c = true → exec (.copyBlockWrite id supply) s = .next s) ∧
      (c.st = .running → c.through = false → s.copyHeld c = false → ∀ f at_ dest, s.copyStep id c = .error (.transfer f at_ dest) →
        f.cause ≠ causeLoadAbsent → f.cause ≠ causeStoreAbsent → Gives (exec (.copyBlockWrite id supply) s) fun t =>
          tfind t.copies id = some { c with st := .fault, cause := f.cause, code := f.code, faultPos := at_, fside := dest } ∧
          t.mem = s.mem) ∧
      (c.landed = false → c.acts = 0 → c.st = .running → d.total ≤ c.pos → c.flags &&& 14 = 0 →
        exec (.copyComplete id supply) s = .next
          (State.setCopy (if c.flags.getLsbD 0 then s.arriveFor c else s) id
            { c with acts := 4, credited := c.declared, landed := true, st := .done }))) ∧
    (s.thermal ≠ .normal → exec (.copyBlockWrite id supply) s = .next s ∧ exec (.copyComplete id supply) s = .next s)

/-! ### Register transfers -/

namespace Sys2Proof.Claims

/-- The strip that SEND takes from a register: elements 0 to VL − 1. -/
def stripIn (s : State) (a : VReg) : Strip :=
  ⟨vcEw s.cur.vconf, vl s, zeroTail (vcEw s.cur.vconf) (vl s) (s.cur.vreg a.toNat)⟩

/-- A local destination word: a hart of the sender's context, and nothing in the reserved bits. -/
def localDest (s : State) (w : Nat) : Prop :=
  w < 2 ^ 14 ∧ 2 ^ 13 ≤ w ∧ (s.hart (sendHart w)).run = .running ∧ (s.hart (sendHart w)).asid = s.cur.asid

/-- A peer's traffic leaves at once: the port of its way is not retraining, and nothing waits there (R291). -/
def linkFree (s : State) (peer : Nat) : Prop :=
  ∀ q, (s.route peer).head? = some q → (s.port q).st ≠ .retraining ∧ (s.port q).held = []

end Sys2Proof.Claims

/-- R296: SEND completes when the slot it names in a hart of its context, itself among them, is free with nobody before it, or granted to it: the strip fills
the slot and wakes the hart; it waits in line at a slot that is taken. To a peer it traps PERM code 9 where it is refused, by the rule or by the peer, asks once
for the slot, and completes once that is granted: the strip leaves for the peer. RECV completes at a FULL slot: its strip moves into the
register, x[rd] gets the count, or −1 when the element widths differ, and the slot is free; it waits at an empty one, and traps PERM
code 10 for a slot above 15. -/
def Sys2Proof.Claims.StripsTravel : Prop :=
  ∀ (s : State) (a v : VReg) (d x : XReg), idle s → configured s [a, v] →
    let w := (s.cur.getX x).toNat
    let dest := sendHart w
    let k := sendSlot w
    let slot := (s.hart dest).slot k
    let here := s.cur.slot w
    let q := QOp.send a x
    (localDest s w → dest = s.turn →
      (slot.st = .granted (.hart s.turn) ∨ (slot.st = .free ∧ slot.waiters = []) →
        exec (.send a x) s = .next (finished s
          { s.cur.setSlot k { slot with st := .full (stripIn s a) } with latch := true })) ∧
      (slot.st ≠ .free → slot.st ≠ .granted (.hart s.turn) → Sender.hart s.turn ∉ slot.waiters →
        exec (.send a x) s = .next ((atHead s q).setCur
          ((atHead s q).cur.setSlot k { slot with waiters := slot.waiters ++ [.hart s.turn] })))) ∧
    (localDest s w → dest ≠ s.turn →
      (slot.st = .granted (.hart s.turn) ∨ (slot.st = .free ∧ slot.waiters = []) →
        exec (.send a x) s = .next ((finished s s.cur).setHart dest
          { (s.hart dest).setSlot k { slot with st := .full (stripIn s a) } with latch := true })) ∧
      (slot.st ≠ .free → slot.st ≠ .granted (.hart s.turn) → Sender.hart s.turn ∉ slot.waiters →
        exec (.send a x) s = .next ((atHead s q).setHart dest
          ((s.hart dest).setSlot k { slot with waiters := slot.waiters ++ [.hart s.turn] })))) ∧
    (bit w 13 = false →
      (s.hasGrant s.turn w = true → exec (.send a x) s = .next (State.toPeer { finished s s.cur with
          peers := s.peers.map (fun p =>
            if p.pos = sendPeer w then { p with granted := p.granted.erase (s.turn, dest, k) } else p) }
        (sendPeer w) (.strip (sendPeer w) dest k (stripIn s a)))) ∧
      (s.hasGrant s.turn w = false →
        (s.sendRefused s.cur.asid.toNat w = true ∨ s.hasRefusal s.turn w = true → trapIsDue s (.send a x) q causePerm 0 9) ∧
        (s.sendRefused s.cur.asid.toNat w = false → s.hasRefusal s.turn w = false →
          exec (.send a x) s = .next (((atHead s q).setCur
              { (atHead s q).cur with vq := [{ s.cur.entryOf q with stored := true }] }).toPeer
            (sendPeer w) (.slotRequest (sendPeer w) dest k s.turn))))) ∧
    (15 < w → trapIsDue s (.recv d v x) (.recv d v x) causePerm 0 10) ∧
    (w ≤ 15 → (∀ y, here.st ≠ .full y) → exec (.recv d v x) s = .next (atHead s (.recv d v x))) ∧
    (w ≤ 15 → ∀ y, here.st = .full y →
      let freed : RecvSlot := { here with st := .free }
      let h := s.cur.setSlot w freed.grantNext
      let took := fun (h' : Hart) => exec (.recv d v x) s = .next ((finished s h').tellGrant s.turn w freed freed.grantNext)
      (y.ew = vcEw s.cur.vconf →
        took ((h.setVreg v.toNat (zeroTail (vcEw s.cur.vconf) (min y.n (s.vlmax s.turn)) y.bits)).setX d (BitVec.ofNat 64 y.n))) ∧
      (y.ew ≠ vcEw s.cur.vconf → took (h.setX d (BitVec.allOnes 64))))

/-- R296, R297: RSIG completes: it decrements the signal word at x[x] in HBM, or in a peer's memory that takes the access, which the
peer is told once the port of its way does not retrain (R291); an address that no group gives traps PERM code 8, any other place
PERM code 6, and a misaligned address traps MISALIGN. A free slot is granted to the request that has
waited longest; a strip from a peer fills the slot granted to it and wakes the hart, but for a thermal emergency, which holds it back
(R399). -/
def Sys2Proof.Claims.RemoteSignalsAndGrants : Prop :=
  ∀ (s : State) (x : XReg) (g k : Nat) (y : Strip),
    (idle s →
      let a := s.cur.getX x
      let p := atHead s (.rsig x)
      (a.toNat % 8 ≠ 0 → trapIsDue s (.rsig x) (.rsig x) causeMisalign a 0) ∧
      (a.toNat % 8 = 0 → ∀ pa leaf, p.translate (p.space s.turn) .atomic a.toNat = .ok (pa, leaf) →
        let m := (p.assignPage leaf).mem
        let decremented := fun (at_ : Nat) (t : State) =>
          butImprecise t.cur = butImprecise (finished s s.cur).cur ∧ othersKept s t ∧
          (s.migqOn = false → (∀ j, j < 8 → offEntry { pa := at_, leaf := leaf } (at_ + j)) →
            readNat t.mem at_ 8 = (readNat m at_ 8 + 2 ^ 64 - 1) % 2 ^ 64)
        (placeOf pa = .hbm → Gives (exec (.rsig x) s) (decremented pa)) ∧
        (placeOf pa = .braid → s.pathWaits (braidPeer pa) = true → s.braidGroup s.cur.asid.toNat pa ≠ none →
          exec (.rsig x) s = .next p) ∧
        (placeOf pa = .braid → s.pathWaits (braidPeer pa) = false → ∀ gid, s.braidGroup s.cur.asid.toNat pa = some gid →
          Gives (exec (.rsig x) s) fun t =>
          decremented (windowAt gid pa) t ∧ (linkFree s (braidPeer pa) → Message.peerSignal pa ∈ t.out)) ∧
        (placeOf pa = .braid → s.braidGroup s.cur.asid.toNat pa = none → Gives (exec (.rsig x) s) fun t =>
          ∃ r, t.cur.trapDue = some r ∧ r.cause = causePerm ∧ r.addr = a ∧ bits r.info.toNat 7 0 = 8 ∧ t.mem = s.mem) ∧
        (placeOf pa ≠ .hbm → placeOf pa ≠ .braid → Gives (exec (.rsig x) s) fun t =>
          ∃ r, t.cur.trapDue = some r ∧ r.cause = causePerm ∧ r.addr = a ∧ bits r.info.toNat 7 0 = 6 ∧ t.mem = s.mem))) ∧
    (let slot := (s.hart g).slot k
     (s.stopped g = false → (s.hart g).run = .running → ∀ w rest, slot.st = .free → slot.waiters = w :: rest →
       let new : RecvSlot := { st := .granted w, waiters := rest }
       exec (.receiveSlotGrant g k) s = .next ((s.setHart g ((s.hart g).setSlot k new)).tellGrant g k slot new)) ∧
     (s.stopped g = true → exec (.receiveSlotGrant g k) s = .next s) ∧
     (s.thermal = .normal → (s.hart g).run = .running → ∀ pos sender, slot.st = .granted (.peer pos sender) →
       Gives (exec (.stripDelivery g k y) s) fun t =>
         (t.hart g).slot k = { slot with st := .full y } ∧ (t.hart g).latch = true ∧ t.mem = s.mem ∧
         (∀ j, j ≠ g → t.hart j = s.hart j)) ∧
     (s.thermal ≠ .normal → exec (.stripDelivery g k y) s = .next s))

/-! ### Leases and engines -/

namespace Sys2Proof.Claims

/-- A request word that keeps Table 12-2. -/
def leaseWordOk (w : Word) : Prop := wordKind w < 3 ∧ bits w.toNat 63 32 = 0 ∧ bits w.toNat 15 7 = 0 ∧ bits w.toNat 3 2 = 0

/-- What a request of a kind and priority in a cluster comes to besides being placed: no working engine −4, no engine to take now and
WAIT 0 −1, a full queue −3 (R264, R265). -/
def requestRefused (s : State) (c : Nat) (w : Word) (v : Int) : Prop :=
  let x := s.cluster c
  let kind := wordKind w
  let now := x.heads kind (wordPrio w) = true ∧ (x.canTake kind).isSome = true
  (x.working kind = false ∧ v = -4) ∨
  (x.working kind = true ∧ ¬ now ∧ ((wordWait w = 0 ∧ v = -1) ∨ (wordWait w ≠ 0 ∧ 32 ≤ (x.queueOf kind).length ∧ v = -3)))

/-- A lease placed: WAKING on the engine that it has taken, or PENDING in its kind's queue. -/
def placed (t : State) (c asid entry kind : Nat) : Prop :=
  let l := t.lease asid (leaseKey c entry)
  (l.st = .waking ∧ ∃ n, n < 24 ∧ n / 8 = kind ∧ ((t.cluster c).engine n).lease = some (asid, entry) ∧
    (((t.cluster c).engine n).st = .waking ∨ ((t.cluster c).engine n).st = .zeroing) ∧ l.engine = n % 8) ∨
  (l.st = .pending ∧ ∃ r ∈ (t.cluster c).queueOf kind, r.asid = asid ∧ r.entry = entry)

end Sys2Proof.Claims

/-- R262 to R264, R269, R270: LEASE traps LEASE code 3 on a malformed word and returns −2 at the quota; otherwise its request is refused
with −4, −1 or −3, or with −2 for want of a free entry, or placed, and the handle comes back. LRENEW of a lease that is not over returns 0, and places the
request of one that is EVICTED or ENDED again. -/
def Sys2Proof.Claims.LeasesAreGranted : Prop :=
  ∀ (s : State) (d a : XReg), s.cur.anyPending [d, a] = false →
    let w := s.cur.getX a
    let c := clusterOf s.turn
    let asid := s.cur.asid.toNat
    let x := s.ctx asid
    let answer := fun (i : Instr) (v : Int) => exec i s = .next (wrote s d (BitVec.ofInt 64 v) 4)
    (¬ leaseWordOk w → Traps (exec (.lease d a) s) s causeLease 0 3) ∧
    (leaseWordOk w →
      (x.leaseQuota ≤ x.leaseCount → answer (.lease d a) (-2)) ∧
      (x.leaseCount < x.leaseQuota → ∀ v, requestRefused s c w v → answer (.lease d a) v) ∧
      ((∀ e, e < 64 → (x.lease (leaseKey c e)).live = true) → (∀ v, ¬ requestRefused s c w v) → answer (.lease d a) (-2)) ∧
      (∀ e, x.leaseCount < x.leaseQuota → e < 64 → (x.lease (leaseKey c e)).live = false →
        (∀ j, j < e → (x.lease (leaseKey c j)).live = true) →
        let key := leaseKey c e
        let gen := ((x.lease key).gen + 1) % 256
        (∀ v, ¬ requestRefused s c w v) → Gives (exec (.lease d a) s) fun t =>
          t.cur = (s.cur.setX d (BitVec.ofNat 64 (gen * 2 ^ 24 + c % 4 * 2 ^ 22 + wordKind w * 2 ^ 20 + e))).advance 4 ∧
          placed t c asid e (wordKind w) ∧ (t.lease asid key).live = true ∧ (t.lease asid key).gen = gen ∧
          (t.lease asid key).word = w ∧ (t.lease asid key).askedAt = s.timer ∧
          (t.ctx asid).leaseCount = x.leaseCount + 1 ∧ t.mem = s.mem)) ∧
    (s.handleFault s.turn w = none →
      let key := leaseKey c (w.toNat % 64)
      let l := s.lease asid key
      (l.st = .pending ∨ l.st = .waking ∨ l.st = .ready → answer (.lrenew d a) 0) ∧
      (l.st = .evicted ∨ l.st = .ended →
        (∀ v, requestRefused s c l.word v → answer (.lrenew d a) v) ∧
        (wordKind l.word < 3 → (∀ v, ¬ requestRefused s c l.word v) → Gives (exec (.lrenew d a) s) fun t =>
          t.cur = (s.cur.setX d 0).advance 4 ∧ placed t c asid (w.toNat % 64) (wordKind l.word) ∧ t.mem = s.mem)))

/-- R268 to R270, Table 12-7: a handle that names no lease of this hart's cluster and kind traps LEASE code 1, one whose lease is over or of
another generation code 2. LQRY returns the state, reason, counts and engine of Table 12-8; LREL returns the state, frees the lease and
its place in the quota, ends its operations, takes a waiting request out of its queue and leaves its engine without a lease, awake or
on its way there. -/
def Sys2Proof.Claims.LeaseHandles : Prop :=
  ∀ (s : State) (d a : XReg), s.cur.anyPending [d, a] = false →
    let h := s.cur.getX a
    let c := clusterOf s.turn
    let asid := s.cur.asid.toNat
    let x := s.ctx asid
    let e := h.toNat % 64
    let key := leaseKey c e
    let here := bits h.toNat 63 32 = 0 ∧ bits h.toNat 19 6 = 0 ∧ bits h.toNat 23 22 = c
    let traps := fun (code : Word) => Traps (exec (.lqry d a) s) s causeLease 0 code ∧
      Traps (exec (.lrel d a) s) s causeLease 0 code ∧ Traps (exec (.lrenew d a) s) s causeLease 0 code
    (¬ here ∨ tfind x.leases key = none → traps 1) ∧
    (here → ∀ l, tfind x.leases key = some l →
      (bits h.toNat 21 20 ≠ l.kind → traps 1) ∧
      (bits h.toNat 21 20 = l.kind → (l.live = false ∨ bits h.toNat 31 24 ≠ l.gen) → traps 2) ∧
      (bits h.toNat 21 20 = l.kind → l.live = true → bits h.toNat 31 24 = l.gen →
        (∃ v, exec (.lqry d a) s = .next (wrote s d v 4) ∧ bits v.toNat 3 0 = l.st.code ∧ bits v.toNat 7 4 = l.reason % 16 ∧
          bits v.toNat 15 8 = x.queued key % 256 ∧ bits v.toNat 47 16 = l.done % 2 ^ 32 ∧
          bits v.toNat 63 48 = (if l.st = .waking ∨ l.st = .ready then l.engine % 64 else 0)) ∧
        Gives (exec (.lrel d a) s) fun t =>
          t.cur = (s.cur.setX d (BitVec.ofNat 64 l.st.code)).advance 4 ∧ (t.lease asid key).live = false ∧
          (t.lease asid key).ops = [] ∧ (t.ctx asid).leaseCount = x.leaseCount - 1 ∧ t.mem = s.mem ∧
          (∀ r ∈ (t.cluster c).queueOf l.kind, ¬ (r.asid = asid ∧ r.entry = e)) ∧
          (∀ n, (∀ j, ((s.cluster c).engine j).lease = some (asid, e) ↔ j = n) → n < 24 →
            (t.cluster c).engine n =
              ⟨if ((s.cluster c).engine n).st = .leased then .unleased else ((s.cluster c).engine n).st, none⟩)))

/-- R260, R263 to R265: an engine that has woken, or whose zeroing has ended, goes to its lease, which is READY; one that fails its test is
retired and its request goes back to its queue; an awake engine that no lease holds goes to sleep at its timeout. The head of a queue
takes an engine of its kind that has no lease; a lease that waited too long, and has never left its queue, is ENDED with reason 1. -/
def Sys2Proof.Claims.EngineEvents : Prop :=
  ∀ (s : State) (c n kind asid entry : Nat), n < 24 → s.thermal = .normal →
    let e := (s.cluster c).engine n
    let key := leaseKey c entry
    let l := s.lease asid key
    let ready := fun (t : State) => (t.cluster c).engine n = ⟨.leased, some (asid, entry)⟩ ∧
      t.lease asid key = { l with st := .ready, readyAt := s.timer } ∧
      (∀ j, j ≠ n → (t.cluster c).engine j = (s.cluster c).engine j)
    (e = ⟨.waking, some (asid, entry)⟩ → Gives (exec (.engineWakeComplete c n true) s) ready ∧
      (let back := { l with st := LeaseState.pending, engine := 0 }
       ∀ m, m < 8 → ((s.cluster c).engine (engineNo (n / 8) m)).st ≠ .retired → engineNo (n / 8) m ≠ n →
        Gives (exec (.engineWakeComplete c n false) s) fun t =>
          (t.cluster c).engine n = ⟨.retired, none⟩ ∧ t.lease asid key = back ∧
          (⟨asid, entry, wordPrio l.word⟩ : LeaseWait) ∈ (t.cluster c).queueOf (n / 8) ∧
          t.engRetired = min (s.engRetired + 1) 255 ∧ (t.bank (128 + c)).v = true)) ∧
    (e = ⟨.zeroing, some (asid, entry)⟩ → Gives (exec (.engineZeroingComplete c n) s) ready) ∧
    (e.st = .unleased → exec (.engineIdleTimeout c n) s = .next (s.setCluster c ((s.cluster c).setEngine n {}))) ∧
    (∀ w rest, (s.cluster c).queueOf kind = w :: rest → kind < 3 → (s.cluster c).firstFree kind = some n →
      Gives (exec (.leaseQueueAdvance c kind) s) fun t =>
        (t.cluster c).engine n = ⟨if e.st = .waking then .waking else .zeroing, some (w.asid, w.entry)⟩ ∧ (t.cluster c).queueOf kind = rest ∧
        (t.lease w.asid (leaseKey c w.entry)).st = .waking) ∧
    (l.live = true → l.st = .pending → l.moved = false → l.askedAt + 1000 * wordWait l.word ≤ s.timer →
      Gives (exec (.leaseWaitTimeout asid c entry) s) fun t =>
        (t.lease asid key).st = .ended ∧ (t.lease asid key).reason = 1 ∧ (t.lease asid key).ops = [] ∧
        (∀ r ∈ (t.cluster c).queueOf l.kind, ¬ (r.asid = asid ∧ r.entry = entry)))

/-- R173, R258, R259: the weir lowers ALANES by steps of 4 lanes down to 4 and raises it up to 16, and lowers ENGAWAKE by steps of 2
engines and raises it up to 6; after it has lowered the budget no more engines are awake than that. During a thermal emergency, whose
time does not count (R400), ALANES stays and ENGAWAKE does not rise. -/
def Sys2Proof.Claims.WeirSteps : Prop :=
  ∀ (s : State) (n c steps : Nat),
    (s.thermal = .normal →
      exec (.weirLowerAlanes n steps) s = .next (s.setCore n { s.core n with alanes := max 4 ((s.core n).alanes - 4 * steps) }) ∧
      exec (.weirRaiseAlanes n) s = .next (s.setCore n { s.core n with alanes := min 16 ((s.core n).alanes + 4) }) ∧
      exec (.weirRaiseEngawake c) s = .next (s.setCluster c { s.cluster c with engawake := min 6 ((s.cluster c).engawake + 2) })) ∧
    (s.thermal ≠ .normal →
      exec (.weirLowerAlanes n steps) s = .next s ∧ exec (.weirRaiseAlanes n) s = .next s ∧ exec (.weirRaiseEngawake c) s = .next s) ∧
    Gives (exec (.weirLowerEngawake c steps) s) fun t =>
      (t.cluster c).engawake = (s.cluster c).engawake - 2 * steps ∧ (t.cluster c).awakeCount ≤ (t.cluster c).engawake ∧
      t.mem = s.mem ∧ t.harts = s.harts ∧ ∀ k, k ≠ c → t.cluster k = s.cluster k

/-! ### Buffers and operations -/

namespace Sys2Proof.Claims

/-- Every vector-stream event of the current hart has taken place. -/
def quiet (s : State) : Prop := ∀ e ∈ s.cur.vq ++ s.cur.mq, qMakesEvent e.op = false

/-- What a read of n bytes at an address that the probe permits finds, and what it leaves. -/
def descAt (s : State) (r : Reach) (n : Nat) : List Byte := (s.assignPage r.leaf).load r n
def recordRead (s : State) (va : Word) (r : Reach) (n : Nat) : State :=
  (s.assignPage r.leaf).scalarTouched s.turn va.toNat n r true false

/-- The current hart answers v in d after such a read, with a due cause of poisoned data set aside. -/
def answers (s t : State) (d : XReg) (v : Word) : Prop :=
  butImprecise t.cur = butImprecise ((s.cur.setX d v).advance 4) ∧ othersKept s t

/-- The conditions of R278 on the first operation of a lease. -/
def mayFire (s : State) (asid c key : Nat) (o : EngineOp) : Prop :=
  let x := s.ctx asid
  let l := s.lease asid key
  l.st = .ready ∧ o.fired = false ∧
  (∀ e ∈ x.opEnds, leaseKey e.cluster e.entry = key → e.gen ≠ l.gen) ∧
  (∀ id ∈ o.desc.ids, ∃ b, s.buf asid c id = some b ∧
    (b.output = true → o.desc.maxOut ≤ b.room) ∧ (b.output = false → o.desc.count ≤ b.avail)) ∧
  (∀ p ∈ x.liveOps c, p.order < o.order → spansClash (s.opFootprint asid c o) (s.opFootprint asid c p) = false)

end Sys2Proof.Claims

/-- R271 to R274: CBDEF binds an id to the 32 bytes at its address, unbinds it for address 0, and returns −1 while an operation uses the
buffer and −2 for a descriptor that breaks Table 12-9. CBADV and CBRET move PROD of an input buffer and CONS of an output buffer on,
CBTAKE returns what can be taken; an id that is unbound or above 63 traps LEASE code 4, the wrong direction code 7, too many entries
code 5 or 6. -/
def Sys2Proof.Claims.BufferInstructions : Prop :=
  ∀ (s : State) (d a b : XReg), s.cur.anyPending [d, a, b] = false →
    let id := (s.cur.getX a).toNat
    let v := s.cur.getX b
    let n := v.toNat
    let c := clusterOf s.turn
    let asid := s.cur.asid.toNat
    let x := s.ctx asid
    let trap := fun (i : Instr) (code : Word) => Traps (exec i s) s causeLease 0 code
    let used := s.buf asid c id ≠ none ∧ ∃ o ∈ x.liveOps c, id ∈ o.desc.ids
    (63 < id → trap (.cbdef d a b) 4) ∧
    (id ≤ 63 → used → exec (.cbdef d a b) s = .next (wrote s d (BitVec.ofInt 64 (-1)) 4)) ∧
    (id ≤ 63 → ¬ used →
      (v = 0 → exec (.cbdef d a b) s = .next (wrote (s.setCtx asid { x with bufs := tdel x.bufs (bufKey c id) }) d 0 4)) ∧
      (n % 32 ≠ 0 → Traps (exec (.cbdef d a b) s) s causeMisalign v 0) ∧
      (v ≠ 0 → n % 32 = 0 → ∀ r, s.probe (s.space s.turn) .read n = .ok r →
        let t := recordRead s v r 32
        let found := t.bufOf { t.space s.turn with cluster := c } (descAt s r 32)
        (s.reachWaits r = true → exec (.cbdef d a b) s = .next s) ∧
        (s.reachWaits r = false → found = none → Gives (exec (.cbdef d a b) s) fun u =>
          answers s u d (BitVec.ofInt 64 (-2)) ∧ u.buf asid c id = s.buf asid c id) ∧
        (s.reachWaits r = false → ∀ w, found = some w → Gives (exec (.cbdef d a b) s) fun u =>
          answers s u d 0 ∧ u.buf asid c id = some w ∧ w.base = BitVec.ofNat 64 (field (descAt s r 32) 0 8) ∧
          w.entries = field (descAt s r 32) 8 4 ∧ w.esize = field (descAt s r 32) 12 2 ∧
          (w.output = true ↔ field (descAt s r 32) 14 1 = 1) ∧ w.prod = 0 ∧ w.cons = 0))) ∧
    (63 < id ∨ s.buf asid c id = none → trap (.cbtake d a) 4 ∧ (quiet s → trap (.cbadv a b) 4 ∧ trap (.cbret a b) 4)) ∧
    (id ≤ 63 → ∀ w, s.buf asid c id = some w →
      exec (.cbtake d a) s = .next (wrote s d (BitVec.ofNat 64 (if w.output then w.avail else w.room)) 4) ∧
      (quiet s →
        (w.output = true → trap (.cbadv a b) 7) ∧ (w.output = false → trap (.cbret a b) 7) ∧
        (w.output = false → w.room < n → trap (.cbadv a b) 5) ∧ (w.output = true → w.avail < n → trap (.cbret a b) 6) ∧
        (w.output = false → n ≤ w.room → exec (.cbadv a b) s =
          .next ((s.setBuf asid c id { w with prod := w.prod + n }).setCur (s.cur.advance 4))) ∧
        (w.output = true → n ≤ w.avail → exec (.cbret a b) s =
          .next ((s.setBuf asid c id { w with cons := w.cons + n }).setCur (s.cur.advance 4)))))

/-- R275, R277: EOP reads the 64 bytes at its address and answers −2 for a lease that is over, −1 with eight operations queued, −3 for a
descriptor that the lease cannot run, or posts the operation and returns its sequence. -/
def Sys2Proof.Claims.OperationsArePosted : Prop :=
  ∀ (s : State) (d a b : XReg), s.cur.anyPending [d, a, b] = false → s.handleFault s.turn (s.cur.getX a) = none → quiet s →
    let v := s.cur.getX b
    let asid := s.cur.asid.toNat
    let c := clusterOf s.turn
    let key := leaseKey c ((s.cur.getX a).toNat % 64)
    let l := s.lease asid key
    let gone := l.st = .evicted ∨ l.st = .ended
    let full := 8 ≤ (s.ctx asid).queued key
    (v.toNat % 64 ≠ 0 → Traps (exec (.eop d a b) s) s causeMisalign v 0) ∧
    (v.toNat % 64 = 0 → ∀ r, s.probe (s.space s.turn) .read v.toNat = .ok r →
      (s.reachWaits r = true → exec (.eop d a b) s = .next s) ∧ (s.reachWaits r = false →
      let bs := descAt s r 64
      let bad := s.badOp asid c l.kind (opDescOf bs) bs
      let answer := fun (z : Int) => Gives (exec (.eop d a b) s) fun t =>
        answers s t d (BitVec.ofInt 64 z) ∧ t.lease asid key = l
      (gone → answer (-2)) ∧ (¬ gone → full → answer (-1)) ∧ (¬ gone → ¬ full → bad = true → answer (-3)) ∧
      (¬ gone → ¬ full → bad = false → Gives (exec (.eop d a b) s) fun t =>
        answers s t d (BitVec.ofNat 64 l.nextSeq) ∧
        t.lease asid key = { l with nextSeq := l.nextSeq + 1, ops := l.ops ++
          [{ seq := l.nextSeq, desc := opDescOf bs, order := (s.ctx asid).opOrder, run := s.cur.runId, fixed := s.cur.fixed }] })))

/-- R278 to R280, Table 12-8: the first operation of a lease fires when R278's conditions hold, and keeps the places where it begins. One
that has fired takes COUNT entries from its input, adds its output entries, and counts as done once its actions are made; here one
that asks for no record and no decrement. -/
def Sys2Proof.Claims.OperationsRun : Prop :=
  ∀ (s : State) (asid c entry : Nat) (supply : PageSupply) (o : EngineOp) (rest : List EngineOp), entry < 64 → s.thermal = .normal →
    let key := leaseKey c entry
    let l := s.lease asid key
    let d := o.desc
    let mark := fun (id : Nat) => match s.buf asid c id with
      | some b => if b.output then b.prod else b.cons
      | none => 0
    l.ops = o :: rest →
    (mayFire s asid c key o → exec (.engineOpFire asid c entry) s = .next (s.setLease asid key
      { l with ops := { o with fired := true, start := [mark d.inBuf, mark d.in2, mark d.outBuf] } :: rest })) ∧
    (¬ mayFire s asid c key o → exec (.engineOpFire asid c entry) s = .next s) ∧
    (o.fired = true → (opKind d.opcode).isSome = true → d.isReduce = false → d.record = 0 → d.donesig = 0 → d.in2 = 0xFF → d.inBuf ≠ d.outBuf →
      (∀ e ∈ (s.ctx asid).opEnds, ¬ (e.cluster = c ∧ e.entry = entry)) →
      (∀ r, o.output = some r → r.count ≤ d.maxOut) → (∀ p ∈ rest, p.seq ≠ o.seq) → (∀ e ∈ (s.ctx asid).opEnds, e.op.order ≠ o.order) →
      ∀ i u, s.buf asid c d.inBuf = some i → s.buf asid c d.outBuf = some u →
      Gives (exec (.engineOpComplete asid c entry supply) s) fun t =>
        (t.lease asid key).ops = rest ∧ (t.lease asid key).done = l.done + 1 ∧ (t.ctx asid).opEnds = (s.ctx asid).opEnds ∧
        t.buf asid c d.inBuf = some { i with cons := i.cons + d.count } ∧
        (∃ n, n ≤ d.maxOut ∧ t.buf asid c d.outBuf = some { u with prod := u.prod + n }) ∧
        (∀ g, butImprecise (t.hart g) = butImprecise (s.hart g)))

/-- R276: SIFT's order is a stable sort by key, ascending or descending, that keeps every entry; UNIQUE keeps the first of each run of
equal keys; an integer SCAN gives the sums of the entries up to each, modulo 2^32. -/
def Sys2Proof.Claims.OperationResults : Prop :=
  (∀ (desc : Bool) (xs : List (Int × List Byte)),
    (sortEntries desc xs).Perm xs ∧
    (sortEntries desc xs).Pairwise (fun p q => if desc then q.1 ≤ p.1 else p.1 ≤ q.1) ∧
    (∀ k, (sortEntries desc xs).filter (fun p => p.1 == k) = xs.filter (fun p => p.1 == k))) ∧
  (∀ xs : List (Int × List Byte), xs.Pairwise (fun p q => p.1 ≤ q.1) →
    uniqueEntries xs none = ((xs.map (·.1)).eraseDups.filterMap (fun k => xs.find? (fun p => p.1 == k))).map (·.2)) ∧
  (∀ xs : List Nat, (∀ x ∈ xs, x < 2 ^ 32) →
    let r := (scanValues 10 false (xs.map (fun x => (x, false))) 0 0).1
    r.length = xs.length ∧ ∀ i, i < xs.length → r[i]? = some ((xs.take (i + 1)).sum % 2 ^ 32))

/-! ### The matrix array -/

namespace Sys2Proof.Claims

/-- The array of the current hart's pair has nothing in it and no declaration. -/
def arrayIdle (s : State) : Prop :=
  let p := s.pair (pairOf s.turn)
  p.loads = [] ∧ p.admitted = [] ∧ p.mill.ended = true

/-- Element (i, j) that an MMA accumulates (R147, R229): from the old value or −0, in ascending k, with RNE at every step, over
the depth that the A row has. -/
def mmaValue (h : Hart) (gr : Group) (d : VReg) (aVals : List Nat) (n k : Nat) (acc : Bool) (b : BSlot) (i j : Nat) : Nat :=
  (List.range (min k (16 * gr.lanes))).foldl
    (fun v q => (fp32.fma 0 (bf16.value (elem (groupRow gr aVals i) 16 q)) (bf16.value (tileAt b.tile q j)) (fp32.value v)).1)
    (if acc then elem (groupRun gr (h.groupVals gr d) (i * rowsPerOut gr n) (rowsPerOut gr n)) 32 j else 0x80000000)

/-- Element (i, j) of a group as it stands. -/
def groupElem (h : Hart) (gr : Group) (d : VReg) (n i j : Nat) : Nat :=
  elem (groupRun gr (h.groupVals gr d) (i * rowsPerOut gr n) (rowsPerOut gr n)) 32 j

/-- The rows of a B tile that an MLDB or MLDB.FF of the current hart can load, and the first row that faults. -/
def bRows (s : State) (q : QOp) (a b : XReg) (fmt n k : Nat) : List Piece × List TouchFault :=
  let p := atHead s q
  p.probeRows (p.space s.turn) (s.cur.getX a) (s.cur.getX b) (bRowBytes fmt n) 0 k []

/-- A slot that holds r rows of a tile, each element widened from its row's bytes (R226). -/
def holdsTile (u : State) (ps : List Piece) (b : BSlot) (fmt n r : Nat) (short : Bool) : Prop :=
  b.k = r ∧ b.n = n ∧ b.fmt = fmt ∧ b.short = short ∧
  ∀ i j, i < r → j < n → tileAt b.tile i j = (widenB fmt (u.elemBytes ps i) j).1

end Sys2Proof.Claims

/-- R220, R224 to R226: MLDB and MLDB.FF load K rows of N elements into a slot, widened to BF16, and leave the other slot. MLDB.FF
that meets a fault after its first row keeps the rows before it and says SHORT; at its first row it traps MATRIX_OPERAND. MLDB keeps the
rows before a fault and traps with the fault's cause, and keeps its place in the array (R238). A misaligned base traps MISALIGN. -/
def Sys2Proof.Claims.BTilesLoad : Prop :=
  ∀ (s : State) (a b : XReg) (fmt n : BitVec 8) (k : BitVec 9) (slot : BitVec 1), idle s → configured s [] → arrayIdle s →
    fmt.toNat ≤ 6 → 1 ≤ k.toNat → k.toNat ≤ 256 → (isBlock fmt.toNat = true → dim256 n % 32 = 0) →
    let pn := pairOf s.turn
    let f := fmt.toNat
    let w := dim256 n
    let slotOf := fun (t : State) => (t.pair pn).slot slot.toNat
    let kept := fun (t : State) => othersKept s t ∧ (t.pair pn).slot (1 - slot.toNat) = (s.pair pn).slot (1 - slot.toNat) ∧
      (t.pair pn).loads = []
    let stopped := fun (t : State) => kept t ∧ (t.pair pn).admitted = [⟨s.turn, s.cur.posted, slot.toNat, true, false⟩]
    let loaded := fun (t : State) => kept t ∧ (t.pair pn).admitted = [] ∧ butImprecise t.cur = butImprecise (finished8 s { s.cur with fpstat := t.cur.fpstat }).cur
    ∀ ff : Bool,
      let i : Instr := if ff then .mldbFf a b fmt n k slot else .mldb a b fmt n k slot
      let q := QOp.mldb ff a b fmt n k slot
      let rows := bRows s q a b f w k.toNat
      let u := (atHead s q).assignAll rows.1
      (∀ x, bMisaligned f (s.cur.getX a) (s.cur.getX b) = some x → exec i s = .next (s.setCur { s.cur.enqueue q with
        trapDue := some { cause := causeMisalign, pc := s.cur.pc, addr := x, whereAt := .matrix } })) ∧
      (bMisaligned f (s.cur.getX a) (s.cur.getX b) = none → wayOpen (atHead s q) rows.1 →
        (rows.2 = [] → Gives (exec i s) fun t => loaded t ∧ holdsTile u rows.1 (slotOf t) f w k.toNat false) ∧
        (∀ y ys, rows.2 = y :: ys →
          (ff = true → 1 ≤ y.i → Gives (exec i s) fun t => loaded t ∧ holdsTile u rows.1 (slotOf t) f w y.i true) ∧
          (ff = true → y.i = 0 → Gives (exec i s) fun t =>
            stopped t ∧ t.cur.trapDue.map (fun r => r.cause) = some causeMatrixOperand) ∧
          (ff = false → Gives (exec i s) fun t =>
            stopped t ∧ t.cur.trapDue.map (fun r => r.cause) = some y.f.cause ∧
            (1 ≤ y.i → holdsTile u rows.1 (slotOf t) f w y.i false))))

/-- R229, R230: an MMA writes every element of its M rows of the C group as R147 accumulates it, and no register outside the group. -/
def Sys2Proof.Claims.MatrixMultiplies : Prop :=
  ∀ (s : State) (a d : VReg) (mm n : BitVec 8) (k : BitVec 9) (acc slot : BitVec 1), idle s → configured s [] → arrayIdle s →
    let gr := s.groupOf s.turn s.cur.vconf
    mmaIllegal gr (vcNr s.cur.vconf) a d (dim256 mm) (dim256 n) = false →
    let pn := pairOf s.turn
    let b := (s.pair pn).slot slot.toNat
    Gives (exec (.mma a d mm n k acc slot) s) fun t =>
      (∀ i j, i < dim256 mm → j < dim256 n → groupElem t.cur gr d (dim256 n) i j =
        mmaValue s.cur gr d (s.cur.groupVals gr a) (dim256 n) k.toNat (acc == 1) b i j) ∧
      (∀ v, v < d.toNat ∨ d.toNat + gr.regs ≤ v → t.cur.vreg v = s.cur.vreg v) ∧
      t.cur = (finished8 s { s.cur with vregs := t.cur.vregs, fpstat := t.cur.fpstat }).cur ∧
      (t.pair pn) = { s.pair pn with pass := (s.pair pn).pass + 1 } ∧ t.mem = s.mem

/-- R233 to R235: MPROG returns a slot's K, N, SHORT and format; MSYNC goes on when the queues before it are empty; MCHK returns the count of
corrected checker mismatches of the context, and clears it when CLR is set. -/
def Sys2Proof.Claims.MatrixStatus : Prop :=
  ∀ (s : State) (d : XReg) (slot clr : BitVec 1), idle s → configured s [] → arrayIdle s →
    let b := (s.pair (pairOf s.turn)).slot slot.toNat
    let asid := s.cur.asid.toNat
    let c := s.ctx asid
    exec (.mprog d slot) s = .next (finished8 s (s.cur.setX d (BitVec.ofNat 64
      (b.n + b.k * 2 ^ 16 + (if b.short then 2 ^ 25 else 0) + b.fmt * 2 ^ 32)))) ∧
    exec .msync s = .next (finished8 s s.cur) ∧
    Gives (exec (.mchk d clr) s) fun t =>
      t.cur = (finished8 s (s.cur.setX d (BitVec.ofNat 64 c.checker))).cur ∧
      (t.ctx asid).checker = (if clr = 1 then 0 else c.checker) ∧ t.mem = s.mem ∧ ∀ g, g ≠ s.turn → t.hart g = s.hart g

/-- R222, R226, R230, R232: the array admits the instruction of the hart whose turn it is; a row of a load in progress is written to its
slot; the oldest MMA writes its next row back, or, at a first mismatch, is counted and executes the row again, and at a second one its
context is to end with SILENT_ERROR. Said of an instruction behind which none has begun and before which none is left. -/
def Sys2Proof.Claims.MatrixEvents : Prop :=
  ∀ (s : State) (p g : Nat) (e : Entry), pairOf g = p → s.islandStopped p = false →
    (∀ a d mm n k acc slot, e.op = .mma a d mm n k acc slot →
      ((s.pair p).rr < 8 → g = 8 * p + (s.pair p).rr → (s.hart g).mq = [e] → (s.hart g).vq = [] → s.queuesHeld g = false →
        (∀ j, j < 8 → 8 * p + j ≠ g → (s.hart (8 * p + j)).mq = []) →
        (s.pair p).loads = [] → (s.pair p).admitted = [] → (s.pair p).mill.ended = true →
        Gives (exec (.arrayAdmission p) s) fun t =>
          (t.pair p).admitted = [⟨g, e.seq, slot.toNat, false, false⟩] ∧ (t.pair p).rr = ((s.pair p).rr + 1) % 8 ∧
          (t.hart g).mq = [{ e with admitted := true }] ∧ t.mem = s.mem) ∧
      (∀ redone r, (s.pair p).admitted = ⟨g, e.seq, slot.toNat, false, redone⟩ :: r →
        (s.hart g).mq.find? (fun f => f.seq == e.seq) = some e → (s.hart g).earlier e.seq = [] → (s.hart g).old = [] →
        let gr := s.groupOf g e.vconf
        let h := s.hart g
        (mmaIllegal gr 32 a d (dim256 mm) (dim256 n) = false → e.eidx + 1 < dim256 mm →
          Gives (exec (.cRowWriteBack p false) s) fun t =>
            (∀ j, j < dim256 n → groupElem (t.hart g) gr d (dim256 n) e.eidx j =
              mmaValue h gr d (h.groupVals gr a) (dim256 n) k.toNat (acc == 1) ((s.pair p).slot slot.toNat) e.eidx j) ∧
            (t.hart g).mq.find? (fun f => f.seq == e.seq) = some { e with eidx := e.eidx + 1 } ∧ t.pair p = s.pair p) ∧
        Gives (exec (.cRowWriteBack p true) s) fun t =>
          (t.bank (coreOf g)).v = true ∧ (t.hart g).vregs = h.vregs ∧
          (redone = false → (t.pair p).admitted = ⟨g, e.seq, slot.toNat, false, true⟩ :: r ∧
            (t.ctx h.asid.toNat).checker = min ((s.ctx h.asid.toNat).checker + 1) (2 ^ 32 - 1)) ∧
          (redone = true → h.run = .running → h.imprecise = none →
            (t.hart g).imprecise.map (fun r => r.cause) = some causeSilentError))) ∧
    (∀ slot b, slot ≤ 1 → tfind (s.pair p).loads slot = some b → b.hart = g → b.seq = e.seq →
      (s.hart g).mq.find? (fun f => f.seq == e.seq) = some e → e.eidx + 1 < b.reach →
      Gives (exec (.mldbRowArrival p slot) s) fun t =>
        ((t.pair p).slot slot).k = e.eidx + 1 ∧
        (∀ j, j < 256 → tileAt ((t.pair p).slot slot).tile e.eidx j = tileAt b.tile e.eidx j) ∧
        (∀ i j, i ≠ e.eidx → j < 256 → tileAt ((t.pair p).slot slot).tile i j = tileAt ((s.pair p).slot slot).tile i j) ∧
        (t.hart g).mq.find? (fun f => f.seq == e.seq) = some { e with eidx := e.eidx + 1 } ∧ t.mem = s.mem)

/-! ### The millrace -/

/-- R241, R252 to R254, R256: MRUN answers −1 while a declaration lasts, −2 for one that breaks Table 11-1, −3 when its feeders do not
run its context, and otherwise takes it up and answers 0. MSTOP asks a running one to stop. MWAITD takes the oldest event of a kind
that its mask names; while a declaration lasts and no such event has come it waits, unless its mask names none, and it answers 0 when there is
none to wait for. MLAH reads the record of Table 11-2. -/
def Sys2Proof.Claims.MillraceInstructions : Prop :=
  ∀ (s : State) (d x : XReg) (sel : BitVec 6), idle s → configured s [] →
    let pn := pairOf s.turn
    let m := s.mill pn
    let v := s.cur.getX x
    let asid := s.cur.asid.toNat
    let q := QOp.mrun d x
    let p := atHead s q
    let mask := v.toNat % 8
    (v.toNat % 64 ≠ 0 → (s.pair pn).admitted = [] → (s.pair pn).loads = [] → exec (.mrun d x) s = .next (s.setCur { s.cur.enqueue q with
      trapDue := some { cause := causeMisalign, pc := s.cur.pc, addr := v, whereAt := .matrix } })) ∧
    (v.toNat % 64 = 0 → (s.pair pn).admitted = [] → (s.pair pn).loads = [] →
      ∀ r, p.probe (p.space s.turn) .read v.toNat = .ok r → p.reachWaits r = false →
      let bs := (p.assignPage r.leaf).load r 64
      let dc := declOf bs
      let feeds := fun (f : Nat) =>
        (s.hart (feederHart pn f)).run = .running ∧ (s.hart (feederHart pn f)).asid = s.cur.asid
      let answer := fun (z : Int) => Gives (exec (.mrun d x) s) fun t =>
        t.cur.pc = s.cur.pc + 4 ∧ t.cur.mq = [] ∧ (∀ y, t.cur.getX y = (s.cur.setX d (BitVec.ofInt 64 z)).getX y)
      (m.ended = false → answer (-1)) ∧
      (m.ended = true → dc.bad (field bs 0x35 1) = true → answer (-2)) ∧
      (m.ended = true → dc.bad (field bs 0x35 1) = false → ¬ (feeds dc.feeder ∧ feeds dc.drainer) → answer (-3)) ∧
      (m.ended = true → dc.bad (field bs 0x35 1) = false → feeds dc.feeder → feeds dc.drainer →
        answer 0 ∧ Gives (exec (.mrun d x) s) fun t =>
          (t.mill pn).decl = dc ∧ (t.mill pn).asid = asid ∧ (t.mill pn).hart = s.turn)) ∧
    (m.ended = true ∨ m.status ≠ 1 → exec .mstop s = .next (s.setCur (s.cur.advance 4))) ∧
    (m.ended = false → m.status = 1 → Gives (exec .mstop s) fun t => t.cur.pc = s.cur.pc + 4 ∧ t.cur.x = s.cur.x) ∧
    (m.ended = false → m.status = 1 → exec .mstop { s with eager := false } =
      .next ((({ s with eager := false } : State).setMill pn { m with stopReq := true }).setCur (s.cur.advance 4))) ∧
    (m.ended = true →
      (∀ e, s.cur.events.find? (fun y => bit mask (y.kind - 1)) = some e → exec (.mwaitd d x) s = .next (s.setCur
        ((({ s.cur with events := s.cur.events.erase e } : Hart).setX d (BitVec.ofNat 64
          (e.kind % 256 + e.status % 256 * 256 + e.beat % 2 ^ 48 * 2 ^ 16))).advance 4))) ∧
      (s.cur.events.find? (fun y => bit mask (y.kind - 1)) = none → exec (.mwaitd d x) s = .next (wrote s d 0 4))) ∧
    (m.ended = false →
      let z := ({ s with eager := false } : State)
      (∀ e, s.cur.events.find? (fun y => bit mask (y.kind - 1)) = some e → exec (.mwaitd d x) z = .next (z.setCur
        ((({ s.cur with events := s.cur.events.erase e } : Hart).setX d (BitVec.ofNat 64
          (e.kind % 256 + e.status % 256 * 256 + e.beat % 2 ^ 48 * 2 ^ 16))).advance 4))) ∧
      (s.cur.events.find? (fun y => bit mask (y.kind - 1)) = none →
        exec (.mwaitd d x) z = .next (if mask = 0 then wrote z d 0 4 else z))) ∧
    (let beat := if m.status = 0 then 0 else if m.status = 1 then (match m.runs.find? (fun r => !r.entered) with
         | some r => r.beat
         | none => m.nextBeat) else m.beatNow
     let look := fun (z : Nat) => exec (.mlah d sel) s = .next (wrote s d (BitVec.ofNat 64 z) 4)
     (sel = 0 → look m.resume) ∧ (sel = 1 → look m.miss) ∧
     (sel = 2 → look (m.status % 256 + beat % 2 ^ 48 * 2 ^ 16)) ∧
     (sel = 3 → look (if m.status = 4 then m.faultVa.toNat else 0)) ∧
     (4 ≤ sel.toNat → look (if m.status = 4 then m.faultCause % 256 + m.faultBeat % 2 ^ 48 * 2 ^ 16 else 0)))

/-- R246, R247, R255: MFEED and MDRAIN of a hart that no declaration of its array names do nothing. In a running one an MFEED adds the A rows
that its register group holds, at most those it asks for, to the next tile, and an MDRAIN takes rows of the oldest finished block,
which goes once all 256 are taken. -/
def Sys2Proof.Claims.FeedersMoveTiles : Prop :=
  ∀ (s : State) (v : VReg) (x : XReg),
    (idle s → configured s [] → feedIllegal (s.groupOf s.turn s.cur.vconf) (vcNr s.cur.vconf) v = false →
      (s.mill (pairOf s.turn)).ended = true →
      exec (.mfeed v x) s = .next (finished s s.cur) ∧ exec (.mdrain v x) s = .next (finished s s.cur)) ∧
    (∀ (g : Nat) (e : Entry), s.eager = false → (s.hart g).vq = [e] → (s.hart g).mq = [] → (s.hart g).old = [] →
      s.queuesHeld g = false → e.eidx = 0 →
      let pn := pairOf g
      let m := s.mill pn
      let gr := s.groupOf g e.vconf
      let most := gr.regs * gr.rows
      let asked := (e.ops.headD 0).toNat
      feedIllegal gr 32 v = false → m.ended = false → m.status = 1 →
      (e.op = .mfeed v x → feederHart pn m.decl.feeder = g → m.tiles = [] → m.nextBeat < m.nextOperand →
        let apr := (4096 + gr.rowBits - 1) / gr.rowBits
        let c := min asked (min (most / apr) 256)
        (c = 0 → Gives (exec (.vectorAdmission g 0 e.vl) s) fun t => (t.hart g).vq = [] ∧ t.mem = s.mem ∧ (t.mill pn).tiles = []) ∧
        (c ≠ 0 → Gives (exec (.vectorAdmission g 0 e.vl) s) fun t =>
          (t.hart g).vq = [] ∧ t.mem = s.mem ∧ ∃ tile, (t.mill pn).tiles = [tile] ∧ tile.beat = m.nextBeat ∧ tile.rows = c ∧
            ∀ i, i < c → (tile.bits >>> (4096 * i)) % 2 ^ 4096 =
              groupRun gr ((s.hart g).groupVals gr v) (i * apr) apr % 2 ^ 4096)) ∧
      (e.op = .mdrain v x → feederHart pn m.decl.drainer = g →
        ∀ b bs, m.blocks = b :: bs → b.raised = true → b.taken < 256 →
        let rpr := (8192 + gr.rowBits - 1) / gr.rowBits
        let c := min asked (min (most / rpr) (256 - b.taken))
        Gives (exec (.vectorAdmission g 0 e.vl) s) fun t =>
          (t.hart g).vq = [] ∧ t.mem = s.mem ∧
          (∀ i, i < c → groupRun gr ((t.hart g).groupVals gr v) (i * rpr) rpr % 2 ^ 8192 =
            (b.bits >>> (8192 * (b.taken + i))) % 2 ^ 8192) ∧
          (b.taken + c < 256 → (t.mill pn).blocks = { b with taken := b.taken + c } :: bs ∧ (t.mill pn).resume = m.resume) ∧
          (b.taken + c = 256 → (t.mill pn).blocks = bs ∧ (t.mill pn).resume = b.first + m.decl.kb)))

/-- R242 to R245, R248, R249: while its island's clock runs, a declaration raises its next OPERAND event at a feeder that has room, when its
place in the schedule comes; at its boundary its next beat starts when tile and B tile are there and is missed otherwise, at a cost of one and
of a period under SLIP and of the run under FAIL; a beat whose rows have entered frees its landing slot, once the place of that in the schedule comes; its next B tile fills a slot, or its
fault is kept; an output row is added to its block; and once it is closed and drained it ends, with END at both feeders.
The model's own choices here: log entries 1, 21, 104, 106, 108. -/
def Obligations.MillraceEvents : Prop :=
  ∀ (s : State) (p : Nat) (supply : PageSupply),
    let m := s.mill p
    let d := m.decl
    let f := feederHart p d.feeder
    let dr := feederHart p d.drainer
    (s.islandStopped p = false → ∀ due, m.ended = false → m.operandDue = some due → m.inTurn due true = true →
      (s.hart f).demands < 16 → exec (.millraceOperandEvent p) s = .next ((s.setMill p { m with nextOperand := m.nextOperand + 1 }).setHart f
        { s.hart f with events := (s.hart f).events ++ [⟨1, 0, m.nextOperand⟩], latch := true })) ∧
    (s.islandStopped p = false → m.atBoundary = true → m.endsWith = none →
      (∀ t, m.tileReady = some t → m.nextBeat < m.bBeat → Gives (exec (.beatStart p) s) fun u =>
        (u.mill p).runs = m.runs ++ [{ beat := m.nextBeat, start := m.tick, aTile := t.bits, bTile := ((s.pair p).slot m.bSlot).tile }] ∧
        (u.mill p).nextBeat = m.nextBeat + 1 ∧ (u.mill p).tick = m.tick + d.period ∧ (u.mill p).tiles = m.tiles ∧
        u.harts = s.harts) ∧
      (m.tileReady = none ∨ m.bBeat ≤ m.nextBeat →
        (d.policy = 0 → exec (.beatStart p) s = .next (s.setMill p { m with
          miss := min (m.miss + 1) (2 ^ 32 - 1)
          tick := m.tick + d.period })) ∧
        (d.policy ≠ 0 → Gives (exec (.beatStart p) s) fun u => (u.mill p).status = 3 ∧ (u.mill p).beatNow = m.nextBeat))) ∧
    (s.islandStopped p = false → m.entering = true → (∃ r ∈ m.runs, r.entered = false ∧ m.inTurn (r.start + 256) false = false) →
      exec (.beatStart p) s = .next s) ∧
    (s.islandStopped p = false → m.entering = true →
      (∀ r ∈ m.runs, r.entered = true ∨ m.inTurn (r.start + 256) false = true) → Gives (exec (.beatStart p) s) fun u =>
      (∀ y ∈ (u.mill p).runs, y.entered = true) ∧ (u.mill p).nextBeat = m.nextBeat ∧ u.harts = s.harts ∧
      ∀ y ∈ (u.mill p).tiles, y ∈ m.tiles ∧ ∀ r ∈ m.runs, r.entered = false → r.beat ≠ y.beat) ∧
    (s.islandStopped p = false → m.ended = false → m.status = 1 → m.bFault = false → m.bBeat < d.beats → m.bBeat ≤ m.nextBeat →
      m.bLoaded ≠ some (d.nOf m.bBeat, d.kOf m.bBeat) →
      let base := d.bbase + BitVec.ofNat 64 (d.kOf m.bBeat) * d.kstride + BitVec.ofNat 64 (d.nOf m.bBeat) * d.nstride
      let rows := s.probeRows m.space base d.bstride (bRowBytes d.bfmt 256) 0 256 []
      (∀ y ys, rows.2 = y :: ys → exec (.bTileLoadComplete p) s = .next ((s.walkConsumed m.space m.hart y.f.addr).setMill p
        { m with bFault := true, faultVa := BitVec.ofNat 64 y.f.addr, faultCause := y.f.cause, faultBeat := m.bBeat
                 faultCode := y.f.code })) ∧
      (rows.2 = [] → wayOpen s rows.1 → d.bfmt ≤ 6 → Gives (exec (.bTileLoadComplete p) s) fun t =>
        (t.mill p).bBeat = m.bBeat + 1 ∧ (t.mill p).bLoaded = some (d.nOf m.bBeat, d.kOf m.bBeat) ∧
        holdsTile (s.assignAll rows.1) rows.1 ((t.pair p).slot (t.mill p).bSlot) d.bfmt 256 256 false)) ∧
    (∀ r others k, s.islandStopped p = false → m.runs = r :: others → r.entered = true → r.outRow < 255 →
      m.inTurn r.due false = true → m.rowFree r = true →
      m.blocks.find? (fun y => y.first == r.beat - d.kOf r.beat) = some k → Gives (exec (.millraceOutputRow p false) s) fun t =>
        (t.mill p).runs = { r with outRow := r.outRow + 1 } :: others ∧ t.mem = s.mem ∧ t.harts = s.harts ∧
        ∃ k', (t.mill p).blocks.find? (fun y => y.first == r.beat - d.kOf r.beat) = some k' ∧
          (∀ i j, i ≠ r.outRow → j < 256 → elem k'.bits 32 (256 * i + j) = elem k.bits 32 (256 * i + j)) ∧
          (∀ j, j < 256 → elem k'.bits 32 (256 * r.outRow + j) = (List.range 256).foldl
            (fun v q => (fp32.fma 0 (bf16.value (tileAt r.aTile r.outRow q))
              (bf16.value (tileAt r.bTile q j)) (fp32.value v)).1)
            (if d.kOf r.beat = 0 then 0x80000000 else elem k.bits 32 (256 * r.outRow + j)))) ∧
    (s.islandStopped p = false → m.closing = true → m.endStage = 0 → d.endsig = 0 →
      (∀ t ∈ s.tasks, ∀ x ∈ t.gangs, (∃ n ∈ x.cores, n / 2 = p) → x.preempted = false) →
      Gives (exec (.millraceEnd p supply) s) fun t =>
        (t.mill p).ended = true ∧ (t.pair p).b0 = {} ∧ (t.pair p).b1 = {} ∧
        (t.hart f).events = (s.hart f).events ++ [⟨3, m.status, m.resume⟩] ∧ (t.hart f).latch = true ∧
        (t.hart dr).events = (s.hart dr).events ++ [⟨3, m.status, m.resume⟩] ∧ (t.hart dr).latch = true ∧
        (t.hart m.hart).fpstat = (s.hart m.hart).fpstat ||| m.flags)

/-! ### Packets, launches and cascades -/

namespace Sys2Proof.Claims

/-- What a record of n bytes at an address needs to be read: alignment, permission and an open way (R291). -/
def canRead (s : State) (va : Word) (n : Nat) (r : Reach) : Prop :=
  va.toNat % n = 0 ∧ s.probe (s.space s.turn) .read va.toNat = .ok r ∧ s.reachWaits r = false

/-- The queue that a LAUNCH may post to. -/
def postable (s : State) (q : Nat) : Prop :=
  let w := s.queue q
  q ≤ 4095 ∧ w.live = true ∧ w.closing = false ∧ w.asid = s.cur.asid.toNat ∧ bit (s.queueFlags w) 0 = true

/-- A packet of items that keeps Table 15-10. -/
def packetKept (p : List Byte) : Prop :=
  1 ≤ pktCount p ∧ pktCount p ≤ 8 ∧ pktMask p < 2 ^ pktCount p ∧ zeroIn p 0x0A 0x10 = true ∧ zeroIn p 0x30 0x40 = true

end Sys2Proof.Claims

/-- R328, R340: LAUNCH reads the 128 bytes at x[ra]. It returns −2 for a queue that its context may not post to, −3 for a packet that shows
itself malformed, −1 for a queue that is full, and otherwise writes the packet to the ring at TAIL, advances TAIL and returns the
task's identifier. -/
def Sys2Proof.Claims.LaunchPosts : Prop :=
  ∀ (s : State) (d a b : XReg), s.cur.anyPending [d, a, b] = false → quiet s →
    ∀ r, canRead s (s.cur.getX a) 128 r →
      let q := (s.cur.getX b).toNat
      let u := recordRead s (s.cur.getX a) r 128
      let p := descAt s r 128
      let w := u.queue q
      let pos := u.queueTail w
      let at_ := w.slot pos
      let answer := fun (z : Int) => Gives (exec (.launch d a b) s) fun t =>
        answers s t d (BitVec.ofInt 64 z) ∧ t.tasks = s.tasks ∧ t.mem = u.mem
      (¬ postable u q → answer (-2)) ∧
      (postable u q → (packetReason (s.ctx s.cur.asid.toNat) 32 p).isSome = true → answer (-3)) ∧
      (postable u q → packetReason (s.ctx s.cur.asid.toNat) 32 p = none →
        (w.size ≤ u.queueDepth w → answer (-1)) ∧
        (u.queueDepth w < w.size → w.ctl + 64 ≤ Config.hbmBytes → at_ + 128 ≤ Config.hbmBytes →
          (at_ + 128 ≤ w.ctl ∨ w.ctl + 64 ≤ at_) →
          Gives (exec (.launch d a b) s) fun t =>
            answers s t d (BitVec.ofNat 64 (q * 2 ^ 20 + pos % 2 ^ 20)) ∧
            ((∀ y ∈ u.queues, y.1 ≠ q → u.queueTail y.2 = y.2.posted ∧ u.queueDepth y.2 ≤ y.2.size ∧
                (y.2.ctl + 64 ≤ w.ctl ∨ w.ctl + 64 ≤ y.2.ctl) ∧
                (y.2.ctl + 64 ≤ at_ ∨ at_ + 128 ≤ y.2.ctl)) →
              readBytes t.mem at_ 128 = p ∧ readNat t.mem w.ctl 8 = (pos + 1) % 2 ^ 64)))

/-- R349, R350, R353: the packet instructions of a gang that serves stage k of a cascade. PKTGET writes the stage's oldest packet to x[ra]
and returns its sequence; it returns −1 once the stage is closed and empty, −2 to a withdrawn gang, and waits otherwise. PKTEMIT puts a
packet into the next stage, or with ABS into stage 0 of a cascade of its context that its target names, returns its sequence there, −1 when the
stage is closed, −2 when the cascade is over and −3 for a malformed packet, and waits when the stage is full or the cascade has not been
read; with x[ra] = 0 it closes stage 0. PKTDONE finishes a packet that the gang took. A hart of no cascade traps PERM code 11. -/
def Sys2Proof.Claims.CascadePackets : Prop :=
  ∀ (s : State) (d a b : XReg), s.cur.anyPending [d, a, b] = false → quiet s →
    let va := s.cur.getX a
    let emits := fun (t : Task) (k : Nat) => ∀ st, t.stages[k]? = some st → va ≠ 0 → ∀ r, canRead s va 64 r →
      let p := descAt s r 64
      let answer := fun (v : Word) (y : Stage) => Gives (exec (.pktemit d a b) s) fun z =>
        answers s z d v ∧ z.tasks = (s.setTask (t.setStage k y)).tasks
      (¬ packetKept p → Gives (exec (.pktemit d a b) s) fun z => answers s z d (BitVec.ofInt 64 (-3)) ∧ z.tasks = s.tasks) ∧
      (packetKept p → st.closed = true →
        Gives (exec (.pktemit d a b) s) fun z => answers s z d (BitVec.ofInt 64 (-1)) ∧ z.tasks = s.tasks) ∧
      (packetKept p → st.closed = false → st.cap ≤ st.load →
        Gives (exec (.pktemit d a b) s) fun z => z.cur.pc = s.cur.pc ∧ z.cur.x = s.cur.x ∧ othersKept s z) ∧
      (packetKept p → st.closed = false → st.load < st.cap →
        let sparse := st.thresh ≠ 0 ∧ 8 * popc 8 (pktMask p) < st.thresh * pktCount p
        (¬ sparse → answer (BitVec.ofNat 64 st.nextSeq)
          { st with nextSeq := st.nextSeq + 1, queue := st.queue ++ [(st.nextSeq, p)] }) ∧
        (sparse → answer (BitVec.ofNat 64 st.nextSeq) (st.emit p).2))
    (s.stageOf s.turn = none → Traps (exec (.pktget d a) s) s causePerm 0 11 ∧ Traps (exec (.pktdone a) s) s causePerm 0 11) ∧
    (∀ t x k, s.stageOf s.turn = some (t, x, k) →
      (va.toNat ∉ x.taken → Traps (exec (.pktdone a) s) s causePerm 0 11) ∧
      (va.toNat ∈ x.taken → exec (.pktdone a) s =
        .next ((s.setTask (t.setGang { x with taken := x.taken.erase va.toNat })).setCur (s.cur.advance 4))) ∧
      (∀ st, t.stages[k]? = some st → va.toNat % 64 = 0 → ∀ r, s.probe (s.space s.turn) .write va.toNat = .ok r → s.reachWaits r = false →
        let u := s.assignPage r.leaf
        (x.withdrawn ≠ none → exec (.pktget d a) s = .next (wrote s d (BitVec.ofInt 64 (-2)) 4)) ∧
        (x.withdrawn = none → st.queue = [] →
          (st.finished = true → exec (.pktget d a) s = .next (wrote s d (BitVec.ofInt 64 (-1)) 4)) ∧
          (st.finished = false → exec (.pktget d a) s = .next s)) ∧
        (∀ seq p rest, x.withdrawn = none → st.queue = (seq, p) :: rest → p.length = 64 →
          Gives (exec (.pktget d a) s) fun z =>
            answers s z d (BitVec.ofNat 64 seq) ∧
            z.tasks = s.tasks.map (fun y => if y.id == t.id && y.order == t.order then
              (t.setStage k { st with queue := rest }).setGang { x with taken := x.taken ++ [seq] } else y) ∧
            (s.migqOn = false → r.void = false → u.shadowPlace r.pa = none → (∀ j, j < 64 → offEntry r (r.pa + j)) →
              readBytes z.mem r.pa 64 = p))) ∧
      (s.cur.getX b = BitVec.ofNat 64 (k + 1) → k + 1 < 16 → emits t (k + 1))) ∧
    (va = 0 ∨ s.stageOf s.turn = none → (s.cur.getX b).getLsbD 4 = false → Traps (exec (.pktemit d a b) s) s causePerm 0 11) ∧
    (∀ id, id < 2 ^ 32 → s.cur.getX b = BitVec.ofNat 64 (id * 2 ^ 32 + 16) → ∀ t, s.task id = some t →
      let gone := t.st ≠ .posted ∧ (t.typ ≠ 3 ∨ t.stages = [] ∨ t.st = .done)
      (t.asid ≠ s.cur.asid.toNat → Traps (exec (.pktemit d a b) s) s causePerm 0 11) ∧
      (t.asid = s.cur.asid.toNat →
        (t.st = .posted → exec (.pktemit d a b) s = .next s) ∧
        (gone → va = 0 → exec (.pktemit d a b) s = .next (wrote s d 0 4)) ∧
        (gone → va ≠ 0 → ∀ r, canRead s va 64 r → Gives (exec (.pktemit d a b) s) fun z => z.tasks = s.tasks ∧
          (packetKept (descAt s r 64) → answers s z d (BitVec.ofInt 64 (-2))) ∧
          (¬ packetKept (descAt s r 64) → answers s z d (BitVec.ofInt 64 (-3)))) ∧
        (t.st ≠ .posted → ¬ gone → emits t 0 ∧ (va = 0 → ∀ st, t.stages[0]? = some st →
          exec (.pktemit d a b) s = .next (wrote (s.setTask (t.setStage 0 st.close).settle) d 0 4)))))

/-! ### The vector and matrix queues -/

namespace Sys2Proof.Claims

/-- A permutation that writes one of its sources, which R205 and R206 forbid. -/
def overlapping (q : QOp) : Prop :=
  match q with
  | .slideUp d a _ _ => d = a
  | .slideDn d a _ _ => d = a
  | .gather d a b _ => d = a ∨ d = b
  | .compress d a _ => d = a
  | .expand d a _ => d = a
  | _ => False

/-- The current hart with an operation at the tail of a queue, with what R301 captures and the far granules that its words come from
(R87), and past its words. With both queues empty at PL0 nothing reads old versions of registers any more. -/
def holding (h : Hart) (q : QOp) : Hart :=
  let e : Entry :=
    { pc := h.pc, op := q, ops := (qSources q).map h.getX, vl := h.vl.toNat, vconf := h.vconf, rm := h.fpctl, seq := h.posted
      codeFar := h.codeFar }
  let h := if h.vq = [] ∧ h.mq = [] ∧ h.level = .pl0 then { h with old := [] } else h
  if qIsMatrix q then { h with mq := h.mq ++ [e], posted := h.posted + 1, pc := h.pc + BitVec.ofNat 64 q.bytes, codeFar := [] }
  else { h with vq := h.vq ++ [e], posted := h.posted + 1, pc := h.pc + BitVec.ofNat 64 q.bytes, codeFar := [] }

end Sys2Proof.Claims

/-- R301, R302, R234, R16: every queued instruction is posted alike. It traps VILL where it needs a configuration that is ill, ILLEGAL for a register at or
above NR, and waits while a scalar source is pending, its destination is pending in the other queue, its queue is full or an MSYNC is
posted; otherwise it is captured at the tail of its queue and the scalar stream goes on past it. A register that an access put off is
to write counts as pending. Before SEND and RSIG, which have the effect of FENCE.SV (R296), what is put off is performed first (R303). -/
def Sys2Proof.Claims.QueuesHoldInstructions : Prop :=
  ∀ (s : State) (w e : Nat) (q : QOp), decodeQueued w e = .ok q →
    let i := q.toInstr
    let u := if qFences q then s.performLate s.turn else s
    let h := u.cur
    let room := if qIsMatrix q then h.mq.length < 64 else h.vq.length < 32
    let waits := h.anyPending (qSources q) = true ∨ h.crossPending q = true ∨ ¬ room ∨ ∃ f ∈ h.mq, f.op = .msync
    (overlapping q → Traps (exec i s) s causeIllegal 0 0) ∧
    (¬ overlapping q →
      (qNeedsConfig q = true → vcIll h.vconf = true → Traps (exec i s) u causeVill 0 0) ∧
      (¬ (qNeedsConfig q = true ∧ vcIll h.vconf = true) →
        (u.qIllegal s.turn q = true → Traps (exec i s) u causeIllegal 0 0) ∧
        ((∃ r ∈ qVregs q, vcNr h.vconf ≤ r.toNat) → u.qIllegal s.turn q = true) ∧
        (u.qIllegal s.turn q = false →
          (waits → exec i s = .next u) ∧
          (¬ waits → s.eager = false → exec i s = .next (u.setCur (holding h q))))))

/-- R82, R84, R172, R161, R162: events of the vector pipe, while the core's clock runs. A probe marks the oldest unprobed memory instruction with the places it found (R71), or leaves its
trap due and nothing else changed but for a due cause of a poisoned block that its walks read (R48); a probed load's data land; the stream engine walks ahead of a bound stream without any other effect. The lane
allocator fixes its oldest request's grant; a reshape ends once the hart's queues are empty, and the registers are zero when EW or NR
changes. -/
def Sys2Proof.Claims.VectorPipeEvents : Prop :=
  ∀ (s : State) (g k sn n : Nat) (e : Entry) (rest : List Entry),
    let h := s.hart g
    let only := fun (i : Instr) (h' : Hart) => exec i s = .next (s.setHart g h')
    let seen := s.setHart g (h.asSeen e.seq)
    (s.queuesHeld g = false → h.vq = e :: rest → h.mq = [] → (∀ f ∈ rest, e.seq < f.seq) →
      qIsVmem e.op = true → e.probed = false →
      (∀ r, seen.probeVector g e = .error r → let v := s.trapWalks g r
        exec (.vectorProbe g) s = .next (v.setHart g { v.hart g with trapDue := some r })) ∧
      (∀ ps, seen.probeVector g e = .ok ps →
        only (.vectorProbe g) { h with vq := { e with probed := true, pieces := ps } :: rest })) ∧
    ((∀ f ∈ h.vq, qIsVmem f.op = true → f.probed = true) → exec (.vectorProbe g) s = .next s) ∧
    (h.vq[k]? = some e → (∀ j f, h.vq[j]? = some f → f.seq = e.seq → j = k) →
      (qIsLoad e.op = true → e.probed = true → s.stopped g = false →
        only (.loadDataArrival g k) { h with vq := h.vq.set k { e with landed := true } }) ∧
      (qIsLoad e.op = false ∨ e.probed = false ∨ s.stopped g = true → exec (.loadDataArrival g k) s = .next s)) ∧
    ((h.stream sn).bound = false ∨ s.stopped g = true → exec (.streamPrefetch g sn) s = .next s) ∧
    ((h.stream sn).bound = true → s.stopped g = false → ∃ ahead m, only (.streamPrefetch g sn)
      (h.setStream sn { h.stream sn with ahead := ahead, prefetched := m }) ∧ m ≤ (h.stream sn).desc.total - (h.stream sn).pos.toNat ∧
      ahead.length ≤ 4 ∧ ((h.stream sn).desc.isStore = true → m = 0)) ∧
    ((s.core n).laneQ = [] → exec (.laneAllocatorServe n) s = .next s) ∧
    (∀ more r, s.islandStopped (n / 2) = false → (s.core n).laneQ = g :: more → s.laneReleasing n = false → h.laneReq = some r →
      exec (.laneAllocatorServe n) s = .next ((s.setCore n { s.core n with laneQ := more }).setHart g
        { h with laneReq := some { r with grant := some (min r.lanes (h.lshare.toNat + s.lanesFor g)) } })) ∧
    (h.laneReq = none → exec (.reshapeComplete g) s = .next s) ∧
    (∀ r l, h.laneReq = some r → r.grant = some l → l ≤ 16 → r.ew < 2 → r.nr < 4 → r.gc < 4 →
      let w := if r.ew = 0 then 32 else 16
      let len := lengthOf (s.core (coreOf g)).vrb (8 * 2 ^ r.nr) w l
      let same := bits h.vconf.toNat 3 0 = r.ew + 4 * r.nr
      (h.vq ≠ [] ∨ h.mq ≠ [] → ¬ (same ∧ vcLanes h.vconf = l) → exec (.reshapeComplete g) s = .next s) ∧
      (s.stopped g = false → h.vq = [] → h.mq = [] → Gives (exec (.reshapeComplete g) s) fun t =>
        let u := t.hart g
        (u.pc = h.pc + 8 ∧ u.laneReq = none ∧ u.lshare.toNat = l ∧ u.vl = BitVec.ofNat 32 len ∧
          (∀ q, u.getX q = if q = r.rd ∧ q ≠ 0 then BitVec.ofNat 64 len else h.getX q)) ∧
        (vcIll u.vconf = false ∧ vcEw u.vconf = w ∧ vcNr u.vconf = 8 * 2 ^ r.nr ∧ vcLanes u.vconf = l ∧ vcG u.vconf = 2 ^ r.gc) ∧
        (¬ same → u.vregs = [] ∧ u.masks = []) ∧
        (same → vcLanes h.vconf = l → u.vregs = h.vregs ∧ u.masks = h.masks) ∧
        t = s.setHart g u))

namespace Sys2Proof.Claims

/-- Where an elementwise entry stops that nothing goes before and that may go to element `upto`: at its end, or at the last boundary
of an element group of 256 bits below its last element (R378). -/
def stopsAt (e : Entry) (upto : Nat) : Nat :=
  if e.vl ≤ upto then e.vl else min upto (e.vl - 1) / (256 / vcEw e.vconf) * (256 / vcEw e.vconf)

/-- The operations of the lanes and of vector memory whose admission is stated: an elementwise one, and the loads and stores. -/
def throughThePipe (q : QOp) : Prop :=
  match q with
  | .bin .. => True
  | .ld .. => True
  | .ldSeq .. => True
  | .ldx .. => True
  | .sld .. => True
  | .st .. => True
  | .stSeq .. => True
  | .stx .. => True
  | _ => False

end Sys2Proof.Claims

open Classical in
/-- R167, R169, R170, R172, R378, R379: an admission of an elementwise entry with no other instruction in flight. It writes the active elements from
the start index up to where it stops, raises their flags, and either leaves its queue, its tail zero and EIDX 0 at PL0, or stays, in flight, with
the new start index; with no group of elements to run it is only in flight. An admission of the rest then leaves what one of the
whole would have left. Where work is not eager, the probe, the landing and the admission of a posted elementwise instruction, load or store leave
what eager work leaves at once (log entry 4). -/
def Sys2Proof.Claims.VectorAdmissionGoesOn : Prop :=
  (∀ (s : State) (g upto : Nat) (e : Entry) (op : BinOp) (d a b : VReg) (m : MReg),
    let h := s.hart g
    let w := vcEw e.vconf
    let old := fun (v : VReg) k => elem (h.vreg v.toNat) w k
    let stop := stopsAt e upto
    let whole := e.vl ≤ upto
    let live := fun k => e.eidx ≤ k ∧ k < stop ∧ (m = 0 ∨ bit (h.mreg m.toNat) k = true)
    s.queuesHeld g = false → h.vq = [e] → h.mq = [] → h.old = [] → (op = .add ∨ op = .fadd) → e.op = .bin op d a (.vec b) m →
      let sum := fun k => if op = .add then ((old a k + old b k) % 2 ^ w, 0)
        else (elFmt w).add e.rm.toNat ((elFmt w).value (old a k)) ((elFmt w).value (old b k))
      (whole ∨ e.eidx < stop → Gives (exec (.vectorAdmission g 0 upto) s) fun t =>
        let u := t.hart g
        (t = s.setHart g { h with
            vregs := u.vregs, fpstat := u.fpstat, vq := if whole then [] else [{ e with eidx := stop, admitted := true }]
            eidx := if whole ∧ h.level = .pl0 then 0 else h.eidx }) ∧
        (∀ v, v ≠ d.toNat → u.vreg v = h.vreg v) ∧
        (e.vl = 0 → u.vreg d.toNat = h.vreg d.toNat) ∧
        (e.vl ≠ 0 → ∀ k, elem (u.vreg d.toNat) w k =
          if whole ∧ e.vl ≤ k then 0 else if live k then (sum k).1 else old d k) ∧
        (∀ j, j < 6 → (u.fpstat.getLsbD j = true ↔
          h.fpstat.getLsbD j = true ∨ ∃ k, live k ∧ e.vl ≠ 0 ∧ (sum k).2.testBit j = true)) ∧
        (∀ rest, e.vl ≤ rest → ¬ whole → exec (.vectorAdmission g 0 rest) t = exec (.vectorAdmission g 0 rest) s)) ∧
      (¬ whole → stop ≤ e.eidx →
        exec (.vectorAdmission g 0 upto) s = .next (s.setHart g { h with vq := [{ e with admitted := true }] }))) ∧
  (∀ (s t u : State) (w x upto : Nat) (q : QOp), decodeQueued w x = .ok q → throughThePipe q →
    s.eager = false → s.cur.vq = [] → s.cur.mq = [] → s.cur.late = [] → (s.cur.level = .pl0 ∨ s.cur.old = []) →
    exec q.toInstr s = .next t → t.cur.vq ≠ [] → t.queuesHeld s.turn = false → s.cur.vl.toNat ≤ upto →
    exec q.toInstr { s with eager := true } = .next u → u.cur.vq = [] →
      Gives (exec (.vectorProbe s.turn) t) fun t1 => Gives (exec (.loadDataArrival s.turn 0) t1) fun t2 =>
        exec (.vectorAdmission s.turn 0 upto) t2 = .next { u with eager := false })

/-! ### Errors, refresh, thermal behaviour -/

namespace Sys2Proof.Claims

/-- Bank b has taken an error (R393, Table 18-4), and nothing else has changed. -/
def logs (s t : State) (b : Nat) (uc : Bool) (source addr info : Nat) : Prop :=
  let k := s.bank b
  let n := min (k.count + 1) (2 ^ 32 - 1)
  let fill := fun (ovf : Bool) =>
    ({ v := true, uc := uc, ovf := ovf, source := source, count := n, addr := addr, info := info, time := s.time } : ErrBank)
  t = { s with banks := t.banks } ∧ (∀ b', b' ≠ b → t.bank b' = s.bank b') ∧
  (k.v = false → t.bank b = fill k.ovf) ∧
  (k.v = true → uc = true ∧ k.uc = false → t.bank b = fill true) ∧
  (k.v = true → ¬ (uc = true ∧ k.uc = false) → t.bank b = { k with ovf := true, count := n })

/-- The same for an outcome. -/
def Logs (o : Out) (s : State) (b : Nat) (uc : Bool) (source addr info : Nat) : Prop :=
  Gives o fun t => logs s t b uc source addr info

/-- INFO of an error record (Table 18-2). -/
def infoOf (asid lane position : Nat) : Nat := asid % 65536 * 2 ^ 32 + lane % 256 * 256 + position % 256

end Sys2Proof.Claims

/-- R392 to R394, R174, R175, R391: what a detected error leaves in its bank. A slice that parity rebuilds and an element group computed
again are corrected errors of sources 3 and 4 in the core's bank, found while the island's clock runs (R398, R399); an Ethernet link error is of
source 13; CLR empties a bank, so that the next error fills it with COUNT 1. A slice that cannot be rebuilt is uncorrectable, and its
context gets an UNCORRECTABLE cause. -/
def Sys2Proof.Claims.ErrorsFillTheirBanks : Prop :=
  ∀ (s : State) (g n lane port b : Nat) (uc rebuilt : Bool) (info : Word),
    let still := fun (p : Nat) => s.thermal ≠ .normal ∨ (s.pair p).busy = true ∨ (s.pair p).current = 3
    (still (g / 8) → ∀ second, exec (.parityRebuild g lane second) s = .next s) ∧
    (still (n / 2) → exec (.laneGroupReexecution n lane rebuilt) s = .next s) ∧
    (¬ still (g / 8) →
      Logs (exec (.parityRebuild g lane false) s) s (g / 4) false 3 0 (infoOf (s.hart g).asid.toNat lane 0)) ∧
    (¬ still (n / 2) →
      Logs (exec (.laneGroupReexecution n lane rebuilt) s) s n false 4 0 (infoOf ((s.core n).owner.getD 0xFFFF) lane 0)) ∧
    Logs (exec (.ethernetLinkError port uc info) s) s (146 + port) uc 13 0 info.toNat ∧
    (Gives (exec (.errorBankClear b) s) fun t =>
      t = { s with banks := t.banks } ∧ t.bank b = {} ∧ (∀ b', b' ≠ b → t.bank b' = s.bank b') ∧
      ((t.logError b uc 3 0 0).bank b).count = 1) ∧
    (¬ still (g / 8) → Gives (exec (.parityRebuild g lane true) s) fun t =>
      t.bank (g / 4) = (s.bank (g / 4)).add true 3 0 (infoOf (s.hart g).asid.toNat lane 0) s.time ∧ t.mem = s.mem ∧
      ((s.hart g).run = .running → (s.ctx (s.hart g).asid.toNat).ending = none →
        (∃ e, (t.ctx (s.hart g).asid.toNat).ending = some e ∧ e.cause = causeUncorrectable ∧ e.imprecise = true ∧ e.hart = g) ∧
        ((s.hart g).imprecise = none → ∃ r, (t.hart g).imprecise = some r ∧ r.cause = causeUncorrectable ∧ r.fatal = true)))

/-- R47, R48, R59: a scrub leaves a clean block alone, logs a corrected symbol, poisons and logs an uncorrectable block with its
page, and says nothing of one that three or more wrong symbols have changed unseen. A refresh window that comes while a held-row request is outstanding is deferred; it opens, and closes when its rows have
reopened; neither happens during a thermal emergency, in which the HBM refreshes itself (R399). Above 85 °C the short interval is in force. -/
def Sys2Proof.Claims.RefreshAndScrub : Prop :=
  ∀ (s : State) (bank block symbol : Nat) (behind above : Bool),
    let window := fun (o : Out) (r : Refresh) => Gives o fun t =>
      t = { s with refresh := t.refresh } ∧ t.refreshOf bank = r ∧ ∀ b, b ≠ bank → t.refreshOf b = s.refreshOf b
    exec (.junctionTemperature85C above) s = .next { s with hot := above } ∧
    (∀ found, exec (.scrub block .clean) s = .next s ∧ (s.thermal ≠ .normal →
      exec (.refreshWindow bank behind) s = .next s ∧ exec (.refreshWindowClose bank) s = .next s ∧
      exec (.scrub block found) s = .next s)) ∧
    (s.thermal = .normal →
    window (exec (.refreshWindow bank behind) s)
      (if s.refreshOf bank = .opened ∨ behind = false then .opened else .deferred) ∧
    window (exec (.refreshWindowClose bank) s) (if s.refreshOf bank = .opened then .closed else s.refreshOf bank) ∧
    (Gives (exec (.scrub block (.corrected symbol)) s) fun t =>
      logs s { t with corrected := s.corrected } (132 + stackOf (64 * block)) false 1 (64 * block) (infoOf 0xFFFF 0 symbol) ∧
      t.corrected = (block / 1024, s.time) :: s.corrected) ∧
    (Gives (exec (.scrub block .uncorrectable) s) fun t =>
      logs s { t with poison := s.poison, ucPages := s.ucPages } (132 + stackOf (64 * block)) true 1 (block / 1024 * 65536) (infoOf 0xFFFF 0 0) ∧
      (∀ b, b ∈ t.poison ↔ b ∈ s.poison ∨ b = block) ∧ ∀ p, p ∈ t.ucPages ↔ p ∈ s.ucPages ∨ p = block / 1024) ∧
    (∀ bs : List Byte, bs.length = 64 → 3 ≤ symbolsApart bs (readBytes s.mem (64 * block) 64) →
      exec (.scrub block (.undetected bs)) s = .next { s with mem := writeBytes s.mem (64 * block) bs }))

/-- R399 to R401: a reading of 105 °C gates every clock, so that no hart makes a step; still hot after 1 ms, every cluster's awake
budget goes to 0 and power gating follows. Below 95 °C the clocks restart with every event latch set, and after power gating every
core owes its retention sweep, which holds it back. A sweep that finds a mismatch sends a core that has not been removed to its logic test, with
source 9 in its bank; a core that passes the test is offered again. -/
def Sys2Proof.Claims.ThermalEmergencies : Prop :=
  ∀ (s : State) (n : Nat),
    (exec .thermalEmergency s = .next (if s.thermal = .normal then { s with thermal := .gated } else s)) ∧
    (s.thermal ≠ .normal → s.agenda = [] → s.cur.run = .running → step s = .next s) ∧
    (s.thermal = .gated → (Gives (exec .thermalRetentionTimeout s) fun t =>
        t.thermal = .retention ∧ t.harts = s.harts ∧ t.mem = s.mem ∧ ∀ c, c < 4 → (t.cluster c).engawake = 0 ∧ (t.cluster c).awakeCount = 0)) ∧
    (s.thermal ≠ .gated → exec .thermalRetentionTimeout s = .next s) ∧
    (Gives (exec .thermalRecovery s) fun t =>
      t.thermal = .normal ∧
      (s.thermal = .normal → t = s) ∧
      (s.thermal ≠ .normal → ∀ g, g < 512 → t.hart g = { s.hart g with latch := true }) ∧
      (s.thermal = .gated → t.cores = s.cores) ∧
      (s.thermal = .retention → ∀ k, k < 128 → t.core k = { s.core k with sweep := true })) ∧
    ((s.core n).sweep = false ∨ s.thermal ≠ .normal → ∀ bad, exec (.retentionSweep n bad) s = .next s) ∧
    ((s.core n).sweep = true → s.thermal = .normal →
      exec (.retentionSweep n false) s = .next (s.setCore n { s.core n with sweep := false }) ∧
      ((s.core n).health = .retired → exec (.retentionSweep n true) s = .next (s.setCore n { s.core n with sweep := false })) ∧
      ((s.core n).health ≠ .retired → Gives (exec (.retentionSweep n true) s) fun t =>
        (t.core n).health = .testing ∧ (t.core n).sweep = false ∧ t.mem = s.mem ∧
        t.bank n = (s.bank n).add true 9 0 (infoOf ((s.contextsOn n).headD 0xFFFF) 0 0) s.time ∧
        ∀ a ∈ s.contextsOn n, (t.ctx a).ending.isSome = true)) ∧
    ((s.core n).health ≠ .testing ∨ s.thermal ≠ .normal → ∀ ok, exec (.logicTestComplete n ok) s = .next s) ∧
    ((s.core n).health = .testing → s.thermal = .normal →
      exec (.logicTestComplete n true) s = .next (s.setCore n { s.core n with health := .offered }) ∧
      Gives (exec (.logicTestComplete n false) s) fun t =>
        t.bank n = (s.bank n).add true 10 0 (infoOf 0xFFFF 0 0) s.time ∧
        (t.core n).health = (if 0 < s.spares.toNat / 4 ^ (n / 32) % 4 then .offered else .retired))

/-- R402, Table 18-10: the energy count grows modulo 2^64 and a wrap sets WRAP, which stays until 1 is written to it. A read of ENERGYLO
returns the low half and latches the high half of the same count, which a later change of the count does not touch. -/
def Sys2Proof.Claims.EnergyWindow : Prop :=
  ∀ (s : State) (n : Nat) (v : Word),
    exec (.energyUpdate n) s = .next { s with
      energy := s.energy + BitVec.ofNat 64 n
      energyWrap := s.energyWrap || decide (2 ^ 64 ≤ s.energy.toNat + n) } ∧
    exec .energyloRead s = .next { s with
      energyHi := (s.energy >>> 32).setWidth 32
      out := s.out ++ [.energyLow (s.energy.toNat % 2 ^ 32)] } ∧
    exec (.energyWrapClear v) s = .next { s with energyWrap := s.energyWrap && !v.getLsbD 0 } ∧
    (∀ t, exec (.energyUpdate n) s = .next t → t.energyHi = s.energyHi)

/-- R398, Table 18-8, R88, R371, R394: a write of ISLANDOP with a new target starts a change, during which the island's harts make no step; when the bias has
settled the target is the point in force. MIGQBASE takes its base only while EN is 0; POSBASE takes an address aligned to 4 MiB;
CLR written to the first doubleword of an error bank clears it. Which addresses hold a plain register, and that HOLDCTL, ISLANDOP,
MIGQBASE and WRAP are written by rows of their own, is the model's convention. -/
def Sys2Proof.Claims.DeviceRegisterWrites : Prop :=
  ∀ (s : State) (i addr : Nat) (v : Word),
    let p := s.pair i
    (Gives (exec (.islandopWrite i v) s) fun t =>
      t = { s with pairs := t.pairs } ∧ (∀ j, j ≠ i → t.pair j = s.pair j) ∧
      t.pair i = { p with target := v.toNat % 4, busy := p.busy || decide (v.toNat % 4 ≠ p.current) } ∧
      ((t.pair i).busy = true → pairOf t.turn = i → t.agenda = [] → step t = .next t)) ∧
    (p.busy = true → Gives (exec (.opChangeComplete i) s) fun t =>
      t = { s with pairs := t.pairs } ∧ (∀ j, j ≠ i → t.pair j = s.pair j) ∧
      t.pair i = { p with current := p.target, busy := false }) ∧
    (p.busy = false → exec (.opChangeComplete i) s = .next s) ∧
    exec (.migqbaseWrite v) s = .next { s with
      migqbase := (if s.migqbase.getLsbD 0 then s.migqbase &&& 0xFFFFFFF0000 else v &&& 0xFFFFFFF0000) ||| v &&& 1 } ∧
    exec (.deviceRegisterWrite 0xF0000030000 v) s = .next { s with posbase := v &&& 0xFFFFFC00000 } ∧
    (∀ b, b < 148 → exec (.deviceRegisterWrite (0xF0000040000 + 32 * b) v) s = .next (if v.getLsbD 60 then s.clearBank b else s)) ∧
    (0xF0000010000 ≤ addr → addr < 0xF0000090000 → addr ≠ 0xF0000030000 →
      (addr < 0xF0000040000 ∨ 0xF0000040000 + 32 * 148 ≤ addr ∨ addr % 32 ≠ 0) → exec (.deviceRegisterWrite addr v) s = .next s) ∧
    (0xF0000090000 ≤ addr → addr < Config.physEnd → Gives (exec (.deviceRegisterWrite addr v) s) fun t =>
      t = { s with devRegs := t.devRegs } ∧ tget t.devRegs (addr / 8) 0 = v ∧
      ∀ k, k ≠ addr / 8 → tget t.devRegs k 0 = tget s.devRegs k 0)

/-! ### Tasks and placement -/

namespace Sys2Proof.Claims

open Classical in
/-- Every task that can be ready is (R335): its counter is 0, its edges are released, and every earlier packet of its context has been
read when it has a footprint. -/
noncomputable def readied (s : State) : State :=
  { s with tasks := s.tasks.map (fun t =>
      if t.st = .waiting ∧ t.dep = 0 ∧ t.edges = [] ∧
          (t.regions = [] ∨ ∀ u ∈ s.tasks, u.asid = t.asid → u.order < t.order → u.st ≠ .posted) then
        { t with st := .ready, readyAt := s.time - s.paused
                 stages := t.stages.map (fun x => { x with readyAt := s.time - s.paused }) }
      else t) }

/-- The task of an identifier. -/
def isTask (s : State) (id : Nat) (t : Task) : Prop := s.tasks.find? (fun t => t.id == id) = some t

/-- The same tasks but for one, which is replaced. -/
def tasksBut (s : State) (t' : Task) : List Task :=
  s.tasks.map (fun u => if u.id == t'.id && u.order == t'.order then t' else u)

/-- A level after a wait at it (R341). -/
def raisedLevel (level readyAt now : Nat) : Nat × Nat :=
  if level < 7 ∧ 1000 * 2 ^ (12 + level) ≤ now - readyAt then (level + 1, now) else (level, readyAt)

/-- The control block of a queue records a refusal of position pos with a reason (R332, Table 15-3), and HEAD stands at `head`. -/
def refusedAt (t : State) (ctl pos reason head : Nat) : Prop :=
  readNat t.mem (ctl + 8) 8 = head % 2 ^ 64 ∧ readNat t.mem (ctl + 0x20) 8 = pos % 2 ^ 64 ∧
  readNat t.mem (ctl + 0x2C) 1 = reason % 256

/-- The Confluence takes a packet of queue q in: intake is open, the queue and its context live, without ERR, and there are fewer than
65,536 tasks (R329, R330, R407). -/
def takesIn (u : State) (q : Nat) : Prop :=
  let w := u.queue q
  u.intakeOpen = true ∧ w.live = true ∧ w.closing = false ∧ u.queueErr w = false ∧ (u.ctx w.asid).live = true ∧
    (u.tasks.filter (fun t => t.st != .posted)).length < 65536

/-- Whether two tasks have regions that overlap, of which one is written (R337). -/
def overlap (t v : Task) : Bool :=
  t.regions.any (fun a => v.regions.any (fun b =>
    (a.wr || b.wr) && decide (a.base < b.base + b.len) && decide (b.base < a.base + a.len)))

/-- The tasks once a packet has been taken in as task v, which waits for the earlier tasks that it overlaps, and for the wait tasks of its
queue; a later task that it overlaps waits for it (R334, R335, R337). -/
noncomputable def takenIn (u : State) (v : Task) : List Task :=
  let before := u.tasks.filter (fun x => x.asid == v.asid && x.order != v.order && x.st != .posted && decide (x.order < v.order) &&
    x.reason == 0 && (overlap x v || (x.queue == v.queue && x.typ == 2)))
  let tasks := (tasksBut u { v with edges := before.map (fun x => x.order) }).map (fun x =>
    if x.asid = v.asid ∧ v.order < x.order ∧ x.st = .waiting ∧ overlap v x = true then { x with edges := x.edges ++ [v.order] } else x)
  (readied { u with tasks := tasks }).tasks

/-- What a gang's pre-emption leaves of it: its harts at PL1 at TRAPVEC with PREEMPT set and cause 0 (R381, R371). -/
def gangStopped (s t : State) (w : Task) (x : Gang) : Prop :=
  ∀ g ∈ x.harts, s.onGang w x g = true →
    (t.hart g).level = .pl1 ∧ (t.hart g).pc = (s.hart g).trapvec ∧ (t.hart g).scalarpc = (s.hart g).pc ∧
    (t.hart g).trapcause = 0 ∧ (t.hart g).trapstat.getLsbD 1 = true ∧ (t.hart g).vq = [] ∧ (t.hart g).mq = []

/-- The clock of some core of a gang stands still (R398, R399). -/
def standsStill (s : State) (x : Gang) : Prop :=
  ∃ n ∈ x.cores, s.thermal ≠ .normal ∨ (s.pair (n / 2)).busy = true ∨ (s.pair (n / 2)).current = 3

/-- A gang whose harts can all stop at once. -/
def stoppable (s : State) (w : Task) (x : Gang) : Prop :=
  x.preempted = false ∧ s.millHolds w x = false ∧ s.gangMills w x = [] ∧ s.imageOk = true ∧ s.trust.updating = none ∧
  ¬ standsStill s x ∧
  ∀ g ∈ x.harts, s.onGang w x g = true →
    (s.hart g).run = .running ∧ (s.hart g).level = .pl0 ∧ (s.hart g).trapDue = none ∧ (s.hart g).imprecise = none ∧
    (s.hart g).budgetDue = false ∧ g < Config.harts ∧ nothingInFlight s g

end Sys2Proof.Claims

/-- R329, R332, R335, R399, R407: but for a thermal emergency, the Confluence takes in the oldest posted packet of a queue while intake is open, the queue lives without ERR
and fewer than 65,536 tasks exist. A packet with a reason against it is refused: its task is done, and the control block records the
position and the reason. A packet without a footprint becomes a task that waits for DEPS less the early decrements and for the earlier
wait tasks of its queue. HEAD moves past it. -/
def Sys2Proof.Claims.PacketsAreTakenIn : Prop :=
  ∀ (s : State) (q : Nat) (supply : PageSupply) (t : Task),
    let u := s.notePosts
    let w := u.queue q
    let p := readBytes u.mem (w.slot t.pos) 128
    let ready := takesIn u q
    (s.thermal ≠ .normal → exec (.packetIntake q supply) s = .next s) ∧
    (s.thermal = .normal → ¬ ready → exec (.packetIntake q supply) s = .next u) ∧
    (s.thermal = .normal → ready → (∀ t ∈ u.tasks, t.queue = q → t.st ≠ .posted) → exec (.packetIntake q supply) s = .next u) ∧
    (s.thermal = .normal → ready → u.tasks.find? (fun t => t.queue == q && t.st == .posted) = some t → w.ctl + 64 ≤ Config.hbmBytes →
      u.poisoned (w.slot t.pos) 128 = false →
      (∀ r, packetReason (u.ctx t.asid) u.workingCores p = some r →
        Gives (exec (.packetIntake q supply) s) fun z =>
          refusedAt z w.ctl t.pos r (u.queueHead w + 1) ∧ z.harts = u.harts ∧
          z.tasks = tasksBut u { t with pkt := p, typ := field p 0x7C 4, st := .done, reason := r }) ∧
      (packetReason (u.ctx t.asid) u.workingCores p = none → field p 0x48 8 = 0 →
        (field p 0x7C 4 = 2 ∨ field p 0x7C 4 = 0 ∧ field p 0x1C 2 / 8 % 2 = 0) → t.regions = [] →
        Gives (exec (.packetIntake q supply) s) fun z =>
          readNat z.mem (w.ctl + 8) 8 = (u.queueHead w + 1) % 2 ^ 64 ∧ z.harts = u.harts ∧
          let edges := (u.tasks.filter (fun v => v.asid == t.asid && v.order != t.order && v.st != .posted && v.order < t.order &&
            v.queue == t.queue && v.typ == 2 && v.reason == 0)).map (fun v => v.order)
          z.tasks = (readied { u with tasks := tasksBut u { t with
            pkt := p
            typ := field p 0x7C 4
            st := .waiting
            dep := field p 0x40 4 - t.early.length
            early := []
            edges := edges
            level := field p 0x1A 1 % 8 } }).tasks))

/-- R332, R334, R336, R337, R347: packets that name memory. A launch's footprint card is read, and refused with 11 when a used region has no
right or ends above 2^52, or when it cannot be read; a page that is absent and not supplied leaves the packet where it is. The regions,
a copy task's two streams among them, make the edges. A cascade's stage, of one record and its shape, is refused with 12 when a field
breaks its rule or cannot be read. -/
def Sys2Proof.Claims.PacketsNameMemory : Prop :=
  ∀ (s : State) (q : Nat) (supply : PageSupply) (t : Task), s.thermal = .normal →
    let u := s.notePosts
    let w := u.queue q
    let p := readBytes u.mem (w.slot t.pos) 128
    let num := fun (off n : Nat) => field p off n
    let held : Task := { t with
      pkt := p, typ := num 0x7C 4, st := .waiting, dep := num 0x40 4 - t.early.length, early := [], level := num 0x1A 1 % 8 }
    let o := exec (.packetIntake q supply) s
    let refused := fun (v : State) (r : Nat) => Gives o fun z =>
      refusedAt z w.ctl t.pos r (v.queueHead w + 1) ∧
      z.tasks = tasksBut u { t with pkt := p, typ := num 0x7C 4, st := .done, reason := r }
    takesIn u q → u.tasks.find? (fun t => t.queue == q && t.st == .posted) = some t → w.ctl + 64 ≤ Config.hbmBytes →
    u.poisoned (w.slot t.pos) 128 = false → packetReason (u.ctx t.asid) u.workingCores p = none →
      (num 0x7C 4 = 0 → num 0x48 8 ≠ 0 → num 0x1C 2 / 8 % 2 = 0 →
        (∀ f, u.readVirtual t.asid (num 0x48 8) 128 = .error f →
          (f.absent = true → supply = .absent → o = .next u) ∧
          (f.absent = false ∨ supply = .decline → refused u 11)) ∧
        (∀ v card, u.readVirtual t.asid (num 0x48 8) 128 = .ok (v, card) →
          let base := fun (j : Nat) => field card (16 * j) 8
          let len := fun (j : Nat) => field card (16 * j + 8) 4
          let rw_ := fun (j : Nat) => field card (16 * j + 12) 1
          let bad := ∃ j, j < 8 ∧ len j ≠ 0 ∧ (rw_ j = 0 ∨ 2 ^ 52 < base j + len j)
          (bad → refused v 11) ∧
          (¬ bad → Gives o fun z => z.tasks = takenIn u { held with
            regions := (List.range 8).filterMap (fun j => if len j = 0 then none else
              some { base := base j, len := len j, rd := bit (rw_ j) 0, wr := bit (rw_ j) 1 }) }))) ∧
      (num 0x7C 4 = 1 → ∀ v1 v2 a b, u.readVirtual t.asid (num 0 8) 64 = .ok (v1, a) →
        v1.readVirtual t.asid (num 8 8) 64 = .ok (v2, b) →
        Gives o fun z => z.tasks = takenIn u { held with
          regions := streamRegion (descOf a) false ++ streamRegion (descOf b) true }) ∧
      (num 0x7C 4 = 3 → num 0x48 8 = 0 → num 8 1 = 1 →
        (∀ f, u.readVirtual t.asid (num 0 8) 64 = .error f → f.absent = false ∨ supply = .decline → refused u 12) ∧
        (∀ v1 v2 r shape, u.readVirtual t.asid (num 0 8) 64 = .ok (v1, r) →
          v1.readVirtual t.asid (field r 0 8) 128 = .ok (v2, shape) →
          let cap := field r 8 4
          let ming := field r 0xC 2
          let maxg := field r 0xE 2
          let thresh := field r 0x10 1
          let good := (∃ k, 4 ≤ k ∧ k ≤ 16 ∧ cap = 2 ^ k) ∧ 1 ≤ ming ∧ ming ≤ maxg ∧ maxg ≤ 512 ∧ thresh ≤ 8 ∧
            (∀ i, 0x11 ≤ i → i < 0x40 → field r i 1 = 0) ∧ launchReason (v2.ctx t.asid) v2.workingCores shape true = none
          (¬ good → refused v2 12) ∧
          (good → Gives o fun z => z.tasks = takenIn u { held with
            stages := [{ shape := shape, level := field shape 0x1A 1, cap := cap, ming := ming, maxg := maxg, thresh := thresh
                         wanted := ming }] })))

/-- R335, R341: what the passing of time does to a task. A task whose dependences and edges are gone becomes ready; one that has been
ready at a level below 7 for 2^(12 + level) µs without a gang placed rises one level and waits anew, a cascade stage by stage. -/
def Sys2Proof.Claims.TasksRiseByLevel : Prop :=
  ∀ (s : State) (id : Nat), s.thermal = .normal →
    let u := readied s
    let now := s.time - s.paused
    ((∀ t ∈ s.tasks, t.id ≠ id) → exec (.taskLevelAging id) s = .next u) ∧
    (∀ t, isTask u id t →
      let l := if t.offers = true then raisedLevel t.level t.readyAt now else (t.level, t.readyAt)
      Gives (exec (.taskLevelAging id) s) fun z =>
        z = { u with tasks := z.tasks } ∧
        ∃ t', z.tasks = tasksBut u t' ∧ t' = { t with level := l.1, readyAt := l.2, stages := t'.stages } ∧
          t'.stages.length = t.stages.length ∧
          ∀ k x, t.stages[k]? = some x →
            let m := if t.stageOffers k = true then raisedLevel x.level x.readyAt now else (x.level, x.readyAt)
            t'.stages[k]? = some { x with level := m.1, readyAt := m.2 })

/-- R334, R338, R110: a wait task whose word is at or below LIMIT is done, and otherwise goes on waiting; a ready copy task puts its copy in flight,
or is refused with 12 for descriptors that no copy can have; a task that is over decrements DONE as SIGDEC does, and releases its edges. -/
def Sys2Proof.Claims.TasksComplete : Prop :=
  ∀ (s : State) (id : Nat) (supply : PageSupply) (t : Task), s.thermal = .normal →
    let u := readied s
    let sp := u.taskSpace t.asid
    isTask u id t →
      (t.typ = 2 → t.st = .ready → ∀ r, u.signalAt sp .read (field t.pkt 0 8) = .ok r → r.void = false → r.taint = none →
        (u.assignPage r.leaf).poisoned r.pa 8 = false →
        let v := u.assignPage r.leaf
        let word := BitVec.ofNat 64 (readNat v.mem r.pa 8)
        (word.toInt ≤ (BitVec.ofNat 64 (field t.pkt 8 8)).toInt → Gives (exec (.waitTaskSatisfied id) s) fun z =>
          z.tasks = tasksBut u { t with st := .done } ∧ z.harts = s.harts ∧
          (s.migqOn = false → ∀ p, offEntry r p → readByte z.mem p = readByte v.mem p)) ∧
        ((BitVec.ofNat 64 (field t.pkt 8 8)).toInt < word.toInt → exec (.waitTaskSatisfied id) s = .next v)) ∧
      (¬ (t.typ = 2 ∧ t.st = .ready) → exec (.waitTaskSatisfied id) s = .next u) ∧
      (t.typ = 1 → t.st = .ready → ∀ v a b, u.copyDescs t = .ok (v, a, b) → v.tasks = u.tasks →
        let bad := (descFault a).isSome = true ∨ (descFault b).isSome = true ∨ (copyStreamFault (some (boundTo a)) (boundTo b)).isSome = true
        (bad → Gives (exec (.copyTaskStart id supply) s) fun z => z.tasks = tasksBut u { t with st := .done, reason := 12 }) ∧
        (¬ bad → s.eager = false → v.eager = false → b.declared ≠ 0 →
          Gives (exec (.copyTaskStart id supply) s) fun z =>
            z.mem = v.mem ∧ z.nextCopy = v.nextCopy + 1 ∧ z.tasks = tasksBut u { t with st := .running, copy := some v.nextCopy } ∧
            ∃ c, tfind z.copies v.nextCopy = some c ∧ c.sr = some a ∧ c.dst = b ∧
              c.declared = b.declared ∧ c.st = .running ∧ c.pos = 0 ∧ c.asid = t.asid ∧ c.flags = 0 ∧ c.task = some t.order)) ∧
      (u.taskOver t = false → exec (.taskComplete id supply) s = .next u) ∧
      (u.taskOver t = true →
        let left := (u.tasks.filter (fun v => v.order != t.order)).map
          (fun v => { v with edges := v.edges.filter (fun o => o != t.order) })
        (field t.pkt 0x38 8 = 0 ∨ field t.pkt 0x38 8 % 8 ≠ 0 → Gives (exec (.taskComplete id supply) s) fun z =>
          z.tasks = (readied { u with tasks := left }).tasks ∧ z.mem = s.mem ∧ z.harts = s.harts) ∧
        (field t.pkt 0x38 8 ≠ 0 → ∀ r, u.signalAt sp .atomic (field t.pkt 0x38 8) = .ok r → r.void = false →
          (∀ j, j < 8 → offEntry r (r.pa + j)) → s.migqOn = false →
          let old := BitVec.ofNat 64 (readNat (u.assignPage r.leaf).mem r.pa 8)
          Gives (exec (.taskComplete id supply) s) fun z =>
            BitVec.ofNat 64 (readNat z.mem r.pa 8) = old - 1 ∧ ∀ v ∈ z.tasks, v.order ≠ t.order))

/-- R333, R342, R343, R345: a placement opportunity with one launch gang to place, whose queue can pay for it. In the first cluster after the
one served last that has as many fit cores as the gang wants, the lowest of them take it, and on each the lowest free harts start: at ENTRY and PL0, with ARG
in x10, the gang's index in x11, every other register zero, and their place in TAGOWN's division, GANGPOS and GANGSIZE. Without an offer nothing is placed.
The model's own choices here: log entries 1, 5, 22, 56, 95, 100. -/
def Obligations.GangsArePlaced : Prop :=
  ∀ (s : State) (t : Task) (w : WorkQueue), s.thermal = .normal →
    let u := readied s
    let o : Offer := ⟨t, none, none, t.next, t.level, t.pkt⟩
    let c := (s.lastCluster + 1) % 4
    let n := shapeCores t.pkt
    let cores := (s.fitCores o c).take n
    ((∀ q l, u.queueOffer q l = none) → Gives (exec .gangPlacement s) fun z =>
      z.harts = s.harts ∧ z.cores = s.cores ∧ z.tasks = u.tasks ∧ z.mem = s.mem ∧ z.reserved = none ∧
      ∀ q ∈ z.queues, q.2.deficit = 0) ∧
    (s.tasks = [t] → s.queues = [(t.queue, w)] → s.reserved = none →
      t.st = .ready → t.typ = 0 → t.saved = [] → t.stages = [] → t.level < 8 → t.next + 1 = field t.pkt 0x10 4 →
      shapeCheck t.pkt < 2 → n ≤ w.share → n ≤ (s.fitCores o c).length → s.eager = true →
      Gives (exec .gangPlacement s) fun z =>
        z.lastCluster = c ∧ (∀ k ∈ cores, (z.core k).owner = some t.asid) ∧
        ∀ i k, cores[i]? = some k → ∀ j g, ((s.freeHarts k).take (shapeHarts t.pkt))[j]? = some g →
          let h := z.hart g
          h.run = .running ∧ h.level = .pl0 ∧ h.pc = BitVec.ofNat 64 (field t.pkt 0 8) ∧
          h.getX 10 = BitVec.ofNat 64 (field t.pkt 8 8) ∧ h.getX 11 = BitVec.ofNat 64 t.next ∧
          (∀ r : XReg, r ≠ 10 → r ≠ 11 → h.getX r = 0) ∧ h.fpstat = 0 ∧ h.fpctl = 0 ∧ h.vq = [] ∧ h.mq = [] ∧
          h.asid = BitVec.ofNat 16 t.asid ∧ h.ptbase = (s.ctx t.asid).root ∧ h.tbudget = BitVec.ofNat 64 (field t.pkt 0x30 8) ∧
          h.gangpos = BitVec.ofNat 64 (256 * i + j) ∧ h.gangsize = BitVec.ofNat 64 (256 * shapeHarts t.pkt + n))

/-- R371, R381, R383, R398, R416: a pre-emption stops every hart of a gang at PL1 with PREEMPT set and cause 0, unless the gang is
already going or its millrace may not be pre-empted, a live update runs, or the clock of one of its cores stands still. -/
def Sys2Proof.Claims.GangsArePreempted : Prop :=
  ∀ (s : State) (id k : Nat), s.thermal = .normal →
    ((∀ t ∈ s.tasks, t.id ≠ id) → exec (.preemptionRequest id k) s = .next s) ∧
    (∀ t x, isTask s id t → t.gangs[k]? = some x →
      (x.preempted = true ∨ s.millHolds t x = true ∨ s.trust.updating.isSome = true ∨ standsStill s x → exec (.preemptionRequest id k) s = .next s) ∧
      (stoppable s t x → Gives (exec (.preemptionRequest id k) s) fun z => gangStopped s z t x))

/-- R344: a reservation that has not lasted 100 µs, or whose candidate would not fit even if every gang that can
be displaced went, or fits once what is leaving has left, pre-empts nothing; where the one gang that can be displaced makes the candidate fit, it is stopped. -/
def Sys2Proof.Claims.ReservationsPreempt : Prop :=
  ∀ (s : State),
    let u := (readied s).checkReserved
    (u.reserved = none → exec .reservationPreemption s = .next u) ∧
    (∀ r o, u.reserved = some r → u.reservedOffer = some o →
      let below := u.displaceable r.cluster o.level
      let fits := fun (gone : List Gang) => o.cores ≤ ((u.without gone).fitCores o r.cluster).length
      (u.time - u.paused < r.since + 100000 ∨ ¬ fits (u.leaving ++ below.map (fun p => p.2)) →
        exec .reservationPreemption s = .next u) ∧
      (fits u.leaving → exec .reservationPreemption s = .next u) ∧
      (∀ t x, r.since + 100000 ≤ u.time - u.paused → below = [(t, x)] → ¬ fits u.leaving → fits (u.leaving ++ [x]) →
        s.thermal = .normal → stoppable u t x → Gives (exec .reservationPreemption s) fun z => gangStopped u z t x))

/-- R351, R352, R116: the ticks of a cascade. Once a tick the stages' held packets are flushed and, at another time in it, the gainer's stage gets a gang: the donor's latest one is
withdrawn for it, or one more is offered when no stage can give one up and a cluster has room. The end of a pool's zeroing offers its core. -/
def Sys2Proof.Claims.CascadeTicks : Prop :=
  ∀ (s : State) (id n : Nat) (t : Task), s.thermal = .normal →
    let tick := (s.time - s.paused) / 10000
    let calm := t.stages.map (fun x => { x with waited := false })
    ((s.core n).health = .zeroing → exec (.poolZeroingComplete n) s = .next (s.setCore n { s.core n with health := .offered })) ∧
    ((s.core n).health ≠ .zeroing → exec (.poolZeroingComplete n) s = .next s) ∧
    (isTask s id t →
      (tick ≤ t.flushedAt → exec (.compactionFlush id) s = .next s) ∧
      (t.flushedAt < tick → (∀ x ∈ t.stages, x.closed = false) → Gives (exec (.compactionFlush id) s) fun z =>
        z = { s with tasks := z.tasks } ∧
        z.tasks = tasksBut s { t with flushedAt := tick, stages := t.stages.map (fun x => x.compact) }) ∧
      (t.typ ≠ 3 ∨ t.st ≠ .ready ∨ tick ≤ t.balancedAt → exec (.cascadeRebalance id) s = .next s) ∧
      (t.typ = 3 → t.st = .ready → t.balancedAt < tick → Gives (exec (.cascadeRebalance id) s) fun z =>
        z = { s with tasks := z.tasks } ∧
        (t.gainer = none → z.tasks = tasksBut s { t with balancedAt := tick, stages := calm }) ∧
        (∀ k y j d x, t.gainer = some (k, y) → t.donor (k, y) = some (j, d) → t.lastGang j = some x →
          let mark := fun (g : Gang) => if g.placedAt = x.placedAt then { g with withdrawn := some k } else g
          z.tasks = tasksBut s { t with
            balancedAt := tick, stages := calm, gangs := t.gangs.map mark
            saved := t.saved.map (fun v => { v with gang := mark v.gang }) }) ∧
        (∀ k y, t.gainer = some (k, y) → t.donor (k, y) = none →
          (s.findPlace ⟨t, some k, none, y.placed, y.level, y.shape⟩).isSome = true →
          z.tasks = tasksBut s
            { t with balancedAt := tick, stages := calm.set k { y with
                waited := false, wanted := y.wanted + 1
                readyAt := if t.stageOffers k = true then y.readyAt else s.time - s.paused } })))

/-! ### Entries that are due, and the end of a context -/

namespace Sys2Proof.Claims

/-- What hart g enters PL1 with at its next boundary, if anything (R304, R371, R375, R382): a queued instruction's trap first, then an
imprecise cause, an exhausted budget and a pre-emption. -/
def dueAt (h : Hart) : Option TrapRec :=
  match h.trapDue, h.imprecise with
  | some r, _ => some r
  | none, some r => some { r with pc := h.pc }
  | none, none =>
    if h.budgetDue then some { cause := causeBudget, pc := h.pc }
    else if h.preemptDue then some { cause := 0, pc := h.pc, preempt := true }
    else none

/-- The record of an imprecise cause (R375). -/
def fatalCause (cause : Nat) (addr : Word) : TrapRec :=
  { cause := cause, pc := 0, addr := if cause = causeUncorrectable then addr else 0, imprecise := true, fatal := true }

/-- What a context's end leaves out of the state. -/
def gone (t : State) (asid : Nat) : Prop :=
  (t.ctx asid).live = false ∧ (∀ p ∈ t.copies, p.2.asid ≠ asid) ∧ (∀ w ∈ t.tasks, w.asid ≠ asid) ∧
  (∀ q ∈ t.queues, q.2.asid ≠ asid) ∧ (∀ r ∈ t.regions, r.2.asid ≠ asid) ∧
  (∀ n, (t.core n).owner ≠ some asid ∧ ∀ e ∈ (t.core n).tlb, e.asid ≠ asid) ∧
  (∀ b, (t.pair b).owner ≠ some asid)

end Sys2Proof.Claims

/-- R371, R375, R382, R304, R378: a hart at PL0 whose core's clock runs enters PL1 at its boundary with what is due, and else goes on:
what has been admitted runs on, and once it has, the hart enters from its stop point. BUDGET is due once the count has
passed to 0. A step of the hart takes such an entry before it fetches. -/
def Sys2Proof.Claims.EntriesAreTaken : Prop :=
  ∀ (s : State) (g : Nat),
    let enters := fun (o : Out) (r : TrapRec) (Q : State → Prop) =>
      let ran := s.ranOut g r
      (r.cause ≠ causePairMismatch ∧ ran.runsStill g = true → o = .next ran) ∧
      (r.cause = causePairMismatch ∨ ran.runsStill g = false → Gives o fun t => entered (ran.stopPoint g) t g r ∧ Q t)
    ((s.hart g).run ≠ .running ∨ s.stopped g = true → exec (.trapEntry g) s = .next s) ∧
    ((s.hart g).run = .running → s.stopped g = false → (s.hart g).level = .pl0 →
      (dueAt (s.hart g) = none → exec (.trapEntry g) s = .next s ∧ s.boundary g = none) ∧
      (∀ r, dueAt (s.hart g) = some r → canEnter s g →
        enters (exec (.trapEntry g) s) r (fun t => (t.hart g).trapDue = none) ∧
        (g = s.turn → s.goes = exec (.trapEntry g) s)) ∧
      ((s.hart g).budgetDue = true → (s.hart g).trapDue = none → (s.hart g).imprecise = none → canEnter s g →
        let r : TrapRec := { cause := causeBudget, pc := (s.hart g).pc }
        enters (exec (.budgetExhausted g) s) r (fun t => (t.hart g).budgetDue = false)) ∧
      ((s.hart g).budgetDue = false → exec (.budgetExhausted g) s = .next s))

/-- R382, Table 17-8: a budget counts the island cycles of a hart that runs at PL0, stops at 0 and is then due; a budget of 0 does not count. -/
def Sys2Proof.Claims.BudgetsCountCycles : Prop :=
  ∀ (h : Hart) (n : Nat),
    (h.tbudget = 0 ∨ h.level = .pl1 ∨ h.run ≠ .running → h.spend n = h) ∧
    (h.run = .running → h.level = .pl0 → h.tbudget ≠ 0 →
      (n < h.tbudget.toNat → h.spend n = { h with tbudget := BitVec.ofNat 64 (h.tbudget.toNat - n) }) ∧
      (h.tbudget.toNat ≤ n → h.spend n = { h with tbudget := 0, budgetDue := true }))

/-- R375, R387, R388: an imprecise cause becomes due at the hart it is delivered to, with IMPRECISE and FATAL, and the context's end is
noted. A failed check of mode 1, which an admitted instruction of the lanes makes, and a pair mismatch of mode 2 are recorded in the core's bank
and come to a hart in that mode alone, which makes no step at PL1 while one of them is due; an UNCORRECTABLE cause brings its virtual address, and the record of the context's end the
physical block that it translates to. -/
def Sys2Proof.Claims.ImpreciseCauses : Prop :=
  ∀ (s : State) (g cause : Nat) (addr : Word),
    let h := s.hart g
    let n := coreOf g
    let found := (cause = causeSilentError ∧ h.checkmode = 1 ∧ ∃ e ∈ h.vq, e.admitted = true ∧ qInLanes e.op = true) ∨ (cause = causePairMismatch ∧ h.checkmode = 2) ∨ cause = causeUncorrectable
    (h.run ≠ .running ∨ s.stopped g = true ∨ ¬ found → exec (.impreciseCauseDelivery g cause addr) s = .next s) ∧
    (s.agenda = [] → s.cur.run = .running → s.cur.level = .pl1 → ∀ r, s.cur.imprecise = some r →
      r.cause = causeSilentError ∨ r.cause = causePairMismatch → step s = .next s) ∧
    (h.run = .running → s.stopped g = false → found → Gives (exec (.impreciseCauseDelivery g cause addr) s) fun t =>
        (h.imprecise = none → t.hart g = { h with imprecise := some (fatalCause cause addr) }) ∧
        (∀ k, k ≠ g → t.hart k = s.hart k) ∧ t.mem = s.mem ∧
        ((s.ctx h.asid.toNat).ending = none → ∃ e, (t.ctx h.asid.toNat).ending = some e ∧ e.cause = cause ∧ e.hart = g ∧
          e.imprecise = true ∧ e.more = false ∧
          (cause = causeUncorrectable → ∀ r, s.probe (s.space g) .read addr.toNat = .ok r →
            e.page = BitVec.ofNat 64 (r.pa / 64 * 64))) ∧
        ((s.ctx h.asid.toNat).ending.isSome = true → (t.ctx h.asid.toNat).ending.isSome = true) ∧
        (cause = causeSilentError → t.bank n = (s.bank n).add true 6 0 (infoOf h.asid.toNat 0 0) s.time) ∧
        (cause = causePairMismatch → t.bank n = (s.bank n).add true 8 0 (infoOf h.asid.toNat 0 0) s.time) ∧
        (cause = causeUncorrectable → t.banks = s.banks ∧ t.cores = s.cores))

/-- R377, R116, Table 17-3: firmware ends a live context that has a context-ending event. Its harts stop, its tasks, queues, copies, regions and
cores go, its cluster SRAM is zero, and the end record stands at the context's address with the first event. -/
def Sys2Proof.Claims.ContextsEnd : Prop :=
  ∀ (s : State) (asid : Nat), asid < 65536 → s.thermal = .normal →
    ((s.ctx asid).live = false ∨ (s.ctx asid).ending = none → exec (.contextEnd asid) s = .next s) ∧
    (∀ e, (s.ctx asid).live = true → (s.ctx asid).ending = some e → Gives (exec (.contextEnd asid) s) fun t =>
      gone t asid ∧
      (∀ g, (g, s.hart g) ∈ s.harts → (s.hart g).asid.toNat = asid → (s.hart g).placed = true ∨ (s.hart g).task.isSome = true →
        (t.hart g).run = .idle ∧ (t.hart g).vq = [] ∧ (t.hart g).mq = [] ∧ (t.hart g).task = none) ∧
      ((s.ctx asid).endRec + 64 ≤ Config.hbmBytes → (∀ p ∈ s.pairs, p.2.mill.asid = asid → p.2.mill.ended = true) →
        (∀ g ∈ s.hartsOfCtx asid, (s.hart g).late = []) →
        let a := (s.ctx asid).endRec
        (readNat t.mem a 1 = e.cause % 256 ∧ bit (readNat t.mem (a + 1) 1) 0 = e.imprecise ∧
          bit (readNat t.mem (a + 1) 1) 1 = e.more ∧ readNat t.mem (a + 2) 2 = e.hart % 2 ^ 16 ∧
          readNat t.mem (a + 4) 4 = e.eidx % 2 ^ 32 ∧ readNat t.mem (a + 8) 8 = e.task % 2 ^ 64) ∧
        (readNat t.mem (a + 0x10) 8 = e.pc.toNat ∧ readNat t.mem (a + 0x18) 8 = e.addr.toNat ∧
          readNat t.mem (a + 0x20) 8 = e.info.toNat ∧ readNat t.mem (a + 0x28) 8 = e.page.toNat ∧
          readNat t.mem (a + 0x30) 8 = s.time % 2 ^ 64 ∧ readNat t.mem (a + 0x38) 8 = 0) ∧
        (∀ u ∈ (s.ctx asid).sram, u.1 < 4 → u.2 < 1024 → ∀ j, j < 65536 →
          readByte t.mem (Config.sramBase + u.1 * Config.sramBytes + u.2 * 65536 + j) = 0)))

/-- R319, R320: TIME at a multiple of 10,000 sets every hart's event latch. A YIELD's hold ends by its event, or once every other hart of the
core that runs and that no YIELD holds has had its turn; each turn is noted at the harts of the core that a YIELD holds. -/
def Sys2Proof.Claims.LatchesAndYields : Prop :=
  ∀ (s : State) (g : Nat),
    (s.time % 10000 ≠ 0 ∨ s.thermal ≠ .normal → exec .eventLatchTick s = .next s) ∧
    (s.time % 10000 = 0 → s.thermal = .normal → Gives (exec .eventLatchTick s) fun t =>
      t = { s with harts := t.harts } ∧ ∀ g, g < 512 → t.hart g = { s.hart g with latch := true }) ∧
    (s.stopped g = false → Gives (exec (.yieldExpiry g) s) fun t =>
      t = { s with harts := t.harts } ∧ t.hart g = { s.hart g with yielding := none } ∧ ∀ k, k ≠ g → t.hart k = s.hart k) ∧
    (s.stopped g = true → exec (.yieldExpiry g) s = .next s) ∧
    (∀ k, s.turnSeen.hart k = { s.hart k with
      yielding := if coreOf k = coreOf s.turn ∧ k ≠ s.turn then (s.hart k).yielding.map (fun l => s.turn :: l)
        else (s.hart k).yielding }) ∧
    (s.agenda = [] → s.cur.run = .running → s.stopped s.turn = false → (s.cur.level = .pl1 → s.cur.imprecise = none) → ∀ l, s.cur.yielding = some l →
      let waits := ∃ k, coreOf k = coreOf s.turn ∧ k ≠ s.turn ∧ (s.hart k).run = .running ∧ (s.hart k).yielding = none ∧ k ∉ l
      (waits → step s = .next s.turnSeen) ∧
      (¬ waits → step s = State.goes (s.turnSeen.setCur { s.cur with yielding := none })))

/-! ### Management requests -/

namespace Sys2Proof.Claims

/-- Management is open to an authorised session (R406, R410). -/
def managing (s : State) : Prop := s.trust.stage = .open ∧ s.trust.inSession = true

/-- An earlier write of the flash has completed. -/
def settled (s : State) : State := { s with trust := s.trust.commit }

/-- A request is answered with a status and a value, after some effect. -/
def replies (o : Out) (s : State) (code : Int) (value : Nat) : Prop := o = .next { s with out := s.out ++ [.status code value] }

/-- A request fails: nothing but the answer. -/
def fails (o : Out) (s : State) (code : Int) : Prop := replies o (settled s) code 0

/-- A request outside an authorised session is not performed, and has a negative status whose value stays free (log entry 66). -/
def turnedAway (o : Out) (s : State) : Prop :=
  ∃ v : Int, -7 ≤ v ∧ v ≤ -1 ∧ o = .next { s with fresh := s.fresh + 1, out := s.out ++ [.status v 0] }

/-- A signal word of HBM and a mirror record (Table 19-2). -/
def mirrorArgs (sig record : Word) : Prop :=
  sig.toNat % 8 = 0 ∧ sig.toNat < Config.hbmBytes ∧ record.toNat % 32 = 0 ∧ record.toNat < Config.hbmBytes

end Sys2Proof.Claims

/-- R406, R407, R414, Table 19-2: a management request that comes before the device is open has no effect. One outside an authorised session, and any of
these in recovery, is not performed and is answered with a negative status, one of −1 to −7 that the model leaves free (log entry 66). -/
def Sys2Proof.Claims.ManagementIsGuarded : Prop :=
  ∀ (s : State) (a b c e : Nat) (x y : Word) (l : List Nat) (p q : Bool),
    (s.trust.stage ≠ .open → s.trust.stage ≠ .recovery →
      exec (.createContext x a y l p) s = .next s ∧ exec (.endContext a) s = .next s ∧
      exec (.createQueue a x b c p y) s = .next s ∧ exec (.destroyQueue a) s = .next s ∧
      exec (.expose a x b p q) s = .next s ∧ exec (.unexpose a) s = .next s ∧
      exec (.registerMirror x y) s = .next s ∧ exec (.unregisterMirror x) s = .next s ∧
      exec (.joinGroup a b c e) s = .next s ∧ exec (.leaveGroup a b) s = .next s ∧
      exec (.mapAperture a b x) s = .next s ∧ exec (.unmapAperture a b) s = .next s ∧ exec (.clearBank a) s = .next s) ∧
    (s.trust.stage = .recovery ∨ s.trust.stage = .open ∧ s.trust.inSession = false →
      turnedAway (exec (.createContext x a y l p) s) s ∧ turnedAway (exec (.endContext a) s) s ∧
      turnedAway (exec (.createQueue a x b c p y) s) s ∧ turnedAway (exec (.destroyQueue a) s) s ∧
      turnedAway (exec (.expose a x b p q) s) s ∧
      ((∀ r ∈ s.incoming, r.rkey ≠ a) → turnedAway (exec (.unexpose a) s) s) ∧
      turnedAway (exec (.registerMirror x y) s) s ∧ turnedAway (exec (.unregisterMirror x) s) s ∧
      turnedAway (exec (.joinGroup a b c e) s) s ∧ turnedAway (exec (.leaveGroup a b) s) s ∧
      turnedAway (exec (.mapAperture a b x) s) s ∧ turnedAway (exec (.unmapAperture a b) s) s ∧
      turnedAway (exec (.clearBank a) s) s)

/-- R407, R123, R377: CREATE_CONTEXT answers −1 with 64 contexts resident, −2 for a bad argument and −3 without the cluster SRAM. Otherwise the
context has a free ASID, its arguments, and units of each cluster that no other context holds, whole bank groups when it is FIXED.
END_CONTEXT ends a context with CAUSE 0. That −1 is looked for before −2 and −2 before −3 is the model's order (log entry 70). -/
def Sys2Proof.Claims.ContextsAreCreated : Prop :=
  ∀ (s : State) (root endRec : Word) (minCheck asid : Nat) (units : List Nat) (fixed : Bool), managing s →
    let r := exec (.createContext root minCheck endRec units fixed) s
    let full := 64 ≤ (s.ctxs.filter (fun p => p.2.live)).length
    let good := minCheck ≤ 2 ∧ root.toNat % 4096 = 0 ∧ root.toNat < Config.hbmBytes ∧ endRec.toNat % 64 = 0 ∧
      endRec.toNat < Config.hbmBytes ∧ units.length = 4
    (full → fails r s (-1)) ∧ (¬ full → ¬ good → fails r s (-2)) ∧
    (¬ full → good → s.allUnits fixed 0 units = none → fails r s (-3)) ∧
    (¬ full → good → ∀ us, s.allUnits fixed 0 units = some us →
      (∃ a, 0 < a ∧ a < 65536 ∧ (s.ctx a).live = false ∧ replies r ((settled s).setCtx a
        { live := true, root := root, minCheck := minCheck, endRec := endRec.toNat, sram := us, fixed := fixed }) 0 a) ∧
      us.Nodup ∧ (∀ x ∈ us, x.1 < 4 ∧ x.2 < 1024 ∧ ∀ p ∈ s.ctxs, p.2.live = true → x ∉ p.2.sram) ∧
      (∀ c n, units[c]? = some n → (us.filter (fun x => x.1 == c)).length = if fixed then (n + 127) / 128 * 128 else n) ∧
      (fixed = true → ∀ x ∈ us, ∀ j, j < 128 → (x.1, x.2 / 128 * 128 + j) ∈ us)) ∧
    ((s.ctx asid).live = false → fails (exec (.endContext asid) s) s (-2)) ∧
    ((s.ctx asid).live = true → (s.ctx asid).ending = none → asid < 65536 → Gives (exec (.endContext asid) s) fun t =>
      gone t asid ∧ (∃ o, t.out = o ++ [.status 0 0]) ∧
      ((s.ctx asid).endRec + 64 ≤ Config.hbmBytes → (∀ p ∈ s.pairs, p.2.mill.asid = asid → p.2.mill.ended = true) →
        (∀ g ∈ s.hartsOfCtx asid, (s.hart g).late = []) → readNat t.mem (s.ctx asid).endRec 1 = 0))

/-- R407, R328: CREATE_QUEUE claims a free queue and writes its control block with TAIL = HEAD = 0; DESTROY_QUEUE discards what has not been taken in and
lets the tasks taken in run on; the queue is free, and DESTROY_QUEUE is answered, once none is left. Where the control block stands is the
model's choice (log entry 8). -/
def Sys2Proof.Claims.QueuesComeAndGo : Prop :=
  ∀ (s : State) (asid size quantum q : Nat) (ring mirror : Word) (device : Bool), managing s →
    let r := exec (.createQueue asid ring size quantum device mirror) s
    let good := (s.ctx asid).live = true ∧ (∃ k, 4 ≤ k ∧ k ≤ 16 ∧ size = 2 ^ k) ∧ ring.toNat % 128 = 0 ∧
      ring.toNat + 128 * size ≤ Config.hbmBytes ∧ quantum < 65536 ∧ mirror.toNat % 32 = 0 ∧ mirror.toNat + 32 ≤ Config.hbmBytes
    ((∀ q, q < 4096 → (s.queue q).live = true) → fails r s (-1)) ∧
    ((∃ q, q < 4096 ∧ (s.queue q).live = false) → ¬ good → fails r s (-2)) ∧
    (good → (s.queue q).live = false → q < 4096 → (∀ k, k < q → (s.queue k).live = true) → Gives r fun t =>
      let w := t.queue q
      t.out = s.out ++ [.status 0 q] ∧ w.live = true ∧ w.asid = asid ∧ w.mirror = mirror.toNat ∧ w.closing = false ∧
      w.ring = ring.toNat ∧ w.size = size ∧ w.quantum = quantum ∧ w.posted = 0 ∧
      (∀ k, k ≠ q → t.queue k = s.queue k) ∧ w.ctl % 64 = 0 ∧ w.ctl + 64 ≤ Config.hbmBytes ∧
      (∀ k, k < 4096 → k ≠ q → controlBlock k / 65536 ≠ w.ctl / 65536) ∧
      (t.queueTail w = 0 ∧ t.queueHead w = 0 ∧ readNat t.mem (w.ctl + 0x10) 8 = ring.toNat ∧
        readNat t.mem (w.ctl + 0x18) 4 = size ∧ readNat t.mem (w.ctl + 0x1C) 2 = asid % 2 ^ 16 ∧
        readNat t.mem (w.ctl + 0x1E) 2 = quantum ∧ t.queueFlags w = if device then 1 else 0) ∧
      (∀ a, a < w.ctl ∨ w.ctl + 64 ≤ a → readByte t.mem a = readByte s.mem a)) ∧
    ((s.queue q).live = false ∨ (s.queue q).closing = true → fails (exec (.destroyQueue q) s) s (-2)) ∧
    ((s.queue q).live = true → (s.queue q).closing = false → Gives (exec (.destroyQueue q) s) fun t =>
      t.mem = s.mem ∧
      (∀ w ∈ t.tasks, w.queue = q → w.st ≠ .posted) ∧
      (∀ w ∈ s.tasks, (w.queue ≠ q ∨ w.st ≠ .posted) → (∀ v ∈ s.tasks, v.order = w.order → v = w) →
        ∃ w' ∈ t.tasks, w'.order = w.order ∧ w'.id = w.id) ∧
      ((∀ w ∈ s.tasks, w.queue = q → w.st = .posted) → (t.queue q).live = false ∧ t.out = s.out ++ [.status 0 0]) ∧
      ((∃ w ∈ s.tasks, w.queue = q ∧ w.st ≠ .posted ∧ ∀ v ∈ s.tasks, v.order = w.order → v = w) →
        (t.queue q).live = true ∧ (t.queue q).closing = true ∧ (t.queue q).asked = true ∧ t.out = s.out)) ∧
    ((s.queue q).live = true → (s.queue q).closing = true → (∀ w ∈ s.tasks, w.queue ≠ q) →
      (((s.freeQueue q).queue q).live = false ∧
        (s.freeQueue q).out = s.out ++ if (s.queue q).asked then [.status 0 0] else []))

/-- R404, R407, R408: EXPOSE creates a region whose rkey has not been used, and fails when the context has 1,024; UNEXPOSE removes it, once every
operation accepted on its rkey has been performed.
REGISTER_MIRROR adds a registration, up to 128 in a stack, and sends nothing; UNREGISTER_MIRROR removes it. An object already removed answers −2. -/
def Sys2Proof.Claims.RegionsAndMirrors : Prop :=
  ∀ (s : State) (asid len k : Nat) (base sig record : Word) (rd wr : Bool), managing s →
    let e := exec (.expose asid base len rd wr) s
    let good := (s.ctx asid).live = true ∧ base.toNat % 65536 = 0 ∧ len % 65536 = 0 ∧ len ≠ 0 ∧ base.toNat + len ≤ 2 ^ 52
    let many := 1024 ≤ (s.regions.filter (fun p => p.2.asid == asid)).length
    let m := exec (.registerMirror sig record) s
    let known := ∃ x ∈ s.mirrors, x.sig = sig.toNat
    let crowded := 128 ≤ (s.mirrors.filter (fun x => stackOf x.sig == stackOf sig.toNat)).length
    ((¬ good → fails e s (-2)) ∧ (good → many → fails e s (-1)) ∧
      (good → ¬ many → replies e { settled s with
        regions := tput s.regions s.nextRkey ⟨asid, base.toNat, len, rd, wr⟩, nextRkey := s.nextRkey + 1 } 0 s.nextRkey) ∧
      ((∃ x ∈ s.incoming, x.rkey = k) → exec (.unexpose k) s = .next s) ∧
      ((∀ x ∈ s.incoming, x.rkey ≠ k) → tfind s.regions k = none → fails (exec (.unexpose k) s) s (-2)) ∧
      ((∀ x ∈ s.incoming, x.rkey ≠ k) → (tfind s.regions k).isSome = true → Gives (exec (.unexpose k) s) fun t =>
        t.out = s.out ++ [.status 0 0] ∧ tfind t.regions k = none ∧ ∀ j, j ≠ k → tfind t.regions j = tfind s.regions j)) ∧
    ((¬ mirrorArgs sig record ∨ known → fails m s (-2)) ∧
      (mirrorArgs sig record → ¬ known → crowded → fails m s (-1)) ∧
      (mirrorArgs sig record → ¬ known → ¬ crowded → replies m { settled s with
        mirrors := s.mirrors ++ [{ sig := sig.toNat, record := record.toNat }] } 0 0) ∧
      (¬ known → fails (exec (.unregisterMirror sig) s) s (-2)) ∧
      (known → replies (exec (.unregisterMirror sig) s) { settled s with
        mirrors := s.mirrors.filter (fun x => x.sig != sig.toNat) } 0 0))

/-- R292, R299, R407: JOIN_GROUP makes a context the member of a rank, which no other member here has, and of a group id that no other context uses; LEAVE_GROUP
ends the membership, and every REDUCE operation of the group that has not completed goes, where it has a record or a word to decrement, to that
completion with GROUP, and the peers of the group that can be reached are told. MAP_APERTURE maps a
page that lies in HBM; UNMAP_APERTURE takes it away. -/
def Sys2Proof.Claims.GroupsAndApertures : Prop :=
  ∀ (s : State) (asid gid rank size page : Nat) (va : Word), managing s →
    let x := s.ctx asid
    let j := exec (.joinGroup asid gid rank size) s
    let good := x.live = true ∧ gid < 65536 ∧ rank < size ∧ ∀ m ∈ x.members, m.gid = gid → m.size = size
    let taken := (∃ m ∈ x.members, m.gid = gid ∧ m.rank = rank) ∨
      ∃ p ∈ s.ctxs, p.1 ≠ asid ∧ p.2.live = true ∧ ∃ m ∈ p.2.members, m.gid = gid
    let member := x.live = true ∧ ∃ m ∈ x.members, m.gid = gid
    let a := exec (.mapAperture asid page va) s
    let fits := x.live = true ∧ page < 4096 ∧ va.toNat % 65536 = 0 ∧
      ∃ pa leaf, s.translate (s.taskSpace asid) .read va.toNat = .ok (pa, leaf) ∧ pa < Config.hbmBytes
    ((¬ good → fails j s (-2)) ∧ (good → taken → fails j s (-4)) ∧
      (good → ¬ taken → replies j ((settled s).setCtx asid { x with members := x.members ++ [⟨gid, rank, size⟩] }) 0 0) ∧
      (¬ member → fails (exec (.leaveGroup asid gid) s) s (-2)) ∧
      (member → Gives (exec (.leaveGroup asid gid) s) fun t =>
        ((∀ q ∈ s.ports, q.2.st ≠ .retraining ∧ q.2.held = []) → t.out = s.out ++
          (s.peers.filter (fun p => p.groups.any (fun q => q.1 == gid) && s.peerReachable p.pos)).map
            (fun p => .reduceGroup p.pos gid) ++ [.status 0 0]) ∧
        (∀ p ∈ t.peers, ∀ r ∈ p.ranks, r.gid ≠ gid) ∧ t.mem = s.mem ∧ (∀ c, c ≠ asid → t.ctx c = s.ctx c) ∧
        (t.ctx asid).members = x.members.filter (fun m => m.gid != gid) ∧
        (∀ key, ∀ o ∈ ((t.ctx asid).lease key).ops, ¬ (o.desc.isReduce = true ∧ o.desc.gid = gid)) ∧
        (∀ p ∈ x.leases, ∀ o ∈ p.2.ops, o.desc.isReduce = true → o.desc.gid = gid → o.desc.record ≠ 0 ∨ o.desc.donesig ≠ 0 →
          ∃ e ∈ (t.ctx asid).opEnds, e.op = o ∧ e.status = 4))) ∧
    ((¬ fits → fails a s (-2)) ∧
      (fits → replies a ((settled s).setCtx asid { x with apertures := tput x.apertures page va.toNat }) 0 0) ∧
      (tfind x.apertures page = none ∨ x.live = false → fails (exec (.unmapAperture asid page) s) s (-2)) ∧
      (x.live = true → (tfind x.apertures page).isSome = true → Gives (exec (.unmapAperture asid page) s) fun t =>
        t.out = s.out ++ [.status 0 0] ∧ tfind (t.ctx asid).apertures page = none ∧
        ∀ k, k ≠ page → tfind (t.ctx asid).apertures k = tfind x.apertures k))

/-- R394, R397, R406: READ_HEALTH returns HEALTH, with the named banks only inside a session; CLEAR_BANK empties a bank. -/
def Sys2Proof.Claims.HealthIsReported : Prop :=
  ∀ (s : State) (b : Nat) (banks : List Nat) (inside : Bool),
    (s.trust.stage = .open ∨ s.trust.stage = .recovery → exec (.readHealth banks inside) s = .next { s with
      out := s.out ++ [.health s.health
        (if inside = true ∧ s.trust.inSession = true ∧ s.trust.recBroken = false then banks.map (fun b => (b, (s.bank b).words))
          else [])] }) ∧
    (s.trust.stage = .rom ∨ s.trust.stage = .scheduler → exec (.readHealth banks inside) s = .next s) ∧
    (s.engRetired < 256 → s.health.toNat / 2 ^ 48 % 256 = s.engRetired ∧ s.health.toNat / 2 ^ 32 % 65536 = min s.pagesRetired 65535 ∧
      s.health.toNat / 2 ^ 24 % 256 = s.spares.toNat ∧ s.health.toNat % 2 ^ 24 = s.coresLeft.toNat ∧
      (s.health.getLsbD 63 = true ↔ s.replace = true ∨ 1024 < s.pagesRetired)) ∧
    (managing s → (148 ≤ b → fails (exec (.clearBank b) s) s (-2)) ∧
      (b < 148 → Gives (exec (.clearBank b) s) fun t =>
        t.out = s.out ++ [.status 0 0] ∧ t.bank b = {} ∧ ∀ k, k ≠ b → t.bank k = s.bank k))

/-! ### Boot, trust and firmware update -/

namespace Sys2Proof.Claims

/-- The record of the security state in force (R412): the copy with the higher count of those that verify. -/
def recordInForce (t : Trust) (r : SecRecord) : Prop :=
  (t.recA = some r ∧ ∀ b, t.recB = some b → b.seq ≤ r.seq) ∨ (t.recB = some r ∧ ∀ a, t.recA = some a → a.seq < r.seq)

/-- Whether an image may run under a minimum security version (R410, R411). -/
def runs (least : Nat) (i : Option Image) : Prop := ∃ x, i = some x ∧ x.sigOk = true ∧ least ≤ x.version

/-- The device as a reset leaves it, but for its flash and what others own. -/
def bare (s t : State) : Prop :=
  t = { State.reset with
    agenda := s.agenda, eager := s.eager, fresh := s.fresh, mem := t.mem, farHost := s.farHost, peers := s.peers, out := s.out
    trust := t.trust, braidpos := t.braidpos, trims := t.trims, macs := t.macs, replace := t.replace } ∧
  ∀ a, readByte t.mem a = if Config.farBase ≤ a ∧ a < Config.braidEnd ∨ 2 ^ 64 ≤ a then readByte s.mem a else 0

/-- A request that recovery serves too comes from an authorised session (R406, R413, R414). -/
def serving (s : State) : Prop := (s.trust.stage = .open ∨ s.trust.stage = .recovery) ∧ s.trust.inSession = true

/-- A request that comes while there is no endpoint has no effect, and one outside an authorised session is turned away. -/
def guarded (o : Out) (s : State) : Prop :=
  (s.trust.stage = .rom ∨ s.trust.stage = .scheduler → o = .next s) ∧
  (s.trust.stage = .open ∨ s.trust.stage = .recovery → s.trust.inSession = false → turnedAway o s)

end Sys2Proof.Claims

/-- R289, R410 to R415, Table 19-3: DEVICE_RESET leaves every register at its reset value and follows the boot chain. The scheduler starts when a root-of-trust
image and a scheduler image run under the record's minimum version and the configuration block verifies and is at least what the record holds, and the block gives trims, MAC addresses and BRAIDPOS; else the device is
in recovery. Neither opens intake, and the marker of the active scheduler slot stays. A block with higher values is in the record before it
is applied. A record that is unusable in both copies, or an identity key that does not match, asks for
replacement. The first heartbeat opens the device. -/
def Sys2Proof.Claims.BootChain : Prop :=
  ∀ (s : State) (puf : Bool),
    let f := s.trust.commit
    (Gives (exec (.deviceReset puf) s) fun t =>
      bare s t ∧ t.intakeOpen = false ∧ t.trust.sessions = [] ∧ t.trust.updating = none ∧ t.trust.m5 = 0 ∧
      t.trust.identity = puf ∧ t.trust.activeB = f.activeB ∧ t.trust.writing = none ∧ (t.trust.stage = .scheduler ∨ t.trust.stage = .recovery) ∧
      (puf = false → t.replace = true) ∧
      (f.recA = none → f.recB = none → t.trust.stage = .recovery ∧ t.replace = true) ∧
      (∀ r, recordInForce f r →
        (puf = true → t.replace = false) ∧
        (¬ runs r.minVersion f.rotA → ¬ runs r.minVersion f.rotB → t.trust.stage = .recovery) ∧
        (runs r.minVersion f.rotA ∨ runs r.minVersion f.rotB →
          (∀ c, f.config = some c →
            (c.sigOk = false ∨ c.version < r.cfgVersion ∨ c.minVersion < r.minVersion → t.trust.stage = .recovery) ∧
            (c.sigOk = true → r.cfgVersion ≤ c.version → r.minVersion ≤ c.minVersion →
              t.braidpos = c.braidpos &&& 0x0FFF0FFF ∧ t.trims = c.trims ∧ t.macs = c.macs ∧ t.trust.m3 = c.digest ∧
              (t.trust.stage = .scheduler ↔ runs c.minVersion f.schedA ∨ runs c.minVersion f.schedB) ∧
              (r.minVersion < c.minVersion →
                ∃ x, recordInForce t.trust x ∧ x.minVersion = c.minVersion ∧ x.cfgVersion = c.version ∧ x.owner = c.owner))) ∧
          (f.config = none → t.trust.stage = .recovery)))) ∧
    (s.trust.stage = .scheduler → Gives (exec .schedulerFirstHeartbeat s) fun t =>
      t = { s with trust := t.trust, intakeOpen := true } ∧ t.trust.stage = .open) ∧
    (s.trust.stage ≠ .scheduler → exec .schedulerFirstHeartbeat s = .next s)

/-- R412, R416: a loss of supply leaves flash: every register is at its reset value until the next reset, the record in force stays in
force although the other copy was being written, a slot that was being written no longer verifies, and the active slot is the one of before. -/
def Sys2Proof.Claims.PowerLossKeepsTheRecord : Prop :=
  ∀ (s : State),
    Gives (exec .powerLoss s) fun t =>
      bare s t ∧ t.trust.stage = .rom ∧ t.trust.activeB = s.trust.activeB ∧ t.trust.config = s.trust.config ∧ t.intakeOpen = false ∧
      (s.trust.writing = none → t.trust.recA = s.trust.recA ∧ t.trust.recB = s.trust.recB ∧ t.trust.schedA = s.trust.schedA ∧
        t.trust.schedB = s.trust.schedB ∧ t.trust.rotA = s.trust.rotA ∧ t.trust.rotB = s.trust.rotB) ∧
      (∀ r x, s.trust.writing = some (.record r true) → s.trust.recA = some x → recordInForce t.trust x) ∧
      (∀ r x, s.trust.writing = some (.record r false) → s.trust.recB = some x → recordInForce t.trust x) ∧
      (∀ i, s.trust.writing = some (.scheduler i true) → t.trust.schedB = none ∧ t.trust.schedA = s.trust.schedA) ∧
      (∀ i, s.trust.writing = some (.rot i true) → t.trust.rotB = none ∧ t.trust.rotA = s.trust.rotA ∧
        t.trust.rotMarkB = s.trust.rotMarkB)

/-- R406, R416, R414: UPDATE on an open device writes the inactive slot; −5 and −6 change nothing else. An image that accepts the handover structure closes intake,
extends measurement 5 and waits for its heartbeat, word 1, which switches the active slot, reopens intake and answers 0; one that does not, or whose
heartbeat does not come, is rolled back with −7 and intake open, and measurement 5 keeps its extension. In recovery the image is
written for the next reset. -/
def Sys2Proof.Claims.LiveUpdate : Prop :=
  ∀ (s : State) (i : Image),
    let r := exec (.update i) s
    let u := settled s
    let x := u.trust
    let written := { u with trust := if x.activeB then { x with schedA := some i } else { x with schedB := some i } }
    let started := fun (h : Handover) => { written with
      fresh := s.fresh + 2, intakeOpen := false
      trust := { written.trust with m5 := Config.sha512 (x.m5 * 2 ^ 512 + i.digest), handover := some h, heartbeat := 0 } }
    guarded r s ∧
    (serving s → x.updating.isSome = true → replies r u (-1) 0) ∧
    (s.trust.stage = .open → s.trust.inSession = true → x.updating = none →
      (i.sigOk = false → replies r written (-5) 0) ∧
      (i.sigOk = true → i.version < written.trust.minimum → replies r written (-6) 0) ∧
      (i.sigOk = true → written.trust.minimum ≤ i.version →
        (i.handover = true → ∃ h, r = .next { started h with trust := { (started h).trust with updating := some i } }) ∧
        (i.handover = false → ∃ h, replies r { started h with intakeOpen := true } (-7) 0))) ∧
    (s.trust.stage = .recovery → s.trust.inSession = true → x.updating = none →
      let later := { u with trust := { x with writing := some (.scheduler i (!x.activeB)) } }
      (i.sigOk = false → replies r later (-5) 0) ∧
      (i.sigOk = true → i.version < later.trust.minimum → replies r later (-6) 0) ∧
      (i.sigOk = true → later.trust.minimum ≤ i.version → replies r later 0 0)) ∧
    (s.trust.updating = none → exec .updateHeartbeat s = .next s ∧ exec .updateHeartbeatTimeout s = .next s) ∧
    (∀ j, s.trust.updating = some j → x.updating = some j →
      replies (exec .updateHeartbeat s) { u with
        trust := { x with updating := none, heartbeat := 1, schedNow := some j, activeB := !x.activeB }, intakeOpen := true } 0 0 ∧
      replies (exec .updateHeartbeatTimeout s) { u with trust := { x with updating := none }, intakeOpen := true } (-7) 0 ∧
      (∀ g rec, (s.hart g).level = .pl0 → s.takeTrap g rec = .next s))

/-- R410 to R413, Table 19-2: UPDATE_CONFIG and UPDATE_ROT write flash for the next reset after the checks of signature and version, and answer −1 during an update.
UPDATE_ROT writes the slot that did not boot. -/
def Sys2Proof.Claims.FlashUpdates : Prop :=
  ∀ (s : State) (c : ConfigBlock) (i : Image),
    let u := settled s
    let x := u.trust
    let a := exec (.updateConfig c) s
    let b := exec (.updateRot i) s
    guarded a s ∧ guarded b s ∧
    (serving s → x.updating.isSome = true → s.trust.stage = .open → fails a s (-1) ∧ fails b s (-1)) ∧
    (serving s → x.updating = none →
      (c.sigOk = false → fails a s (-5)) ∧
      (∀ r, recordInForce x r → c.sigOk = true →
        (c.version < r.cfgVersion ∨ c.minVersion < r.minVersion → fails a s (-6)) ∧
        (r.cfgVersion ≤ c.version → r.minVersion ≤ c.minVersion →
          replies a { u with trust := { x with writing := some (.config c) } } 0 0)) ∧
      (i.sigOk = false → fails b s (-5)) ∧
      (i.sigOk = true → i.version < x.minimum → fails b s (-6)) ∧
      (i.sigOk = true → x.minimum ≤ i.version → Gives b fun t =>
        t.out = s.out ++ [.status 0 0] ∧
        (x.rotBooted = some true → t.trust.writing = some (.rot i false)) ∧
        (x.rotBooted = some false → t.trust.writing = some (.rot i true))))

/-- R406, R413, R415: an SPDM challenge is answered with the five measurements, and refused when the identity key does not match its
certificate. A key exchange opens a session to a requester with the owner's certificate, or, when no record is usable, one that
chains to the root key. -/
def Sys2Proof.Claims.SessionsAreAuthorised : Prop :=
  ∀ (s : State) (nonce : Nat) (chain : CertChain),
    let u := settled s
    let x := s.trust
    let ok := (∃ r, recordInForce u.trust r ∧ x.recBroken = false ∧ chain.owner = r.owner) ∨
      ((u.trust.recA = none ∧ u.trust.recB = none ∨ x.recBroken = true) ∧ chain.toRoot = true)
    let k := exec (.sessionKeyExchange chain) s
    (x.stage = .rom ∨ x.stage = .scheduler → exec (.spdmChallenge nonce) s = .next s ∧ k = .next s) ∧
    (x.stage = .open ∨ x.stage = .recovery →
      exec (.spdmChallenge nonce) s = .next { s with
        out := s.out ++ [if x.identity then .spdm true [x.m1, x.m2, x.m3, x.m4, x.m5] else .spdm false []] } ∧
      (x.identity = true → ok → k = .next { u with
        trust := { u.trust with sessions := x.sessions ++ [x.nextSession], nextSession := x.nextSession + 1 }
        out := s.out ++ [.spdm true []] }) ∧
      (x.identity = false ∨ ¬ ok → k = .next { u with out := s.out ++ [.spdm false []] }))

/-! ### The Braid and the Ethernet -/

namespace Sys2Proof.Claims

/-- The region of an rkey holds n bytes at a virtual address and gives the right that an access of a kind needs (R404). -/
def rdmaHolds (s : State) (rkey va n : Nat) (k : AccKind) (r : Region) : Prop :=
  tfind s.regions rkey = some r ∧ r.base ≤ va ∧ va + n ≤ r.base + r.len ∧ (k = .read → r.rd = true) ∧ (k ≠ .read → r.wr = true)

/-- An RDMA operation of n bytes at a virtual address of a region that gives its rights, in one granule that translates, with nothing
poisoned, and apart from the page-table entry that the access marks: where it lands (R404). -/
def rdmaLands (s : State) (rkey va n : Nat) (k : AccKind) (r : Region) (w : Reach) : Prop :=
  rdmaHolds s rkey va n k r ∧ 0 < n ∧ va % 65536 + n ≤ 65536 ∧ s.probe (s.taskSpace r.asid) k va = .ok w ∧
  w.taint = none ∧ (s.assignPage w.leaf).poisoned w.pa n = false ∧ ∀ j, j < n → offEntry w (w.pa + j)

/-- A region refuses an operation: there is none, it does not hold all the bytes, or it lacks the right (R404). -/
def rdmaBarred (s : State) (rkey va n : Nat) (read : Bool) : Prop :=
  ∀ r, tfind s.regions rkey = some r →
    va < r.base ∨ r.base + r.len < va + n ∨ (read = true ∧ r.rd = false) ∨ (read = false ∧ r.wr = false)

/-- Traffic is not held at the ports, and the queue pair exists, is not in error and has nothing under way (R365, R399, R403). -/
def rdmaTakes (s : State) (qp : Nat) : Prop :=
  s.thermal = .normal ∧ qp < 16384 ∧ qp ∉ s.qpErrors ∧ ∀ x ∈ s.incoming, x.qp ≠ qp

/-- The same with intake open (R414). -/
def rdmaServes (s : State) (qp : Nat) : Prop := s.intakeOpen = true ∧ rdmaTakes s qp

/-- What an operation sends back, last. -/
def sends (t : State) (m : Message) : Prop := ∃ o, t.out = o ++ [m]

end Sys2Proof.Claims

/-- R290, R291: a flit that fails its check is logged and counted, the sixteenth in a row starts retraining, and one that passes ends the count. A port that
retrains takes its traffic again; one that does not is down, with an uncorrectable error, until it comes up again. What waited at a port
that retrained leaves, in its order, when the port changes state and no other port keeps it; meanwhile a message waits. -/
def Sys2Proof.Claims.BraidPorts : Prop :=
  ∀ (s : State) (p : Nat),
    let x := s.port p
    let becomes := fun (o : Out) (y : Port) => Gives o fun t =>
      t = { s with ports := t.ports } ∧ t.port p = y ∧ ∀ q, q ≠ p → t.port q = s.port q
    let leaves := fun (t : State) (st : PortState) =>
      (t.port p).st = st ∧ (∀ q, q ≠ p → (t.port q).st = (s.port q).st) ∧
      ((∀ q, q ≠ p → (s.port q).st ≠ .retraining ∧ (s.port q).held = []) →
        t.out = s.out ++ x.held.map (fun m => m.2) ∧ t.port p = { st := st })
    (x.st = .up →
      becomes (exec (.braidFlitReceive p true) s) { x with fails := 0 } ∧
      (Gives (exec (.braidFlitReceive p false) s) fun t =>
        logs s { t with ports := s.ports } (140 + p) false 11 0 (infoOf 0xFFFF 0 0) ∧ (∀ q, q ≠ p → t.port q = s.port q) ∧
        t.port p = if x.fails < 15 then { x with fails := x.fails + 1 } else { x with st := .retraining, fails := 0 })) ∧
    (x.st ≠ .up → ∀ ok, exec (.braidFlitReceive p ok) s = .next s) ∧
    (x.st = .retraining →
      (Gives (exec (.braidPortRetrained p) s) fun t => t = { s with ports := t.ports, out := t.out } ∧ leaves t .up) ∧
      (Gives (exec (.braidRetrainTimeout p) s) fun t =>
        logs s { t with ports := s.ports, out := s.out } (140 + p) true 12 0 (infoOf 0xFFFF 0 0) ∧ leaves t .down)) ∧
    (x.st ≠ .retraining → exec (.braidPortRetrained p) s = .next s ∧ exec (.braidRetrainTimeout p) s = .next s) ∧
    (x.st = .down → Gives (exec (.braidPortUp p) s) fun t => t = { s with ports := t.ports, out := t.out } ∧ leaves t .up) ∧
    (x.st ≠ .down → exec (.braidPortUp p) s = .next s) ∧
    (∀ peer m, (s.route peer).head? = some p →
      (x.st = .retraining ∨ x.held ≠ [] → s.pathWaits peer = decide (x.st = .retraining) ∧
        (s.toPeer peer m).out = s.out ∧ (s.toPeer peer m).port p = { x with held := x.held ++ [(peer, m)] }) ∧
      (x.st ≠ .retraining → x.held = [] → s.toPeer peer m = { s with out := s.out ++ [m] }))

/-- R290, R291: a route goes dimension by dimension, the shorter way round where both ways are up and the other way where the port of the shorter is down;
where neither way out of this device in the first dimension it must cross is up, the peer is unreachable. -/
def Sys2Proof.Claims.RoutesFollowTheTorus : Prop :=
  ∀ (s : State) (peer : Nat),
    let b := s.braidpos.toNat
    let d := bits b 11 8 + 1
    let up := (bits peer 11 8 + d - bits b 27 24) % d
    let plus := fun (k d x y : Nat) => (decide ((y + d - x) % d ≤ d - (y + d - x) % d)) != ((s.port (2 * k +
      if (y + d - x) % d ≤ d - (y + d - x) % d then 0 else 1)).st == .down)
    let first := fun (k d x y : Nat) => (s.route peer).head? = some (2 * k + if plus k d x y then 0 else 1)
    let cut := fun (k : Nat) => (s.port (2 * k)).st = .down ∧ (s.port (2 * k + 1)).st = .down
    bits b 27 24 < d → bits peer 11 8 < d →
      ((∀ p, p < 6 → (s.port p).st = .up) → bits b 23 20 = bits peer 7 4 → bits b 19 16 = bits peer 3 0 →
        s.route peer = if up ≤ d - up then List.replicate up 0 else List.replicate (d - up) 1) ∧
      (bits b 27 24 ≠ bits peer 11 8 → first 0 d (bits b 27 24) (bits peer 11 8) ∧ (cut 0 → s.peerReachable peer = false) ∧
        (¬ cut 0 → s.peerAt peer = none → s.peerReachable peer = true)) ∧
      (bits b 27 24 = bits peer 11 8 → bits b 23 20 ≠ bits peer 7 4 → bits b 23 20 < bits b 7 4 + 1 → bits peer 7 4 < bits b 7 4 + 1 →
        first 1 (bits b 7 4 + 1) (bits b 23 20) (bits peer 7 4) ∧ (cut 1 → s.peerReachable peer = false)) ∧
      (bits b 27 24 = bits peer 11 8 → bits b 23 20 = bits peer 7 4 → bits b 19 16 ≠ bits peer 3 0 →
        bits b 19 16 < bits b 3 0 + 1 → bits peer 3 0 < bits b 3 0 + 1 →
        first 2 (bits b 3 0 + 1) (bits b 19 16) (bits peer 3 0) ∧ (cut 2 → s.peerReachable peer = false)) ∧
      (∀ q ∈ s.peers, q.cut = true → s.peerAt peer = some q → s.peerReachable peer = false)

/-- R48, R68, R292, R293, R365: a peer's access through mapped aperture pages of a group of this device takes place at its home in HBM and is answered; one
that names no group here or an unmapped page, or that its translation refuses, is refused, and a read of bytes that are poisoned once the
page has its zeroes, or whose walk read a poisoned block, is answered as poisoned. All wait while traffic is held. -/
def Sys2Proof.Claims.PeersReachTheAperture : Prop :=
  ∀ (s : State) (a : BraidAccess),
    let at_ := exec (.braidIncomingAccess a) s
    let clean := ∀ p ∈ granuleParts a.offset (braidLen a.op), ∀ asid va, s.apertureAt a.gid p.1 = some (asid, va) →
      s.walkTaint (s.taskSpace asid) va = none
    let refused := (Gives at_ fun t => sends t .braidRefused ∧ t.mem = s.mem) ∧
      (clean → at_ = .next { s with out := s.out ++ [.braidRefused] })
    (s.thermal ≠ .normal → at_ = .next s) ∧
    (s.thermal = .normal →
      (s.apertureAt a.gid a.offset = none → refused) ∧
      (∀ o n, (o, n) ∈ granuleParts a.offset (braidLen a.op) → s.apertureAt a.gid o = none → refused) ∧
      ((∀ p ∈ s.ctxs, p.2.live = true → ∀ m ∈ p.2.members, m.gid ≠ a.gid) → refused) ∧
      (∀ asid va, s.apertureAt a.gid a.offset = some (asid, va) → 0 < braidLen a.op → a.offset % 65536 + braidLen a.op ≤ 65536 →
        (∀ f, s.translate (s.taskSpace asid) (braidKind a.op) va = .error f → refused) ∧
        (∀ pa leaf, s.translate (s.taskSpace asid) (braidKind a.op) va = .ok (pa, leaf) →
          (placeOf pa ≠ .hbm → refused) ∧
          (a.op = .sigdec → va % 8 ≠ 0 → refused) ∧
          (placeOf pa = .hbm → (s.walkTaint (s.taskSpace asid) va).isSome = true → ∀ n, a.op = .load n →
            Gives at_ fun t => sends t .braidPoisoned) ∧
          (placeOf pa = .hbm → s.walkTaint (s.taskSpace asid) va = none → s.migqOn = false →
            let u := s.assignPage leaf
            let off := fun (n : Nat) => ∀ j, j < n → offEntry ⟨pa, leaf, false, none⟩ (pa + j)
            (∀ n, a.op = .load n → u.poisoned pa n = true → at_ = .next { u with out := s.out ++ [.braidPoisoned] }) ∧
            (∀ n, a.op = .load n → u.poisoned pa n = false → Gives at_ fun t =>
              sends t (.braidData (readBytes u.mem pa n)) ∧ t.harts = s.harts) ∧
            (∀ bs, a.op = .store bs → off bs.length → pa + bs.length ≤ Config.hbmBytes → Gives at_ fun t =>
              sends t .braidDone ∧ readBytes t.mem pa bs.length = bs ∧ t.harts = s.harts ∧
              ∀ b, b < pa ∨ pa + bs.length ≤ b → offEntry ⟨pa, leaf, false, none⟩ b → readByte t.mem b = readByte u.mem b) ∧
            (a.op = .sigdec → va % 8 = 0 → off 8 → Gives at_ fun t =>
              sends t .braidDone ∧
              BitVec.ofNat 64 (readNat t.mem pa 8) = BitVec.ofNat 64 (readNat u.mem pa 8) - 1)))))

/-- R48, R403, R404, R365, R366, R414: an RDMA operation that its region, its page, poison and its table walks let by is performed and answered: a write stores its data, a read returns
what is there, an atomic of an aligned word of HBM returns the old value and leaves the new. One that is barred is answered "remote access error" and writes
nothing; an atomic that is misaligned or falls outside HBM, and an operation outside Table 19-1, "invalid request", after which the queue pair is
in error; all are answered "remote access error" while intake is closed but for a live update. Where work is not eager (log entry 4), a write or read is under way until its words have been performed, each aligned
word of 8 bytes as one event, a write's in ascending order.
The model's own choices here: log entries 1, 60, 103. -/
def Obligations.RdmaOperations : Prop :=
  ∀ (s : State) (qp rkey n : Nat) (va add expect swap : Word) (data : List Byte),
    let write := exec (.rdmaWrite qp rkey va data) s
    let read := exec (.rdmaRead qp rkey va n) s
    let faa := exec (.rdmaFetchAndAdd qp rkey va add) s
    let cas := exec (.rdmaCompareAndSwap qp rkey va expect swap) s
    let denied := fun (o : Out) => o = .next { s with out := s.out ++ [.rdmaAccessError qp] }
    let invalid := fun (o : Out) => o = .next { s with out := s.out ++ [.rdmaInvalid qp], qpErrors := s.qpErrors ++ [qp] }
    let short := data.length ≤ 2 ^ 31 ∧ n ≤ 2 ^ 31
    (¬ rdmaTakes s qp →
      write = .next s ∧ read = .next s ∧ faa = .next s ∧ cas = .next s ∧ exec (.rdmaInvalidRequest qp) s = .next s) ∧
    (rdmaTakes s qp → s.intakeOpen = false → s.trust.updating = none →
      denied write ∧ denied read ∧ denied faa ∧ denied cas ∧ denied (exec (.rdmaInvalidRequest qp) s)) ∧
    (rdmaTakes s qp → s.intakeOpen = true ∨ s.trust.updating ≠ none → invalid (exec (.rdmaInvalidRequest qp) s) ∧
      (2 ^ 31 < data.length → invalid write) ∧ (2 ^ 31 < n → invalid read)) ∧
    (rdmaServes s qp →
      (va.toNat % 8 ≠ 0 → invalid faa ∧ invalid cas) ∧
      (short → rdmaBarred s rkey va.toNat data.length false → denied write) ∧
      (short → rdmaBarred s rkey va.toNat n true → denied read) ∧
      (rdmaBarred s rkey va.toNat 8 false → va.toNat % 8 = 0 → denied faa ∧ denied cas) ∧
      (∀ r w, rdmaLands s rkey va.toNat n .read r w → s.migqOn = false →
        (s.eager = true → Gives read fun t =>
          sends t (.rdmaData qp ((s.assignPage w.leaf).load w n)) ∧ t.harts = s.harts ∧ t.incoming = s.incoming) ∧
        (s.eager = false → read = .next { s with incoming := s.incoming ++ [{
          qp := qp, rkey := rkey, asid := r.asid, read := true, pieces := [⟨0, va.toNat, n, w, false⟩], va := va.toNat
          data := List.replicate n 0, left := List.range ((va.toNat % 8 + n + 7) / 8) }] })) ∧
      (∀ r w, rdmaLands s rkey va.toNat data.length .write r w → s.migqOn = false → placeOf w.pa = .hbm →
        w.pa + data.length ≤ Config.hbmBytes →
        (s.eager = true → Gives write fun t =>
          sends t (.rdmaAck qp) ∧ readBytes t.mem w.pa data.length = data ∧ t.harts = s.harts ∧ t.incoming = s.incoming ∧
          ∀ b, b < w.pa ∨ w.pa + data.length ≤ b → offEntry w b → readByte t.mem b = readByte (s.assignPage w.leaf).mem b) ∧
        (s.eager = false → write = .next { s with incoming := s.incoming ++ [{
          qp := qp, rkey := rkey, asid := r.asid, read := false, pieces := [⟨0, va.toNat, data.length, w, false⟩], va := va.toNat
          data := data, left := List.range ((va.toNat % 8 + data.length + 7) / 8) }] })) ∧
      (∀ r pa leaf, rdmaHolds s rkey va.toNat 8 .atomic r → va.toNat % 8 = 0 →
        s.translate (s.taskSpace r.asid) .atomic va.toNat = .ok (pa, leaf) →
        (placeOf pa ≠ .hbm → invalid faa ∧ invalid cas) ∧
        let tainted := (s.walkTaint (s.taskSpace r.asid) va.toNat).isSome
        let poisoned := (s.assignPage leaf).poisoned pa 8
        (placeOf pa = .hbm → tainted = true → ∀ o, o = faa ∨ o = cas →
          Gives o fun t => sends t (.rdmaAccessError qp) ∧ t.mem = s.mem) ∧
        (placeOf pa = .hbm → tainted = false → poisoned = true → denied faa ∧ denied cas) ∧
        (placeOf pa = .hbm → tainted = false → poisoned = false → s.migqOn = false → s.queues = [] →
          (∀ j, j < 8 → offEntry ⟨pa, leaf, false, none⟩ (pa + j)) →
          let old := BitVec.ofNat 64 (readNat (s.assignPage leaf).mem pa 8)
          let leaves := fun (o : Out) (v : Word) => Gives o fun t =>
            sends t (.rdmaValue qp old) ∧ BitVec.ofNat 64 (readNat t.mem pa 8) = v
          leaves faa (old + add) ∧ leaves cas (if old = expect then swap else old)))) ∧
    (∀ x k w, s.thermal = .normal → s.incoming.find? (fun y => y.qp == qp) = some x →
      (x.read = true → k ∉ x.left → s.rdmaWord qp k = s) ∧
      (x.read = false → x.left.head? ≠ some k → s.rdmaWord qp k = s) ∧
      (x.read = false → x.left.head? = some k → k < (x.va % 8 + x.data.length + 7) / 8 → x.data ≠ [] → s.migqOn = false →
        x.pieces = [⟨0, x.va, x.data.length, w, false⟩] → w.pa + x.data.length ≤ Config.hbmBytes → w.void = false →
        (∀ j, j < x.data.length → offEntry w (w.pa + j)) →
        let a := max x.va (x.va / 8 * 8 + 8 * k)
        let z := min (x.va + x.data.length) (x.va / 8 * 8 + 8 * k + 8)
        let t := s.rdmaWord qp k
        readBytes t.mem (w.pa + (a - x.va)) (z - a) = (x.data.drop (a - x.va)).take (z - a) ∧
        (∀ b, b < w.pa + (a - x.va) ∨ w.pa + (z - x.va) ≤ b → offEntry w b →
          readByte t.mem b = readByte (s.assignPage w.leaf).mem b)))

/-- R328, R329, R405: a fetch-and-add on TAIL that a host's region reaches posts the packets it covers: they become tasks in the order of their positions, whichever
poster advanced TAIL. -/
def Sys2Proof.Claims.TailAdvancesPost : Prop :=
  ∀ (s : State) (q : Nat),
    let w := s.queue q
    let n := (s.queueTail w + 2 ^ 64 - w.posted) % 2 ^ 64
    let u := s.noteQueue q
    (w.live = false ∨ w.closing = true ∨ s.queueErr w = true → u = s) ∧
    (w.live = true → w.closing = false → s.queueErr w = false →
      (w.size < s.queueDepth w → u.tasks = s.tasks ∧ (w.ctl + 64 ≤ Config.hbmBytes → u.queueErr w = true)) ∧
      (s.queueDepth w ≤ w.size → 0 < n → n ≤ s.queueDepth w →
        u.intake = s.intake + n ∧ u.mem = s.mem ∧ (u.queue q).posted = s.queueTail w ∧
        (∀ i, i < n → u.tasks[s.tasks.length + i]? = some
          { id := q * 2 ^ 20 + (w.posted + i) % 2 ^ 20, queue := q, pos := w.posted + i, asid := w.asid, order := s.intake + i }) ∧
        (∀ i, i < s.tasks.length → u.tasks[i]? = s.tasks[i]?)))

/-! ### Reset, memory, encoding, steps -/

/-- R141, R142, R158, R173, R371, R57, R88, R102, R220, R258, R392, R397, R398 and their tables: the values that the spec gives for reset. Every state register
of a hart reads its reset value, no register or B slot holds anything, and the device registers stand at theirs. Both memories are in canonical form.
The model's own choices here: log entries 2 (POSBASE), 3. -/
def Obligations.ResetStateValues : Prop :=
  let r := State.reset
  (∀ g, let h := r.hart g
    (h.fpctl = 0 ∧ h.fpstat = 0 ∧ h.eidx = 0 ∧ vcIll h.vconf = false ∧ vcLam h.vconf = true ∧ vcG h.vconf = 1 ∧
      vcNr h.vconf = 32 ∧ vcEw h.vconf = 32) ∧
    (h.trapvec = 0 ∧ h.trappc = 0 ∧ h.trapcause = 0 ∧ h.trapaddr = 0 ∧ h.trapeidx = 0 ∧ h.trapinfo = 0 ∧ h.trapstat = 0 ∧
      h.scalarpc = 0 ∧ h.asid = 0 ∧ h.ptbase = 0 ∧ ∀ k, tget h.fplist k 0 = 0) ∧
    (h.vq = [] ∧ h.mq = [] ∧ h.events = [] ∧ ∀ k, (h.stream k).bound = false ∧ h.slot k = {})) ∧
  (∀ n, (r.core n).alanes = 16 ∧ (r.core n).arrive = 0 ∧ (r.core n).owner = none ∧ (r.core n).tlb = []) ∧
  (∀ p, (r.pair p).b0.tile = 0 ∧ (r.pair p).b1.tile = 0 ∧ (r.pair p).b0.short = false ∧ (r.pair p).b0.k = 0 ∧
    (r.pair p).islandop = 0 ∧ (r.mill p).status = 0) ∧
  (∀ c, (r.cluster c).engawake = 6) ∧ (∀ a, (r.ctx a).live = false) ∧ (∀ q, (r.queue q).live = false) ∧ (∀ b, r.bank b = {}) ∧
  (r.holdctl = 0xFF ∧ r.migqbase = 0 ∧ r.energy = 0 ∧ r.energyHi = 0 ∧ r.energyWrap = false ∧
    r.health = BitVec.ofNat 64 (0xAA * 2 ^ 24 + 0x820820)) ∧
  r.memInv ∧ r.imageOk = true

/-- R6, R36, and log entry 3: memory is bytes by address. A store of bytes reads back and leaves every other byte; what is zeroed reads zero; two memories in
the canonical form that read alike are equal; a little-endian number reads back modulo its width.
The model's own choices here: log entry 3. -/
def Obligations.MemoryReadsBack : Prop :=
  (∀ (s : State) (pa : Nat) (bs : List Byte),
    (bs.length ≤ Config.poolBytes → ∀ i, i < bs.length → readByte (s.store pa bs).mem (pa + i) = bs.getD i 0) ∧
    (∀ a, a < pa ∨ pa + bs.length ≤ a → (∀ q, s.shadowPlace pa = some q → a < q ∨ q + bs.length ≤ a) →
      readByte (s.store pa bs).mem a = readByte s.mem a) ∧
    (∀ q, s.shadowPlace pa = some q → q = pa + Config.poolBytes ∧
      (bs.length ≤ Config.poolBytes → ∀ i, i < bs.length → readByte (s.store pa bs).mem (q + i) = bs.getD i 0)) ∧
    (s.memInv → (s.store pa bs).memInv)) ∧
  (∀ (m n : Memory), m.wf = true → n.wf = true → (∀ a, readByte m a = readByte n a) → m = n) ∧
  (∀ (m : Memory) (a n v : Nat), readNat (writeNat m a n v) a n = v % 256 ^ n) ∧
  (∀ (m : Memory) (a n x : Nat), readByte (eraseBytes m a n) x = if a ≤ x ∧ x < a + n then 0 else readByte m x)

/-- R6 to R16: a few words of each family, written out from Tables 1-1 to 1-5, decode to their instructions. Words of a length
field 00 or 11, of the reserved major 0x3F, of reserved selectors and with a nonzero reserved field are refused. -/
def Obligations.WordsDecode : Prop :=
  let is := fun (w : Nat) (i : Instr) => decodeTableWord 32 w = some i
  let long := fun (w : Nat) (i : Instr) => decodeTableWord 64 w = some i
  let bad := fun (w : Nat) => decodeTableWord 32 w = none
  (is 0x00B16A05 (.sub 10 11 12) ∧ is 0x0B1CC505 (.divu 5 6 7) ∧ is 0x0C810705 (.clz 7 8) ∧ is 0xFFFCA509 (.addi 5 5 0x3FFF) ∧
    is 0x0034C521 (.slli 5 6 13) ∧ is 0x02FCA521 (.srai 5 5 63) ∧ is 0x2468A525 (.lui 5 0x12345) ∧ is 0x0080E65D (.beq 6 7 4) ∧
    is 0x00004061 (.j 0x40) ∧ is 0x0000C169 (.jlr 1 6 0) ∧ is 0x0020C53D (.ld 5 6 8) ∧ is 0xFFE0C759 (.sd 6 7 0x3FF8) ∧
    is 0x009CC56D (.amoadd 5 6 7 0) ∧ is 0x001CC571 (.faddF 5 6 7 0) ∧ is 0x25812871 (.fcvtWF 8 9 1) ∧ is 0x0280C579 (.waitany 5 6) ∧
    is 0x0044057D (.csrr 5 0x011) ∧ is 0x0004A081 (.trapi 37) ∧ is 0x00800081 .eret ∧ is 0x01000081 .brk ∧ is 0x01800081 .halt ∧
    is 0x0218A081 (.tlbinv 5 6) ∧ is 0x00016A89 (.vsetl 10 11) ∧ is 0x08400891 (.vfaddVV 8 0 4 2) ∧ is 0x404209B5 (.vsraVX 9 8 4 0) ∧
    is 0x002043B9 (.vmand 3 1 2 0) ∧ is 0xA840C5BD (.vmerge 5 3 4 2) ∧ is 0x0000C8C9 (.vld 8 3 0) ∧ is 0x480109C9 (.vst 9 4 2) ∧
    is 0x0028C0D1 (.sdesc 10 3) ∧ is 0x0000C5D5 (.hold 5 6) ∧ is 0x00028CDD (.lease 12 20) ∧ is 0x029940DD (.cbadv 10 6) ∧
    is 0x00A005E5 (.mrun 5 10) ∧ is 0x60C020E5 (.mdrain 32 12) ∧ is 0x009100E9 (.send 4 9) ∧ is 0x002D45ED (.launch 5 10 11) ∧
    is 0x015AA7ED (.pktemit 7 21 22)) ∧
  (long 0x3F8000000000092E (.lix 9 0x3F800000) ∧ long 0x00000008001CC576 (.fmaddF 5 6 7 8 0) ∧ long 0x0000090800000486 (.vcfg 4 0 2 16 0 1) ∧
    long 0x00010000000003C6 (.vseq 0 3 0 1) ∧ long 0x00018521000144DA (.copy 4 10 0 1 2 5 3) ∧ long 0x002810010018A0E2 (.mldb 5 6 1 16 40 0) ∧
    long 0x06281018200110E2 (.mma 4 16 24 16 40 1 1) ∧ long 0x00000001500008E2 (.mchk 8 1)) ∧
  bad 0 ∧ bad 3 ∧ bad 0xFFFFFFFF ∧ bad 0x000000FD ∧ bad 0x0098E65D ∧ bad 0x10000005 ∧ bad 0x0C850705 ∧ bad 0x07800179

/-- R6 to R14: an encoded well-formed instruction decodes to itself, with whatever bytes follow it. -/
def Obligations.EncodedInstructionsDecode : Prop :=
  ∀ (i : Instr) (rest : List Byte), i.wf = true → i.bytes ≠ 0 → decode (encode i ++ rest) = .ok (i, rest)

/-- R6 to R16: what decodes is well-formed, and no other bytes stand for it: each word has one meaning, and no bit of a word that runs is ignored. -/
def Obligations.DecodedInstructionsEncode : Prop :=
  ∀ (bs : List Byte) (i : Instr) (rest : List Byte), decode bs = .ok (i, rest) →
    i.wf = true ∧ i.bytes ≠ 0 ∧ bs = encode i ++ rest

namespace Sys2Proof.Claims

open Sys2Proof Sys2Proof.Machine

/-- An instruction in the state that its fetch leaves; once its hart has gone on, the far granules of its words are counted (R87). -/
noncomputable def ran (i : Instr) (v : State) : Out :=
  match exec i v with
  | .next t => .next (if t.cur = v.cur ∧ t.turn = v.turn then t else v.countCode t)
  | o => o

/-- Nothing of a word read at a place is poisoned, nor the entries of its walk (R48). -/
def sound (s : State) (r : Reach) : Prop := s.poisoned r.pa 4 = false ∧ r.taint = none

end Sys2Proof.Claims

/-- R7, R8, R9, R16, R69, R87, R300: a step of a hart that has work, whose clock runs, which no YIELD holds and at whose boundary nothing is due runs the
instruction that its words at the pc decode to, in the state that their fetch leaves: the harts that a YIELD holds have seen its turn, a page
that waited for its zeroes has them, the A bit of the words' pages is set, and the far granules of the words are noted and, when the
instruction commits, counted; where they are not far, the step is the instruction's. Words that decode to nothing trap ILLEGAL, and a fetch
that faults traps with its page. The agenda goes first.
The model's own choices here: log entries 1, 13, 16. -/
def Obligations.AStepRunsTheInstruction : Prop :=
  ∀ (s : State),
    (∀ i rest, s.agenda = .event i :: rest →
      (i.wf = true → i.bytes = 0 → step s = exec i { s with agenda := rest }) ∧
      (i.wf = false ∨ i.bytes ≠ 0 → step s = .next { s with agenda := rest })) ∧
    (∀ k i rest t, s.agenda = .request k i :: rest → i.wf = true → i.bytes = 0 →
      exec i { s with agenda := rest, trust := { s.trust with asking := some k } } = .next t →
      step s = .next { t with trust := { t.trust with asking := none } }) ∧
    (∀ g, s.agenda = [.turn g] → step s = step { s with agenda := [], turn := g }) ∧
    (∀ i v, v.cur.codeFar = [] → ran i v = exec i v) ∧
    (∀ (v : State) rs, v.cur.codeFar = [] → (∀ r ∈ rs, isFar r.pa = false) → v.withCode rs = v) ∧
    (s.agenda = [] → s.cur.run = .running → s.stopped s.turn = false → s.cur.yielding = none → s.cur.vq = [] → s.cur.mq = [] →
      s.cur.late = [] → s.cur.ibuf = [] → (s.cur.level = .pl1 → s.cur.imprecise = none) →
      let b := s.turnSeen
      b.boundary s.turn = none →
      let pc := s.cur.pc.toNat
      let asid := s.cur.asid.toNat
      (∀ f, b.probe (b.space s.turn) .fetch pc = .error f → step s = b.trapAccess (fetchFault f)) ∧
      (∀ r, b.probe (b.space s.turn) .fetch pc = .ok r →
        let u := b.assignPage r.leaf
        let w := u.load r 4
        sound u r →
        (∀ i, decode w = .ok (i, []) → step s = ran i ((u.markPage asid r.leaf false .plain).withCode [r])) ∧
        (ofLe w % 4 ≠ 2 → (∀ x, decode w ≠ .ok x) → step s = u.trap causeIllegal) ∧
        (ofLe w % 4 = 2 → ∀ f, u.probe (u.space s.turn) .fetch (pc + 4) = .error f → step s = u.trapAccess (fetchFault f)) ∧
        (ofLe w % 4 = 2 → ∀ q, u.probe (u.space s.turn) .fetch (pc + 4) = .ok q →
          let v := u.assignPage q.leaf
          let x := v.load q 4
          sound v q →
          (∀ i, decode (w ++ x) = .ok (i, []) →
            step s = ran i (((v.markPage asid r.leaf false .plain).markPage asid q.leaf false .plain).withCode [r, q])) ∧
          ((∀ y, decode (w ++ x) ≠ .ok y) → step s = v.trap causeIllegal))))

/-- Log entry 3: memory keeps its canonical form in every step, from every state that has it.
The model's own choices here: log entries 1, 3. -/
def Obligations.StepsKeepTheMemoryForm : Prop :=
  ∀ (s t : State), s.memInv → step s = .next t → t.memInv

/-- R371, R373: no step is refused, and a step stops in no state whose position images lie in HBM.
The model's own choices here: log entries 1, 75. -/
def Obligations.EveryStepRuns : Prop :=
  ∀ (s : State), (∀ r, step s ≠ .refused r) ∧ (s.imageOk = true → ∃ t, step s = .next t)

namespace Sys2Proof.Claims

open Sys2Proof Sys2Proof.Machine

/-- Instructions executed one after another. -/
def runAll (is : List Instr) (s : State) : Out := is.foldl (fun o i => o.andThen (exec i)) (.next s)

end Sys2Proof.Claims

/-- R24, R25, R310: what pseudo-instructions stand for does what their names say: NOP nothing, MV a copy, LI a constant of 64 bits in
one or two instructions, LA an address of which %pc(S) is within reach, RET a jump to x1. -/
def Sys2Proof.Claims.PseudoInstructionsRun : Prop :=
  ∀ (s : State) (d a : XReg) (v : Word) (is : List Instr),
    (Pseudo.nop.expand s.cur.pc = some is → runAll is s = .next (s.setCur (s.cur.advance 4))) ∧
    ((Pseudo.mv d a).expand s.cur.pc = some is → s.cur.anyPending [d, a] = false →
      runAll is s = .next (wrote s d (s.cur.getX a) 4)) ∧
    ((Pseudo.li d v).expand s.cur.pc ≠ none) ∧
    ((Pseudo.li d v).expand s.cur.pc = some is → s.cur.anyPending [d] = false →
      runAll is s = .next (wrote s d v (is.map Instr.bytes).sum)) ∧
    ((Pseudo.la d v).expand s.cur.pc = none ↔ (pcPart s.cur.pc v).toInt < -(2 ^ 18) ∨ 2 ^ 18 ≤ (pcPart s.cur.pc v).toInt) ∧
    ((Pseudo.la d v).expand s.cur.pc = some is → s.cur.anyPending [d] = false → runAll is s = .next (wrote s d v 8)) ∧
    (Pseudo.ret.expand s.cur.pc = some is → s.cur.anyPending [1] = false → (s.cur.getX 1).toNat % 4 = 0 →
      runAll is s = .next (s.setCur { s.cur with pc := s.cur.getX 1 }))

/-- R24, R30: relocated words decode to their instructions with the fields of Table 1-13 in place: %hi, %lo and %pc of S + A, branch and
jump offsets that lead from P to S + A, and the linkage entry in place of the symbol. ADDPC with %pc and an offset of %lo make S + A. -/
def Sys2Proof.Claims.RelocationsFillFields : Prop :=
  ∀ (r : Reloc) (w : Nat) (s a p l : Word) (d b : XReg) (h : BitVec 19) (i : BitVec 14) (o : BitVec 11) (j : BitVec 24),
    let at_ := fun (x : Instr) (y : Instr) => ∀ u, encodeWords x = [u] → r.apply u s a p l = some w →
      decode (bytesOfWord w) = .ok (y, [])
    (r = .hi19 → at_ (.lui d h) (.lui d (BitVec.ofInt 19 (hiPart (s + a)).toInt))) ∧
    (r = .pc19 → at_ (.addpc d h) (.addpc d (BitVec.ofInt 19 (pcPart p (s + a)).toInt))) ∧
    (r = .lo14 → at_ (.addi d b i) (.addi d b (BitVec.ofInt 14 (loPart (s + a)).toInt)) ∧
      at_ (.ld d b i) (.ld d b (BitVec.ofInt 14 (loPart (s + a)).toInt)) ∧ at_ (.sd d b i) (.sd d b (BitVec.ofInt 14 (loPart (s + a)).toInt))) ∧
    (r = .linkPc19 → at_ (.addpc d h) (.addpc d (BitVec.ofInt 19 (pcPart p (l + a)).toInt))) ∧
    (r = .linkLo14 → at_ (.ld d b i) (.ld d b (BitVec.ofInt 14 (loPart (l + a)).toInt))) ∧
    (r = .br11 → ∀ u, encodeWords (.beq d b o) = [u] → r.apply u s a p l = some w →
      ∃ x : BitVec 11, decode (bytesOfWord w) = .ok (.beq d b x, []) ∧ p + (x.signExtend 64 <<< 2) = s + a) ∧
    (r = .jp24 → ∀ u, encodeWords (.j j) = [u] → r.apply u s a p l = some w →
      ∃ x : BitVec 24, decode (bytesOfWord w) = .ok (.j x, []) ∧ p + (x.signExtend 64 <<< 2) = s + a) ∧
    (p &&& ~~~(0x1FFF : Word)) + (pcPart p s <<< 13) + loPart s = s ∧ (hiPart s <<< 13) + loPart s = s

namespace Sys2Proof.Claims

open Sys2Proof Sys2Proof.Machine

/-- A keyword of a block, its offset, how many values it takes and the bytes of each. -/
structure Place where
  key   : String
  off   : Nat
  count : Nat
  size  : Nat

/-- The launch descriptor (R27, Table 15-5). -/
def launchPlaces : List Place :=
  [⟨"entry", 0, 1, 8⟩, ⟨"args", 8, 1, 8⟩, ⟨"gangs", 0x10, 1, 4⟩, ⟨"cores", 0x14, 1, 1⟩, ⟨"harts", 0x15, 1, 1⟩, ⟨"lanes", 0x16, 4, 1⟩,
   ⟨"priority", 0x1A, 1, 1⟩, ⟨"check", 0x1B, 1, 1⟩, ⟨"flags", 0x1C, 1, 2⟩, ⟨"holdq", 0x1E, 1, 2⟩, ⟨"vrb", 0x20, 1, 4⟩,
   ⟨"spb", 0x24, 1, 4⟩, ⟨"ccb", 0x28, 1, 4⟩, ⟨"tags", 0x2C, 4, 1⟩, ⟨"budget", 0x30, 1, 8⟩, ⟨"done", 0x38, 1, 8⟩, ⟨"deps", 0x40, 1, 4⟩,
   ⟨"leaseq", 0x44, 1, 2⟩, ⟨"footprint", 0x48, 1, 8⟩, ⟨"handler", 0x50, 1, 8⟩]

/-- The declaration (R27, Table 11-1). -/
def declPlaces : List Place :=
  [⟨"bbase", 0, 1, 8⟩, ⟨"endsig", 8, 1, 8⟩, ⟨"bstride", 0x10, 1, 8⟩, ⟨"kstride", 0x18, 1, 8⟩, ⟨"nstride", 0x20, 1, 8⟩,
   ⟨"period", 0x28, 1, 4⟩, ⟨"mb", 0x2C, 1, 2⟩, ⟨"nb", 0x2E, 1, 2⟩, ⟨"kb", 0x30, 1, 2⟩, ⟨"bfmt", 0x32, 1, 1⟩, ⟨"lookahead", 0x33, 1, 1⟩,
   ⟨"policy", 0x34, 1, 1⟩, ⟨"feeder", 0x36, 1, 1⟩, ⟨"drainer", 0x37, 1, 1⟩, ⟨"start", 0x38, 1, 8⟩]

/-- The operands of .stream as one row each (R27, Table 3-4). -/
def streamPlaces : List Place :=
  [⟨"base", 0, 1, 8⟩, ⟨"fmt", 8, 1, 1⟩, ⟨"kind", 9, 1, 1⟩, ⟨"slide", 0xA, 1, 2⟩, ⟨"fill", 0xC, 1, 4⟩] ++
    (List.range 12).map (fun k => ⟨"", 0x10 + 4 * k, 1, 4⟩)

/-- A value fits n bytes, with or without a sign (log entry 78). -/
def fits (n : Nat) (v : Word) : Prop := v.toNat < 256 ^ n ∨ (-(2 ^ (8 * n - 1)) ≤ v.toInt ∧ v.toInt < 0)

/-- What a block's lines come to (R27): n bytes with each keyword's values at its place and zero elsewhere, or an error when a keyword is
unknown or repeated, has a wrong number of values, or one that does not fit. -/
def blockKept (rows : List BlockRow) (places : List Place) (n : Nat) : Prop :=
  ∀ lines : List (String × List Word),
    let good := (lines.map (fun l => l.1)).Nodup ∧
      ∀ l ∈ lines, ∃ p ∈ places, p.key = l.1 ∧ l.2.length = p.count ∧ ∀ v ∈ l.2, fits p.size v
    (¬ good → blockBytes rows lines = none) ∧
    (good → ∃ bs, blockBytes rows lines = some bs ∧ bs.length = n ∧
      (∀ p ∈ places, ∀ i, i < p.count →
        (∀ vs, (p.key, vs) ∈ lines → field bs (p.off + p.size * i) p.size = (vs.getD i 0).toNat % 256 ^ p.size) ∧
        ((∀ vs, (p.key, vs) ∉ lines) → field bs (p.off + p.size * i) p.size = 0)) ∧
      ∀ a, a < n → (∀ p ∈ places, a < p.off ∨ p.off + p.size * p.count ≤ a) → bs.getD a 0 = 0)

end Sys2Proof.Claims

/-- R27, R72, R240, R331, R438: a launch block and a declaration have each keyword's values where Tables 15-5 and 11-1 put them, and zero
elsewhere; an unknown or repeated keyword, a wrong number of values and a value that does not fit are errors. A .stream has its 17
operands in the order of Table 3-4, and the bytes of a stream descriptor read back as what was written. Pages are readable, and writable
or executable by the flags of their section. -/
def Sys2Proof.Claims.BlocksKeepTheirFields : Prop :=
  Sys2Proof.Claims.blockKept launchRows Sys2Proof.Claims.launchPlaces 128 ∧
  Sys2Proof.Claims.blockKept declRows Sys2Proof.Claims.declPlaces 64 ∧
  (∀ ops : List Word,
    let good := ops.length = 17 ∧ ∀ (k : Nat) (v : Word) (p : Sys2Proof.Claims.Place), ops[k]? = some v → Sys2Proof.Claims.streamPlaces[k]? = some p → Sys2Proof.Claims.fits p.size v
    (¬ good → streamBytes ops = none) ∧
    (good → ∃ bs, streamBytes ops = some bs ∧ bs.length = 64 ∧ ∀ (k : Nat) (v : Word) (p : Sys2Proof.Claims.Place), ops[k]? = some v → Sys2Proof.Claims.streamPlaces[k]? = some p →
      field bs p.off p.size = v.toNat % 256 ^ p.size)) ∧
  (∀ x : Desc, descOf (descBytes x) = x ∧ (descBytes x).length = 64) ∧
  (∀ w x : Bool, pageRights true w x = some (4 + (if w then 8 else 0) + (if x then 16 else 0)) ∧ pageRights false w x = none)

/-- R24, R26, R31, R426: linkage entries and labels. A symbol has one linkage entry, aligned to 8. The loader puts the symbol's address
into it when it has one, and otherwise the object's own global symbol with .resolve after its name, in an executable section; an object
that lacks it is refused. A label of a launch block names its first byte, which is aligned to 128 in its section, and an instruction at a
place that is no multiple of 4 is an error. -/
def Sys2Proof.Claims.ObjectsAreLinked : Prop :=
  ∀ (o o' : AsmObject) (base known : List (String × Word)) (sym : String) (s : AsmSection) (r : AsmReloc) (v : Word),
    ((o.linkFor sym).linkFor sym = o.linkFor sym ∧
      ∃ k, (o.linkFor sym).entryFor sym = some k ∧ (o.entryFor sym = none → k % 8 = 0)) ∧
    (o.symbol base known sym = some v → o.entryValue base known sym = some v) ∧
    (o.symbol base known sym = none →
      (∀ q sec pos, o.syms.find? (fun p => p.1 == sym ++ ".resolve") = some (q, .place sec pos) →
        (sym ++ ".resolve" ∈ o.globals → (o.find sec).execute = true →
          ∀ x a, base.find? (fun p => p.1 == sec) = some (x, a) → o.entryValue base known sym = some (a + BitVec.ofNat 64 pos)) ∧
        (sym ++ ".resolve" ∉ o.globals ∨ (o.find sec).execute = false → o.entryValue base known sym = none)) ∧
      ((∀ p ∈ o.syms, p.1 ≠ sym ++ ".resolve") → o.entryValue base known sym = none)) ∧
    (s ∈ o.sections → s.alloc = true → r ∈ s.relocs → r.typ = .linkent → o.entryValue base known r.sym = none →
      o.load base known = none) ∧
    (∀ lines, o.line (some sym) (some (.launch lines)) = some o' → ∃ pos, (sym, AsmSym.place o.now pos) ∈ o'.syms ∧ pos % 128 = 0) ∧
    (∀ i rs, (o.find o.now).bytes.length % 4 ≠ 0 → o.content (.instr i rs) = none)

/-! ### Completion, form by form -/

/-- R109, R296, R340, R349, R350: SIGDEC, SIGWAIT, SEND, RECV, RSIG, LAUNCH, PKTGET, PKTEMIT and PKTDONE complete: under conditions on the state
and the operands alone each has a next state in which the hart is past the instruction and the result is there. SIGDEC and SIGWAIT at an aligned word that
translates, SIGWAIT when the word is at most x[rb]; SEND at a free slot of a hart of its context, and at a peer's slot that is granted to
it; RECV at a FULL slot; RSIG at a word of HBM; LAUNCH of a sound packet at a queue with room; PKTGET with a packet there, PKTEMIT
where the next stage has room, PKTDONE of a packet that was taken.
The model's own choices here: log entries 1, 4, 6, 36, 37, 65, 102. -/
def Obligations.SignalsTransfersAndPacketsComplete : Prop :=
  ∀ (s : State) (d a b : XReg) (v : VReg),
    let va := s.cur.getX a
    (∀ r, s.cur.anyPending [d, a] = false → va.toNat % 8 = 0 → s.signalAt (s.space s.turn) .atomic va.toNat = .ok r →
      ∃ t, exec (.sigdec d a) s = .next t ∧ t.cur.pc = s.cur.pc + 4 ∧
        t.cur.getX d = if d = 0 then 0 else if r.void then 0 else BitVec.ofNat 64 (readNat (s.assignPage r.leaf).mem r.pa 8)) ∧
    (∀ r, s.cur.anyPending [d, a, b] = false → va.toNat % 8 = 0 → s.signalAt (s.space s.turn) .read va.toNat = .ok r →
      let old := if r.void then 0 else BitVec.ofNat 64 (readNat (s.assignPage r.leaf).mem r.pa 8)
      old.toInt ≤ (s.cur.getX b).toInt →
      ∃ t, exec (.sigwait d a b) s = .next t ∧ t.cur.pc = s.cur.pc + 4 ∧ t.cur.getX d = if d = 0 then 0 else old) ∧
    (idle s → configured s [v] →
      let w := va.toNat
      let dest := sendHart w
      let slot := (s.hart dest).slot (sendSlot w)
      (localDest s w → slot.st = .free → slot.waiters = [] →
        ∃ t, exec (.send v a) s = .next t ∧ t.cur.pc = s.cur.pc + 4 ∧ t.cur.vq = [] ∧
          ((t.hart dest).slot (sendSlot w)).st = .full (stripIn s v) ∧ (t.hart dest).latch = true) ∧
      (bit w 13 = false → s.hasGrant s.turn w = true →
        ∃ t, exec (.send v a) s = .next t ∧ t.cur.pc = s.cur.pc + 4 ∧ t.cur.vq = [] ∧
          (linkFree s (sendPeer w) → t.out = s.out ++ [.strip (sendPeer w) dest (sendSlot w) (stripIn s v)])) ∧
      (w ≤ 15 → ∀ y, (s.cur.slot w).st = .full y →
        ∃ t, exec (.recv d v a) s = .next t ∧ t.cur.pc = s.cur.pc + 4 ∧ t.cur.vq = [] ∧ (∀ z, (t.cur.slot w).st ≠ .full z) ∧
          t.cur.getX d = if d = 0 then 0 else if y.ew = vcEw s.cur.vconf then BitVec.ofNat 64 y.n else BitVec.allOnes 64)) ∧
    (idle s → va.toNat % 8 = 0 → ∀ pa leaf,
      (atHead s (.rsig a)).translate ((atHead s (.rsig a)).space s.turn) .atomic va.toNat = .ok (pa, leaf) → placeOf pa = .hbm →
      ∃ t, exec (.rsig a) s = .next t ∧ t.cur.pc = s.cur.pc + 4 ∧ t.cur.vq = [] ∧
        (s.migqOn = false → (∀ j, j < 8 → offEntry { pa := pa, leaf := leaf } (pa + j)) →
          readNat t.mem pa 8 = (readNat (s.assignPage leaf).mem pa 8 + 2 ^ 64 - 1) % 2 ^ 64)) ∧
    (s.cur.anyPending [d, a, b] = false → quiet s → ∀ r, canRead s va 128 r →
      let q := (s.cur.getX b).toNat
      let u := recordRead s va r 128
      postable u q → packetReason (s.ctx s.cur.asid.toNat) 32 (descAt s r 128) = none → u.queueDepth (u.queue q) < (u.queue q).size →
      ∃ t, exec (.launch d a b) s = .next t ∧ t.cur.pc = s.cur.pc + 4 ∧
        t.cur.getX d = if d = 0 then 0 else BitVec.ofNat 64 (q * 2 ^ 20 + u.queueTail (u.queue q) % 2 ^ 20)) ∧
    (∀ t x k st, s.stageOf s.turn = some (t, x, k) → t.stages[k]? = some st → s.cur.anyPending [d, a] = false →
      va.toNat % 64 = 0 → ∀ r, s.probe (s.space s.turn) .write va.toNat = .ok r → s.reachWaits r = false →
      ∀ seq p rest, x.withdrawn = none → st.queue = (seq, p) :: rest → p.length = 64 →
      ∃ z, exec (.pktget d a) s = .next z ∧ z.cur.pc = s.cur.pc + 4 ∧ z.cur.getX d = if d = 0 then 0 else BitVec.ofNat 64 seq) ∧
    (∀ t x k st, s.stageOf s.turn = some (t, x, k) → t.stages[k + 1]? = some st → s.cur.getX b = BitVec.ofNat 64 (k + 1) →
      k + 1 < 16 → va ≠ 0 → s.cur.anyPending [d, a, b] = false → quiet s → ∀ r, canRead s va 64 r → packetKept (descAt s r 64) →
      st.closed = false → st.load < st.cap →
      ∃ z, exec (.pktemit d a b) s = .next z ∧ z.cur.pc = s.cur.pc + 4 ∧
        z.cur.getX d = if d = 0 then 0 else BitVec.ofNat 64 st.nextSeq) ∧
    (∀ t x k, s.stageOf s.turn = some (t, x, k) → s.cur.anyPending [a] = false → va.toNat ∈ x.taken →
      ∃ z, exec (.pktdone a) s = .next z ∧ z.cur.pc = s.cur.pc + 4)

/-- R47, R59, R172, R174, R175, R291, R296, R297, R301, R391, R394, R403: events complete: under conditions on the state and the operands alone each has
a next state with its effect. A free slot is granted to its first request; a peer's strip lands; a probe finds its places; a load's data
land; the stream engine walks ahead; a slice is rebuilt and an element group computed again; an Ethernet error and a failing flit
are logged; a bank is cleared; a refresh window opens and closes; a port retrains, goes down and comes up; an invalid request ends
its queue pair.
The model's own choices here: log entries 1, 12, 36, 37, 61, 76, 90, 102. -/
def Obligations.EventsComplete : Prop :=
  ∀ (s : State) (g k n lane port b : Nat) (uc re : Bool) (info : Word),
    let h := s.hart g
    (∀ w rest, s.stopped g = false → h.run = .running → (h.slot k).st = .free → (h.slot k).waiters = w :: rest →
      ∃ t, exec (.receiveSlotGrant g k) s = .next t ∧ (t.hart g).slot k = { st := .granted w, waiters := rest }) ∧
    (∀ y pos sender, s.thermal = .normal → h.run = .running → (h.slot k).st = .granted (.peer pos sender) →
      ∃ t, exec (.stripDelivery g k y) s = .next t ∧ ((t.hart g).slot k).st = .full y ∧ (t.hart g).latch = true) ∧
    (∀ (e : Entry) rest ps, s.queuesHeld g = false → h.vq = e :: rest → h.mq = [] → (∀ f ∈ rest, e.seq < f.seq) → qIsVmem e.op = true →
      e.probed = false → (s.setHart g (h.asSeen e.seq)).probeVector g e = .ok ps →
      ∃ t, exec (.vectorProbe g) s = .next t ∧ (t.hart g).vq = { e with probed := true, pieces := ps } :: rest) ∧
    (∀ e : Entry, h.vq = [e] → qIsLoad e.op = true → e.probed = true → s.stopped g = false →
      ∃ t, exec (.loadDataArrival g 0) s = .next t ∧ (t.hart g).vq = [{ e with landed := true }]) ∧
    ((h.stream k).bound = true → s.stopped g = false →
      ∃ t, exec (.streamPrefetch g k) s = .next t ∧ ((t.hart g).stream k).pos = (h.stream k).pos ∧ t.mem = s.mem) ∧
    (s.islandStopped (g / 8) = false → ∃ t, exec (.parityRebuild g lane false) s = .next t ∧ (t.bank (g / 4)).v = true) ∧
    (s.islandStopped (n / 2) = false → ∃ t, exec (.laneGroupReexecution n lane re) s = .next t ∧ (t.bank n).v = true) ∧
    (∃ t, exec (.ethernetLinkError port uc info) s = .next t ∧ (t.bank (146 + port)).v = true) ∧
    (∃ t, exec (.errorBankClear b) s = .next t ∧ t.bank b = {}) ∧
    (s.thermal = .normal → s.refreshOf b ≠ .opened → ∃ t, exec (.refreshWindow b false) s = .next t ∧ t.refreshOf b = .opened) ∧
    (s.thermal = .normal → s.refreshOf b = .opened → ∃ t, exec (.refreshWindowClose b) s = .next t ∧ t.refreshOf b = .closed) ∧
    ((s.port port).st = .up →
      ∃ t, exec (.braidFlitReceive port false) s = .next t ∧ (t.bank (140 + port)).v = true) ∧
    ((s.port port).st = .retraining →
      (∃ t, exec (.braidPortRetrained port) s = .next t ∧ (t.port port).st = .up) ∧
      (∃ t, exec (.braidRetrainTimeout port) s = .next t ∧ (t.port port).st = .down)) ∧
    ((s.port port).st = .down → ∃ t, exec (.braidPortUp port) s = .next t ∧ (t.port port).st = .up) ∧
    (rdmaServes s n → ∃ t, exec (.rdmaInvalidRequest n) s = .next t ∧ n ∈ t.qpErrors)

/-! ### The merged statements -/

/-- Encodings and results of the ALU, immediate and shift members: IntegerRegisterResults, DivideAndRemainderResults, UnaryResults, ImmediateAndShiftResults and ArithmeticEncodings. -/
def Obligations.IntegerArithmeticResults : Prop :=
  Sys2Proof.Claims.IntegerRegisterResults ∧ Sys2Proof.Claims.DivideAndRemainderResults ∧ Sys2Proof.Claims.UnaryResults ∧ Sys2Proof.Claims.ImmediateAndShiftResults ∧ Sys2Proof.Claims.ArithmeticEncodings

/-- LUI, ADDPC, LIX and LIXH: UpperImmediates and LongImmediates. -/
def Obligations.UpperAndLongImmediates : Prop :=
  Sys2Proof.Claims.UpperImmediates ∧ Sys2Proof.Claims.LongImmediates

/-- Where branches and jumps continue: BranchesContinue, BranchEncodings and JumpsContinue. -/
def Obligations.BranchesAndJumpsContinue : Prop :=
  Sys2Proof.Claims.BranchesContinue ∧ Sys2Proof.Claims.BranchEncodings ∧ Sys2Proof.Claims.JumpsContinue

/-- Pending registers wait, and queued instructions are checked, captured and posted: PendingRegistersWait and QueuesHoldInstructions. The model's own choices here: log entries 4, 11, 46, 64. -/
def Obligations.PostingAndPendingRegisters : Prop :=
  Sys2Proof.Claims.PendingRegistersWait ∧ Sys2Proof.Claims.QueuesHoldInstructions

/-- Floating elementwise results, flags and their frame: VectorFloatElementwise, VectorUnaryResults and EstimatesKeepTheirBounds. The model's own choices here: log entries 4, 9. -/
def Obligations.VectorFloatResults : Prop :=
  Sys2Proof.Claims.VectorFloatElementwise ∧ Sys2Proof.Claims.VectorUnaryResults ∧ Sys2Proof.Claims.EstimatesKeepTheirBounds

/-- Vector compares and mask registers: VectorCompareResults and MaskRegisterResults. The model's own choices here: log entry 4. -/
def Obligations.MasksAndCompares : Prop :=
  Sys2Proof.Claims.VectorCompareResults ∧ Sys2Proof.Claims.MaskRegisterResults

/-- Permutations, generators, compress, expand and extract: PermutationAndGeneratorResults and CompressExpandExtract. The model's own choices here: log entries 4, 64. -/
def Obligations.PermutationResults : Prop :=
  Sys2Proof.Claims.PermutationAndGeneratorResults ∧ Sys2Proof.Claims.CompressExpandExtract

/-- Reductions: what they fold, in which order, and what they write: ReductionsFold and SumsFollowTheirOrder. The model's own choices here: log entry 4. -/
def Obligations.ReductionResults : Prop :=
  Sys2Proof.Claims.ReductionsFold ∧ Sys2Proof.Claims.SumsFollowTheirOrder

/-- Scalar loads and stores: results, frame and traps: LoadsReadMemory, StoresWriteMemory and ScalarAccessTraps. The model's own choices here: log entries 3, 6, 45, 65, 92, 101, 102. -/
def Obligations.ScalarMemoryAccesses : Prop :=
  Sys2Proof.Claims.LoadsReadMemory ∧ Sys2Proof.Claims.StoresWriteMemory ∧ Sys2Proof.Claims.ScalarAccessTraps

/-- Translation, zero-on-assign and the A, D, UO and GR bits: TranslationFollowsTheLeaf, ZeroOnAssign and PageBitsOnCommit. The model's own choices here: log entries 6, 18, 34, 45, 80, 81. -/
def Obligations.TranslationAndPageBits : Prop :=
  Sys2Proof.Claims.TranslationFollowsTheLeaf ∧ Sys2Proof.Claims.ZeroOnAssign ∧ Sys2Proof.Claims.PageBitsOnCommit

/-- Scalar floating point: results, flags, conversions and what rounding means: ScalarFloatResults, RoundingModes and ScalarConversions. -/
def Obligations.ScalarFloatingPoint : Prop :=
  Sys2Proof.Claims.ScalarFloatResults ∧ Sys2Proof.Claims.RoundingModes ∧ Sys2Proof.Claims.ScalarConversions

/-- Fences, WFE, YIELD and the event latch: FencesAndWaiting and LatchesAndYields. The model's own choices here: log entries 11, 28, 43. -/
def Obligations.FencesWaitingAndLatches : Prop :=
  Sys2Proof.Claims.FencesAndWaiting ∧ Sys2Proof.Claims.LatchesAndYields

/-- Arrival tags: WAITANY, WAITALL, FFR, TAGCLR and what an arrival sets: ArrivalTags and ArrivalSetsTheTag. The model's own choices here: log entries 4, 11. -/
def Obligations.ArrivalTagsAndWaits : Prop :=
  Sys2Proof.Claims.ArrivalTags ∧ Sys2Proof.Claims.ArrivalSetsTheTag

/-- Signal words and the messages of their mirrors: SignalWords and MirrorsFollowSignals. The model's own choices here: log entries 11, 65, 74. -/
def Obligations.SignalWordsAndMirrors : Prop :=
  Sys2Proof.Claims.SignalWords ∧ Sys2Proof.Claims.MirrorsFollowSignals

/-- Gang barriers: expect, arrive, wait and their traps: BarrierInstructions, BarArrivesOnceAndWaits and BarrierTraps. The model's own choices here: log entries 6, 11, 39. -/
def Obligations.BarriersCompleteAndTrap : Prop :=
  Sys2Proof.Claims.BarrierInstructions ∧ Sys2Proof.Claims.BarArrivesOnceAndWaits ∧ Sys2Proof.Claims.BarrierTraps

/-- State registers: who may read and write them, and what a read returns: StateRegisterRights and StateRegisterReads. -/
def Obligations.StateRegisterReadsAndRights : Prop :=
  Sys2Proof.Claims.StateRegisterRights ∧ Sys2Proof.Claims.StateRegisterReads

/-- State registers: which fields a write changes: StateRegisterWrites and FloatControlAtPl0. The model's own choices here: log entries 11, 56, 75. -/
def Obligations.StateRegisterWritesKeepMaps : Prop :=
  Sys2Proof.Claims.StateRegisterWrites ∧ Sys2Proof.Claims.FloatControlAtPl0

/-- Taking a trap: what is saved, where the hart goes, and traps at PL1: TrapEntry, SystemTraps, TrapAtPl1StopsTheHart and PrivilegedTraps. The model's own choices here: log entries 12, 27, 39, 75, 90, 105. -/
def Obligations.TrapsEnterPl1 : Prop :=
  Sys2Proof.Claims.TrapEntry ∧ Sys2Proof.Claims.SystemTraps ∧ Sys2Proof.Claims.TrapAtPl1StopsTheHart ∧ Sys2Proof.Claims.PrivilegedTraps

/-- ERET restores the position image; TLBINV discards translations: TrapReturn and TlbInvalidation. The model's own choices here: log entries 11, 27, 39, 75, 89, 91, 105. -/
def Obligations.TrapReturnAndTlbInvalidation : Prop :=
  Sys2Proof.Claims.TrapReturn ∧ Sys2Proof.Claims.TlbInvalidation

/-- HALT, entries at the boundary, budgets, imprecise causes and context end: HaltEndsTheHart, EntriesAreTaken, BudgetsCountCycles, ImpreciseCauses and ContextsEnd. The model's own choices here: log entries 1, 11, 15, 17, 57, 59, 77. -/
def Obligations.HartsHaltEnterAndEnd : Prop :=
  Sys2Proof.Claims.HaltEndsTheHart ∧ Sys2Proof.Claims.EntriesAreTaken ∧ Sys2Proof.Claims.BudgetsCountCycles ∧ Sys2Proof.Claims.ImpreciseCauses ∧ Sys2Proof.Claims.ContextsEnd

/-- HOLD, HQRY, HREL and HOLDCTL: HoldGrants, HoldQueryAndRelease and HoldctlDropsHolds. The model's own choices here: log entries 6, 22, 42, 98, 109. -/
def Obligations.HeldRows : Prop :=
  Sys2Proof.Claims.HoldGrants ∧ Sys2Proof.Claims.HoldQueryAndRelease ∧ Sys2Proof.Claims.HoldctlDropsHolds

/-- VCFG and VSETL, and events of the vector pipe: probes, landing, admission, walk-ahead, grants, reshapes: VcfgConfigures, VsetlGrants, VectorPipeEvents and VectorAdmissionGoesOn. The model's own choices here: log entries 1, 4, 11, 12, 90, 91. -/
def Obligations.VectorConfigurationAndPipeEvents : Prop :=
  Sys2Proof.Claims.VcfgConfigures ∧ Sys2Proof.Claims.VsetlGrants ∧ Sys2Proof.Claims.VectorPipeEvents ∧ Sys2Proof.Claims.VectorAdmissionGoesOn

/-- Stream registers: position, descriptor, addressing and checks: StreamPositionInstructions, StreamDescriptorInstructions, StreamAddressing and DescriptorChecks. The model's own choices here: log entries 4, 29, 82. -/
def Obligations.StreamRegisters : Prop :=
  Sys2Proof.Claims.StreamPositionInstructions ∧ Sys2Proof.Claims.StreamDescriptorInstructions ∧ Sys2Proof.Claims.StreamAddressing ∧ Sys2Proof.Claims.DescriptorChecks

/-- Vector loads and stores: what lands where, positions and traps: VectorLoads, VectorStores, VectorMemoryTraps and StripLandsInMemory. The model's own choices here: log entries 4, 29, 30, 33, 40, 65, 81, 82, 83, 101, 102. -/
def Obligations.VectorMemoryInstructions : Prop :=
  Sys2Proof.Claims.VectorLoads ∧ Sys2Proof.Claims.VectorStores ∧ Sys2Proof.Claims.VectorMemoryTraps ∧ Sys2Proof.Claims.StripLandsInMemory

/-- Combining scatters and the update of one address: CombiningScatters and CombiningUpdates. The model's own choices here: log entries 4, 65, 84, 102. -/
def Obligations.CombiningStores : Prop :=
  Sys2Proof.Claims.CombiningScatters ∧ Sys2Proof.Claims.CombiningUpdates

/-- COPY, COPYF and COPYSTAT, and what a copy moves and completes: CopiesIssue and CopiesMoveUnits. The model's own choices here: log entries 1, 4, 20, 29, 77, 87, 88, 100, 102. -/
def Obligations.CopiesIssueAndMove : Prop :=
  Sys2Proof.Claims.CopiesIssue ∧ Sys2Proof.Claims.CopiesMoveUnits

/-- SEND, RECV, RSIG and the grants of receive slots: StripsTravel and RemoteSignalsAndGrants. The model's own choices here: log entries 1, 4, 36, 37, 102, 110. -/
def Obligations.StripsAndRemoteSignals : Prop :=
  Sys2Proof.Claims.StripsTravel ∧ Sys2Proof.Claims.RemoteSignalsAndGrants

/-- LEASE, LRENEW, LQRY and LREL: LeasesAreGranted and LeaseHandles. The model's own choices here: log entries 11, 22, 112. -/
def Obligations.LeaseInstructions : Prop :=
  Sys2Proof.Claims.LeasesAreGranted ∧ Sys2Proof.Claims.LeaseHandles

/-- Engines wake, zero, serve and sleep; the weir's steps: EngineEvents and WeirSteps. The model's own choices here: log entries 1, 22, 50, 112. -/
def Obligations.EngineAndWeirEvents : Prop :=
  Sys2Proof.Claims.EngineEvents ∧ Sys2Proof.Claims.WeirSteps

/-- CBDEF, CBADV, CBTAKE, CBRET, EOP: BufferInstructions and OperationsArePosted. The model's own choices here: log entries 6, 26. -/
def Obligations.EngineBuffersAndPosting : Prop :=
  Sys2Proof.Claims.BufferInstructions ∧ Sys2Proof.Claims.OperationsArePosted

/-- Engine operations: when they fire, what they consume and produce: OperationsRun and OperationResults. The model's own choices here: log entries 1, 48, 49, 111. -/
def Obligations.EngineOperations : Prop :=
  Sys2Proof.Claims.OperationsRun ∧ Sys2Proof.Claims.OperationResults

/-- B-tile loads and matrix multiplies: BTilesLoad and MatrixMultiplies. The model's own choices here: log entries 4, 44. -/
def Obligations.MatrixResults : Prop :=
  Sys2Proof.Claims.BTilesLoad ∧ Sys2Proof.Claims.MatrixMultiplies

/-- MPROG, MSYNC, MCHK and the array's events: MatrixStatus and MatrixEvents. The model's own choices here: log entries 1, 28, 38. -/
def Obligations.MatrixStatusAndEvents : Prop :=
  Sys2Proof.Claims.MatrixStatus ∧ Sys2Proof.Claims.MatrixEvents

/-- Millrace instructions and the feeders' tiles: MillraceInstructions and FeedersMoveTiles. The model's own choices here: log entries 4, 11, 21, 28, 94, 100, 106. -/
def Obligations.MillraceRuns : Prop :=
  Sys2Proof.Claims.MillraceInstructions ∧ Sys2Proof.Claims.FeedersMoveTiles

/-- LAUNCH, PKTGET, PKTEMIT and PKTDONE: LaunchPosts and CascadePackets. The model's own choices here: log entries 37, 55, 62, 113, 114. -/
def Obligations.LaunchesAndCascadePackets : Prop :=
  Sys2Proof.Claims.LaunchPosts ∧ Sys2Proof.Claims.CascadePackets

/-- Error banks, scrubbing and refresh: ErrorsFillTheirBanks and RefreshAndScrub. The model's own choices here: log entries 1, 59, 61, 76, 97. -/
def Obligations.ErrorsAndRefresh : Prop :=
  Sys2Proof.Claims.ErrorsFillTheirBanks ∧ Sys2Proof.Claims.RefreshAndScrub

/-- Thermal emergencies, the energy count and device registers: ThermalEmergencies, EnergyWindow and DeviceRegisterWrites. The model's own choices here: log entries 1, 59, 61, 63, 99. -/
def Obligations.PowerAndDeviceRegisters : Prop :=
  Sys2Proof.Claims.ThermalEmergencies ∧ Sys2Proof.Claims.EnergyWindow ∧ Sys2Proof.Claims.DeviceRegisterWrites

/-- Queue packets are posted and taken in as tasks: PacketsAreTakenIn, PacketsNameMemory and TailAdvancesPost. The model's own choices here: log entries 1, 8, 23, 65. -/
def Obligations.PacketsBecomeTasks : Prop :=
  Sys2Proof.Claims.PacketsAreTakenIn ∧ Sys2Proof.Claims.PacketsNameMemory ∧ Sys2Proof.Claims.TailAdvancesPost

/-- Tasks: dependences, ageing, waits, copies and completion: TasksRiseByLevel and TasksComplete. The model's own choices here: log entries 1, 15, 24, 51, 52, 85. -/
def Obligations.TasksRunAndComplete : Prop :=
  Sys2Proof.Claims.TasksRiseByLevel ∧ Sys2Proof.Claims.TasksComplete

/-- Pre-emption, reservations and the ticks of a cascade: GangsArePreempted, ReservationsPreempt and CascadeTicks. The model's own choices here: log entries 1, 17, 53, 54, 55, 93, 95, 96, 107, 110. -/
def Obligations.GangsArePreemptedAndCascadesTick : Prop :=
  Sys2Proof.Claims.GangsArePreempted ∧ Sys2Proof.Claims.ReservationsPreempt ∧ Sys2Proof.Claims.CascadeTicks

/-- Management requests: contexts and queues: ManagementIsGuarded, ContextsAreCreated and QueuesComeAndGo. The model's own choices here: log entries 1, 8, 57, 66, 70. -/
def Obligations.ManagementOfContexts : Prop :=
  Sys2Proof.Claims.ManagementIsGuarded ∧ Sys2Proof.Claims.ContextsAreCreated ∧ Sys2Proof.Claims.QueuesComeAndGo

/-- Management requests: regions, mirrors, groups, apertures, health: RegionsAndMirrors, GroupsAndApertures and HealthIsReported. The model's own choices here: log entries 1, 66, 71. -/
def Obligations.ManagementOfResources : Prop :=
  Sys2Proof.Claims.RegionsAndMirrors ∧ Sys2Proof.Claims.GroupsAndApertures ∧ Sys2Proof.Claims.HealthIsReported

/-- The boot chain, a loss of power, firmware updates and management sessions: BootChain, PowerLossKeepsTheRecord, LiveUpdate, FlashUpdates and SessionsAreAuthorised. The model's own choices here: log entries 1, 2, 3, 66, 67, 68, 69, 72. -/
def Obligations.BootUpdatesAndSessions : Prop :=
  Sys2Proof.Claims.BootChain ∧ Sys2Proof.Claims.PowerLossKeepsTheRecord ∧ Sys2Proof.Claims.LiveUpdate ∧ Sys2Proof.Claims.FlashUpdates ∧ Sys2Proof.Claims.SessionsAreAuthorised

/-- Braid ports, routes and peers' accesses: BraidPorts, RoutesFollowTheTorus and PeersReachTheAperture. The model's own choices here: log entries 1, 36, 58, 61, 102, 103. -/
def Obligations.BraidTraffic : Prop :=
  Sys2Proof.Claims.BraidPorts ∧ Sys2Proof.Claims.RoutesFollowTheTorus ∧ Sys2Proof.Claims.PeersReachTheAperture

/-- Pseudo-instructions, relocations, descriptor blocks and linkage entries make the words and bytes the machine reads: PseudoInstructionsRun, RelocationsFillFields, BlocksKeepTheirFields and ObjectsAreLinked. The model's own choices here: log entry 78. -/
def Obligations.ToolsMakeTheWords : Prop :=
  Sys2Proof.Claims.PseudoInstructionsRun ∧ Sys2Proof.Claims.RelocationsFillFields ∧ Sys2Proof.Claims.BlocksKeepTheirFields ∧ Sys2Proof.Claims.ObjectsAreLinked
end

