-- ==== Sys2Proof/Laws/Memory.lean ====
section
/-! SUPPORT. Memory: a byte written reads as written, every other byte as before, and every operation keeps the
canonical form. -/

namespace Sys2Proof.Machine

open Sys2Proof

/-! ### Reading through the operations -/

theorem tget_append_left {α : Type} (t u : Tab α) (k : Nat) (d : α) (h : ∀ p ∈ u, p.1 ≠ k) :
    tget (t ++ u) k d = tget t k d := by
  induction t with
  | nil =>
    induction u with
    | nil => rfl
    | cons p r ih =>
      obtain ⟨j, v⟩ := p
      have hj : j ≠ k := h (j, v) (by simp)
      have := ih (fun q hq => h q (by simp [hq]))
      simpa [tget, hj] using this
  | cons p r ih =>
    obtain ⟨j, v⟩ := p
    simp only [List.cons_append, tget, ih]

theorem tget_append_right {α : Type} (t u : Tab α) (k : Nat) (d : α) (h : ∀ p ∈ t, p.1 ≠ k) :
    tget (t ++ u) k d = tget u k d := by
  induction t with
  | nil => rfl
  | cons p r ih =>
    obtain ⟨j, v⟩ := p
    have hj : j ≠ k := h (j, v) (by simp)
    simp [tget, hj, ih (fun q hq => h q (by simp [hq]))]

theorem tget_filter {α : Type} (t : Tab α) (p : Nat → Bool) (k : Nat) (d : α) (h : p k = true) :
    tget (t.filter (fun c => p c.1)) k d = tget t k d := by
  induction t with
  | nil => rfl
  | cons q r ih =>
    obtain ⟨j, v⟩ := q
    by_cases e : j = k
    · subst e; simp [tget, h]
    · by_cases hj : p j = true
      · simp [tget, hj, e, ih]
      · simp [tget, hj, e, ih]

theorem tget_absent {α : Type} (t : Tab α) (k : Nat) (d : α) (h : ∀ p ∈ t, p.1 ≠ k) : tget t k d = d := by
  induction t with
  | nil => rfl
  | cons q r ih =>
    obtain ⟨j, v⟩ := q
    have hj : j ≠ k := h (j, v) (by simp)
    simp [tget, hj, ih (fun p hp => h p (by simp [hp]))]

theorem cellsOf_bounds (bs : List Byte) : ∀ (a : Nat), ∀ p ∈ cellsOf a bs, a ≤ p.1 ∧ p.1 < a + bs.length := by
  induction bs with
  | nil => intro a p hp; simp [cellsOf] at hp
  | cons b r ih =>
    intro a p hp
    simp only [cellsOf] at hp
    split at hp
    · have := ih (a + 1) p hp
      simp only [List.length_cons]; omega
    · rcases List.mem_cons.mp hp with h | h
      · subst h; simp
      · have := ih (a + 1) p h
        simp only [List.length_cons]; omega

theorem tget_cellsOf (bs : List Byte) : ∀ (a i : Nat), tget (cellsOf a bs) (a + i) unlistedByte = bs.getD i 0 := by
  induction bs with
  | nil => intro a i; simp [cellsOf, tget, unlistedByte]
  | cons b r ih =>
    intro a i
    cases i with
    | zero =>
      simp only [cellsOf]
      split
      · rename_i hb
        rw [tget_absent]
        · simp [hb, unlistedByte]
        · intro p hp
          have := cellsOf_bounds r (a + 1) p hp
          omega
      · simp [tget]
    | succ i =>
      have e : a + (i + 1) = a + 1 + i := by omega
      simp only [cellsOf]
      split
      · rw [e, ih]; simp
      · simp only [tget]
        rw [if_neg (by omega), e, ih]; simp

/-- A byte that a write covers reads as written. -/
theorem readByte_writeBytes_in (m : Memory) (a : Nat) (bs : List Byte) (i : Nat) (h : i < bs.length) :
    readByte (writeBytes m a bs) (a + i) = bs.getD i 0 := by
  unfold readByte writeBytes
  rw [tget_append_left, tget_append_right, tget_cellsOf]
  · intro p hp
    simp at hp; omega
  · intro p hp
    simp at hp; omega

/-- A byte outside a write reads as before. -/
theorem readByte_writeBytes_out (m : Memory) (a : Nat) (bs : List Byte) (x : Nat) (h : x < a ∨ a + bs.length ≤ x) :
    readByte (writeBytes m a bs) x = readByte m x := by
  unfold readByte writeBytes
  by_cases hx : x < a
  · rw [tget_append_left, tget_append_left, tget_filter m (fun c => decide (c < a)) x _ (by simp [hx])]
    · intro p hp; have := cellsOf_bounds bs a p hp; omega
    · intro p hp; simp at hp; omega
  · have hy : a + bs.length ≤ x := by omega
    rw [tget_append_right, tget_filter m (fun c => decide (a + bs.length ≤ c)) x _ (by simp [hy])]
    intro p hp
    rcases List.mem_append.mp hp with h1 | h1
    · simp at h1; omega
    · have := cellsOf_bounds bs a p h1; omega

theorem readByte_eraseBytes_out (m : Memory) (a n x : Nat) (h : x < a ∨ a + n ≤ x) :
    readByte (eraseBytes m a n) x = readByte m x := by
  unfold readByte eraseBytes
  exact tget_filter m (fun c => decide (c < a ∨ a + n ≤ c)) x _ (by simpa using h)

theorem readByte_eraseBytes_in (m : Memory) (a n x : Nat) (h : a ≤ x ∧ x < a + n) :
    readByte (eraseBytes m a n) x = 0 := by
  unfold readByte eraseBytes
  rw [tget_absent]
  · rfl
  · intro p hp; simp at hp; omega

@[simp] theorem length_leBytes (n v : Nat) : (leBytes n v).length = n := by
  induction n generalizing v with
  | zero => rfl
  | succ n ih => simp [leBytes, ih]

@[simp] theorem length_zeros (n : Nat) : (zeros n).length = n := by simp [zeros]

@[simp] theorem length_readBytes (m : Memory) (a n : Nat) : (readBytes m a n).length = n := by
  induction n generalizing a with
  | zero => rfl
  | succ n ih => simp [readBytes, ih]

/-- Bytes that do not meet a write read as before. -/
theorem readBytes_writeBytes_out (m : Memory) (a : Nat) (bs : List Byte) (n : Nat) :
    ∀ (x : Nat), (x + n ≤ a ∨ a + bs.length ≤ x) → readBytes (writeBytes m a bs) x n = readBytes m x n := by
  induction n with
  | zero => intro x _; rfl
  | succ n ih =>
    intro x h
    simp only [readBytes]
    rw [readByte_writeBytes_out m a bs x (by omega), ih (x + 1) (by omega)]

theorem readBytes_writeBytes_at (bs : List Byte) : ∀ (m : Memory) (a : Nat),
    readBytes (writeBytes m a bs) a bs.length = bs := by
  intro m a
  have key : ∀ (n k : Nat), k + n = bs.length → readBytes (writeBytes m a bs) (a + k) n = bs.drop k := by
    intro n
    induction n with
    | zero => intro k hk; simp [readBytes, List.drop_eq_nil_of_le (by omega : bs.length ≤ k)]
    | succ n ih =>
      intro k hk
      simp only [readBytes]
      rw [readByte_writeBytes_in m a bs k (by omega)]
      have e : a + k + 1 = a + (k + 1) := by omega
      rw [e, ih (k + 1) (by omega)]
      rw [List.drop_eq_getElem_cons (by omega : k < bs.length)]
      simp [List.getD, List.getElem?_eq_getElem (by omega : k < bs.length)]
  simpa using key bs.length 0 (by omega)

/-- The number of n low bytes of a number. -/
theorem ofLe_leBytes (n : Nat) : ∀ (v : Nat), ofLe (leBytes n v) = v % 256 ^ n := by
  induction n with
  | zero => intro v; simp [leBytes, ofLe, Nat.mod_one]
  | succ n ih =>
    intro v
    simp only [leBytes, ofLe, ih, BitVec.toNat_ofNat]
    rw [show 256 ^ (n + 1) = 256 * 256 ^ n by rw [Nat.pow_succ, Nat.mul_comm], Nat.mod_mul]

/-- A number written reads as written, little-endian (R4). -/
theorem readNat_writeNat (m : Memory) (a n v : Nat) : readNat (writeNat m a n v) a n = v % 256 ^ n := by
  unfold readNat writeNat
  have := readBytes_writeBytes_at (leBytes n v) m a
  simp only [length_leBytes] at this
  rw [this, ofLe_leBytes]

/-! ### The canonical form -/

theorem wfFrom_mono (m : Memory) : ∀ (a b : Nat), a ≤ b → m.wfFrom b = true → m.wfFrom a = true := by
  cases m with
  | nil => intros; rfl
  | cons p r =>
    obtain ⟨j, v⟩ := p
    intro a b h w
    simp only [Memory.wfFrom, Bool.and_eq_true, decide_eq_true_eq] at w ⊢
    exact ⟨⟨by omega, w.1.2⟩, w.2⟩

theorem wfFrom_filter (p : Host.Cell → Bool) (m : Memory) :
    ∀ (a : Nat), m.wfFrom a = true → Memory.wfFrom a (m.filter p) = true := by
  induction m with
  | nil => intros; rfl
  | cons q r ih =>
    obtain ⟨j, v⟩ := q
    intro a w
    simp only [Memory.wfFrom, Bool.and_eq_true, decide_eq_true_eq] at w
    by_cases h : p (j, v) = true
    · simp only [List.filter_cons_of_pos h, Memory.wfFrom, Bool.and_eq_true, decide_eq_true_eq]
      exact ⟨⟨w.1.1, w.1.2⟩, ih _ w.2⟩
    · rw [List.filter_cons_of_neg h]
      exact wfFrom_mono _ a (j + 1) (by omega) (ih _ w.2)

/-- A canonical list followed by one that starts above all its addresses. -/
theorem wfFrom_append (m n : Memory) (b : Nat) : ∀ (a : Nat), m.wfFrom a = true → (∀ p ∈ m, p.1 < b) → a ≤ b →
    n.wfFrom b = true → Memory.wfFrom a (m ++ n) = true := by
  induction m with
  | nil => intro a _ _ h w; exact wfFrom_mono n a b h w
  | cons q r ih =>
    obtain ⟨j, v⟩ := q
    intro a w hb h wn
    simp only [Memory.wfFrom, Bool.and_eq_true, decide_eq_true_eq] at w
    have hj : j < b := hb (j, v) (by simp)
    simp only [List.cons_append, Memory.wfFrom, Bool.and_eq_true, decide_eq_true_eq]
    exact ⟨⟨w.1.1, w.1.2⟩, ih (j + 1) w.2 (fun p hp => hb p (by simp [hp])) (by omega) wn⟩

theorem wfFrom_cellsOf (bs : List Byte) : ∀ (a : Nat), Memory.wfFrom a (cellsOf a bs) = true := by
  induction bs with
  | nil => intro a; rfl
  | cons b r ih =>
    intro a
    simp only [cellsOf]
    split
    · exact wfFrom_mono _ a (a + 1) (by omega) (ih _)
    · rename_i h
      simp only [Memory.wfFrom, Bool.and_eq_true, decide_eq_true_eq]
      exact ⟨⟨by omega, by simpa using h⟩, ih _⟩

/-- A canonical list whose addresses all lie at or above b is canonical from b on. -/
theorem wfFrom_raise (m : Memory) (a b : Nat) (w : m.wfFrom a = true) (h : ∀ p ∈ m, b ≤ p.1) : m.wfFrom b = true := by
  cases m with
  | nil => rfl
  | cons q r =>
    obtain ⟨j, v⟩ := q
    simp only [Memory.wfFrom, Bool.and_eq_true, decide_eq_true_eq] at w ⊢
    exact ⟨⟨h (j, v) (by simp), w.1.2⟩, w.2⟩

theorem wf_writeBytes (m : Memory) (a : Nat) (bs : List Byte) (w : m.wf = true) : (writeBytes m a bs).wf = true := by
  unfold Memory.wf writeBytes
  refine wfFrom_append _ _ (a + bs.length) 0 (wfFrom_append _ _ a 0 (wfFrom_filter _ m 0 w) ?_ (by omega) (wfFrom_cellsOf bs a))
    ?_ (by omega) (wfFrom_raise _ 0 _ (wfFrom_filter _ m 0 w) ?_)
  · intro p hp; simp at hp; omega
  · intro p hp
    rcases List.mem_append.mp hp with h | h
    · simp at h; omega
    · have := cellsOf_bounds bs a p h; omega
  · intro p hp; simp at hp; omega

theorem wf_writeNat (m : Memory) (a n v : Nat) (w : m.wf = true) : (writeNat m a n v).wf = true := wf_writeBytes m a _ w

theorem wf_eraseBytes (m : Memory) (a n : Nat) (w : m.wf = true) : (eraseBytes m a n).wf = true := wfFrom_filter _ m 0 w

theorem wf_filter (m : Memory) (p : Host.Cell → Bool) (w : m.wf = true) : Memory.wf (m.filter p) = true :=
  wfFrom_filter p m 0 w

end Sys2Proof.Machine
end

