-- ==== Sys2Proof/Laws/State.lean ====
section
/-! SUPPORT. What each update of the state and of a hart leaves alone: one lemma per field and update, so that no proof
unfolds a record update. -/

namespace Sys2Proof.Machine

open Sys2Proof

/-! ### `State.setHart` -/

@[simp] theorem State.setHart_agenda (s : State) (g : Nat) (h : Hart) : (s.setHart g h).agenda = s.agenda := rfl
@[simp] theorem State.setHart_turn (s : State) (g : Nat) (h : Hart) : (s.setHart g h).turn = s.turn := rfl
@[simp] theorem State.setHart_eager (s : State) (g : Nat) (h : Hart) : (s.setHart g h).eager = s.eager := rfl
@[simp] theorem State.setHart_fresh (s : State) (g : Nat) (h : Hart) : (s.setHart g h).fresh = s.fresh := rfl
@[simp] theorem State.setHart_mem (s : State) (g : Nat) (h : Hart) : (s.setHart g h).mem = s.mem := rfl
@[simp] theorem State.setHart_farHost (s : State) (g : Nat) (h : Hart) : (s.setHart g h).farHost = s.farHost := rfl
@[simp] theorem State.setHart_poison (s : State) (g : Nat) (h : Hart) : (s.setHart g h).poison = s.poison := rfl
@[simp] theorem State.setHart_poisonWords (s : State) (g : Nat) (h : Hart) : (s.setHart g h).poisonWords = s.poisonWords := rfl
@[simp] theorem State.setHart_msc (s : State) (g : Nat) (h : Hart) : (s.setHart g h).msc = s.msc := rfl
@[simp] theorem State.setHart_cores (s : State) (g : Nat) (h : Hart) : (s.setHart g h).cores = s.cores := rfl
@[simp] theorem State.setHart_pairs (s : State) (g : Nat) (h : Hart) : (s.setHart g h).pairs = s.pairs := rfl
@[simp] theorem State.setHart_clusters (s : State) (g : Nat) (h : Hart) : (s.setHart g h).clusters = s.clusters := rfl
@[simp] theorem State.setHart_ctxs (s : State) (g : Nat) (h : Hart) : (s.setHart g h).ctxs = s.ctxs := rfl
@[simp] theorem State.setHart_holds (s : State) (g : Nat) (h : Hart) : (s.setHart g h).holds = s.holds := rfl
@[simp] theorem State.setHart_holdctl (s : State) (g : Nat) (h : Hart) : (s.setHart g h).holdctl = s.holdctl := rfl
@[simp] theorem State.setHart_degraded (s : State) (g : Nat) (h : Hart) : (s.setHart g h).degraded = s.degraded := rfl
@[simp] theorem State.setHart_refresh (s : State) (g : Nat) (h : Hart) : (s.setHart g h).refresh = s.refresh := rfl
@[simp] theorem State.setHart_hot (s : State) (g : Nat) (h : Hart) : (s.setHart g h).hot = s.hot := rfl
@[simp] theorem State.setHart_farCounts (s : State) (g : Nat) (h : Hart) : (s.setHart g h).farCounts = s.farCounts := rfl
@[simp] theorem State.setHart_migqbase (s : State) (g : Nat) (h : Hart) : (s.setHart g h).migqbase = s.migqbase := rfl
@[simp] theorem State.setHart_posbase (s : State) (g : Nat) (h : Hart) : (s.setHart g h).posbase = s.posbase := rfl
@[simp] theorem State.setHart_braidpos (s : State) (g : Nat) (h : Hart) : (s.setHart g h).braidpos = s.braidpos := rfl
@[simp] theorem State.setHart_trims (s : State) (g : Nat) (h : Hart) : (s.setHart g h).trims = s.trims := rfl
@[simp] theorem State.setHart_macs (s : State) (g : Nat) (h : Hart) : (s.setHart g h).macs = s.macs := rfl
@[simp] theorem State.setHart_devRegs (s : State) (g : Nat) (h : Hart) : (s.setHart g h).devRegs = s.devRegs := rfl
@[simp] theorem State.setHart_ports (s : State) (g : Nat) (h : Hart) : (s.setHart g h).ports = s.ports := rfl
@[simp] theorem State.setHart_peers (s : State) (g : Nat) (h : Hart) : (s.setHart g h).peers = s.peers := rfl
@[simp] theorem State.setHart_mirrors (s : State) (g : Nat) (h : Hart) : (s.setHart g h).mirrors = s.mirrors := rfl
@[simp] theorem State.setHart_copies (s : State) (g : Nat) (h : Hart) : (s.setHart g h).copies = s.copies := rfl
@[simp] theorem State.setHart_nextCopy (s : State) (g : Nat) (h : Hart) : (s.setHart g h).nextCopy = s.nextCopy := rfl
@[simp] theorem State.setHart_nextRun (s : State) (g : Nat) (h : Hart) : (s.setHart g h).nextRun = s.nextRun := rfl
@[simp] theorem State.setHart_grants (s : State) (g : Nat) (h : Hart) : (s.setHart g h).grants = s.grants := rfl
@[simp] theorem State.setHart_tasks (s : State) (g : Nat) (h : Hart) : (s.setHart g h).tasks = s.tasks := rfl
@[simp] theorem State.setHart_queues (s : State) (g : Nat) (h : Hart) : (s.setHart g h).queues = s.queues := rfl
@[simp] theorem State.setHart_lastQueue (s : State) (g : Nat) (h : Hart) : (s.setHart g h).lastQueue = s.lastQueue := rfl
@[simp] theorem State.setHart_lastCluster (s : State) (g : Nat) (h : Hart) : (s.setHart g h).lastCluster = s.lastCluster := rfl
@[simp] theorem State.setHart_placeCount (s : State) (g : Nat) (h : Hart) : (s.setHart g h).placeCount = s.placeCount := rfl
@[simp] theorem State.setHart_intake (s : State) (g : Nat) (h : Hart) : (s.setHart g h).intake = s.intake := rfl
@[simp] theorem State.setHart_intakeOpen (s : State) (g : Nat) (h : Hart) : (s.setHart g h).intakeOpen = s.intakeOpen := rfl
@[simp] theorem State.setHart_reserved (s : State) (g : Nat) (h : Hart) : (s.setHart g h).reserved = s.reserved := rfl
@[simp] theorem State.setHart_regions (s : State) (g : Nat) (h : Hart) : (s.setHart g h).regions = s.regions := rfl
@[simp] theorem State.setHart_nextRkey (s : State) (g : Nat) (h : Hart) : (s.setHart g h).nextRkey = s.nextRkey := rfl
@[simp] theorem State.setHart_qpErrors (s : State) (g : Nat) (h : Hart) : (s.setHart g h).qpErrors = s.qpErrors := rfl
@[simp] theorem State.setHart_incoming (s : State) (g : Nat) (h : Hart) : (s.setHart g h).incoming = s.incoming := rfl
@[simp] theorem State.setHart_banks (s : State) (g : Nat) (h : Hart) : (s.setHart g h).banks = s.banks := rfl
@[simp] theorem State.setHart_replace (s : State) (g : Nat) (h : Hart) : (s.setHart g h).replace = s.replace := rfl
@[simp] theorem State.setHart_engRetired (s : State) (g : Nat) (h : Hart) : (s.setHart g h).engRetired = s.engRetired := rfl
@[simp] theorem State.setHart_pagesRetired (s : State) (g : Nat) (h : Hart) : (s.setHart g h).pagesRetired = s.pagesRetired := rfl
@[simp] theorem State.setHart_retiredAt (s : State) (g : Nat) (h : Hart) : (s.setHart g h).retiredAt = s.retiredAt := rfl
@[simp] theorem State.setHart_corrected (s : State) (g : Nat) (h : Hart) : (s.setHart g h).corrected = s.corrected := rfl
@[simp] theorem State.setHart_ucPages (s : State) (g : Nat) (h : Hart) : (s.setHart g h).ucPages = s.ucPages := rfl
@[simp] theorem State.setHart_spares (s : State) (g : Nat) (h : Hart) : (s.setHart g h).spares = s.spares := rfl
@[simp] theorem State.setHart_coresLeft (s : State) (g : Nat) (h : Hart) : (s.setHart g h).coresLeft = s.coresLeft := rfl
@[simp] theorem State.setHart_thermal (s : State) (g : Nat) (h : Hart) : (s.setHart g h).thermal = s.thermal := rfl
@[simp] theorem State.setHart_time (s : State) (g : Nat) (h : Hart) : (s.setHart g h).time = s.time := rfl
@[simp] theorem State.setHart_paused (s : State) (g : Nat) (h : Hart) : (s.setHart g h).paused = s.paused := rfl
@[simp] theorem State.setHart_energy (s : State) (g : Nat) (h : Hart) : (s.setHart g h).energy = s.energy := rfl
@[simp] theorem State.setHart_energyHi (s : State) (g : Nat) (h : Hart) : (s.setHart g h).energyHi = s.energyHi := rfl
@[simp] theorem State.setHart_energyWrap (s : State) (g : Nat) (h : Hart) : (s.setHart g h).energyWrap = s.energyWrap := rfl
@[simp] theorem State.setHart_trust (s : State) (g : Nat) (h : Hart) : (s.setHart g h).trust = s.trust := rfl
@[simp] theorem State.setHart_out (s : State) (g : Nat) (h : Hart) : (s.setHart g h).out = s.out := rfl

/-! ### `State.setCore` -/

@[simp] theorem State.setCore_agenda (s : State) (n : Nat) (c : Core) : (s.setCore n c).agenda = s.agenda := rfl
@[simp] theorem State.setCore_turn (s : State) (n : Nat) (c : Core) : (s.setCore n c).turn = s.turn := rfl
@[simp] theorem State.setCore_eager (s : State) (n : Nat) (c : Core) : (s.setCore n c).eager = s.eager := rfl
@[simp] theorem State.setCore_fresh (s : State) (n : Nat) (c : Core) : (s.setCore n c).fresh = s.fresh := rfl
@[simp] theorem State.setCore_mem (s : State) (n : Nat) (c : Core) : (s.setCore n c).mem = s.mem := rfl
@[simp] theorem State.setCore_farHost (s : State) (n : Nat) (c : Core) : (s.setCore n c).farHost = s.farHost := rfl
@[simp] theorem State.setCore_poison (s : State) (n : Nat) (c : Core) : (s.setCore n c).poison = s.poison := rfl
@[simp] theorem State.setCore_poisonWords (s : State) (n : Nat) (c : Core) : (s.setCore n c).poisonWords = s.poisonWords := rfl
@[simp] theorem State.setCore_msc (s : State) (n : Nat) (c : Core) : (s.setCore n c).msc = s.msc := rfl
@[simp] theorem State.setCore_harts (s : State) (n : Nat) (c : Core) : (s.setCore n c).harts = s.harts := rfl
@[simp] theorem State.setCore_pairs (s : State) (n : Nat) (c : Core) : (s.setCore n c).pairs = s.pairs := rfl
@[simp] theorem State.setCore_clusters (s : State) (n : Nat) (c : Core) : (s.setCore n c).clusters = s.clusters := rfl
@[simp] theorem State.setCore_ctxs (s : State) (n : Nat) (c : Core) : (s.setCore n c).ctxs = s.ctxs := rfl
@[simp] theorem State.setCore_holds (s : State) (n : Nat) (c : Core) : (s.setCore n c).holds = s.holds := rfl
@[simp] theorem State.setCore_holdctl (s : State) (n : Nat) (c : Core) : (s.setCore n c).holdctl = s.holdctl := rfl
@[simp] theorem State.setCore_degraded (s : State) (n : Nat) (c : Core) : (s.setCore n c).degraded = s.degraded := rfl
@[simp] theorem State.setCore_refresh (s : State) (n : Nat) (c : Core) : (s.setCore n c).refresh = s.refresh := rfl
@[simp] theorem State.setCore_hot (s : State) (n : Nat) (c : Core) : (s.setCore n c).hot = s.hot := rfl
@[simp] theorem State.setCore_farCounts (s : State) (n : Nat) (c : Core) : (s.setCore n c).farCounts = s.farCounts := rfl
@[simp] theorem State.setCore_migqbase (s : State) (n : Nat) (c : Core) : (s.setCore n c).migqbase = s.migqbase := rfl
@[simp] theorem State.setCore_posbase (s : State) (n : Nat) (c : Core) : (s.setCore n c).posbase = s.posbase := rfl
@[simp] theorem State.setCore_braidpos (s : State) (n : Nat) (c : Core) : (s.setCore n c).braidpos = s.braidpos := rfl
@[simp] theorem State.setCore_trims (s : State) (n : Nat) (c : Core) : (s.setCore n c).trims = s.trims := rfl
@[simp] theorem State.setCore_macs (s : State) (n : Nat) (c : Core) : (s.setCore n c).macs = s.macs := rfl
@[simp] theorem State.setCore_devRegs (s : State) (n : Nat) (c : Core) : (s.setCore n c).devRegs = s.devRegs := rfl
@[simp] theorem State.setCore_ports (s : State) (n : Nat) (c : Core) : (s.setCore n c).ports = s.ports := rfl
@[simp] theorem State.setCore_peers (s : State) (n : Nat) (c : Core) : (s.setCore n c).peers = s.peers := rfl
@[simp] theorem State.setCore_mirrors (s : State) (n : Nat) (c : Core) : (s.setCore n c).mirrors = s.mirrors := rfl
@[simp] theorem State.setCore_copies (s : State) (n : Nat) (c : Core) : (s.setCore n c).copies = s.copies := rfl
@[simp] theorem State.setCore_nextCopy (s : State) (n : Nat) (c : Core) : (s.setCore n c).nextCopy = s.nextCopy := rfl
@[simp] theorem State.setCore_nextRun (s : State) (n : Nat) (c : Core) : (s.setCore n c).nextRun = s.nextRun := rfl
@[simp] theorem State.setCore_grants (s : State) (n : Nat) (c : Core) : (s.setCore n c).grants = s.grants := rfl
@[simp] theorem State.setCore_tasks (s : State) (n : Nat) (c : Core) : (s.setCore n c).tasks = s.tasks := rfl
@[simp] theorem State.setCore_queues (s : State) (n : Nat) (c : Core) : (s.setCore n c).queues = s.queues := rfl
@[simp] theorem State.setCore_lastQueue (s : State) (n : Nat) (c : Core) : (s.setCore n c).lastQueue = s.lastQueue := rfl
@[simp] theorem State.setCore_lastCluster (s : State) (n : Nat) (c : Core) : (s.setCore n c).lastCluster = s.lastCluster := rfl
@[simp] theorem State.setCore_placeCount (s : State) (n : Nat) (c : Core) : (s.setCore n c).placeCount = s.placeCount := rfl
@[simp] theorem State.setCore_intake (s : State) (n : Nat) (c : Core) : (s.setCore n c).intake = s.intake := rfl
@[simp] theorem State.setCore_intakeOpen (s : State) (n : Nat) (c : Core) : (s.setCore n c).intakeOpen = s.intakeOpen := rfl
@[simp] theorem State.setCore_reserved (s : State) (n : Nat) (c : Core) : (s.setCore n c).reserved = s.reserved := rfl
@[simp] theorem State.setCore_regions (s : State) (n : Nat) (c : Core) : (s.setCore n c).regions = s.regions := rfl
@[simp] theorem State.setCore_nextRkey (s : State) (n : Nat) (c : Core) : (s.setCore n c).nextRkey = s.nextRkey := rfl
@[simp] theorem State.setCore_qpErrors (s : State) (n : Nat) (c : Core) : (s.setCore n c).qpErrors = s.qpErrors := rfl
@[simp] theorem State.setCore_incoming (s : State) (n : Nat) (c : Core) : (s.setCore n c).incoming = s.incoming := rfl
@[simp] theorem State.setCore_banks (s : State) (n : Nat) (c : Core) : (s.setCore n c).banks = s.banks := rfl
@[simp] theorem State.setCore_replace (s : State) (n : Nat) (c : Core) : (s.setCore n c).replace = s.replace := rfl
@[simp] theorem State.setCore_engRetired (s : State) (n : Nat) (c : Core) : (s.setCore n c).engRetired = s.engRetired := rfl
@[simp] theorem State.setCore_pagesRetired (s : State) (n : Nat) (c : Core) : (s.setCore n c).pagesRetired = s.pagesRetired := rfl
@[simp] theorem State.setCore_retiredAt (s : State) (n : Nat) (c : Core) : (s.setCore n c).retiredAt = s.retiredAt := rfl
@[simp] theorem State.setCore_corrected (s : State) (n : Nat) (c : Core) : (s.setCore n c).corrected = s.corrected := rfl
@[simp] theorem State.setCore_ucPages (s : State) (n : Nat) (c : Core) : (s.setCore n c).ucPages = s.ucPages := rfl
@[simp] theorem State.setCore_spares (s : State) (n : Nat) (c : Core) : (s.setCore n c).spares = s.spares := rfl
@[simp] theorem State.setCore_coresLeft (s : State) (n : Nat) (c : Core) : (s.setCore n c).coresLeft = s.coresLeft := rfl
@[simp] theorem State.setCore_thermal (s : State) (n : Nat) (c : Core) : (s.setCore n c).thermal = s.thermal := rfl
@[simp] theorem State.setCore_time (s : State) (n : Nat) (c : Core) : (s.setCore n c).time = s.time := rfl
@[simp] theorem State.setCore_paused (s : State) (n : Nat) (c : Core) : (s.setCore n c).paused = s.paused := rfl
@[simp] theorem State.setCore_energy (s : State) (n : Nat) (c : Core) : (s.setCore n c).energy = s.energy := rfl
@[simp] theorem State.setCore_energyHi (s : State) (n : Nat) (c : Core) : (s.setCore n c).energyHi = s.energyHi := rfl
@[simp] theorem State.setCore_energyWrap (s : State) (n : Nat) (c : Core) : (s.setCore n c).energyWrap = s.energyWrap := rfl
@[simp] theorem State.setCore_trust (s : State) (n : Nat) (c : Core) : (s.setCore n c).trust = s.trust := rfl
@[simp] theorem State.setCore_out (s : State) (n : Nat) (c : Core) : (s.setCore n c).out = s.out := rfl

/-! ### `State.setPair` -/

@[simp] theorem State.setPair_agenda (s : State) (p : Nat) (x : Pair) : (s.setPair p x).agenda = s.agenda := rfl
@[simp] theorem State.setPair_turn (s : State) (p : Nat) (x : Pair) : (s.setPair p x).turn = s.turn := rfl
@[simp] theorem State.setPair_eager (s : State) (p : Nat) (x : Pair) : (s.setPair p x).eager = s.eager := rfl
@[simp] theorem State.setPair_fresh (s : State) (p : Nat) (x : Pair) : (s.setPair p x).fresh = s.fresh := rfl
@[simp] theorem State.setPair_mem (s : State) (p : Nat) (x : Pair) : (s.setPair p x).mem = s.mem := rfl
@[simp] theorem State.setPair_farHost (s : State) (p : Nat) (x : Pair) : (s.setPair p x).farHost = s.farHost := rfl
@[simp] theorem State.setPair_poison (s : State) (p : Nat) (x : Pair) : (s.setPair p x).poison = s.poison := rfl
@[simp] theorem State.setPair_poisonWords (s : State) (p : Nat) (x : Pair) : (s.setPair p x).poisonWords = s.poisonWords := rfl
@[simp] theorem State.setPair_msc (s : State) (p : Nat) (x : Pair) : (s.setPair p x).msc = s.msc := rfl
@[simp] theorem State.setPair_harts (s : State) (p : Nat) (x : Pair) : (s.setPair p x).harts = s.harts := rfl
@[simp] theorem State.setPair_cores (s : State) (p : Nat) (x : Pair) : (s.setPair p x).cores = s.cores := rfl
@[simp] theorem State.setPair_clusters (s : State) (p : Nat) (x : Pair) : (s.setPair p x).clusters = s.clusters := rfl
@[simp] theorem State.setPair_ctxs (s : State) (p : Nat) (x : Pair) : (s.setPair p x).ctxs = s.ctxs := rfl
@[simp] theorem State.setPair_holds (s : State) (p : Nat) (x : Pair) : (s.setPair p x).holds = s.holds := rfl
@[simp] theorem State.setPair_holdctl (s : State) (p : Nat) (x : Pair) : (s.setPair p x).holdctl = s.holdctl := rfl
@[simp] theorem State.setPair_degraded (s : State) (p : Nat) (x : Pair) : (s.setPair p x).degraded = s.degraded := rfl
@[simp] theorem State.setPair_refresh (s : State) (p : Nat) (x : Pair) : (s.setPair p x).refresh = s.refresh := rfl
@[simp] theorem State.setPair_hot (s : State) (p : Nat) (x : Pair) : (s.setPair p x).hot = s.hot := rfl
@[simp] theorem State.setPair_farCounts (s : State) (p : Nat) (x : Pair) : (s.setPair p x).farCounts = s.farCounts := rfl
@[simp] theorem State.setPair_migqbase (s : State) (p : Nat) (x : Pair) : (s.setPair p x).migqbase = s.migqbase := rfl
@[simp] theorem State.setPair_posbase (s : State) (p : Nat) (x : Pair) : (s.setPair p x).posbase = s.posbase := rfl
@[simp] theorem State.setPair_braidpos (s : State) (p : Nat) (x : Pair) : (s.setPair p x).braidpos = s.braidpos := rfl
@[simp] theorem State.setPair_trims (s : State) (p : Nat) (x : Pair) : (s.setPair p x).trims = s.trims := rfl
@[simp] theorem State.setPair_macs (s : State) (p : Nat) (x : Pair) : (s.setPair p x).macs = s.macs := rfl
@[simp] theorem State.setPair_devRegs (s : State) (p : Nat) (x : Pair) : (s.setPair p x).devRegs = s.devRegs := rfl
@[simp] theorem State.setPair_ports (s : State) (p : Nat) (x : Pair) : (s.setPair p x).ports = s.ports := rfl
@[simp] theorem State.setPair_peers (s : State) (p : Nat) (x : Pair) : (s.setPair p x).peers = s.peers := rfl
@[simp] theorem State.setPair_mirrors (s : State) (p : Nat) (x : Pair) : (s.setPair p x).mirrors = s.mirrors := rfl
@[simp] theorem State.setPair_copies (s : State) (p : Nat) (x : Pair) : (s.setPair p x).copies = s.copies := rfl
@[simp] theorem State.setPair_nextCopy (s : State) (p : Nat) (x : Pair) : (s.setPair p x).nextCopy = s.nextCopy := rfl
@[simp] theorem State.setPair_nextRun (s : State) (p : Nat) (x : Pair) : (s.setPair p x).nextRun = s.nextRun := rfl
@[simp] theorem State.setPair_grants (s : State) (p : Nat) (x : Pair) : (s.setPair p x).grants = s.grants := rfl
@[simp] theorem State.setPair_tasks (s : State) (p : Nat) (x : Pair) : (s.setPair p x).tasks = s.tasks := rfl
@[simp] theorem State.setPair_queues (s : State) (p : Nat) (x : Pair) : (s.setPair p x).queues = s.queues := rfl
@[simp] theorem State.setPair_lastQueue (s : State) (p : Nat) (x : Pair) : (s.setPair p x).lastQueue = s.lastQueue := rfl
@[simp] theorem State.setPair_lastCluster (s : State) (p : Nat) (x : Pair) : (s.setPair p x).lastCluster = s.lastCluster := rfl
@[simp] theorem State.setPair_placeCount (s : State) (p : Nat) (x : Pair) : (s.setPair p x).placeCount = s.placeCount := rfl
@[simp] theorem State.setPair_intake (s : State) (p : Nat) (x : Pair) : (s.setPair p x).intake = s.intake := rfl
@[simp] theorem State.setPair_intakeOpen (s : State) (p : Nat) (x : Pair) : (s.setPair p x).intakeOpen = s.intakeOpen := rfl
@[simp] theorem State.setPair_reserved (s : State) (p : Nat) (x : Pair) : (s.setPair p x).reserved = s.reserved := rfl
@[simp] theorem State.setPair_regions (s : State) (p : Nat) (x : Pair) : (s.setPair p x).regions = s.regions := rfl
@[simp] theorem State.setPair_nextRkey (s : State) (p : Nat) (x : Pair) : (s.setPair p x).nextRkey = s.nextRkey := rfl
@[simp] theorem State.setPair_qpErrors (s : State) (p : Nat) (x : Pair) : (s.setPair p x).qpErrors = s.qpErrors := rfl
@[simp] theorem State.setPair_incoming (s : State) (p : Nat) (x : Pair) : (s.setPair p x).incoming = s.incoming := rfl
@[simp] theorem State.setPair_banks (s : State) (p : Nat) (x : Pair) : (s.setPair p x).banks = s.banks := rfl
@[simp] theorem State.setPair_replace (s : State) (p : Nat) (x : Pair) : (s.setPair p x).replace = s.replace := rfl
@[simp] theorem State.setPair_engRetired (s : State) (p : Nat) (x : Pair) : (s.setPair p x).engRetired = s.engRetired := rfl
@[simp] theorem State.setPair_pagesRetired (s : State) (p : Nat) (x : Pair) : (s.setPair p x).pagesRetired = s.pagesRetired := rfl
@[simp] theorem State.setPair_retiredAt (s : State) (p : Nat) (x : Pair) : (s.setPair p x).retiredAt = s.retiredAt := rfl
@[simp] theorem State.setPair_corrected (s : State) (p : Nat) (x : Pair) : (s.setPair p x).corrected = s.corrected := rfl
@[simp] theorem State.setPair_ucPages (s : State) (p : Nat) (x : Pair) : (s.setPair p x).ucPages = s.ucPages := rfl
@[simp] theorem State.setPair_spares (s : State) (p : Nat) (x : Pair) : (s.setPair p x).spares = s.spares := rfl
@[simp] theorem State.setPair_coresLeft (s : State) (p : Nat) (x : Pair) : (s.setPair p x).coresLeft = s.coresLeft := rfl
@[simp] theorem State.setPair_thermal (s : State) (p : Nat) (x : Pair) : (s.setPair p x).thermal = s.thermal := rfl
@[simp] theorem State.setPair_time (s : State) (p : Nat) (x : Pair) : (s.setPair p x).time = s.time := rfl
@[simp] theorem State.setPair_paused (s : State) (p : Nat) (x : Pair) : (s.setPair p x).paused = s.paused := rfl
@[simp] theorem State.setPair_energy (s : State) (p : Nat) (x : Pair) : (s.setPair p x).energy = s.energy := rfl
@[simp] theorem State.setPair_energyHi (s : State) (p : Nat) (x : Pair) : (s.setPair p x).energyHi = s.energyHi := rfl
@[simp] theorem State.setPair_energyWrap (s : State) (p : Nat) (x : Pair) : (s.setPair p x).energyWrap = s.energyWrap := rfl
@[simp] theorem State.setPair_trust (s : State) (p : Nat) (x : Pair) : (s.setPair p x).trust = s.trust := rfl
@[simp] theorem State.setPair_out (s : State) (p : Nat) (x : Pair) : (s.setPair p x).out = s.out := rfl

/-! ### `State.setCluster` -/

@[simp] theorem State.setCluster_agenda (s : State) (c : Nat) (x : Cluster) : (s.setCluster c x).agenda = s.agenda := rfl
@[simp] theorem State.setCluster_turn (s : State) (c : Nat) (x : Cluster) : (s.setCluster c x).turn = s.turn := rfl
@[simp] theorem State.setCluster_eager (s : State) (c : Nat) (x : Cluster) : (s.setCluster c x).eager = s.eager := rfl
@[simp] theorem State.setCluster_fresh (s : State) (c : Nat) (x : Cluster) : (s.setCluster c x).fresh = s.fresh := rfl
@[simp] theorem State.setCluster_mem (s : State) (c : Nat) (x : Cluster) : (s.setCluster c x).mem = s.mem := rfl
@[simp] theorem State.setCluster_farHost (s : State) (c : Nat) (x : Cluster) : (s.setCluster c x).farHost = s.farHost := rfl
@[simp] theorem State.setCluster_poison (s : State) (c : Nat) (x : Cluster) : (s.setCluster c x).poison = s.poison := rfl
@[simp] theorem State.setCluster_poisonWords (s : State) (c : Nat) (x : Cluster) : (s.setCluster c x).poisonWords = s.poisonWords := rfl
@[simp] theorem State.setCluster_msc (s : State) (c : Nat) (x : Cluster) : (s.setCluster c x).msc = s.msc := rfl
@[simp] theorem State.setCluster_harts (s : State) (c : Nat) (x : Cluster) : (s.setCluster c x).harts = s.harts := rfl
@[simp] theorem State.setCluster_cores (s : State) (c : Nat) (x : Cluster) : (s.setCluster c x).cores = s.cores := rfl
@[simp] theorem State.setCluster_pairs (s : State) (c : Nat) (x : Cluster) : (s.setCluster c x).pairs = s.pairs := rfl
@[simp] theorem State.setCluster_ctxs (s : State) (c : Nat) (x : Cluster) : (s.setCluster c x).ctxs = s.ctxs := rfl
@[simp] theorem State.setCluster_holds (s : State) (c : Nat) (x : Cluster) : (s.setCluster c x).holds = s.holds := rfl
@[simp] theorem State.setCluster_holdctl (s : State) (c : Nat) (x : Cluster) : (s.setCluster c x).holdctl = s.holdctl := rfl
@[simp] theorem State.setCluster_degraded (s : State) (c : Nat) (x : Cluster) : (s.setCluster c x).degraded = s.degraded := rfl
@[simp] theorem State.setCluster_refresh (s : State) (c : Nat) (x : Cluster) : (s.setCluster c x).refresh = s.refresh := rfl
@[simp] theorem State.setCluster_hot (s : State) (c : Nat) (x : Cluster) : (s.setCluster c x).hot = s.hot := rfl
@[simp] theorem State.setCluster_farCounts (s : State) (c : Nat) (x : Cluster) : (s.setCluster c x).farCounts = s.farCounts := rfl
@[simp] theorem State.setCluster_migqbase (s : State) (c : Nat) (x : Cluster) : (s.setCluster c x).migqbase = s.migqbase := rfl
@[simp] theorem State.setCluster_posbase (s : State) (c : Nat) (x : Cluster) : (s.setCluster c x).posbase = s.posbase := rfl
@[simp] theorem State.setCluster_braidpos (s : State) (c : Nat) (x : Cluster) : (s.setCluster c x).braidpos = s.braidpos := rfl
@[simp] theorem State.setCluster_trims (s : State) (c : Nat) (x : Cluster) : (s.setCluster c x).trims = s.trims := rfl
@[simp] theorem State.setCluster_macs (s : State) (c : Nat) (x : Cluster) : (s.setCluster c x).macs = s.macs := rfl
@[simp] theorem State.setCluster_devRegs (s : State) (c : Nat) (x : Cluster) : (s.setCluster c x).devRegs = s.devRegs := rfl
@[simp] theorem State.setCluster_ports (s : State) (c : Nat) (x : Cluster) : (s.setCluster c x).ports = s.ports := rfl
@[simp] theorem State.setCluster_peers (s : State) (c : Nat) (x : Cluster) : (s.setCluster c x).peers = s.peers := rfl
@[simp] theorem State.setCluster_mirrors (s : State) (c : Nat) (x : Cluster) : (s.setCluster c x).mirrors = s.mirrors := rfl
@[simp] theorem State.setCluster_copies (s : State) (c : Nat) (x : Cluster) : (s.setCluster c x).copies = s.copies := rfl
@[simp] theorem State.setCluster_nextCopy (s : State) (c : Nat) (x : Cluster) : (s.setCluster c x).nextCopy = s.nextCopy := rfl
@[simp] theorem State.setCluster_nextRun (s : State) (c : Nat) (x : Cluster) : (s.setCluster c x).nextRun = s.nextRun := rfl
@[simp] theorem State.setCluster_grants (s : State) (c : Nat) (x : Cluster) : (s.setCluster c x).grants = s.grants := rfl
@[simp] theorem State.setCluster_tasks (s : State) (c : Nat) (x : Cluster) : (s.setCluster c x).tasks = s.tasks := rfl
@[simp] theorem State.setCluster_queues (s : State) (c : Nat) (x : Cluster) : (s.setCluster c x).queues = s.queues := rfl
@[simp] theorem State.setCluster_lastQueue (s : State) (c : Nat) (x : Cluster) : (s.setCluster c x).lastQueue = s.lastQueue := rfl
@[simp] theorem State.setCluster_lastCluster (s : State) (c : Nat) (x : Cluster) : (s.setCluster c x).lastCluster = s.lastCluster := rfl
@[simp] theorem State.setCluster_placeCount (s : State) (c : Nat) (x : Cluster) : (s.setCluster c x).placeCount = s.placeCount := rfl
@[simp] theorem State.setCluster_intake (s : State) (c : Nat) (x : Cluster) : (s.setCluster c x).intake = s.intake := rfl
@[simp] theorem State.setCluster_intakeOpen (s : State) (c : Nat) (x : Cluster) : (s.setCluster c x).intakeOpen = s.intakeOpen := rfl
@[simp] theorem State.setCluster_reserved (s : State) (c : Nat) (x : Cluster) : (s.setCluster c x).reserved = s.reserved := rfl
@[simp] theorem State.setCluster_regions (s : State) (c : Nat) (x : Cluster) : (s.setCluster c x).regions = s.regions := rfl
@[simp] theorem State.setCluster_nextRkey (s : State) (c : Nat) (x : Cluster) : (s.setCluster c x).nextRkey = s.nextRkey := rfl
@[simp] theorem State.setCluster_qpErrors (s : State) (c : Nat) (x : Cluster) : (s.setCluster c x).qpErrors = s.qpErrors := rfl
@[simp] theorem State.setCluster_incoming (s : State) (c : Nat) (x : Cluster) : (s.setCluster c x).incoming = s.incoming := rfl
@[simp] theorem State.setCluster_banks (s : State) (c : Nat) (x : Cluster) : (s.setCluster c x).banks = s.banks := rfl
@[simp] theorem State.setCluster_replace (s : State) (c : Nat) (x : Cluster) : (s.setCluster c x).replace = s.replace := rfl
@[simp] theorem State.setCluster_engRetired (s : State) (c : Nat) (x : Cluster) : (s.setCluster c x).engRetired = s.engRetired := rfl
@[simp] theorem State.setCluster_pagesRetired (s : State) (c : Nat) (x : Cluster) : (s.setCluster c x).pagesRetired = s.pagesRetired := rfl
@[simp] theorem State.setCluster_retiredAt (s : State) (c : Nat) (x : Cluster) : (s.setCluster c x).retiredAt = s.retiredAt := rfl
@[simp] theorem State.setCluster_corrected (s : State) (c : Nat) (x : Cluster) : (s.setCluster c x).corrected = s.corrected := rfl
@[simp] theorem State.setCluster_ucPages (s : State) (c : Nat) (x : Cluster) : (s.setCluster c x).ucPages = s.ucPages := rfl
@[simp] theorem State.setCluster_spares (s : State) (c : Nat) (x : Cluster) : (s.setCluster c x).spares = s.spares := rfl
@[simp] theorem State.setCluster_coresLeft (s : State) (c : Nat) (x : Cluster) : (s.setCluster c x).coresLeft = s.coresLeft := rfl
@[simp] theorem State.setCluster_thermal (s : State) (c : Nat) (x : Cluster) : (s.setCluster c x).thermal = s.thermal := rfl
@[simp] theorem State.setCluster_time (s : State) (c : Nat) (x : Cluster) : (s.setCluster c x).time = s.time := rfl
@[simp] theorem State.setCluster_paused (s : State) (c : Nat) (x : Cluster) : (s.setCluster c x).paused = s.paused := rfl
@[simp] theorem State.setCluster_energy (s : State) (c : Nat) (x : Cluster) : (s.setCluster c x).energy = s.energy := rfl
@[simp] theorem State.setCluster_energyHi (s : State) (c : Nat) (x : Cluster) : (s.setCluster c x).energyHi = s.energyHi := rfl
@[simp] theorem State.setCluster_energyWrap (s : State) (c : Nat) (x : Cluster) : (s.setCluster c x).energyWrap = s.energyWrap := rfl
@[simp] theorem State.setCluster_trust (s : State) (c : Nat) (x : Cluster) : (s.setCluster c x).trust = s.trust := rfl
@[simp] theorem State.setCluster_out (s : State) (c : Nat) (x : Cluster) : (s.setCluster c x).out = s.out := rfl

/-! ### `State.setCtx` -/

@[simp] theorem State.setCtx_agenda (s : State) (a : Nat) (x : Ctx) : (s.setCtx a x).agenda = s.agenda := rfl
@[simp] theorem State.setCtx_turn (s : State) (a : Nat) (x : Ctx) : (s.setCtx a x).turn = s.turn := rfl
@[simp] theorem State.setCtx_eager (s : State) (a : Nat) (x : Ctx) : (s.setCtx a x).eager = s.eager := rfl
@[simp] theorem State.setCtx_fresh (s : State) (a : Nat) (x : Ctx) : (s.setCtx a x).fresh = s.fresh := rfl
@[simp] theorem State.setCtx_mem (s : State) (a : Nat) (x : Ctx) : (s.setCtx a x).mem = s.mem := rfl
@[simp] theorem State.setCtx_farHost (s : State) (a : Nat) (x : Ctx) : (s.setCtx a x).farHost = s.farHost := rfl
@[simp] theorem State.setCtx_poison (s : State) (a : Nat) (x : Ctx) : (s.setCtx a x).poison = s.poison := rfl
@[simp] theorem State.setCtx_poisonWords (s : State) (a : Nat) (x : Ctx) : (s.setCtx a x).poisonWords = s.poisonWords := rfl
@[simp] theorem State.setCtx_msc (s : State) (a : Nat) (x : Ctx) : (s.setCtx a x).msc = s.msc := rfl
@[simp] theorem State.setCtx_harts (s : State) (a : Nat) (x : Ctx) : (s.setCtx a x).harts = s.harts := rfl
@[simp] theorem State.setCtx_cores (s : State) (a : Nat) (x : Ctx) : (s.setCtx a x).cores = s.cores := rfl
@[simp] theorem State.setCtx_pairs (s : State) (a : Nat) (x : Ctx) : (s.setCtx a x).pairs = s.pairs := rfl
@[simp] theorem State.setCtx_clusters (s : State) (a : Nat) (x : Ctx) : (s.setCtx a x).clusters = s.clusters := rfl
@[simp] theorem State.setCtx_holds (s : State) (a : Nat) (x : Ctx) : (s.setCtx a x).holds = s.holds := rfl
@[simp] theorem State.setCtx_holdctl (s : State) (a : Nat) (x : Ctx) : (s.setCtx a x).holdctl = s.holdctl := rfl
@[simp] theorem State.setCtx_degraded (s : State) (a : Nat) (x : Ctx) : (s.setCtx a x).degraded = s.degraded := rfl
@[simp] theorem State.setCtx_refresh (s : State) (a : Nat) (x : Ctx) : (s.setCtx a x).refresh = s.refresh := rfl
@[simp] theorem State.setCtx_hot (s : State) (a : Nat) (x : Ctx) : (s.setCtx a x).hot = s.hot := rfl
@[simp] theorem State.setCtx_farCounts (s : State) (a : Nat) (x : Ctx) : (s.setCtx a x).farCounts = s.farCounts := rfl
@[simp] theorem State.setCtx_migqbase (s : State) (a : Nat) (x : Ctx) : (s.setCtx a x).migqbase = s.migqbase := rfl
@[simp] theorem State.setCtx_posbase (s : State) (a : Nat) (x : Ctx) : (s.setCtx a x).posbase = s.posbase := rfl
@[simp] theorem State.setCtx_braidpos (s : State) (a : Nat) (x : Ctx) : (s.setCtx a x).braidpos = s.braidpos := rfl
@[simp] theorem State.setCtx_trims (s : State) (a : Nat) (x : Ctx) : (s.setCtx a x).trims = s.trims := rfl
@[simp] theorem State.setCtx_macs (s : State) (a : Nat) (x : Ctx) : (s.setCtx a x).macs = s.macs := rfl
@[simp] theorem State.setCtx_devRegs (s : State) (a : Nat) (x : Ctx) : (s.setCtx a x).devRegs = s.devRegs := rfl
@[simp] theorem State.setCtx_ports (s : State) (a : Nat) (x : Ctx) : (s.setCtx a x).ports = s.ports := rfl
@[simp] theorem State.setCtx_peers (s : State) (a : Nat) (x : Ctx) : (s.setCtx a x).peers = s.peers := rfl
@[simp] theorem State.setCtx_mirrors (s : State) (a : Nat) (x : Ctx) : (s.setCtx a x).mirrors = s.mirrors := rfl
@[simp] theorem State.setCtx_copies (s : State) (a : Nat) (x : Ctx) : (s.setCtx a x).copies = s.copies := rfl
@[simp] theorem State.setCtx_nextCopy (s : State) (a : Nat) (x : Ctx) : (s.setCtx a x).nextCopy = s.nextCopy := rfl
@[simp] theorem State.setCtx_nextRun (s : State) (a : Nat) (x : Ctx) : (s.setCtx a x).nextRun = s.nextRun := rfl
@[simp] theorem State.setCtx_grants (s : State) (a : Nat) (x : Ctx) : (s.setCtx a x).grants = s.grants := rfl
@[simp] theorem State.setCtx_tasks (s : State) (a : Nat) (x : Ctx) : (s.setCtx a x).tasks = s.tasks := rfl
@[simp] theorem State.setCtx_queues (s : State) (a : Nat) (x : Ctx) : (s.setCtx a x).queues = s.queues := rfl
@[simp] theorem State.setCtx_lastQueue (s : State) (a : Nat) (x : Ctx) : (s.setCtx a x).lastQueue = s.lastQueue := rfl
@[simp] theorem State.setCtx_lastCluster (s : State) (a : Nat) (x : Ctx) : (s.setCtx a x).lastCluster = s.lastCluster := rfl
@[simp] theorem State.setCtx_placeCount (s : State) (a : Nat) (x : Ctx) : (s.setCtx a x).placeCount = s.placeCount := rfl
@[simp] theorem State.setCtx_intake (s : State) (a : Nat) (x : Ctx) : (s.setCtx a x).intake = s.intake := rfl
@[simp] theorem State.setCtx_intakeOpen (s : State) (a : Nat) (x : Ctx) : (s.setCtx a x).intakeOpen = s.intakeOpen := rfl
@[simp] theorem State.setCtx_reserved (s : State) (a : Nat) (x : Ctx) : (s.setCtx a x).reserved = s.reserved := rfl
@[simp] theorem State.setCtx_regions (s : State) (a : Nat) (x : Ctx) : (s.setCtx a x).regions = s.regions := rfl
@[simp] theorem State.setCtx_nextRkey (s : State) (a : Nat) (x : Ctx) : (s.setCtx a x).nextRkey = s.nextRkey := rfl
@[simp] theorem State.setCtx_qpErrors (s : State) (a : Nat) (x : Ctx) : (s.setCtx a x).qpErrors = s.qpErrors := rfl
@[simp] theorem State.setCtx_incoming (s : State) (a : Nat) (x : Ctx) : (s.setCtx a x).incoming = s.incoming := rfl
@[simp] theorem State.setCtx_banks (s : State) (a : Nat) (x : Ctx) : (s.setCtx a x).banks = s.banks := rfl
@[simp] theorem State.setCtx_replace (s : State) (a : Nat) (x : Ctx) : (s.setCtx a x).replace = s.replace := rfl
@[simp] theorem State.setCtx_engRetired (s : State) (a : Nat) (x : Ctx) : (s.setCtx a x).engRetired = s.engRetired := rfl
@[simp] theorem State.setCtx_pagesRetired (s : State) (a : Nat) (x : Ctx) : (s.setCtx a x).pagesRetired = s.pagesRetired := rfl
@[simp] theorem State.setCtx_retiredAt (s : State) (a : Nat) (x : Ctx) : (s.setCtx a x).retiredAt = s.retiredAt := rfl
@[simp] theorem State.setCtx_corrected (s : State) (a : Nat) (x : Ctx) : (s.setCtx a x).corrected = s.corrected := rfl
@[simp] theorem State.setCtx_ucPages (s : State) (a : Nat) (x : Ctx) : (s.setCtx a x).ucPages = s.ucPages := rfl
@[simp] theorem State.setCtx_spares (s : State) (a : Nat) (x : Ctx) : (s.setCtx a x).spares = s.spares := rfl
@[simp] theorem State.setCtx_coresLeft (s : State) (a : Nat) (x : Ctx) : (s.setCtx a x).coresLeft = s.coresLeft := rfl
@[simp] theorem State.setCtx_thermal (s : State) (a : Nat) (x : Ctx) : (s.setCtx a x).thermal = s.thermal := rfl
@[simp] theorem State.setCtx_time (s : State) (a : Nat) (x : Ctx) : (s.setCtx a x).time = s.time := rfl
@[simp] theorem State.setCtx_paused (s : State) (a : Nat) (x : Ctx) : (s.setCtx a x).paused = s.paused := rfl
@[simp] theorem State.setCtx_energy (s : State) (a : Nat) (x : Ctx) : (s.setCtx a x).energy = s.energy := rfl
@[simp] theorem State.setCtx_energyHi (s : State) (a : Nat) (x : Ctx) : (s.setCtx a x).energyHi = s.energyHi := rfl
@[simp] theorem State.setCtx_energyWrap (s : State) (a : Nat) (x : Ctx) : (s.setCtx a x).energyWrap = s.energyWrap := rfl
@[simp] theorem State.setCtx_trust (s : State) (a : Nat) (x : Ctx) : (s.setCtx a x).trust = s.trust := rfl
@[simp] theorem State.setCtx_out (s : State) (a : Nat) (x : Ctx) : (s.setCtx a x).out = s.out := rfl

/-! ### `State.setMem` -/

@[simp] theorem State.setMem_agenda (s : State) (m : Memory) : (s.setMem m).agenda = s.agenda := rfl
@[simp] theorem State.setMem_turn (s : State) (m : Memory) : (s.setMem m).turn = s.turn := rfl
@[simp] theorem State.setMem_eager (s : State) (m : Memory) : (s.setMem m).eager = s.eager := rfl
@[simp] theorem State.setMem_fresh (s : State) (m : Memory) : (s.setMem m).fresh = s.fresh := rfl
@[simp] theorem State.setMem_farHost (s : State) (m : Memory) : (s.setMem m).farHost = s.farHost := rfl
@[simp] theorem State.setMem_poison (s : State) (m : Memory) : (s.setMem m).poison = s.poison := rfl
@[simp] theorem State.setMem_poisonWords (s : State) (m : Memory) : (s.setMem m).poisonWords = s.poisonWords := rfl
@[simp] theorem State.setMem_msc (s : State) (m : Memory) : (s.setMem m).msc = s.msc := rfl
@[simp] theorem State.setMem_harts (s : State) (m : Memory) : (s.setMem m).harts = s.harts := rfl
@[simp] theorem State.setMem_cores (s : State) (m : Memory) : (s.setMem m).cores = s.cores := rfl
@[simp] theorem State.setMem_pairs (s : State) (m : Memory) : (s.setMem m).pairs = s.pairs := rfl
@[simp] theorem State.setMem_clusters (s : State) (m : Memory) : (s.setMem m).clusters = s.clusters := rfl
@[simp] theorem State.setMem_ctxs (s : State) (m : Memory) : (s.setMem m).ctxs = s.ctxs := rfl
@[simp] theorem State.setMem_holds (s : State) (m : Memory) : (s.setMem m).holds = s.holds := rfl
@[simp] theorem State.setMem_holdctl (s : State) (m : Memory) : (s.setMem m).holdctl = s.holdctl := rfl
@[simp] theorem State.setMem_degraded (s : State) (m : Memory) : (s.setMem m).degraded = s.degraded := rfl
@[simp] theorem State.setMem_refresh (s : State) (m : Memory) : (s.setMem m).refresh = s.refresh := rfl
@[simp] theorem State.setMem_hot (s : State) (m : Memory) : (s.setMem m).hot = s.hot := rfl
@[simp] theorem State.setMem_farCounts (s : State) (m : Memory) : (s.setMem m).farCounts = s.farCounts := rfl
@[simp] theorem State.setMem_migqbase (s : State) (m : Memory) : (s.setMem m).migqbase = s.migqbase := rfl
@[simp] theorem State.setMem_posbase (s : State) (m : Memory) : (s.setMem m).posbase = s.posbase := rfl
@[simp] theorem State.setMem_braidpos (s : State) (m : Memory) : (s.setMem m).braidpos = s.braidpos := rfl
@[simp] theorem State.setMem_trims (s : State) (m : Memory) : (s.setMem m).trims = s.trims := rfl
@[simp] theorem State.setMem_macs (s : State) (m : Memory) : (s.setMem m).macs = s.macs := rfl
@[simp] theorem State.setMem_devRegs (s : State) (m : Memory) : (s.setMem m).devRegs = s.devRegs := rfl
@[simp] theorem State.setMem_ports (s : State) (m : Memory) : (s.setMem m).ports = s.ports := rfl
@[simp] theorem State.setMem_peers (s : State) (m : Memory) : (s.setMem m).peers = s.peers := rfl
@[simp] theorem State.setMem_mirrors (s : State) (m : Memory) : (s.setMem m).mirrors = s.mirrors := rfl
@[simp] theorem State.setMem_copies (s : State) (m : Memory) : (s.setMem m).copies = s.copies := rfl
@[simp] theorem State.setMem_nextCopy (s : State) (m : Memory) : (s.setMem m).nextCopy = s.nextCopy := rfl
@[simp] theorem State.setMem_nextRun (s : State) (m : Memory) : (s.setMem m).nextRun = s.nextRun := rfl
@[simp] theorem State.setMem_grants (s : State) (m : Memory) : (s.setMem m).grants = s.grants := rfl
@[simp] theorem State.setMem_tasks (s : State) (m : Memory) : (s.setMem m).tasks = s.tasks := rfl
@[simp] theorem State.setMem_queues (s : State) (m : Memory) : (s.setMem m).queues = s.queues := rfl
@[simp] theorem State.setMem_lastQueue (s : State) (m : Memory) : (s.setMem m).lastQueue = s.lastQueue := rfl
@[simp] theorem State.setMem_lastCluster (s : State) (m : Memory) : (s.setMem m).lastCluster = s.lastCluster := rfl
@[simp] theorem State.setMem_placeCount (s : State) (m : Memory) : (s.setMem m).placeCount = s.placeCount := rfl
@[simp] theorem State.setMem_intake (s : State) (m : Memory) : (s.setMem m).intake = s.intake := rfl
@[simp] theorem State.setMem_intakeOpen (s : State) (m : Memory) : (s.setMem m).intakeOpen = s.intakeOpen := rfl
@[simp] theorem State.setMem_reserved (s : State) (m : Memory) : (s.setMem m).reserved = s.reserved := rfl
@[simp] theorem State.setMem_regions (s : State) (m : Memory) : (s.setMem m).regions = s.regions := rfl
@[simp] theorem State.setMem_nextRkey (s : State) (m : Memory) : (s.setMem m).nextRkey = s.nextRkey := rfl
@[simp] theorem State.setMem_qpErrors (s : State) (m : Memory) : (s.setMem m).qpErrors = s.qpErrors := rfl
@[simp] theorem State.setMem_incoming (s : State) (m : Memory) : (s.setMem m).incoming = s.incoming := rfl
@[simp] theorem State.setMem_banks (s : State) (m : Memory) : (s.setMem m).banks = s.banks := rfl
@[simp] theorem State.setMem_replace (s : State) (m : Memory) : (s.setMem m).replace = s.replace := rfl
@[simp] theorem State.setMem_engRetired (s : State) (m : Memory) : (s.setMem m).engRetired = s.engRetired := rfl
@[simp] theorem State.setMem_pagesRetired (s : State) (m : Memory) : (s.setMem m).pagesRetired = s.pagesRetired := rfl
@[simp] theorem State.setMem_retiredAt (s : State) (m : Memory) : (s.setMem m).retiredAt = s.retiredAt := rfl
@[simp] theorem State.setMem_corrected (s : State) (m : Memory) : (s.setMem m).corrected = s.corrected := rfl
@[simp] theorem State.setMem_ucPages (s : State) (m : Memory) : (s.setMem m).ucPages = s.ucPages := rfl
@[simp] theorem State.setMem_spares (s : State) (m : Memory) : (s.setMem m).spares = s.spares := rfl
@[simp] theorem State.setMem_coresLeft (s : State) (m : Memory) : (s.setMem m).coresLeft = s.coresLeft := rfl
@[simp] theorem State.setMem_thermal (s : State) (m : Memory) : (s.setMem m).thermal = s.thermal := rfl
@[simp] theorem State.setMem_time (s : State) (m : Memory) : (s.setMem m).time = s.time := rfl
@[simp] theorem State.setMem_paused (s : State) (m : Memory) : (s.setMem m).paused = s.paused := rfl
@[simp] theorem State.setMem_energy (s : State) (m : Memory) : (s.setMem m).energy = s.energy := rfl
@[simp] theorem State.setMem_energyHi (s : State) (m : Memory) : (s.setMem m).energyHi = s.energyHi := rfl
@[simp] theorem State.setMem_energyWrap (s : State) (m : Memory) : (s.setMem m).energyWrap = s.energyWrap := rfl
@[simp] theorem State.setMem_trust (s : State) (m : Memory) : (s.setMem m).trust = s.trust := rfl
@[simp] theorem State.setMem_out (s : State) (m : Memory) : (s.setMem m).out = s.out := rfl

/-! ### `State.emit` -/

@[simp] theorem State.emit_agenda (s : State) (m : Message) : (s.emit m).agenda = s.agenda := rfl
@[simp] theorem State.emit_turn (s : State) (m : Message) : (s.emit m).turn = s.turn := rfl
@[simp] theorem State.emit_eager (s : State) (m : Message) : (s.emit m).eager = s.eager := rfl
@[simp] theorem State.emit_fresh (s : State) (m : Message) : (s.emit m).fresh = s.fresh := rfl
@[simp] theorem State.emit_mem (s : State) (m : Message) : (s.emit m).mem = s.mem := rfl
@[simp] theorem State.emit_farHost (s : State) (m : Message) : (s.emit m).farHost = s.farHost := rfl
@[simp] theorem State.emit_poison (s : State) (m : Message) : (s.emit m).poison = s.poison := rfl
@[simp] theorem State.emit_poisonWords (s : State) (m : Message) : (s.emit m).poisonWords = s.poisonWords := rfl
@[simp] theorem State.emit_msc (s : State) (m : Message) : (s.emit m).msc = s.msc := rfl
@[simp] theorem State.emit_harts (s : State) (m : Message) : (s.emit m).harts = s.harts := rfl
@[simp] theorem State.emit_cores (s : State) (m : Message) : (s.emit m).cores = s.cores := rfl
@[simp] theorem State.emit_pairs (s : State) (m : Message) : (s.emit m).pairs = s.pairs := rfl
@[simp] theorem State.emit_clusters (s : State) (m : Message) : (s.emit m).clusters = s.clusters := rfl
@[simp] theorem State.emit_ctxs (s : State) (m : Message) : (s.emit m).ctxs = s.ctxs := rfl
@[simp] theorem State.emit_holds (s : State) (m : Message) : (s.emit m).holds = s.holds := rfl
@[simp] theorem State.emit_holdctl (s : State) (m : Message) : (s.emit m).holdctl = s.holdctl := rfl
@[simp] theorem State.emit_degraded (s : State) (m : Message) : (s.emit m).degraded = s.degraded := rfl
@[simp] theorem State.emit_refresh (s : State) (m : Message) : (s.emit m).refresh = s.refresh := rfl
@[simp] theorem State.emit_hot (s : State) (m : Message) : (s.emit m).hot = s.hot := rfl
@[simp] theorem State.emit_farCounts (s : State) (m : Message) : (s.emit m).farCounts = s.farCounts := rfl
@[simp] theorem State.emit_migqbase (s : State) (m : Message) : (s.emit m).migqbase = s.migqbase := rfl
@[simp] theorem State.emit_posbase (s : State) (m : Message) : (s.emit m).posbase = s.posbase := rfl
@[simp] theorem State.emit_braidpos (s : State) (m : Message) : (s.emit m).braidpos = s.braidpos := rfl
@[simp] theorem State.emit_trims (s : State) (m : Message) : (s.emit m).trims = s.trims := rfl
@[simp] theorem State.emit_macs (s : State) (m : Message) : (s.emit m).macs = s.macs := rfl
@[simp] theorem State.emit_devRegs (s : State) (m : Message) : (s.emit m).devRegs = s.devRegs := rfl
@[simp] theorem State.emit_ports (s : State) (m : Message) : (s.emit m).ports = s.ports := rfl
@[simp] theorem State.emit_peers (s : State) (m : Message) : (s.emit m).peers = s.peers := rfl
@[simp] theorem State.emit_mirrors (s : State) (m : Message) : (s.emit m).mirrors = s.mirrors := rfl
@[simp] theorem State.emit_copies (s : State) (m : Message) : (s.emit m).copies = s.copies := rfl
@[simp] theorem State.emit_nextCopy (s : State) (m : Message) : (s.emit m).nextCopy = s.nextCopy := rfl
@[simp] theorem State.emit_nextRun (s : State) (m : Message) : (s.emit m).nextRun = s.nextRun := rfl
@[simp] theorem State.emit_grants (s : State) (m : Message) : (s.emit m).grants = s.grants := rfl
@[simp] theorem State.emit_tasks (s : State) (m : Message) : (s.emit m).tasks = s.tasks := rfl
@[simp] theorem State.emit_queues (s : State) (m : Message) : (s.emit m).queues = s.queues := rfl
@[simp] theorem State.emit_lastQueue (s : State) (m : Message) : (s.emit m).lastQueue = s.lastQueue := rfl
@[simp] theorem State.emit_lastCluster (s : State) (m : Message) : (s.emit m).lastCluster = s.lastCluster := rfl
@[simp] theorem State.emit_placeCount (s : State) (m : Message) : (s.emit m).placeCount = s.placeCount := rfl
@[simp] theorem State.emit_intake (s : State) (m : Message) : (s.emit m).intake = s.intake := rfl
@[simp] theorem State.emit_intakeOpen (s : State) (m : Message) : (s.emit m).intakeOpen = s.intakeOpen := rfl
@[simp] theorem State.emit_reserved (s : State) (m : Message) : (s.emit m).reserved = s.reserved := rfl
@[simp] theorem State.emit_regions (s : State) (m : Message) : (s.emit m).regions = s.regions := rfl
@[simp] theorem State.emit_nextRkey (s : State) (m : Message) : (s.emit m).nextRkey = s.nextRkey := rfl
@[simp] theorem State.emit_qpErrors (s : State) (m : Message) : (s.emit m).qpErrors = s.qpErrors := rfl
@[simp] theorem State.emit_incoming (s : State) (m : Message) : (s.emit m).incoming = s.incoming := rfl
@[simp] theorem State.emit_banks (s : State) (m : Message) : (s.emit m).banks = s.banks := rfl
@[simp] theorem State.emit_replace (s : State) (m : Message) : (s.emit m).replace = s.replace := rfl
@[simp] theorem State.emit_engRetired (s : State) (m : Message) : (s.emit m).engRetired = s.engRetired := rfl
@[simp] theorem State.emit_pagesRetired (s : State) (m : Message) : (s.emit m).pagesRetired = s.pagesRetired := rfl
@[simp] theorem State.emit_retiredAt (s : State) (m : Message) : (s.emit m).retiredAt = s.retiredAt := rfl
@[simp] theorem State.emit_corrected (s : State) (m : Message) : (s.emit m).corrected = s.corrected := rfl
@[simp] theorem State.emit_ucPages (s : State) (m : Message) : (s.emit m).ucPages = s.ucPages := rfl
@[simp] theorem State.emit_spares (s : State) (m : Message) : (s.emit m).spares = s.spares := rfl
@[simp] theorem State.emit_coresLeft (s : State) (m : Message) : (s.emit m).coresLeft = s.coresLeft := rfl
@[simp] theorem State.emit_thermal (s : State) (m : Message) : (s.emit m).thermal = s.thermal := rfl
@[simp] theorem State.emit_time (s : State) (m : Message) : (s.emit m).time = s.time := rfl
@[simp] theorem State.emit_paused (s : State) (m : Message) : (s.emit m).paused = s.paused := rfl
@[simp] theorem State.emit_energy (s : State) (m : Message) : (s.emit m).energy = s.energy := rfl
@[simp] theorem State.emit_energyHi (s : State) (m : Message) : (s.emit m).energyHi = s.energyHi := rfl
@[simp] theorem State.emit_energyWrap (s : State) (m : Message) : (s.emit m).energyWrap = s.energyWrap := rfl
@[simp] theorem State.emit_trust (s : State) (m : Message) : (s.emit m).trust = s.trust := rfl

/-! ### `State.setCur` -/

@[simp] theorem State.setCur_agenda (s : State) (h : Hart) : (s.setCur h).agenda = s.agenda := rfl
@[simp] theorem State.setCur_turn (s : State) (h : Hart) : (s.setCur h).turn = s.turn := rfl
@[simp] theorem State.setCur_eager (s : State) (h : Hart) : (s.setCur h).eager = s.eager := rfl
@[simp] theorem State.setCur_fresh (s : State) (h : Hart) : (s.setCur h).fresh = s.fresh := rfl
@[simp] theorem State.setCur_mem (s : State) (h : Hart) : (s.setCur h).mem = s.mem := rfl
@[simp] theorem State.setCur_farHost (s : State) (h : Hart) : (s.setCur h).farHost = s.farHost := rfl
@[simp] theorem State.setCur_poison (s : State) (h : Hart) : (s.setCur h).poison = s.poison := rfl
@[simp] theorem State.setCur_poisonWords (s : State) (h : Hart) : (s.setCur h).poisonWords = s.poisonWords := rfl
@[simp] theorem State.setCur_msc (s : State) (h : Hart) : (s.setCur h).msc = s.msc := rfl
@[simp] theorem State.setCur_cores (s : State) (h : Hart) : (s.setCur h).cores = s.cores := rfl
@[simp] theorem State.setCur_pairs (s : State) (h : Hart) : (s.setCur h).pairs = s.pairs := rfl
@[simp] theorem State.setCur_clusters (s : State) (h : Hart) : (s.setCur h).clusters = s.clusters := rfl
@[simp] theorem State.setCur_ctxs (s : State) (h : Hart) : (s.setCur h).ctxs = s.ctxs := rfl
@[simp] theorem State.setCur_holds (s : State) (h : Hart) : (s.setCur h).holds = s.holds := rfl
@[simp] theorem State.setCur_holdctl (s : State) (h : Hart) : (s.setCur h).holdctl = s.holdctl := rfl
@[simp] theorem State.setCur_degraded (s : State) (h : Hart) : (s.setCur h).degraded = s.degraded := rfl
@[simp] theorem State.setCur_refresh (s : State) (h : Hart) : (s.setCur h).refresh = s.refresh := rfl
@[simp] theorem State.setCur_hot (s : State) (h : Hart) : (s.setCur h).hot = s.hot := rfl
@[simp] theorem State.setCur_farCounts (s : State) (h : Hart) : (s.setCur h).farCounts = s.farCounts := rfl
@[simp] theorem State.setCur_migqbase (s : State) (h : Hart) : (s.setCur h).migqbase = s.migqbase := rfl
@[simp] theorem State.setCur_posbase (s : State) (h : Hart) : (s.setCur h).posbase = s.posbase := rfl
@[simp] theorem State.setCur_braidpos (s : State) (h : Hart) : (s.setCur h).braidpos = s.braidpos := rfl
@[simp] theorem State.setCur_trims (s : State) (h : Hart) : (s.setCur h).trims = s.trims := rfl
@[simp] theorem State.setCur_macs (s : State) (h : Hart) : (s.setCur h).macs = s.macs := rfl
@[simp] theorem State.setCur_devRegs (s : State) (h : Hart) : (s.setCur h).devRegs = s.devRegs := rfl
@[simp] theorem State.setCur_ports (s : State) (h : Hart) : (s.setCur h).ports = s.ports := rfl
@[simp] theorem State.setCur_peers (s : State) (h : Hart) : (s.setCur h).peers = s.peers := rfl
@[simp] theorem State.setCur_mirrors (s : State) (h : Hart) : (s.setCur h).mirrors = s.mirrors := rfl
@[simp] theorem State.setCur_copies (s : State) (h : Hart) : (s.setCur h).copies = s.copies := rfl
@[simp] theorem State.setCur_nextCopy (s : State) (h : Hart) : (s.setCur h).nextCopy = s.nextCopy := rfl
@[simp] theorem State.setCur_nextRun (s : State) (h : Hart) : (s.setCur h).nextRun = s.nextRun := rfl
@[simp] theorem State.setCur_grants (s : State) (h : Hart) : (s.setCur h).grants = s.grants := rfl
@[simp] theorem State.setCur_tasks (s : State) (h : Hart) : (s.setCur h).tasks = s.tasks := rfl
@[simp] theorem State.setCur_queues (s : State) (h : Hart) : (s.setCur h).queues = s.queues := rfl
@[simp] theorem State.setCur_lastQueue (s : State) (h : Hart) : (s.setCur h).lastQueue = s.lastQueue := rfl
@[simp] theorem State.setCur_lastCluster (s : State) (h : Hart) : (s.setCur h).lastCluster = s.lastCluster := rfl
@[simp] theorem State.setCur_placeCount (s : State) (h : Hart) : (s.setCur h).placeCount = s.placeCount := rfl
@[simp] theorem State.setCur_intake (s : State) (h : Hart) : (s.setCur h).intake = s.intake := rfl
@[simp] theorem State.setCur_intakeOpen (s : State) (h : Hart) : (s.setCur h).intakeOpen = s.intakeOpen := rfl
@[simp] theorem State.setCur_reserved (s : State) (h : Hart) : (s.setCur h).reserved = s.reserved := rfl
@[simp] theorem State.setCur_regions (s : State) (h : Hart) : (s.setCur h).regions = s.regions := rfl
@[simp] theorem State.setCur_nextRkey (s : State) (h : Hart) : (s.setCur h).nextRkey = s.nextRkey := rfl
@[simp] theorem State.setCur_qpErrors (s : State) (h : Hart) : (s.setCur h).qpErrors = s.qpErrors := rfl
@[simp] theorem State.setCur_incoming (s : State) (h : Hart) : (s.setCur h).incoming = s.incoming := rfl
@[simp] theorem State.setCur_banks (s : State) (h : Hart) : (s.setCur h).banks = s.banks := rfl
@[simp] theorem State.setCur_replace (s : State) (h : Hart) : (s.setCur h).replace = s.replace := rfl
@[simp] theorem State.setCur_engRetired (s : State) (h : Hart) : (s.setCur h).engRetired = s.engRetired := rfl
@[simp] theorem State.setCur_pagesRetired (s : State) (h : Hart) : (s.setCur h).pagesRetired = s.pagesRetired := rfl
@[simp] theorem State.setCur_retiredAt (s : State) (h : Hart) : (s.setCur h).retiredAt = s.retiredAt := rfl
@[simp] theorem State.setCur_corrected (s : State) (h : Hart) : (s.setCur h).corrected = s.corrected := rfl
@[simp] theorem State.setCur_ucPages (s : State) (h : Hart) : (s.setCur h).ucPages = s.ucPages := rfl
@[simp] theorem State.setCur_spares (s : State) (h : Hart) : (s.setCur h).spares = s.spares := rfl
@[simp] theorem State.setCur_coresLeft (s : State) (h : Hart) : (s.setCur h).coresLeft = s.coresLeft := rfl
@[simp] theorem State.setCur_thermal (s : State) (h : Hart) : (s.setCur h).thermal = s.thermal := rfl
@[simp] theorem State.setCur_time (s : State) (h : Hart) : (s.setCur h).time = s.time := rfl
@[simp] theorem State.setCur_paused (s : State) (h : Hart) : (s.setCur h).paused = s.paused := rfl
@[simp] theorem State.setCur_energy (s : State) (h : Hart) : (s.setCur h).energy = s.energy := rfl
@[simp] theorem State.setCur_energyHi (s : State) (h : Hart) : (s.setCur h).energyHi = s.energyHi := rfl
@[simp] theorem State.setCur_energyWrap (s : State) (h : Hart) : (s.setCur h).energyWrap = s.energyWrap := rfl
@[simp] theorem State.setCur_trust (s : State) (h : Hart) : (s.setCur h).trust = s.trust := rfl
@[simp] theorem State.setCur_out (s : State) (h : Hart) : (s.setCur h).out = s.out := rfl

/-! ### `Hart.setPc` -/

@[simp] theorem Hart.setPc_run (h : Hart) (v : Word) : (h.setPc v).run = h.run := rfl
@[simp] theorem Hart.setPc_level (h : Hart) (v : Word) : (h.setPc v).level = h.level := rfl
@[simp] theorem Hart.setPc_x (h : Hart) (v : Word) : (h.setPc v).x = h.x := rfl
@[simp] theorem Hart.setPc_fpctl (h : Hart) (v : Word) : (h.setPc v).fpctl = h.fpctl := rfl
@[simp] theorem Hart.setPc_fpstat (h : Hart) (v : Word) : (h.setPc v).fpstat = h.fpstat := rfl
@[simp] theorem Hart.setPc_vconf (h : Hart) (v : Word) : (h.setPc v).vconf = h.vconf := rfl
@[simp] theorem Hart.setPc_vl (h : Hart) (v : Word) : (h.setPc v).vl = h.vl := rfl
@[simp] theorem Hart.setPc_lshare (h : Hart) (v : Word) : (h.setPc v).lshare = h.lshare := rfl
@[simp] theorem Hart.setPc_eidx (h : Hart) (v : Word) : (h.setPc v).eidx = h.eidx := rfl
@[simp] theorem Hart.setPc_asid (h : Hart) (v : Word) : (h.setPc v).asid = h.asid := rfl
@[simp] theorem Hart.setPc_ptbase (h : Hart) (v : Word) : (h.setPc v).ptbase = h.ptbase := rfl
@[simp] theorem Hart.setPc_checkmode (h : Hart) (v : Word) : (h.setPc v).checkmode = h.checkmode := rfl
@[simp] theorem Hart.setPc_checkNext (h : Hart) (v : Word) : (h.setPc v).checkNext = h.checkNext := rfl
@[simp] theorem Hart.setPc_tbudget (h : Hart) (v : Word) : (h.setPc v).tbudget = h.tbudget := rfl
@[simp] theorem Hart.setPc_budgetDue (h : Hart) (v : Word) : (h.setPc v).budgetDue = h.budgetDue := rfl
@[simp] theorem Hart.setPc_tagown (h : Hart) (v : Word) : (h.setPc v).tagown = h.tagown := rfl
@[simp] theorem Hart.setPc_gangpos (h : Hart) (v : Word) : (h.setPc v).gangpos = h.gangpos := rfl
@[simp] theorem Hart.setPc_gangsize (h : Hart) (v : Word) : (h.setPc v).gangsize = h.gangsize := rfl
@[simp] theorem Hart.setPc_launchidx (h : Hart) (v : Word) : (h.setPc v).launchidx = h.launchidx := rfl
@[simp] theorem Hart.setPc_clusterReg (h : Hart) (v : Word) : (h.setPc v).clusterReg = h.clusterReg := rfl
@[simp] theorem Hart.setPc_trapvec (h : Hart) (v : Word) : (h.setPc v).trapvec = h.trapvec := rfl
@[simp] theorem Hart.setPc_trappc (h : Hart) (v : Word) : (h.setPc v).trappc = h.trappc := rfl
@[simp] theorem Hart.setPc_trapcause (h : Hart) (v : Word) : (h.setPc v).trapcause = h.trapcause := rfl
@[simp] theorem Hart.setPc_trapaddr (h : Hart) (v : Word) : (h.setPc v).trapaddr = h.trapaddr := rfl
@[simp] theorem Hart.setPc_trapeidx (h : Hart) (v : Word) : (h.setPc v).trapeidx = h.trapeidx := rfl
@[simp] theorem Hart.setPc_trapinfo (h : Hart) (v : Word) : (h.setPc v).trapinfo = h.trapinfo := rfl
@[simp] theorem Hart.setPc_trapstat (h : Hart) (v : Word) : (h.setPc v).trapstat = h.trapstat := rfl
@[simp] theorem Hart.setPc_scalarpc (h : Hart) (v : Word) : (h.setPc v).scalarpc = h.scalarpc := rfl
@[simp] theorem Hart.setPc_fplist (h : Hart) (v : Word) : (h.setPc v).fplist = h.fplist := rfl
@[simp] theorem Hart.setPc_streams (h : Hart) (v : Word) : (h.setPc v).streams = h.streams := rfl
@[simp] theorem Hart.setPc_vregs (h : Hart) (v : Word) : (h.setPc v).vregs = h.vregs := rfl
@[simp] theorem Hart.setPc_old (h : Hart) (v : Word) : (h.setPc v).old = h.old := rfl
@[simp] theorem Hart.setPc_masks (h : Hart) (v : Word) : (h.setPc v).masks = h.masks := rfl
@[simp] theorem Hart.setPc_vq (h : Hart) (v : Word) : (h.setPc v).vq = h.vq := rfl
@[simp] theorem Hart.setPc_mq (h : Hart) (v : Word) : (h.setPc v).mq = h.mq := rfl
@[simp] theorem Hart.setPc_posted (h : Hart) (v : Word) : (h.setPc v).posted = h.posted := rfl
@[simp] theorem Hart.setPc_latch (h : Hart) (v : Word) : (h.setPc v).latch = h.latch := rfl
@[simp] theorem Hart.setPc_yielding (h : Hart) (v : Word) : (h.setPc v).yielding = h.yielding := rfl
@[simp] theorem Hart.setPc_events (h : Hart) (v : Word) : (h.setPc v).events = h.events := rfl
@[simp] theorem Hart.setPc_recv (h : Hart) (v : Word) : (h.setPc v).recv = h.recv := rfl
@[simp] theorem Hart.setPc_barWait (h : Hart) (v : Word) : (h.setPc v).barWait = h.barWait := rfl
@[simp] theorem Hart.setPc_waitsOn (h : Hart) (v : Word) : (h.setPc v).waitsOn = h.waitsOn := rfl
@[simp] theorem Hart.setPc_trapDue (h : Hart) (v : Word) : (h.setPc v).trapDue = h.trapDue := rfl
@[simp] theorem Hart.setPc_imprecise (h : Hart) (v : Word) : (h.setPc v).imprecise = h.imprecise := rfl
@[simp] theorem Hart.setPc_preemptDue (h : Hart) (v : Word) : (h.setPc v).preemptDue = h.preemptDue := rfl
@[simp] theorem Hart.setPc_laneReq (h : Hart) (v : Word) : (h.setPc v).laneReq = h.laneReq := rfl
@[simp] theorem Hart.setPc_ibuf (h : Hart) (v : Word) : (h.setPc v).ibuf = h.ibuf := rfl
@[simp] theorem Hart.setPc_task (h : Hart) (v : Word) : (h.setPc v).task = h.task := rfl
@[simp] theorem Hart.setPc_runId (h : Hart) (v : Word) : (h.setPc v).runId = h.runId := rfl
@[simp] theorem Hart.setPc_fixed (h : Hart) (v : Word) : (h.setPc v).fixed = h.fixed := rfl
@[simp] theorem Hart.setPc_millKeeps (h : Hart) (v : Word) : (h.setPc v).millKeeps = h.millKeeps := rfl
@[simp] theorem Hart.setPc_late (h : Hart) (v : Word) : (h.setPc v).late = h.late := rfl
@[simp] theorem Hart.setPc_savedEvents (h : Hart) (v : Word) : (h.setPc v).savedEvents = h.savedEvents := rfl
@[simp] theorem Hart.setPc_codeFar (h : Hart) (v : Word) : (h.setPc v).codeFar = [] := rfl

/-! ### `Hart.advance` -/

@[simp] theorem Hart.advance_run (h : Hart) (n : Nat) : (h.advance n).run = h.run := rfl
@[simp] theorem Hart.advance_level (h : Hart) (n : Nat) : (h.advance n).level = h.level := rfl
@[simp] theorem Hart.advance_x (h : Hart) (n : Nat) : (h.advance n).x = h.x := rfl
@[simp] theorem Hart.advance_fpctl (h : Hart) (n : Nat) : (h.advance n).fpctl = h.fpctl := rfl
@[simp] theorem Hart.advance_fpstat (h : Hart) (n : Nat) : (h.advance n).fpstat = h.fpstat := rfl
@[simp] theorem Hart.advance_vconf (h : Hart) (n : Nat) : (h.advance n).vconf = h.vconf := rfl
@[simp] theorem Hart.advance_vl (h : Hart) (n : Nat) : (h.advance n).vl = h.vl := rfl
@[simp] theorem Hart.advance_lshare (h : Hart) (n : Nat) : (h.advance n).lshare = h.lshare := rfl
@[simp] theorem Hart.advance_eidx (h : Hart) (n : Nat) : (h.advance n).eidx = h.eidx := rfl
@[simp] theorem Hart.advance_asid (h : Hart) (n : Nat) : (h.advance n).asid = h.asid := rfl
@[simp] theorem Hart.advance_ptbase (h : Hart) (n : Nat) : (h.advance n).ptbase = h.ptbase := rfl
@[simp] theorem Hart.advance_checkmode (h : Hart) (n : Nat) : (h.advance n).checkmode = h.checkmode := rfl
@[simp] theorem Hart.advance_checkNext (h : Hart) (n : Nat) : (h.advance n).checkNext = h.checkNext := rfl
@[simp] theorem Hart.advance_tbudget (h : Hart) (n : Nat) : (h.advance n).tbudget = h.tbudget := rfl
@[simp] theorem Hart.advance_budgetDue (h : Hart) (n : Nat) : (h.advance n).budgetDue = h.budgetDue := rfl
@[simp] theorem Hart.advance_tagown (h : Hart) (n : Nat) : (h.advance n).tagown = h.tagown := rfl
@[simp] theorem Hart.advance_gangpos (h : Hart) (n : Nat) : (h.advance n).gangpos = h.gangpos := rfl
@[simp] theorem Hart.advance_gangsize (h : Hart) (n : Nat) : (h.advance n).gangsize = h.gangsize := rfl
@[simp] theorem Hart.advance_launchidx (h : Hart) (n : Nat) : (h.advance n).launchidx = h.launchidx := rfl
@[simp] theorem Hart.advance_clusterReg (h : Hart) (n : Nat) : (h.advance n).clusterReg = h.clusterReg := rfl
@[simp] theorem Hart.advance_trapvec (h : Hart) (n : Nat) : (h.advance n).trapvec = h.trapvec := rfl
@[simp] theorem Hart.advance_trappc (h : Hart) (n : Nat) : (h.advance n).trappc = h.trappc := rfl
@[simp] theorem Hart.advance_trapcause (h : Hart) (n : Nat) : (h.advance n).trapcause = h.trapcause := rfl
@[simp] theorem Hart.advance_trapaddr (h : Hart) (n : Nat) : (h.advance n).trapaddr = h.trapaddr := rfl
@[simp] theorem Hart.advance_trapeidx (h : Hart) (n : Nat) : (h.advance n).trapeidx = h.trapeidx := rfl
@[simp] theorem Hart.advance_trapinfo (h : Hart) (n : Nat) : (h.advance n).trapinfo = h.trapinfo := rfl
@[simp] theorem Hart.advance_trapstat (h : Hart) (n : Nat) : (h.advance n).trapstat = h.trapstat := rfl
@[simp] theorem Hart.advance_scalarpc (h : Hart) (n : Nat) : (h.advance n).scalarpc = h.scalarpc := rfl
@[simp] theorem Hart.advance_fplist (h : Hart) (n : Nat) : (h.advance n).fplist = h.fplist := rfl
@[simp] theorem Hart.advance_streams (h : Hart) (n : Nat) : (h.advance n).streams = h.streams := rfl
@[simp] theorem Hart.advance_vregs (h : Hart) (n : Nat) : (h.advance n).vregs = h.vregs := rfl
@[simp] theorem Hart.advance_old (h : Hart) (n : Nat) : (h.advance n).old = h.old := rfl
@[simp] theorem Hart.advance_masks (h : Hart) (n : Nat) : (h.advance n).masks = h.masks := rfl
@[simp] theorem Hart.advance_vq (h : Hart) (n : Nat) : (h.advance n).vq = h.vq := rfl
@[simp] theorem Hart.advance_mq (h : Hart) (n : Nat) : (h.advance n).mq = h.mq := rfl
@[simp] theorem Hart.advance_posted (h : Hart) (n : Nat) : (h.advance n).posted = h.posted := rfl
@[simp] theorem Hart.advance_latch (h : Hart) (n : Nat) : (h.advance n).latch = h.latch := rfl
@[simp] theorem Hart.advance_yielding (h : Hart) (n : Nat) : (h.advance n).yielding = h.yielding := rfl
@[simp] theorem Hart.advance_events (h : Hart) (n : Nat) : (h.advance n).events = h.events := rfl
@[simp] theorem Hart.advance_recv (h : Hart) (n : Nat) : (h.advance n).recv = h.recv := rfl
@[simp] theorem Hart.advance_barWait (h : Hart) (n : Nat) : (h.advance n).barWait = h.barWait := rfl
@[simp] theorem Hart.advance_waitsOn (h : Hart) (n : Nat) : (h.advance n).waitsOn = h.waitsOn := rfl
@[simp] theorem Hart.advance_trapDue (h : Hart) (n : Nat) : (h.advance n).trapDue = h.trapDue := rfl
@[simp] theorem Hart.advance_imprecise (h : Hart) (n : Nat) : (h.advance n).imprecise = h.imprecise := rfl
@[simp] theorem Hart.advance_preemptDue (h : Hart) (n : Nat) : (h.advance n).preemptDue = h.preemptDue := rfl
@[simp] theorem Hart.advance_laneReq (h : Hart) (n : Nat) : (h.advance n).laneReq = h.laneReq := rfl
@[simp] theorem Hart.advance_ibuf (h : Hart) (n : Nat) : (h.advance n).ibuf = h.ibuf := rfl
@[simp] theorem Hart.advance_task (h : Hart) (n : Nat) : (h.advance n).task = h.task := rfl
@[simp] theorem Hart.advance_runId (h : Hart) (n : Nat) : (h.advance n).runId = h.runId := rfl
@[simp] theorem Hart.advance_fixed (h : Hart) (n : Nat) : (h.advance n).fixed = h.fixed := rfl
@[simp] theorem Hart.advance_millKeeps (h : Hart) (n : Nat) : (h.advance n).millKeeps = h.millKeeps := rfl
@[simp] theorem Hart.advance_late (h : Hart) (n : Nat) : (h.advance n).late = h.late := rfl
@[simp] theorem Hart.advance_savedEvents (h : Hart) (n : Nat) : (h.advance n).savedEvents = h.savedEvents := rfl
@[simp] theorem Hart.advance_codeFar (h : Hart) (n : Nat) : (h.advance n).codeFar = [] := rfl

/-! ### `Hart.raise` -/

@[simp] theorem Hart.raise_run (h : Hart) (f : BitVec 6) : (h.raise f).run = h.run := rfl
@[simp] theorem Hart.raise_level (h : Hart) (f : BitVec 6) : (h.raise f).level = h.level := rfl
@[simp] theorem Hart.raise_pc (h : Hart) (f : BitVec 6) : (h.raise f).pc = h.pc := rfl
@[simp] theorem Hart.raise_x (h : Hart) (f : BitVec 6) : (h.raise f).x = h.x := rfl
@[simp] theorem Hart.raise_fpctl (h : Hart) (f : BitVec 6) : (h.raise f).fpctl = h.fpctl := rfl
@[simp] theorem Hart.raise_vconf (h : Hart) (f : BitVec 6) : (h.raise f).vconf = h.vconf := rfl
@[simp] theorem Hart.raise_vl (h : Hart) (f : BitVec 6) : (h.raise f).vl = h.vl := rfl
@[simp] theorem Hart.raise_lshare (h : Hart) (f : BitVec 6) : (h.raise f).lshare = h.lshare := rfl
@[simp] theorem Hart.raise_eidx (h : Hart) (f : BitVec 6) : (h.raise f).eidx = h.eidx := rfl
@[simp] theorem Hart.raise_asid (h : Hart) (f : BitVec 6) : (h.raise f).asid = h.asid := rfl
@[simp] theorem Hart.raise_ptbase (h : Hart) (f : BitVec 6) : (h.raise f).ptbase = h.ptbase := rfl
@[simp] theorem Hart.raise_checkmode (h : Hart) (f : BitVec 6) : (h.raise f).checkmode = h.checkmode := rfl
@[simp] theorem Hart.raise_checkNext (h : Hart) (f : BitVec 6) : (h.raise f).checkNext = h.checkNext := rfl
@[simp] theorem Hart.raise_tbudget (h : Hart) (f : BitVec 6) : (h.raise f).tbudget = h.tbudget := rfl
@[simp] theorem Hart.raise_budgetDue (h : Hart) (f : BitVec 6) : (h.raise f).budgetDue = h.budgetDue := rfl
@[simp] theorem Hart.raise_tagown (h : Hart) (f : BitVec 6) : (h.raise f).tagown = h.tagown := rfl
@[simp] theorem Hart.raise_gangpos (h : Hart) (f : BitVec 6) : (h.raise f).gangpos = h.gangpos := rfl
@[simp] theorem Hart.raise_gangsize (h : Hart) (f : BitVec 6) : (h.raise f).gangsize = h.gangsize := rfl
@[simp] theorem Hart.raise_launchidx (h : Hart) (f : BitVec 6) : (h.raise f).launchidx = h.launchidx := rfl
@[simp] theorem Hart.raise_clusterReg (h : Hart) (f : BitVec 6) : (h.raise f).clusterReg = h.clusterReg := rfl
@[simp] theorem Hart.raise_trapvec (h : Hart) (f : BitVec 6) : (h.raise f).trapvec = h.trapvec := rfl
@[simp] theorem Hart.raise_trappc (h : Hart) (f : BitVec 6) : (h.raise f).trappc = h.trappc := rfl
@[simp] theorem Hart.raise_trapcause (h : Hart) (f : BitVec 6) : (h.raise f).trapcause = h.trapcause := rfl
@[simp] theorem Hart.raise_trapaddr (h : Hart) (f : BitVec 6) : (h.raise f).trapaddr = h.trapaddr := rfl
@[simp] theorem Hart.raise_trapeidx (h : Hart) (f : BitVec 6) : (h.raise f).trapeidx = h.trapeidx := rfl
@[simp] theorem Hart.raise_trapinfo (h : Hart) (f : BitVec 6) : (h.raise f).trapinfo = h.trapinfo := rfl
@[simp] theorem Hart.raise_trapstat (h : Hart) (f : BitVec 6) : (h.raise f).trapstat = h.trapstat := rfl
@[simp] theorem Hart.raise_scalarpc (h : Hart) (f : BitVec 6) : (h.raise f).scalarpc = h.scalarpc := rfl
@[simp] theorem Hart.raise_fplist (h : Hart) (f : BitVec 6) : (h.raise f).fplist = h.fplist := rfl
@[simp] theorem Hart.raise_streams (h : Hart) (f : BitVec 6) : (h.raise f).streams = h.streams := rfl
@[simp] theorem Hart.raise_vregs (h : Hart) (f : BitVec 6) : (h.raise f).vregs = h.vregs := rfl
@[simp] theorem Hart.raise_old (h : Hart) (f : BitVec 6) : (h.raise f).old = h.old := rfl
@[simp] theorem Hart.raise_masks (h : Hart) (f : BitVec 6) : (h.raise f).masks = h.masks := rfl
@[simp] theorem Hart.raise_vq (h : Hart) (f : BitVec 6) : (h.raise f).vq = h.vq := rfl
@[simp] theorem Hart.raise_mq (h : Hart) (f : BitVec 6) : (h.raise f).mq = h.mq := rfl
@[simp] theorem Hart.raise_posted (h : Hart) (f : BitVec 6) : (h.raise f).posted = h.posted := rfl
@[simp] theorem Hart.raise_latch (h : Hart) (f : BitVec 6) : (h.raise f).latch = h.latch := rfl
@[simp] theorem Hart.raise_yielding (h : Hart) (f : BitVec 6) : (h.raise f).yielding = h.yielding := rfl
@[simp] theorem Hart.raise_events (h : Hart) (f : BitVec 6) : (h.raise f).events = h.events := rfl
@[simp] theorem Hart.raise_recv (h : Hart) (f : BitVec 6) : (h.raise f).recv = h.recv := rfl
@[simp] theorem Hart.raise_barWait (h : Hart) (f : BitVec 6) : (h.raise f).barWait = h.barWait := rfl
@[simp] theorem Hart.raise_waitsOn (h : Hart) (f : BitVec 6) : (h.raise f).waitsOn = h.waitsOn := rfl
@[simp] theorem Hart.raise_trapDue (h : Hart) (f : BitVec 6) : (h.raise f).trapDue = h.trapDue := rfl
@[simp] theorem Hart.raise_imprecise (h : Hart) (f : BitVec 6) : (h.raise f).imprecise = h.imprecise := rfl
@[simp] theorem Hart.raise_preemptDue (h : Hart) (f : BitVec 6) : (h.raise f).preemptDue = h.preemptDue := rfl
@[simp] theorem Hart.raise_laneReq (h : Hart) (f : BitVec 6) : (h.raise f).laneReq = h.laneReq := rfl
@[simp] theorem Hart.raise_ibuf (h : Hart) (f : BitVec 6) : (h.raise f).ibuf = h.ibuf := rfl
@[simp] theorem Hart.raise_task (h : Hart) (f : BitVec 6) : (h.raise f).task = h.task := rfl
@[simp] theorem Hart.raise_runId (h : Hart) (f : BitVec 6) : (h.raise f).runId = h.runId := rfl
@[simp] theorem Hart.raise_fixed (h : Hart) (f : BitVec 6) : (h.raise f).fixed = h.fixed := rfl
@[simp] theorem Hart.raise_millKeeps (h : Hart) (f : BitVec 6) : (h.raise f).millKeeps = h.millKeeps := rfl
@[simp] theorem Hart.raise_codeFar (h : Hart) (f : BitVec 6) : (h.raise f).codeFar = h.codeFar := rfl
@[simp] theorem Hart.raise_late (h : Hart) (f : BitVec 6) : (h.raise f).late = h.late := rfl
@[simp] theorem Hart.raise_savedEvents (h : Hart) (f : BitVec 6) : (h.raise f).savedEvents = h.savedEvents := rfl

/-! ### `Hart.setStream` -/

@[simp] theorem Hart.setStream_run (h : Hart) (k : Nat) (r : StreamReg) : (h.setStream k r).run = h.run := rfl
@[simp] theorem Hart.setStream_level (h : Hart) (k : Nat) (r : StreamReg) : (h.setStream k r).level = h.level := rfl
@[simp] theorem Hart.setStream_pc (h : Hart) (k : Nat) (r : StreamReg) : (h.setStream k r).pc = h.pc := rfl
@[simp] theorem Hart.setStream_x (h : Hart) (k : Nat) (r : StreamReg) : (h.setStream k r).x = h.x := rfl
@[simp] theorem Hart.setStream_fpctl (h : Hart) (k : Nat) (r : StreamReg) : (h.setStream k r).fpctl = h.fpctl := rfl
@[simp] theorem Hart.setStream_fpstat (h : Hart) (k : Nat) (r : StreamReg) : (h.setStream k r).fpstat = h.fpstat := rfl
@[simp] theorem Hart.setStream_vconf (h : Hart) (k : Nat) (r : StreamReg) : (h.setStream k r).vconf = h.vconf := rfl
@[simp] theorem Hart.setStream_vl (h : Hart) (k : Nat) (r : StreamReg) : (h.setStream k r).vl = h.vl := rfl
@[simp] theorem Hart.setStream_lshare (h : Hart) (k : Nat) (r : StreamReg) : (h.setStream k r).lshare = h.lshare := rfl
@[simp] theorem Hart.setStream_eidx (h : Hart) (k : Nat) (r : StreamReg) : (h.setStream k r).eidx = h.eidx := rfl
@[simp] theorem Hart.setStream_asid (h : Hart) (k : Nat) (r : StreamReg) : (h.setStream k r).asid = h.asid := rfl
@[simp] theorem Hart.setStream_ptbase (h : Hart) (k : Nat) (r : StreamReg) : (h.setStream k r).ptbase = h.ptbase := rfl
@[simp] theorem Hart.setStream_checkmode (h : Hart) (k : Nat) (r : StreamReg) : (h.setStream k r).checkmode = h.checkmode := rfl
@[simp] theorem Hart.setStream_checkNext (h : Hart) (k : Nat) (r : StreamReg) : (h.setStream k r).checkNext = h.checkNext := rfl
@[simp] theorem Hart.setStream_tbudget (h : Hart) (k : Nat) (r : StreamReg) : (h.setStream k r).tbudget = h.tbudget := rfl
@[simp] theorem Hart.setStream_budgetDue (h : Hart) (k : Nat) (r : StreamReg) : (h.setStream k r).budgetDue = h.budgetDue := rfl
@[simp] theorem Hart.setStream_tagown (h : Hart) (k : Nat) (r : StreamReg) : (h.setStream k r).tagown = h.tagown := rfl
@[simp] theorem Hart.setStream_gangpos (h : Hart) (k : Nat) (r : StreamReg) : (h.setStream k r).gangpos = h.gangpos := rfl
@[simp] theorem Hart.setStream_gangsize (h : Hart) (k : Nat) (r : StreamReg) : (h.setStream k r).gangsize = h.gangsize := rfl
@[simp] theorem Hart.setStream_launchidx (h : Hart) (k : Nat) (r : StreamReg) : (h.setStream k r).launchidx = h.launchidx := rfl
@[simp] theorem Hart.setStream_clusterReg (h : Hart) (k : Nat) (r : StreamReg) : (h.setStream k r).clusterReg = h.clusterReg := rfl
@[simp] theorem Hart.setStream_trapvec (h : Hart) (k : Nat) (r : StreamReg) : (h.setStream k r).trapvec = h.trapvec := rfl
@[simp] theorem Hart.setStream_trappc (h : Hart) (k : Nat) (r : StreamReg) : (h.setStream k r).trappc = h.trappc := rfl
@[simp] theorem Hart.setStream_trapcause (h : Hart) (k : Nat) (r : StreamReg) : (h.setStream k r).trapcause = h.trapcause := rfl
@[simp] theorem Hart.setStream_trapaddr (h : Hart) (k : Nat) (r : StreamReg) : (h.setStream k r).trapaddr = h.trapaddr := rfl
@[simp] theorem Hart.setStream_trapeidx (h : Hart) (k : Nat) (r : StreamReg) : (h.setStream k r).trapeidx = h.trapeidx := rfl
@[simp] theorem Hart.setStream_trapinfo (h : Hart) (k : Nat) (r : StreamReg) : (h.setStream k r).trapinfo = h.trapinfo := rfl
@[simp] theorem Hart.setStream_trapstat (h : Hart) (k : Nat) (r : StreamReg) : (h.setStream k r).trapstat = h.trapstat := rfl
@[simp] theorem Hart.setStream_scalarpc (h : Hart) (k : Nat) (r : StreamReg) : (h.setStream k r).scalarpc = h.scalarpc := rfl
@[simp] theorem Hart.setStream_fplist (h : Hart) (k : Nat) (r : StreamReg) : (h.setStream k r).fplist = h.fplist := rfl
@[simp] theorem Hart.setStream_vregs (h : Hart) (k : Nat) (r : StreamReg) : (h.setStream k r).vregs = h.vregs := rfl
@[simp] theorem Hart.setStream_old (h : Hart) (k : Nat) (r : StreamReg) : (h.setStream k r).old = h.old := rfl
@[simp] theorem Hart.setStream_masks (h : Hart) (k : Nat) (r : StreamReg) : (h.setStream k r).masks = h.masks := rfl
@[simp] theorem Hart.setStream_vq (h : Hart) (k : Nat) (r : StreamReg) : (h.setStream k r).vq = h.vq := rfl
@[simp] theorem Hart.setStream_mq (h : Hart) (k : Nat) (r : StreamReg) : (h.setStream k r).mq = h.mq := rfl
@[simp] theorem Hart.setStream_posted (h : Hart) (k : Nat) (r : StreamReg) : (h.setStream k r).posted = h.posted := rfl
@[simp] theorem Hart.setStream_latch (h : Hart) (k : Nat) (r : StreamReg) : (h.setStream k r).latch = h.latch := rfl
@[simp] theorem Hart.setStream_yielding (h : Hart) (k : Nat) (r : StreamReg) : (h.setStream k r).yielding = h.yielding := rfl
@[simp] theorem Hart.setStream_events (h : Hart) (k : Nat) (r : StreamReg) : (h.setStream k r).events = h.events := rfl
@[simp] theorem Hart.setStream_recv (h : Hart) (k : Nat) (r : StreamReg) : (h.setStream k r).recv = h.recv := rfl
@[simp] theorem Hart.setStream_barWait (h : Hart) (k : Nat) (r : StreamReg) : (h.setStream k r).barWait = h.barWait := rfl
@[simp] theorem Hart.setStream_waitsOn (h : Hart) (k : Nat) (r : StreamReg) : (h.setStream k r).waitsOn = h.waitsOn := rfl
@[simp] theorem Hart.setStream_trapDue (h : Hart) (k : Nat) (r : StreamReg) : (h.setStream k r).trapDue = h.trapDue := rfl
@[simp] theorem Hart.setStream_imprecise (h : Hart) (k : Nat) (r : StreamReg) : (h.setStream k r).imprecise = h.imprecise := rfl
@[simp] theorem Hart.setStream_preemptDue (h : Hart) (k : Nat) (r : StreamReg) : (h.setStream k r).preemptDue = h.preemptDue := rfl
@[simp] theorem Hart.setStream_laneReq (h : Hart) (k : Nat) (r : StreamReg) : (h.setStream k r).laneReq = h.laneReq := rfl
@[simp] theorem Hart.setStream_ibuf (h : Hart) (k : Nat) (r : StreamReg) : (h.setStream k r).ibuf = h.ibuf := rfl
@[simp] theorem Hart.setStream_task (h : Hart) (k : Nat) (r : StreamReg) : (h.setStream k r).task = h.task := rfl
@[simp] theorem Hart.setStream_runId (h : Hart) (k : Nat) (r : StreamReg) : (h.setStream k r).runId = h.runId := rfl
@[simp] theorem Hart.setStream_fixed (h : Hart) (k : Nat) (r : StreamReg) : (h.setStream k r).fixed = h.fixed := rfl
@[simp] theorem Hart.setStream_millKeeps (h : Hart) (k : Nat) (r : StreamReg) : (h.setStream k r).millKeeps = h.millKeeps := rfl
@[simp] theorem Hart.setStream_codeFar (h : Hart) (k : Nat) (r : StreamReg) : (h.setStream k r).codeFar = h.codeFar := rfl
@[simp] theorem Hart.setStream_late (h : Hart) (k : Nat) (r : StreamReg) : (h.setStream k r).late = h.late := rfl
@[simp] theorem Hart.setStream_savedEvents (h : Hart) (k : Nat) (r : StreamReg) : (h.setStream k r).savedEvents = h.savedEvents := rfl

/-! ### `Hart.setVreg` -/

@[simp] theorem Hart.setVreg_run (h : Hart) (k v : Nat) : (h.setVreg k v).run = h.run := rfl
@[simp] theorem Hart.setVreg_level (h : Hart) (k v : Nat) : (h.setVreg k v).level = h.level := rfl
@[simp] theorem Hart.setVreg_pc (h : Hart) (k v : Nat) : (h.setVreg k v).pc = h.pc := rfl
@[simp] theorem Hart.setVreg_x (h : Hart) (k v : Nat) : (h.setVreg k v).x = h.x := rfl
@[simp] theorem Hart.setVreg_fpctl (h : Hart) (k v : Nat) : (h.setVreg k v).fpctl = h.fpctl := rfl
@[simp] theorem Hart.setVreg_fpstat (h : Hart) (k v : Nat) : (h.setVreg k v).fpstat = h.fpstat := rfl
@[simp] theorem Hart.setVreg_vconf (h : Hart) (k v : Nat) : (h.setVreg k v).vconf = h.vconf := rfl
@[simp] theorem Hart.setVreg_vl (h : Hart) (k v : Nat) : (h.setVreg k v).vl = h.vl := rfl
@[simp] theorem Hart.setVreg_lshare (h : Hart) (k v : Nat) : (h.setVreg k v).lshare = h.lshare := rfl
@[simp] theorem Hart.setVreg_eidx (h : Hart) (k v : Nat) : (h.setVreg k v).eidx = h.eidx := rfl
@[simp] theorem Hart.setVreg_asid (h : Hart) (k v : Nat) : (h.setVreg k v).asid = h.asid := rfl
@[simp] theorem Hart.setVreg_ptbase (h : Hart) (k v : Nat) : (h.setVreg k v).ptbase = h.ptbase := rfl
@[simp] theorem Hart.setVreg_checkmode (h : Hart) (k v : Nat) : (h.setVreg k v).checkmode = h.checkmode := rfl
@[simp] theorem Hart.setVreg_checkNext (h : Hart) (k v : Nat) : (h.setVreg k v).checkNext = h.checkNext := rfl
@[simp] theorem Hart.setVreg_tbudget (h : Hart) (k v : Nat) : (h.setVreg k v).tbudget = h.tbudget := rfl
@[simp] theorem Hart.setVreg_budgetDue (h : Hart) (k v : Nat) : (h.setVreg k v).budgetDue = h.budgetDue := rfl
@[simp] theorem Hart.setVreg_tagown (h : Hart) (k v : Nat) : (h.setVreg k v).tagown = h.tagown := rfl
@[simp] theorem Hart.setVreg_gangpos (h : Hart) (k v : Nat) : (h.setVreg k v).gangpos = h.gangpos := rfl
@[simp] theorem Hart.setVreg_gangsize (h : Hart) (k v : Nat) : (h.setVreg k v).gangsize = h.gangsize := rfl
@[simp] theorem Hart.setVreg_launchidx (h : Hart) (k v : Nat) : (h.setVreg k v).launchidx = h.launchidx := rfl
@[simp] theorem Hart.setVreg_clusterReg (h : Hart) (k v : Nat) : (h.setVreg k v).clusterReg = h.clusterReg := rfl
@[simp] theorem Hart.setVreg_trapvec (h : Hart) (k v : Nat) : (h.setVreg k v).trapvec = h.trapvec := rfl
@[simp] theorem Hart.setVreg_trappc (h : Hart) (k v : Nat) : (h.setVreg k v).trappc = h.trappc := rfl
@[simp] theorem Hart.setVreg_trapcause (h : Hart) (k v : Nat) : (h.setVreg k v).trapcause = h.trapcause := rfl
@[simp] theorem Hart.setVreg_trapaddr (h : Hart) (k v : Nat) : (h.setVreg k v).trapaddr = h.trapaddr := rfl
@[simp] theorem Hart.setVreg_trapeidx (h : Hart) (k v : Nat) : (h.setVreg k v).trapeidx = h.trapeidx := rfl
@[simp] theorem Hart.setVreg_trapinfo (h : Hart) (k v : Nat) : (h.setVreg k v).trapinfo = h.trapinfo := rfl
@[simp] theorem Hart.setVreg_trapstat (h : Hart) (k v : Nat) : (h.setVreg k v).trapstat = h.trapstat := rfl
@[simp] theorem Hart.setVreg_scalarpc (h : Hart) (k v : Nat) : (h.setVreg k v).scalarpc = h.scalarpc := rfl
@[simp] theorem Hart.setVreg_fplist (h : Hart) (k v : Nat) : (h.setVreg k v).fplist = h.fplist := rfl
@[simp] theorem Hart.setVreg_streams (h : Hart) (k v : Nat) : (h.setVreg k v).streams = h.streams := rfl
@[simp] theorem Hart.setVreg_old (h : Hart) (k v : Nat) : (h.setVreg k v).old = h.old := rfl
@[simp] theorem Hart.setVreg_masks (h : Hart) (k v : Nat) : (h.setVreg k v).masks = h.masks := rfl
@[simp] theorem Hart.setVreg_vq (h : Hart) (k v : Nat) : (h.setVreg k v).vq = h.vq := rfl
@[simp] theorem Hart.setVreg_mq (h : Hart) (k v : Nat) : (h.setVreg k v).mq = h.mq := rfl
@[simp] theorem Hart.setVreg_posted (h : Hart) (k v : Nat) : (h.setVreg k v).posted = h.posted := rfl
@[simp] theorem Hart.setVreg_latch (h : Hart) (k v : Nat) : (h.setVreg k v).latch = h.latch := rfl
@[simp] theorem Hart.setVreg_yielding (h : Hart) (k v : Nat) : (h.setVreg k v).yielding = h.yielding := rfl
@[simp] theorem Hart.setVreg_events (h : Hart) (k v : Nat) : (h.setVreg k v).events = h.events := rfl
@[simp] theorem Hart.setVreg_recv (h : Hart) (k v : Nat) : (h.setVreg k v).recv = h.recv := rfl
@[simp] theorem Hart.setVreg_barWait (h : Hart) (k v : Nat) : (h.setVreg k v).barWait = h.barWait := rfl
@[simp] theorem Hart.setVreg_waitsOn (h : Hart) (k v : Nat) : (h.setVreg k v).waitsOn = h.waitsOn := rfl
@[simp] theorem Hart.setVreg_trapDue (h : Hart) (k v : Nat) : (h.setVreg k v).trapDue = h.trapDue := rfl
@[simp] theorem Hart.setVreg_imprecise (h : Hart) (k v : Nat) : (h.setVreg k v).imprecise = h.imprecise := rfl
@[simp] theorem Hart.setVreg_preemptDue (h : Hart) (k v : Nat) : (h.setVreg k v).preemptDue = h.preemptDue := rfl
@[simp] theorem Hart.setVreg_laneReq (h : Hart) (k v : Nat) : (h.setVreg k v).laneReq = h.laneReq := rfl
@[simp] theorem Hart.setVreg_ibuf (h : Hart) (k v : Nat) : (h.setVreg k v).ibuf = h.ibuf := rfl
@[simp] theorem Hart.setVreg_task (h : Hart) (k v : Nat) : (h.setVreg k v).task = h.task := rfl
@[simp] theorem Hart.setVreg_runId (h : Hart) (k v : Nat) : (h.setVreg k v).runId = h.runId := rfl
@[simp] theorem Hart.setVreg_fixed (h : Hart) (k v : Nat) : (h.setVreg k v).fixed = h.fixed := rfl
@[simp] theorem Hart.setVreg_millKeeps (h : Hart) (k v : Nat) : (h.setVreg k v).millKeeps = h.millKeeps := rfl
@[simp] theorem Hart.setVreg_codeFar (h : Hart) (k v : Nat) : (h.setVreg k v).codeFar = h.codeFar := rfl
@[simp] theorem Hart.setVreg_late (h : Hart) (k v : Nat) : (h.setVreg k v).late = h.late := rfl
@[simp] theorem Hart.setVreg_savedEvents (h : Hart) (k v : Nat) : (h.setVreg k v).savedEvents = h.savedEvents := rfl

/-! ### `Hart.setMreg` -/

@[simp] theorem Hart.setMreg_run (h : Hart) (k v : Nat) : (h.setMreg k v).run = h.run := rfl
@[simp] theorem Hart.setMreg_level (h : Hart) (k v : Nat) : (h.setMreg k v).level = h.level := rfl
@[simp] theorem Hart.setMreg_pc (h : Hart) (k v : Nat) : (h.setMreg k v).pc = h.pc := rfl
@[simp] theorem Hart.setMreg_x (h : Hart) (k v : Nat) : (h.setMreg k v).x = h.x := rfl
@[simp] theorem Hart.setMreg_fpctl (h : Hart) (k v : Nat) : (h.setMreg k v).fpctl = h.fpctl := rfl
@[simp] theorem Hart.setMreg_fpstat (h : Hart) (k v : Nat) : (h.setMreg k v).fpstat = h.fpstat := rfl
@[simp] theorem Hart.setMreg_vconf (h : Hart) (k v : Nat) : (h.setMreg k v).vconf = h.vconf := rfl
@[simp] theorem Hart.setMreg_vl (h : Hart) (k v : Nat) : (h.setMreg k v).vl = h.vl := rfl
@[simp] theorem Hart.setMreg_lshare (h : Hart) (k v : Nat) : (h.setMreg k v).lshare = h.lshare := rfl
@[simp] theorem Hart.setMreg_eidx (h : Hart) (k v : Nat) : (h.setMreg k v).eidx = h.eidx := rfl
@[simp] theorem Hart.setMreg_asid (h : Hart) (k v : Nat) : (h.setMreg k v).asid = h.asid := rfl
@[simp] theorem Hart.setMreg_ptbase (h : Hart) (k v : Nat) : (h.setMreg k v).ptbase = h.ptbase := rfl
@[simp] theorem Hart.setMreg_checkmode (h : Hart) (k v : Nat) : (h.setMreg k v).checkmode = h.checkmode := rfl
@[simp] theorem Hart.setMreg_checkNext (h : Hart) (k v : Nat) : (h.setMreg k v).checkNext = h.checkNext := rfl
@[simp] theorem Hart.setMreg_tbudget (h : Hart) (k v : Nat) : (h.setMreg k v).tbudget = h.tbudget := rfl
@[simp] theorem Hart.setMreg_budgetDue (h : Hart) (k v : Nat) : (h.setMreg k v).budgetDue = h.budgetDue := rfl
@[simp] theorem Hart.setMreg_tagown (h : Hart) (k v : Nat) : (h.setMreg k v).tagown = h.tagown := rfl
@[simp] theorem Hart.setMreg_gangpos (h : Hart) (k v : Nat) : (h.setMreg k v).gangpos = h.gangpos := rfl
@[simp] theorem Hart.setMreg_gangsize (h : Hart) (k v : Nat) : (h.setMreg k v).gangsize = h.gangsize := rfl
@[simp] theorem Hart.setMreg_launchidx (h : Hart) (k v : Nat) : (h.setMreg k v).launchidx = h.launchidx := rfl
@[simp] theorem Hart.setMreg_clusterReg (h : Hart) (k v : Nat) : (h.setMreg k v).clusterReg = h.clusterReg := rfl
@[simp] theorem Hart.setMreg_trapvec (h : Hart) (k v : Nat) : (h.setMreg k v).trapvec = h.trapvec := rfl
@[simp] theorem Hart.setMreg_trappc (h : Hart) (k v : Nat) : (h.setMreg k v).trappc = h.trappc := rfl
@[simp] theorem Hart.setMreg_trapcause (h : Hart) (k v : Nat) : (h.setMreg k v).trapcause = h.trapcause := rfl
@[simp] theorem Hart.setMreg_trapaddr (h : Hart) (k v : Nat) : (h.setMreg k v).trapaddr = h.trapaddr := rfl
@[simp] theorem Hart.setMreg_trapeidx (h : Hart) (k v : Nat) : (h.setMreg k v).trapeidx = h.trapeidx := rfl
@[simp] theorem Hart.setMreg_trapinfo (h : Hart) (k v : Nat) : (h.setMreg k v).trapinfo = h.trapinfo := rfl
@[simp] theorem Hart.setMreg_trapstat (h : Hart) (k v : Nat) : (h.setMreg k v).trapstat = h.trapstat := rfl
@[simp] theorem Hart.setMreg_scalarpc (h : Hart) (k v : Nat) : (h.setMreg k v).scalarpc = h.scalarpc := rfl
@[simp] theorem Hart.setMreg_fplist (h : Hart) (k v : Nat) : (h.setMreg k v).fplist = h.fplist := rfl
@[simp] theorem Hart.setMreg_streams (h : Hart) (k v : Nat) : (h.setMreg k v).streams = h.streams := rfl
@[simp] theorem Hart.setMreg_vregs (h : Hart) (k v : Nat) : (h.setMreg k v).vregs = h.vregs := rfl
@[simp] theorem Hart.setMreg_old (h : Hart) (k v : Nat) : (h.setMreg k v).old = h.old := rfl
@[simp] theorem Hart.setMreg_vq (h : Hart) (k v : Nat) : (h.setMreg k v).vq = h.vq := rfl
@[simp] theorem Hart.setMreg_mq (h : Hart) (k v : Nat) : (h.setMreg k v).mq = h.mq := rfl
@[simp] theorem Hart.setMreg_posted (h : Hart) (k v : Nat) : (h.setMreg k v).posted = h.posted := rfl
@[simp] theorem Hart.setMreg_latch (h : Hart) (k v : Nat) : (h.setMreg k v).latch = h.latch := rfl
@[simp] theorem Hart.setMreg_yielding (h : Hart) (k v : Nat) : (h.setMreg k v).yielding = h.yielding := rfl
@[simp] theorem Hart.setMreg_events (h : Hart) (k v : Nat) : (h.setMreg k v).events = h.events := rfl
@[simp] theorem Hart.setMreg_recv (h : Hart) (k v : Nat) : (h.setMreg k v).recv = h.recv := rfl
@[simp] theorem Hart.setMreg_barWait (h : Hart) (k v : Nat) : (h.setMreg k v).barWait = h.barWait := rfl
@[simp] theorem Hart.setMreg_waitsOn (h : Hart) (k v : Nat) : (h.setMreg k v).waitsOn = h.waitsOn := rfl
@[simp] theorem Hart.setMreg_trapDue (h : Hart) (k v : Nat) : (h.setMreg k v).trapDue = h.trapDue := rfl
@[simp] theorem Hart.setMreg_imprecise (h : Hart) (k v : Nat) : (h.setMreg k v).imprecise = h.imprecise := rfl
@[simp] theorem Hart.setMreg_preemptDue (h : Hart) (k v : Nat) : (h.setMreg k v).preemptDue = h.preemptDue := rfl
@[simp] theorem Hart.setMreg_laneReq (h : Hart) (k v : Nat) : (h.setMreg k v).laneReq = h.laneReq := rfl
@[simp] theorem Hart.setMreg_ibuf (h : Hart) (k v : Nat) : (h.setMreg k v).ibuf = h.ibuf := rfl
@[simp] theorem Hart.setMreg_task (h : Hart) (k v : Nat) : (h.setMreg k v).task = h.task := rfl
@[simp] theorem Hart.setMreg_runId (h : Hart) (k v : Nat) : (h.setMreg k v).runId = h.runId := rfl
@[simp] theorem Hart.setMreg_fixed (h : Hart) (k v : Nat) : (h.setMreg k v).fixed = h.fixed := rfl
@[simp] theorem Hart.setMreg_millKeeps (h : Hart) (k v : Nat) : (h.setMreg k v).millKeeps = h.millKeeps := rfl
@[simp] theorem Hart.setMreg_codeFar (h : Hart) (k v : Nat) : (h.setMreg k v).codeFar = h.codeFar := rfl
@[simp] theorem Hart.setMreg_late (h : Hart) (k v : Nat) : (h.setMreg k v).late = h.late := rfl
@[simp] theorem Hart.setMreg_savedEvents (h : Hart) (k v : Nat) : (h.setMreg k v).savedEvents = h.savedEvents := rfl

/-! ### `Hart.setSlot` -/

@[simp] theorem Hart.setSlot_run (h : Hart) (k : Nat) (r : RecvSlot) : (h.setSlot k r).run = h.run := rfl
@[simp] theorem Hart.setSlot_level (h : Hart) (k : Nat) (r : RecvSlot) : (h.setSlot k r).level = h.level := rfl
@[simp] theorem Hart.setSlot_pc (h : Hart) (k : Nat) (r : RecvSlot) : (h.setSlot k r).pc = h.pc := rfl
@[simp] theorem Hart.setSlot_x (h : Hart) (k : Nat) (r : RecvSlot) : (h.setSlot k r).x = h.x := rfl
@[simp] theorem Hart.setSlot_fpctl (h : Hart) (k : Nat) (r : RecvSlot) : (h.setSlot k r).fpctl = h.fpctl := rfl
@[simp] theorem Hart.setSlot_fpstat (h : Hart) (k : Nat) (r : RecvSlot) : (h.setSlot k r).fpstat = h.fpstat := rfl
@[simp] theorem Hart.setSlot_vconf (h : Hart) (k : Nat) (r : RecvSlot) : (h.setSlot k r).vconf = h.vconf := rfl
@[simp] theorem Hart.setSlot_vl (h : Hart) (k : Nat) (r : RecvSlot) : (h.setSlot k r).vl = h.vl := rfl
@[simp] theorem Hart.setSlot_lshare (h : Hart) (k : Nat) (r : RecvSlot) : (h.setSlot k r).lshare = h.lshare := rfl
@[simp] theorem Hart.setSlot_eidx (h : Hart) (k : Nat) (r : RecvSlot) : (h.setSlot k r).eidx = h.eidx := rfl
@[simp] theorem Hart.setSlot_asid (h : Hart) (k : Nat) (r : RecvSlot) : (h.setSlot k r).asid = h.asid := rfl
@[simp] theorem Hart.setSlot_ptbase (h : Hart) (k : Nat) (r : RecvSlot) : (h.setSlot k r).ptbase = h.ptbase := rfl
@[simp] theorem Hart.setSlot_checkmode (h : Hart) (k : Nat) (r : RecvSlot) : (h.setSlot k r).checkmode = h.checkmode := rfl
@[simp] theorem Hart.setSlot_checkNext (h : Hart) (k : Nat) (r : RecvSlot) : (h.setSlot k r).checkNext = h.checkNext := rfl
@[simp] theorem Hart.setSlot_tbudget (h : Hart) (k : Nat) (r : RecvSlot) : (h.setSlot k r).tbudget = h.tbudget := rfl
@[simp] theorem Hart.setSlot_budgetDue (h : Hart) (k : Nat) (r : RecvSlot) : (h.setSlot k r).budgetDue = h.budgetDue := rfl
@[simp] theorem Hart.setSlot_tagown (h : Hart) (k : Nat) (r : RecvSlot) : (h.setSlot k r).tagown = h.tagown := rfl
@[simp] theorem Hart.setSlot_gangpos (h : Hart) (k : Nat) (r : RecvSlot) : (h.setSlot k r).gangpos = h.gangpos := rfl
@[simp] theorem Hart.setSlot_gangsize (h : Hart) (k : Nat) (r : RecvSlot) : (h.setSlot k r).gangsize = h.gangsize := rfl
@[simp] theorem Hart.setSlot_launchidx (h : Hart) (k : Nat) (r : RecvSlot) : (h.setSlot k r).launchidx = h.launchidx := rfl
@[simp] theorem Hart.setSlot_clusterReg (h : Hart) (k : Nat) (r : RecvSlot) : (h.setSlot k r).clusterReg = h.clusterReg := rfl
@[simp] theorem Hart.setSlot_trapvec (h : Hart) (k : Nat) (r : RecvSlot) : (h.setSlot k r).trapvec = h.trapvec := rfl
@[simp] theorem Hart.setSlot_trappc (h : Hart) (k : Nat) (r : RecvSlot) : (h.setSlot k r).trappc = h.trappc := rfl
@[simp] theorem Hart.setSlot_trapcause (h : Hart) (k : Nat) (r : RecvSlot) : (h.setSlot k r).trapcause = h.trapcause := rfl
@[simp] theorem Hart.setSlot_trapaddr (h : Hart) (k : Nat) (r : RecvSlot) : (h.setSlot k r).trapaddr = h.trapaddr := rfl
@[simp] theorem Hart.setSlot_trapeidx (h : Hart) (k : Nat) (r : RecvSlot) : (h.setSlot k r).trapeidx = h.trapeidx := rfl
@[simp] theorem Hart.setSlot_trapinfo (h : Hart) (k : Nat) (r : RecvSlot) : (h.setSlot k r).trapinfo = h.trapinfo := rfl
@[simp] theorem Hart.setSlot_trapstat (h : Hart) (k : Nat) (r : RecvSlot) : (h.setSlot k r).trapstat = h.trapstat := rfl
@[simp] theorem Hart.setSlot_scalarpc (h : Hart) (k : Nat) (r : RecvSlot) : (h.setSlot k r).scalarpc = h.scalarpc := rfl
@[simp] theorem Hart.setSlot_fplist (h : Hart) (k : Nat) (r : RecvSlot) : (h.setSlot k r).fplist = h.fplist := rfl
@[simp] theorem Hart.setSlot_streams (h : Hart) (k : Nat) (r : RecvSlot) : (h.setSlot k r).streams = h.streams := rfl
@[simp] theorem Hart.setSlot_vregs (h : Hart) (k : Nat) (r : RecvSlot) : (h.setSlot k r).vregs = h.vregs := rfl
@[simp] theorem Hart.setSlot_old (h : Hart) (k : Nat) (r : RecvSlot) : (h.setSlot k r).old = h.old := rfl
@[simp] theorem Hart.setSlot_masks (h : Hart) (k : Nat) (r : RecvSlot) : (h.setSlot k r).masks = h.masks := rfl
@[simp] theorem Hart.setSlot_vq (h : Hart) (k : Nat) (r : RecvSlot) : (h.setSlot k r).vq = h.vq := rfl
@[simp] theorem Hart.setSlot_mq (h : Hart) (k : Nat) (r : RecvSlot) : (h.setSlot k r).mq = h.mq := rfl
@[simp] theorem Hart.setSlot_posted (h : Hart) (k : Nat) (r : RecvSlot) : (h.setSlot k r).posted = h.posted := rfl
@[simp] theorem Hart.setSlot_latch (h : Hart) (k : Nat) (r : RecvSlot) : (h.setSlot k r).latch = h.latch := rfl
@[simp] theorem Hart.setSlot_yielding (h : Hart) (k : Nat) (r : RecvSlot) : (h.setSlot k r).yielding = h.yielding := rfl
@[simp] theorem Hart.setSlot_events (h : Hart) (k : Nat) (r : RecvSlot) : (h.setSlot k r).events = h.events := rfl
@[simp] theorem Hart.setSlot_barWait (h : Hart) (k : Nat) (r : RecvSlot) : (h.setSlot k r).barWait = h.barWait := rfl
@[simp] theorem Hart.setSlot_waitsOn (h : Hart) (k : Nat) (r : RecvSlot) : (h.setSlot k r).waitsOn = h.waitsOn := rfl
@[simp] theorem Hart.setSlot_trapDue (h : Hart) (k : Nat) (r : RecvSlot) : (h.setSlot k r).trapDue = h.trapDue := rfl
@[simp] theorem Hart.setSlot_imprecise (h : Hart) (k : Nat) (r : RecvSlot) : (h.setSlot k r).imprecise = h.imprecise := rfl
@[simp] theorem Hart.setSlot_preemptDue (h : Hart) (k : Nat) (r : RecvSlot) : (h.setSlot k r).preemptDue = h.preemptDue := rfl
@[simp] theorem Hart.setSlot_laneReq (h : Hart) (k : Nat) (r : RecvSlot) : (h.setSlot k r).laneReq = h.laneReq := rfl
@[simp] theorem Hart.setSlot_ibuf (h : Hart) (k : Nat) (r : RecvSlot) : (h.setSlot k r).ibuf = h.ibuf := rfl
@[simp] theorem Hart.setSlot_task (h : Hart) (k : Nat) (r : RecvSlot) : (h.setSlot k r).task = h.task := rfl
@[simp] theorem Hart.setSlot_runId (h : Hart) (k : Nat) (r : RecvSlot) : (h.setSlot k r).runId = h.runId := rfl
@[simp] theorem Hart.setSlot_fixed (h : Hart) (k : Nat) (r : RecvSlot) : (h.setSlot k r).fixed = h.fixed := rfl
@[simp] theorem Hart.setSlot_millKeeps (h : Hart) (k : Nat) (r : RecvSlot) : (h.setSlot k r).millKeeps = h.millKeeps := rfl
@[simp] theorem Hart.setSlot_codeFar (h : Hart) (k : Nat) (r : RecvSlot) : (h.setSlot k r).codeFar = h.codeFar := rfl
@[simp] theorem Hart.setSlot_late (h : Hart) (k : Nat) (r : RecvSlot) : (h.setSlot k r).late = h.late := rfl
@[simp] theorem Hart.setSlot_savedEvents (h : Hart) (k : Nat) (r : RecvSlot) : (h.setSlot k r).savedEvents = h.savedEvents := rfl

/-! ### `Hart.setX` -/

@[simp] theorem Hart.setX_run (h : Hart) (r : XReg) (v : Word) : (h.setX r v).run = h.run := by unfold Hart.setX; split <;> rfl
@[simp] theorem Hart.setX_level (h : Hart) (r : XReg) (v : Word) : (h.setX r v).level = h.level := by unfold Hart.setX; split <;> rfl
@[simp] theorem Hart.setX_pc (h : Hart) (r : XReg) (v : Word) : (h.setX r v).pc = h.pc := by unfold Hart.setX; split <;> rfl
@[simp] theorem Hart.setX_fpctl (h : Hart) (r : XReg) (v : Word) : (h.setX r v).fpctl = h.fpctl := by unfold Hart.setX; split <;> rfl
@[simp] theorem Hart.setX_fpstat (h : Hart) (r : XReg) (v : Word) : (h.setX r v).fpstat = h.fpstat := by unfold Hart.setX; split <;> rfl
@[simp] theorem Hart.setX_vconf (h : Hart) (r : XReg) (v : Word) : (h.setX r v).vconf = h.vconf := by unfold Hart.setX; split <;> rfl
@[simp] theorem Hart.setX_vl (h : Hart) (r : XReg) (v : Word) : (h.setX r v).vl = h.vl := by unfold Hart.setX; split <;> rfl
@[simp] theorem Hart.setX_lshare (h : Hart) (r : XReg) (v : Word) : (h.setX r v).lshare = h.lshare := by unfold Hart.setX; split <;> rfl
@[simp] theorem Hart.setX_eidx (h : Hart) (r : XReg) (v : Word) : (h.setX r v).eidx = h.eidx := by unfold Hart.setX; split <;> rfl
@[simp] theorem Hart.setX_asid (h : Hart) (r : XReg) (v : Word) : (h.setX r v).asid = h.asid := by unfold Hart.setX; split <;> rfl
@[simp] theorem Hart.setX_ptbase (h : Hart) (r : XReg) (v : Word) : (h.setX r v).ptbase = h.ptbase := by unfold Hart.setX; split <;> rfl
@[simp] theorem Hart.setX_checkmode (h : Hart) (r : XReg) (v : Word) : (h.setX r v).checkmode = h.checkmode := by unfold Hart.setX; split <;> rfl
@[simp] theorem Hart.setX_checkNext (h : Hart) (r : XReg) (v : Word) : (h.setX r v).checkNext = h.checkNext := by unfold Hart.setX; split <;> rfl
@[simp] theorem Hart.setX_tbudget (h : Hart) (r : XReg) (v : Word) : (h.setX r v).tbudget = h.tbudget := by unfold Hart.setX; split <;> rfl
@[simp] theorem Hart.setX_budgetDue (h : Hart) (r : XReg) (v : Word) : (h.setX r v).budgetDue = h.budgetDue := by unfold Hart.setX; split <;> rfl
@[simp] theorem Hart.setX_tagown (h : Hart) (r : XReg) (v : Word) : (h.setX r v).tagown = h.tagown := by unfold Hart.setX; split <;> rfl
@[simp] theorem Hart.setX_gangpos (h : Hart) (r : XReg) (v : Word) : (h.setX r v).gangpos = h.gangpos := by unfold Hart.setX; split <;> rfl
@[simp] theorem Hart.setX_gangsize (h : Hart) (r : XReg) (v : Word) : (h.setX r v).gangsize = h.gangsize := by unfold Hart.setX; split <;> rfl
@[simp] theorem Hart.setX_launchidx (h : Hart) (r : XReg) (v : Word) : (h.setX r v).launchidx = h.launchidx := by unfold Hart.setX; split <;> rfl
@[simp] theorem Hart.setX_clusterReg (h : Hart) (r : XReg) (v : Word) : (h.setX r v).clusterReg = h.clusterReg := by unfold Hart.setX; split <;> rfl
@[simp] theorem Hart.setX_trapvec (h : Hart) (r : XReg) (v : Word) : (h.setX r v).trapvec = h.trapvec := by unfold Hart.setX; split <;> rfl
@[simp] theorem Hart.setX_trappc (h : Hart) (r : XReg) (v : Word) : (h.setX r v).trappc = h.trappc := by unfold Hart.setX; split <;> rfl
@[simp] theorem Hart.setX_trapcause (h : Hart) (r : XReg) (v : Word) : (h.setX r v).trapcause = h.trapcause := by unfold Hart.setX; split <;> rfl
@[simp] theorem Hart.setX_trapaddr (h : Hart) (r : XReg) (v : Word) : (h.setX r v).trapaddr = h.trapaddr := by unfold Hart.setX; split <;> rfl
@[simp] theorem Hart.setX_trapeidx (h : Hart) (r : XReg) (v : Word) : (h.setX r v).trapeidx = h.trapeidx := by unfold Hart.setX; split <;> rfl
@[simp] theorem Hart.setX_trapinfo (h : Hart) (r : XReg) (v : Word) : (h.setX r v).trapinfo = h.trapinfo := by unfold Hart.setX; split <;> rfl
@[simp] theorem Hart.setX_trapstat (h : Hart) (r : XReg) (v : Word) : (h.setX r v).trapstat = h.trapstat := by unfold Hart.setX; split <;> rfl
@[simp] theorem Hart.setX_scalarpc (h : Hart) (r : XReg) (v : Word) : (h.setX r v).scalarpc = h.scalarpc := by unfold Hart.setX; split <;> rfl
@[simp] theorem Hart.setX_fplist (h : Hart) (r : XReg) (v : Word) : (h.setX r v).fplist = h.fplist := by unfold Hart.setX; split <;> rfl
@[simp] theorem Hart.setX_streams (h : Hart) (r : XReg) (v : Word) : (h.setX r v).streams = h.streams := by unfold Hart.setX; split <;> rfl
@[simp] theorem Hart.setX_vregs (h : Hart) (r : XReg) (v : Word) : (h.setX r v).vregs = h.vregs := by unfold Hart.setX; split <;> rfl
@[simp] theorem Hart.setX_old (h : Hart) (r : XReg) (v : Word) : (h.setX r v).old = h.old := by unfold Hart.setX; split <;> rfl
@[simp] theorem Hart.setX_masks (h : Hart) (r : XReg) (v : Word) : (h.setX r v).masks = h.masks := by unfold Hart.setX; split <;> rfl
@[simp] theorem Hart.setX_vq (h : Hart) (r : XReg) (v : Word) : (h.setX r v).vq = h.vq := by unfold Hart.setX; split <;> rfl
@[simp] theorem Hart.setX_mq (h : Hart) (r : XReg) (v : Word) : (h.setX r v).mq = h.mq := by unfold Hart.setX; split <;> rfl
@[simp] theorem Hart.setX_posted (h : Hart) (r : XReg) (v : Word) : (h.setX r v).posted = h.posted := by unfold Hart.setX; split <;> rfl
@[simp] theorem Hart.setX_latch (h : Hart) (r : XReg) (v : Word) : (h.setX r v).latch = h.latch := by unfold Hart.setX; split <;> rfl
@[simp] theorem Hart.setX_yielding (h : Hart) (r : XReg) (v : Word) : (h.setX r v).yielding = h.yielding := by unfold Hart.setX; split <;> rfl
@[simp] theorem Hart.setX_events (h : Hart) (r : XReg) (v : Word) : (h.setX r v).events = h.events := by unfold Hart.setX; split <;> rfl
@[simp] theorem Hart.setX_recv (h : Hart) (r : XReg) (v : Word) : (h.setX r v).recv = h.recv := by unfold Hart.setX; split <;> rfl
@[simp] theorem Hart.setX_barWait (h : Hart) (r : XReg) (v : Word) : (h.setX r v).barWait = h.barWait := by unfold Hart.setX; split <;> rfl
@[simp] theorem Hart.setX_waitsOn (h : Hart) (r : XReg) (v : Word) : (h.setX r v).waitsOn = h.waitsOn := by unfold Hart.setX; split <;> rfl
@[simp] theorem Hart.setX_trapDue (h : Hart) (r : XReg) (v : Word) : (h.setX r v).trapDue = h.trapDue := by unfold Hart.setX; split <;> rfl
@[simp] theorem Hart.setX_imprecise (h : Hart) (r : XReg) (v : Word) : (h.setX r v).imprecise = h.imprecise := by unfold Hart.setX; split <;> rfl
@[simp] theorem Hart.setX_preemptDue (h : Hart) (r : XReg) (v : Word) : (h.setX r v).preemptDue = h.preemptDue := by unfold Hart.setX; split <;> rfl
@[simp] theorem Hart.setX_laneReq (h : Hart) (r : XReg) (v : Word) : (h.setX r v).laneReq = h.laneReq := by unfold Hart.setX; split <;> rfl
@[simp] theorem Hart.setX_ibuf (h : Hart) (r : XReg) (v : Word) : (h.setX r v).ibuf = h.ibuf := by unfold Hart.setX; split <;> rfl
@[simp] theorem Hart.setX_task (h : Hart) (r : XReg) (v : Word) : (h.setX r v).task = h.task := by unfold Hart.setX; split <;> rfl
@[simp] theorem Hart.setX_runId (h : Hart) (r : XReg) (v : Word) : (h.setX r v).runId = h.runId := by unfold Hart.setX; split <;> rfl
@[simp] theorem Hart.setX_fixed (h : Hart) (r : XReg) (v : Word) : (h.setX r v).fixed = h.fixed := by unfold Hart.setX; split <;> rfl
@[simp] theorem Hart.setX_millKeeps (h : Hart) (r : XReg) (v : Word) : (h.setX r v).millKeeps = h.millKeeps := by unfold Hart.setX; split <;> rfl
@[simp] theorem Hart.setX_codeFar (h : Hart) (r : XReg) (v : Word) : (h.setX r v).codeFar = h.codeFar := by unfold Hart.setX; split <;> rfl
@[simp] theorem Hart.setX_late (h : Hart) (r : XReg) (v : Word) : (h.setX r v).late = h.late := by unfold Hart.setX; split <;> rfl
@[simp] theorem Hart.setX_savedEvents (h : Hart) (r : XReg) (v : Word) : (h.setX r v).savedEvents = h.savedEvents := by unfold Hart.setX; split <;> rfl

end Sys2Proof.Machine
end

