-- ==== Sys2Proof/Laws/Table.lean ====
section
/-! SUPPORT. Sparse tables, and the readers of the state's parts after a write: the value written comes back, and every
other part is as before. -/

namespace Sys2Proof.Machine

open Sys2Proof

/-! ### Tables -/

@[simp] theorem tget_tput_same {α : Type} (t : Tab α) (k : Nat) (v d : α) : tget (tput t k v) k d = v := by
  induction t with
  | nil => simp [tput, tget]
  | cons p r ih =>
    obtain ⟨j, w⟩ := p
    simp only [tput]
    split
    · simp [tget]
    · split
      · simp [tget]
      · rename_i h1 h2
        simp only [tget]
        rw [if_neg (fun e => h2 e.symm)]
        exact ih

theorem tget_tput_other {α : Type} (t : Tab α) (k j : Nat) (v d : α) (h : j ≠ k) :
    tget (tput t k v) j d = tget t j d := by
  induction t with
  | nil => simp [tput, tget, Ne.symm h]
  | cons p r ih =>
    obtain ⟨i, w⟩ := p
    simp only [tput]
    split
    · simp [tget, Ne.symm h]
    · split
      · rename_i h1 h2
        subst h2
        simp [tget, Ne.symm h]
      · simp only [tget]
        split
        · rfl
        · exact ih

@[simp] theorem tput_tput {α : Type} (t : Tab α) (k : Nat) (a b : α) : tput (tput t k a) k b = tput t k b := by
  induction t with
  | nil => simp [tput]
  | cons p r ih =>
    obtain ⟨j, w⟩ := p
    by_cases h1 : k < j
    · simp [tput, h1]
    · by_cases h2 : k = j
      · subst h2; simp [tput]
      · simp [tput, h1, h2, ih]

theorem tfind_tput_same {α : Type} (t : Tab α) (k : Nat) (v : α) : tfind (tput t k v) k = some v := by
  induction t with
  | nil => simp [tput, tfind]
  | cons p r ih =>
    obtain ⟨j, w⟩ := p
    simp only [tput]
    split
    · simp [tfind]
    · split
      · simp [tfind]
      · rename_i h1 h2
        simp only [tfind]
        rw [if_neg (fun e => h2 e.symm)]
        exact ih

theorem tfind_tput_other {α : Type} (t : Tab α) (k j : Nat) (v : α) (h : j ≠ k) : tfind (tput t k v) j = tfind t j := by
  induction t with
  | nil => simp [tput, tfind, Ne.symm h]
  | cons p r ih =>
    obtain ⟨i, w⟩ := p
    simp only [tput]
    split
    · simp [tfind, Ne.symm h]
    · split
      · rename_i h1 h2
        subst h2
        simp [tfind, Ne.symm h]
      · simp only [tfind]
        split
        · rfl
        · exact ih

/-! ### Harts, cores, pairs, clusters and contexts -/

@[simp] theorem State.hart_setHart_same (s : State) (g : Nat) (h : Hart) : (s.setHart g h).hart g = h :=
  tget_tput_same _ _ _ _

theorem State.hart_setHart_other (s : State) (g k : Nat) (h : Hart) (n : k ≠ g) : (s.setHart g h).hart k = s.hart k :=
  tget_tput_other _ _ _ _ _ n

@[simp] theorem State.setHart_setHart (s : State) (g : Nat) (a b : Hart) : (s.setHart g a).setHart g b = s.setHart g b := by
  simp [State.setHart]

@[simp] theorem State.core_setCore_same (s : State) (n : Nat) (c : Core) : (s.setCore n c).core n = c :=
  tget_tput_same _ _ _ _

theorem State.core_setCore_other (s : State) (n k : Nat) (c : Core) (h : k ≠ n) : (s.setCore n c).core k = s.core k :=
  tget_tput_other _ _ _ _ _ h

@[simp] theorem State.pair_setPair_same (s : State) (p : Nat) (x : Pair) : (s.setPair p x).pair p = x :=
  tget_tput_same _ _ _ _

theorem State.pair_setPair_other (s : State) (p k : Nat) (x : Pair) (h : k ≠ p) : (s.setPair p x).pair k = s.pair k :=
  tget_tput_other _ _ _ _ _ h

@[simp] theorem State.cluster_setCluster_same (s : State) (c : Nat) (x : Cluster) : (s.setCluster c x).cluster c = x :=
  tget_tput_same _ _ _ _

theorem State.cluster_setCluster_other (s : State) (c k : Nat) (x : Cluster) (h : k ≠ c) :
    (s.setCluster c x).cluster k = s.cluster k := tget_tput_other _ _ _ _ _ h

@[simp] theorem State.ctx_setCtx_same (s : State) (a : Nat) (x : Ctx) : (s.setCtx a x).ctx a = x :=
  tget_tput_same _ _ _ _

theorem State.ctx_setCtx_other (s : State) (a k : Nat) (x : Ctx) (h : k ≠ a) : (s.setCtx a x).ctx k = s.ctx k :=
  tget_tput_other _ _ _ _ _ h

@[simp] theorem State.core_setHart (s : State) (g n : Nat) (h : Hart) : (s.setHart g h).core n = s.core n := rfl
@[simp] theorem State.pair_setHart (s : State) (g n : Nat) (h : Hart) : (s.setHart g h).pair n = s.pair n := rfl
@[simp] theorem State.cluster_setHart (s : State) (g n : Nat) (h : Hart) : (s.setHart g h).cluster n = s.cluster n := rfl
@[simp] theorem State.ctx_setHart (s : State) (g n : Nat) (h : Hart) : (s.setHart g h).ctx n = s.ctx n := rfl
@[simp] theorem State.hart_setCore (s : State) (n g : Nat) (c : Core) : (s.setCore n c).hart g = s.hart g := rfl
@[simp] theorem State.pair_setCore (s : State) (n g : Nat) (c : Core) : (s.setCore n c).pair g = s.pair g := rfl
@[simp] theorem State.ctx_setCore (s : State) (n g : Nat) (c : Core) : (s.setCore n c).ctx g = s.ctx g := rfl
@[simp] theorem State.hart_setPair (s : State) (p g : Nat) (x : Pair) : (s.setPair p x).hart g = s.hart g := rfl
@[simp] theorem State.core_setPair (s : State) (p g : Nat) (x : Pair) : (s.setPair p x).core g = s.core g := rfl
@[simp] theorem State.ctx_setPair (s : State) (p g : Nat) (x : Pair) : (s.setPair p x).ctx g = s.ctx g := rfl
@[simp] theorem State.hart_setCluster (s : State) (c g : Nat) (x : Cluster) : (s.setCluster c x).hart g = s.hart g := rfl
@[simp] theorem State.ctx_setCluster (s : State) (c g : Nat) (x : Cluster) : (s.setCluster c x).ctx g = s.ctx g := rfl
@[simp] theorem State.hart_setCtx (s : State) (a g : Nat) (x : Ctx) : (s.setCtx a x).hart g = s.hart g := rfl
@[simp] theorem State.core_setCtx (s : State) (a g : Nat) (x : Ctx) : (s.setCtx a x).core g = s.core g := rfl
@[simp] theorem State.pair_setCtx (s : State) (a g : Nat) (x : Ctx) : (s.setCtx a x).pair g = s.pair g := rfl
@[simp] theorem State.cluster_setCtx (s : State) (a g : Nat) (x : Ctx) : (s.setCtx a x).cluster g = s.cluster g := rfl
@[simp] theorem State.hart_setMem (s : State) (m : Memory) (g : Nat) : (s.setMem m).hart g = s.hart g := rfl
@[simp] theorem State.core_setMem (s : State) (m : Memory) (g : Nat) : (s.setMem m).core g = s.core g := rfl
@[simp] theorem State.ctx_setMem (s : State) (m : Memory) (g : Nat) : (s.setMem m).ctx g = s.ctx g := rfl

/-! ### The current hart -/

@[simp] theorem State.cur_setCur (s : State) (h : Hart) : (s.setCur h).cur = h := tget_tput_same _ _ _ _

@[simp] theorem State.setCur_setCur (s : State) (a b : Hart) : (s.setCur a).setCur b = s.setCur b :=
  State.setHart_setHart s s.turn a b

theorem State.hart_setCur_other (s : State) (h : Hart) (k : Nat) (n : k ≠ s.turn) : (s.setCur h).hart k = s.hart k :=
  tget_tput_other _ _ _ _ _ n

@[simp] theorem State.core_setCur (s : State) (h : Hart) (n : Nat) : (s.setCur h).core n = s.core n := rfl
@[simp] theorem State.pair_setCur (s : State) (h : Hart) (n : Nat) : (s.setCur h).pair n = s.pair n := rfl
@[simp] theorem State.cluster_setCur (s : State) (h : Hart) (n : Nat) : (s.setCur h).cluster n = s.cluster n := rfl
@[simp] theorem State.ctx_setCur (s : State) (h : Hart) (n : Nat) : (s.setCur h).ctx n = s.ctx n := rfl

/-! ### Scalar registers (R17) -/

/-- A register written reads as written; x0 reads as zero. -/
theorem Hart.getX_setX_same (h : Hart) (r : XReg) (v : Word) : (h.setX r v).getX r = if r = 0 then 0 else v := by
  unfold Hart.setX Hart.getX
  split <;> simp [*]

theorem Hart.getX_setX_other (h : Hart) (r q : XReg) (v : Word) (n : q ≠ r) : (h.setX r v).getX q = h.getX q := by
  unfold Hart.setX Hart.getX
  split
  · rfl
  · split
    · rfl
    · rw [tget_tput_other]
      exact fun e => n (BitVec.eq_of_toNat_eq e)

@[simp] theorem Hart.getX_zero (h : Hart) : h.getX 0 = 0 := by simp [Hart.getX]
@[simp] theorem Hart.getX_setPc (h : Hart) (v : Word) (r : XReg) : (h.setPc v).getX r = h.getX r := rfl
@[simp] theorem Hart.getX_advance (h : Hart) (n : Nat) (r : XReg) : (h.advance n).getX r = h.getX r := rfl
@[simp] theorem Hart.getX_raise (h : Hart) (f : BitVec 6) (r : XReg) : (h.raise f).getX r = h.getX r := rfl
@[simp] theorem Hart.pc_advance (h : Hart) (n : Nat) : (h.advance n).pc = h.pc + BitVec.ofNat 64 n := rfl
@[simp] theorem Hart.pc_setPc (h : Hart) (v : Word) : (h.setPc v).pc = v := rfl
@[simp] theorem Hart.fpstat_raise (h : Hart) (f : BitVec 6) : (h.raise f).fpstat = h.fpstat ||| f := rfl

end Sys2Proof.Machine
end

