-- ==== Sys2Proof/Laws/Access.lean ====
section
/-! SUPPORT. What the shared parts of an access leave alone: zero-on-assign, the page bits, the caches, the far counters and
the cause of poisoned data. -/

namespace Sys2Proof.Machine

open Sys2Proof

/-- The parts of the state that no bookkeeping of an access changes: the harts, the turn, the device's registers, and the
cores but for their data caches. -/
structure Kept (s t : State) : Prop where
  turn     : t.turn = s.turn
  harts    : t.harts = s.harts
  migqbase : t.migqbase = s.migqbase
  eager    : t.eager = s.eager
  core     : ∀ n, { t.core n with dcache := (s.core n).dcache } = s.core n

theorem Kept.refl (s : State) : Kept s s := ⟨rfl, rfl, rfl, rfl, fun _ => rfl⟩

theorem Kept.trans {s t u : State} (a : Kept s t) (b : Kept t u) : Kept s u where
  turn := b.turn.trans a.turn
  harts := b.harts.trans a.harts
  migqbase := b.migqbase.trans a.migqbase
  eager := b.eager.trans a.eager
  core n := by
    rw [← a.core n, ← b.core n]

theorem Kept.hart {s t : State} (a : Kept s t) (g : Nat) : t.hart g = s.hart g := by
  simp only [State.hart, a.harts]

theorem Kept.cur {s t : State} (a : Kept s t) : t.cur = s.cur := by
  simp only [State.cur, State.hart, a.harts, a.turn]

theorem Kept.migqOn {s t : State} (a : Kept s t) : t.migqOn = s.migqOn := by
  simp only [State.migqOn, a.migqbase]

/-- A fold keeps what each of its steps keeps. -/
theorem Kept.foldl {α : Type} (f : State → α → State) (h : ∀ s x, Kept s (f s x)) (l : List α) :
    ∀ s, Kept s (l.foldl f s) := by
  induction l with
  | nil => exact Kept.refl
  | cons x r ih => exact fun s => (h s x).trans (ih (f s x))

theorem kept_farCounts (s : State) (c : Tab (List FarCounter)) : Kept s { s with farCounts := c } :=
  ⟨rfl, rfl, rfl, rfl, fun _ => rfl⟩

theorem kept_put (s : State) (pa : Nat) (bs : List Byte) : Kept s (s.put pa bs) := ⟨rfl, rfl, rfl, rfl, fun _ => rfl⟩

theorem kept_mscLine (s : State) (line : Nat) (w a : Bool) : Kept s (s.mscLine line w a) := by
  unfold State.mscLine
  dsimp only
  split
  · exact ⟨rfl, rfl, rfl, rfl, fun _ => rfl⟩
  · split
    · exact ⟨rfl, rfl, rfl, rfl, fun _ => rfl⟩
    · exact Kept.refl s

theorem mem_mscLine (s : State) (line : Nat) (w a : Bool) : (s.mscLine line w a).mem = s.mem := by
  unfold State.mscLine
  dsimp only
  split
  · rfl
  · split <;> rfl

/-- A fold leaves memory alone when each of its steps does. -/
theorem mem_foldl {α : Type} (f : State → α → State) (h : ∀ s x, (f s x).mem = s.mem) (l : List α) :
    ∀ s, (l.foldl f s).mem = s.mem := by
  induction l with
  | nil => exact fun _ => rfl
  | cons x r ih => exact fun s => (ih (f s x)).trans (h s x)

theorem kept_mscWritten (s : State) (pa n : Nat) : Kept s (s.mscWritten pa n) :=
  Kept.foldl _ (fun s _ => kept_mscLine s _ _ _) _ s

theorem mem_mscWritten (s : State) (pa n : Nat) : (s.mscWritten pa n).mem = s.mem :=
  mem_foldl _ (fun s _ => mem_mscLine s _ _ _) _ s

theorem kept_store (s : State) (pa : Nat) (bs : List Byte) : Kept s (s.store pa bs) :=
  (kept_put s pa bs).trans (kept_mscWritten _ _ _)

/-- A store changes memory as `storeMem` says. -/
theorem mem_store (s : State) (pa : Nat) (bs : List Byte) : (s.store pa bs).mem = s.storeMem pa bs :=
  mem_mscWritten _ _ _

/-- A store to HBM leaves every byte outside it. -/
theorem readByte_store_out (s : State) (pa : Nat) (bs : List Byte) (h : pa < Config.hbmBytes) (p : Nat)
    (o : p < pa ∨ pa + bs.length ≤ p) : readByte (s.store pa bs).mem p = readByte s.mem p := by
  have hp : placeOf pa = .hbm := by
    have : ¬2 ^ 64 ≤ pa := by simp only [Config.hbmBytes] at h; omega
    unfold placeOf
    rw [if_neg this, if_pos h]
  rw [mem_store]
  simp only [State.storeMem, State.shadowPlace, hp]
  exact readByte_writeBytes_out _ _ _ _ o

theorem kept_erase (s : State) (pa n : Nat) : Kept s (s.erase pa n) := by
  refine Kept.trans ?_ (kept_mscWritten _ _ _)
  exact ⟨rfl, rfl, rfl, rfl, fun _ => rfl⟩

theorem kept_appendVictim (s : State) (asid va : Nat) : Kept s (s.appendVictim asid va) := by
  unfold State.appendVictim
  split
  · dsimp only
    split
    · exact Kept.refl s
    · exact (kept_store s _ _).trans (kept_store _ _ _)
  · exact Kept.refl s

theorem kept_markPage (s : State) (asid : Nat) (l : Option Leaf) (w : Bool) (u : PageUse) : Kept s (s.markPage asid l w u) := by
  unfold State.markPage
  split
  · exact Kept.refl s
  · split
    · dsimp only
      split
      · exact (kept_store s _ _).trans (kept_appendVictim _ _ _)
      · exact kept_store s _ _
    · exact Kept.refl s

theorem kept_assignPage (s : State) (l : Option Leaf) : Kept s (s.assignPage l) := by
  unfold State.assignPage
  split
  · exact Kept.refl s
  · dsimp only
    split
    · exact (kept_erase s _ _).trans (kept_store _ _ _)
    · exact Kept.refl s

theorem kept_mscTouch (s : State) (pa n : Nat) (w a : Bool) : Kept s (s.mscTouch pa n w a) := by
  unfold State.mscTouch
  split
  · exact Kept.foldl _ (fun s _ => kept_mscLine s _ _ _) _ s
  · exact Kept.refl s

theorem mem_mscTouch (s : State) (pa n : Nat) (w a : Bool) : (s.mscTouch pa n w a).mem = s.mem := by
  unfold State.mscTouch
  split
  · exact mem_foldl _ (fun s _ => mem_mscLine s _ _ _) _ s
  · rfl

/-- Using a line of a data cache changes the cache alone. -/
theorem dcacheUse_core (c : Core) (line : Nat) (w a : Bool) :
    { (c.dcacheUse line w a).1 with dcache := c.dcache } = c := by
  unfold Core.dcacheUse
  split
  · rfl
  · dsimp only
    split
    · rfl
    · split <;> rfl

theorem kept_farWriteBack (s : State) (pa n : Nat) : Kept s (s.farWriteBack pa n) := by
  unfold State.farWriteBack
  split
  · exact ⟨rfl, rfl, rfl, rfl, fun _ => rfl⟩
  · exact Kept.refl s

theorem mem_farWriteBack (s : State) (pa n : Nat) : (s.farWriteBack pa n).mem = s.mem := by
  unfold State.farWriteBack
  split <;> rfl

theorem kept_setCore (s : State) (n : Nat) (c : Core) (h : { c with dcache := (s.core n).dcache } = s.core n) :
    Kept s (s.setCore n c) := by
  refine ⟨rfl, rfl, rfl, rfl, fun k => ?_⟩
  by_cases e : k = n
  · subst e
    rw [State.core_setCore_same]
    exact h
  · rw [State.core_setCore_other _ _ _ _ e]

theorem kept_lineOut (s : State) (l : Nat) : Kept s (s.lineOut l) := (kept_farWriteBack s _ _).trans (kept_mscTouch _ _ _ _ _)

theorem mem_lineOut (s : State) (l : Nat) : (s.lineOut l).mem = s.mem :=
  (mem_mscTouch _ _ _ _ _).trans (mem_farWriteBack s _ _)

theorem kept_dcacheTouch (s : State) (n pa : Nat) (w a : Bool) : Kept s (s.dcacheTouch n pa w a) := by
  unfold State.dcacheTouch
  split
  · dsimp only
    have h := kept_setCore s n _ (dcacheUse_core (s.core n) (pa / 128 * 128) w a)
    split
    · exact h.trans (kept_lineOut _ _)
    · exact h
  · exact Kept.refl s

theorem mem_dcacheTouch (s : State) (n pa : Nat) (w a : Bool) : (s.dcacheTouch n pa w a).mem = s.mem := by
  unfold State.dcacheTouch
  split
  · dsimp only
    split
    · exact mem_lineOut _ _
    · rfl
  · rfl

theorem kept_scalarLine (s : State) (n pa len : Nat) (w a : Bool) : Kept s (s.scalarLine n pa len w a) := by
  unfold State.scalarLine
  dsimp only
  split
  · split
    · exact (kept_mscTouch s _ _ _ _).trans (kept_farWriteBack _ _ _)
    · exact kept_mscTouch s _ _ _ _
  · split
    · exact kept_dcacheTouch s _ _ _ _
    · exact (kept_mscTouch s _ _ _ _).trans (kept_dcacheTouch _ _ _ _ _)

theorem mem_scalarLine (s : State) (n pa len : Nat) (w a : Bool) : (s.scalarLine n pa len w a).mem = s.mem := by
  unfold State.scalarLine
  dsimp only
  split
  · split
    · exact (mem_farWriteBack _ _ _).trans (mem_mscTouch s _ _ _ _)
    · exact mem_mscTouch s _ _ _ _
  · split
    · exact mem_dcacheTouch s _ _ _ _
    · exact (mem_dcacheTouch _ _ _ _ _).trans (mem_mscTouch s _ _ _ _)

theorem kept_notifyFar (s : State) (asid g th : Nat) (e : Option Nat) : Kept s (s.notifyFar asid g th e).1 := by
  have h := kept_store
  unfold State.notifyFar
  generalize State.store = f at h ⊢
  dsimp only
  repeat' split
  all_goals first
    | exact h s _ _
    | exact Kept.trans (h s _ _) (h (f s _ _) _ _)

theorem kept_countFar (s : State) (asid pa : Nat) : Kept s (s.countFar asid pa) := by
  unfold State.countFar
  dsimp only
  split
  · split
    · have h : ∀ g th e, Kept s (s.notifyFar asid g th e).1 := fun g th e => kept_notifyFar s asid g th e
      generalize s.notifyFar asid = k at h ⊢
      exact (h _ _ _).trans (kept_farCounts _ _)
    · exact kept_farCounts s _
  · exact Kept.refl s

/-- With the migration queue off nothing is counted. -/
theorem countFar_off (s : State) (asid pa : Nat) (h : s.migqOn = false) : s.countFar asid pa = s := by
  simp [State.countFar, h]

theorem kept_countFarAll (s : State) (asid : Nat) (pas cs : List Nat) : Kept s (s.countFarAll asid pas cs) :=
  Kept.foldl _ (fun s _ => kept_countFar s _ _) _ s

theorem countFarAll_off (s : State) (asid : Nat) (pas cs : List Nat) (h : s.migqOn = false) : s.countFarAll asid pas cs = s := by
  unfold State.countFarAll
  generalize (farGranules pas).filter (fun g => !cs.contains g) = l
  induction l with
  | nil => rfl
  | cons x r ih => rw [List.foldl_cons, countFar_off _ _ _ h, ih]

/-- The page bits change the entry's eight bytes alone, when the migration queue is off and the entry lies in HBM. -/
theorem markPage_mem (s : State) (asid : Nat) (l : Option Leaf) (w : Bool) (u : PageUse) (h : s.migqOn = false) (p : Nat)
    (o : ∀ x, l = some x → (p < x.entryAt ∨ x.entryAt + 8 ≤ p) ∧ x.entryAt < Config.hbmBytes) :
    readByte (s.markPage asid l w u).mem p = readByte s.mem p := by
  unfold State.markPage
  split
  · rfl
  · rename_i x
    have hx := o x rfl
    split
    · dsimp only
      have hm := readByte_store_out s x.entryAt (leBytes 8 (markEntry (readNat s.mem x.entryAt 8) w u)) hx.2 p
        (by simpa [length_leBytes] using hx.1)
      split
      · have hv : ∀ (t : State) (a b : Nat), t.migqOn = false → t.appendVictim a b = t := by
          intro t a b ht
          simp [State.appendVictim, ht]
        rw [hv _ _ _ (by rw [(kept_store s _ _).migqOn]; exact h)]
        exact hm
      · exact hm
    · rfl

/-! ### A cause of poisoned data -/

/-- A hart with the cause that is due set aside. -/
def Hart.unpressed (h : Hart) : Hart := { h with imprecise := none }

theorem noteEnd_harts (s : State) (a : Nat) (e : EndEvent) : (s.noteEnd a e).harts = s.harts := by
  unfold State.noteEnd
  dsimp only
  split <;> rfl

/-- What an imprecise cause changes: the context's ending, and at most one hart's due cause. -/
structure Pressed (s t : State) : Prop where
  turn  : t.turn = s.turn
  mem   : t.mem = s.mem
  cores : t.cores = s.cores
  migqbase : t.migqbase = s.migqbase
  eager : t.eager = s.eager
  hart  : ∀ g, (t.hart g).unpressed = (s.hart g).unpressed

theorem Pressed.refl (s : State) : Pressed s s := ⟨rfl, rfl, rfl, rfl, rfl, fun _ => rfl⟩

theorem pressed_noteEnd (s : State) (a : Nat) (e : EndEvent) : Pressed s (s.noteEnd a e) := by
  refine ⟨?_, ?_, ?_, ?_, ?_, fun g => by simp only [State.hart, noteEnd_harts]⟩ <;>
    (unfold State.noteEnd; dsimp only; split <;> rfl)

theorem pressed_imprecise (s : State) (a : Nat) (g : Option Nat) (c : Nat) (x y z : Word) (f : List Word) :
    Pressed s (s.imprecise a g c x y z f) := by
  unfold State.imprecise
  split
  · exact pressed_noteEnd s _ _
  · rename_i k _
    dsimp only
    have h := pressed_noteEnd s a { s.eventOf k
      { cause := c, pc := 0, addr := x, info := z, fplist := f, imprecise := true, fatal := true } with page := y }
    split
    · exact h
    · refine ⟨h.turn, h.mem, h.cores, h.migqbase, h.eager, fun j => ?_⟩
      by_cases e : j = k
      · subst e
        rw [State.hart_setHart_same, ← h.hart j]
        rfl
      · rw [State.hart_setHart_other _ _ _ _ e]
        exact h.hart j

theorem pressed_consume (s : State) (g : Nat) (ps : List Piece) (reads : Bool) : Pressed s (s.consume g ps reads) := by
  unfold State.consume State.consumeFor
  split
  · exact Pressed.refl s
  · exact pressed_imprecise s _ _ _ _ _ _ _

/-- Everything that a committed scalar access leaves beside its data: a cause of poisoned data, then page bits and caches. -/
theorem scalarTouched_spec (s : State) (g va n : Nat) (r : Reach) (reads write : Bool) :
    ∃ u, Pressed s u ∧ Kept u (s.scalarTouched g va n r reads write) ∧
      (s.migqOn = false → ∀ p,
        (∀ l, r.leaf = some l → (p < l.entryAt ∨ l.entryAt + 8 ≤ p) ∧ l.entryAt < Config.hbmBytes) →
        readByte (s.scalarTouched g va n r reads write).mem p = readByte s.mem p) := by
  have h0 := pressed_consume s g (scalarPiece va n r) reads
  refine ⟨s.consume g (scalarPiece va n r) reads, h0, ?_, ?_⟩
  · unfold State.scalarTouched
    dsimp only
    have h1 := kept_markPage (s.consume g (scalarPiece va n r) reads) (s.hart g).asid.toNat r.leaf write .plain
    split
    · exact h1
    · exact (h1.trans (kept_scalarLine _ _ _ _ _ _)).trans (kept_countFarAll _ _ _ _)
  · intro hm p hp
    have hm' : (s.consume g (scalarPiece va n r) reads).migqOn = false := by
      simpa only [State.migqOn, h0.migqbase] using hm
    have h1 := kept_markPage (s.consume g (scalarPiece va n r) reads) (s.hart g).asid.toNat r.leaf write .plain
    have h2 := (markPage_mem (s.consume g (scalarPiece va n r) reads) (s.hart g).asid.toNat r.leaf write .plain hm' p hp).trans
      (by rw [h0.mem])
    unfold State.scalarTouched
    dsimp only
    split
    · exact h2
    · rw [countFarAll_off, mem_scalarLine]
      · exact h2
      · rw [(kept_scalarLine _ _ _ _ _ _).migqOn, h1.migqOn]
        exact hm'

end Sys2Proof.Machine
end

