-- ==== Sys2Proof/Laws/Elements.lean ====
section
/-! SUPPORT. Packed registers: an element reads as it was written, the others as before, and the loop over elements gives
each active element its result and leaves the rest. -/

namespace Sys2Proof.Machine

open Sys2Proof

/-- Bit by bit, a field replaced. -/
theorem testBit_putBits (v lo n x j : Nat) :
    (putBits v lo n x).testBit j = if j < lo then v.testBit j else if j < lo + n then x.testBit (j - lo) else v.testBit j := by
  have e : putBits v lo n x = 2 ^ lo * (2 ^ n * (v >>> (lo + n)) + x % 2 ^ n) + v % 2 ^ lo := by
    unfold putBits
    rw [Nat.pow_add]
    ring
  rw [e, Nat.testBit_two_pow_mul_add _ (Nat.mod_lt _ (Nat.two_pow_pos lo)),
    Nat.testBit_two_pow_mul_add _ (Nat.mod_lt _ (Nat.two_pow_pos n))]
  by_cases h1 : j < lo
  · simp [h1]
  · rw [if_neg h1, if_neg h1]
    by_cases h2 : j < lo + n
    · rw [if_pos (by omega), if_pos h2]
      simp only [Nat.testBit_mod_two_pow]
      simp
      omega
    · rw [if_neg (by omega), if_neg h2, Nat.testBit_shiftRight]
      congr 1
      omega

theorem testBit_elem (v w i j : Nat) : (elem v w i).testBit j = (decide (j < w) && v.testBit (w * i + j)) := by
  simp [elem, Nat.testBit_mod_two_pow, Nat.testBit_shiftRight]

theorem elem_lt (v w i : Nat) : elem v w i < 2 ^ w := Nat.mod_lt _ (Nat.two_pow_pos w)

theorem elem_setElem_same (v w i x : Nat) : elem (setElem v w i x) w i = x % 2 ^ w := by
  apply Nat.eq_of_testBit_eq
  intro j
  rw [testBit_elem, setElem, testBit_putBits, Nat.testBit_mod_two_pow]
  by_cases h : j < w
  · simp [h, show ¬ (w * i + j < w * i) by omega]
  · simp [h]

theorem elem_setElem_other (v w i x k : Nat) (h : k ≠ i) : elem (setElem v w i x) w k = elem v w k := by
  apply Nat.eq_of_testBit_eq
  intro j
  rw [testBit_elem, testBit_elem, setElem, testBit_putBits]
  by_cases hj : j < w
  · have : w * k + j < w * i ∨ w * i + w ≤ w * k + j := by
      rcases Nat.lt_or_gt_of_ne h with h | h
      · left
        have := Nat.mul_le_mul_left w h
        rw [Nat.mul_succ] at this
        omega
      · right
        have := Nat.mul_le_mul_left w h
        rw [Nat.mul_succ] at this
        omega
    rcases this with h | h
    · simp [h]
    · rw [if_neg (by omega), if_neg (by omega)]
  · simp [hj]

/-- The tail of a packed register is zero and the elements below it are as before. -/
theorem elem_zeroTail (w n v k : Nat) : elem (zeroTail w n v) w k = if n ≤ k then 0 else elem v w k := by
  apply Nat.eq_of_testBit_eq
  intro j
  rw [testBit_elem, zeroTail, Nat.testBit_mod_two_pow]
  by_cases h : n ≤ k
  · have := Nat.mul_le_mul_left w h
    simp [h, show ¬ (w * k + j < w * n) by omega]
  · rw [if_neg h, testBit_elem]
    by_cases hj : j < w
    · have : k + 1 ≤ n := by omega
      have := Nat.mul_le_mul_left w this
      rw [Nat.mul_succ] at this
      simp [show w * k + j < w * n by omega]
    · simp [hj]

/-- The loop over elements lo to lo + n − 1: what each element reads as. -/
theorem elem_loopElems (w : Nat) (act : Nat → Bool) (f : Nat → Nat → Nat × Nat) (n : Nat) :
    ∀ (lo : Nat) (acc : Nat × Nat) (k : Nat), elem (loopElems w act f lo n acc).1 w k =
      if lo ≤ k ∧ k < lo + n ∧ act k = true then (f k (elem acc.1 w k)).1 % 2 ^ w else elem acc.1 w k := by
  induction n with
  | zero =>
    intro lo acc k
    simp only [loopElems]
    rw [if_neg (by omega)]
  | succ n ih =>
    intro lo acc k
    rw [loopElems, ih]
    by_cases ha : act lo = true
    · simp only [ha, if_true]
      by_cases hk : k = lo
      · subst hk
        rw [if_neg (by omega), elem_setElem_same, if_pos ⟨Nat.le_refl _, by omega, ha⟩]
      · rw [elem_setElem_other _ _ _ _ _ hk]
        by_cases hc : lo + 1 ≤ k ∧ k < lo + 1 + n ∧ act k = true
        · rw [if_pos hc, if_pos ⟨by omega, by omega, hc.2.2⟩]
        · rw [if_neg hc, if_neg (fun h => hc ⟨by omega, by omega, h.2.2⟩)]
    · simp only [ha, Bool.false_eq_true, if_false]
      by_cases hk : k = lo
      · subst hk
        rw [if_neg (by omega), if_neg (fun h => ha h.2.2)]
      · by_cases hc : lo + 1 ≤ k ∧ k < lo + 1 + n ∧ act k = true
        · rw [if_pos hc, if_pos ⟨by omega, by omega, hc.2.2⟩]
        · rw [if_neg hc, if_neg (fun h => hc ⟨by omega, by omega, h.2.2⟩)]

/-- The flags that the loop has gathered: those it began with and those of every active element. -/
theorem flags_loopElems (w : Nat) (act : Nat → Bool) (f : Nat → Nat → Nat × Nat) (n : Nat) :
    ∀ (lo : Nat) (acc : Nat × Nat) (j : Nat), (loopElems w act f lo n acc).2.testBit j = true ↔
      acc.2.testBit j = true ∨
        ∃ k, lo ≤ k ∧ k < lo + n ∧ act k = true ∧ (f k (elem acc.1 w k)).2.testBit j = true := by
  induction n with
  | zero =>
    intro lo acc j
    simp only [loopElems]
    constructor
    · exact Or.inl
    · rintro (h | ⟨k, h1, h2, -⟩)
      · exact h
      · omega
  | succ n ih =>
    intro lo acc j
    rw [loopElems, ih]
    by_cases ha : act lo = true
    · simp only [ha, if_true, Nat.testBit_or, Bool.or_eq_true]
      constructor
      · rintro ((h | h) | ⟨k, h1, h2, h3, h4⟩)
        · exact Or.inl h
        · exact Or.inr ⟨lo, Nat.le_refl _, by omega, ha, h⟩
        · rw [elem_setElem_other _ _ _ _ _ (by omega)] at h4
          exact Or.inr ⟨k, by omega, by omega, h3, h4⟩
      · rintro (h | ⟨k, h1, h2, h3, h4⟩)
        · exact Or.inl (Or.inl h)
        · by_cases hk : k = lo
          · subst hk
            exact Or.inl (Or.inr h4)
          · refine Or.inr ⟨k, by omega, by omega, h3, ?_⟩
            rw [elem_setElem_other _ _ _ _ _ hk]
            exact h4
    · simp only [ha, Bool.false_eq_true, if_false]
      constructor
      · rintro (h | ⟨k, h1, h2, h3, h4⟩)
        · exact Or.inl h
        · exact Or.inr ⟨k, by omega, by omega, h3, h4⟩
      · rintro (h | ⟨k, h1, h2, h3, h4⟩)
        · exact Or.inl h
        · by_cases hk : k = lo
          · subst hk
            exact absurd h3 ha
          · exact Or.inr ⟨k, by omega, by omega, h3, h4⟩

end Sys2Proof.Machine
end

