-- ==== Sys2Proof/Laws/Queue.lean ====
section
/-! SUPPORT. Posting to idle queues: when a hart's queues are empty and work is eager, a posted operation runs at once, and
the outcome is that of `runVector` on the entry. -/

namespace Sys2Proof.Machine

open Sys2Proof

/-- The current hart with an operation posted. -/
def State.posted (s : State) (q : QOp) : State := s.setCur (s.cur.enqueue q)

theorem pending_idle (h : Hart) (r : XReg) (hv : h.vq = []) (hm : h.mq = []) (hl : h.late = []) : h.pending r = false := by
  simp [Hart.pending, hv, hm, hl]

theorem anyPending_idle (h : Hart) (rs : List XReg) (hv : h.vq = []) (hm : h.mq = []) (hl : h.late = []) :
    h.anyPending rs = false := by
  simp [Hart.anyPending, pending_idle, hv, hm, hl]

/-- Nothing keeps an operation that is not illegal from being posted to idle queues. -/
theorem post_idle (s : State) (q : QOp) (hv : s.cur.vq = []) (hm : s.cur.mq = [])
    (hl : s.cur.late = []) (hc : (qNeedsConfig q && vcIll s.cur.vconf) = false) (hi : s.qIllegal s.turn q = false) :
    s.post q = .next ((s.posted q).drainEager s.turn) := by
  have hp : s.cur.canPost q = true := by
    simp only [Hart.canPost, hv, hm]
    cases qIsMatrix q <;> rfl
  have hx : s.cur.crossPending q = false := by
    unfold Hart.crossPending
    cases qDest q with
    | none => rfl
    | some d => simp [hv, hm, hl]
  have ha := anyPending_idle s.cur (qSources q) hv hm hl
  have hs : (if qFences q then s.performLate s.turn else s) = s := by
    have : s.performLate s.turn = s := by
      show State.performLate s s.turn = s
      unfold State.performLate
      rw [show (s.hart s.turn).late = [] from hl]
      rfl
    rw [this, ite_self]
  simp only [State.post, hs, hc, hi, ha, hx, hp, State.posted, Bool.false_eq_true, if_false, Bool.or_self, Bool.not_true]

theorem enqueue_vq (h : Hart) (q : QOp) (hv : h.vq = []) (hq : qIsMatrix q = false) :
    (h.enqueue q).vq = [h.entryOf q] := by
  simp only [Hart.enqueue, hq, Hart.advance, Hart.setPc]
  cases h.vq.isEmpty && h.mq.isEmpty && h.level == .pl0 <;> simp [hv]

theorem enqueue_mq (h : Hart) (q : QOp) (hm : h.mq = []) (hq : qIsMatrix q = false) : (h.enqueue q).mq = [] := by
  simp only [Hart.enqueue, hq, Hart.advance, Hart.setPc]
  cases h.vq.isEmpty && h.mq.isEmpty && h.level == .pl0 <;> simp [hm]

theorem enqueue_trapDue (h : Hart) (q : QOp) : (h.enqueue q).trapDue = h.trapDue := by
  simp only [Hart.enqueue, Hart.advance, Hart.setPc]
  cases h.vq.isEmpty && h.mq.isEmpty && h.level == .pl0 <;> cases qIsMatrix q <;> rfl

@[simp] theorem hart_posted (s : State) (q : QOp) : (s.posted q).hart s.turn = s.cur.enqueue q :=
  State.hart_setHart_same _ _ _

theorem enqueue_old (h : Hart) (q : QOp) (hv : h.vq = []) (hm : h.mq = []) (ho : h.level = .pl0 ∨ h.old = []) :
    (h.enqueue q).old = [] := by
  simp only [Hart.enqueue, hv, hm, List.isEmpty_nil, Bool.true_and, Hart.advance, Hart.setPc]
  rcases ho with ho | ho
  · rw [ho]
    cases qIsMatrix q <;> rfl
  · cases h.level == .pl0 <;> cases qIsMatrix q <;> simp [ho]

/-- The operations whose admission asks for something beside the queues: a slot, a strip, a run of the Millrace. -/
def qAsks (q : QOp) : Bool :=
  match q with
  | .send .. => true
  | .recv .. => true
  | .mfeed .. => true
  | .mdrain .. => true
  | _ => false

/-- An entry that is alone in its hart's queues is the first, with nothing before it. -/
theorem earlier_only (h : Hart) (e : Entry) (hv : h.vq = [e]) (hm : h.mq = []) : h.earlier e.seq = [] := by
  simp [Hart.earlier, hv, hm]

theorem before_only (h : Hart) (e : Entry) (hv : h.vq = [e]) : h.before e.seq = [] := by
  simp [Hart.before, hv]

theorem clear_only (s : State) (g : Nat) (e : Entry) (hv : (s.hart g).vq = [e]) (hm : (s.hart g).mq = []) :
    s.clear g e = true := by
  simp [State.clear, State.limit, earlier_only _ e hv hm]

theorem mayAdmit_only (s : State) (g : Nat) (e : Entry) (hv : (s.hart g).vq = [e]) (hm : (s.hart g).mq = [])
    (ha : e.admitted = false) : s.mayAdmit g e = true := by
  have hb := before_only _ e hv
  have h2 := earlier_only _ e hv hm
  simp only [State.mayAdmit, hb, h2, Hart.vectorPast, Hart.flying, State.loadBlocks, State.claimWaits, hv, hm]
  cases qMaskDest e.op <;> cases qCrossLane e.op <;> simp [ha]

theorem rename_only (s : State) (g : Nat) (e : Entry) (hv : (s.hart g).vq = [e]) (hm : (s.hart g).mq = []) :
    s.rename g e = some s := by
  have hr : ∀ q, s.readsCurrent g e.seq q = false := fun q => by simp [State.readsCurrent, earlier_only _ e hv hm]
  unfold State.rename
  induction renameGroups (qVWrites (s.groupOf g e.vconf) e.op) with
  | nil => rfl
  | cons q r ih =>
    simp only [List.foldl, hr, Bool.not_false, if_true]
    exact ih

/-- An entry that is alone runs through at once. -/
theorem runTo_only (s : State) (g : Nat) (e : Entry) (ho : (s.hart g).old = []) :
    s.runTo g e e.vl =
      match s.runVector g e e.vl with
      | .wait t => .wait t
      | .trap r => .trap r
      | .done t => .done (t.setHart g ((t.hart g).dropVector e.seq)) := by
  cases h : s.runVector g e e.vl <;> simp [State.runTo, State.onSeen, ho, h]

theorem ready_only (s : State) (g : Nat) (e : Entry) (he : s.eager = true) (hv : (s.hart g).vq = [e]) (hm : (s.hart g).mq = []) :
    s.ready g e = true := by
  have hb := before_only _ e hv
  cases h : qDest e.op <;> simp [State.ready, clear_only s g e hv hm, Hart.eventsPast, Hart.destWaits, hb, he, h]

theorem goOn_only (s : State) (g : Nat) (e : Entry) (he : s.eager = true) (hv : (s.hart g).vq = [e]) (hm : (s.hart g).mq = [])
    (hs : e.eidx = 0) (hq : qAsks e.op = false) (hp : qIsVmem e.op = true → e.probed = true) :
    s.goOn g e e.vl = s.runTo g e e.vl := by
  have hc := clear_only s g e hv hm
  have hr := ready_only s g e he hv hm
  have hf : qIsFeed e.op = false := by
    cases h : e.op <;> first | rfl | simp [h, qAsks] at hq
  have hw : (qIsVmem e.op && !e.probed) = false := by
    cases h : qIsVmem e.op
    · rfl
    · simp [hp h]
  simp only [State.goOn, hc, hr, hf, hw, Nat.min_self, State.reach]
  by_cases h1 : e.elementwise (s.hart g)
  · have : e.eidx < e.vl ∨ e.vl = 0 := by omega
    simp [h1, this]
  · by_cases h2 : e.canSplit
    · simp [h1, h2]
    · simp only [h1, h2]
      cases h : e.op <;> simp [State.notifyOn, he]

/-- What an entry that is alone comes to when it is admitted and its run does not wait. -/
theorem admit_only (s : State) (g : Nat) (e : Entry) (he : s.eager = true) (hv : (s.hart g).vq = [e])
    (hm : (s.hart g).mq = []) (ho : (s.hart g).old = []) (hs : e.eidx = 0) (hq : qAsks e.op = false)
    (hp : qIsVmem e.op = true → e.probed = true) (hw : ∀ t, s.runVector g e e.vl ≠ .wait t) :
    s.intoFlight g e e.vl =
      match s.runVector g e e.vl with
      | .wait t => .wait t
      | .trap r => .trap r
      | .done t => .done (t.setHart g ((t.hart g).dropVector e.seq)) := by
  have h3 : s.preAdmit g e = .done s := by
    unfold State.preAdmit
    cases h : e.op <;> first | rfl | simp [h, qAsks] at hq
  have hl : s.loadFits g e = true := by simp [State.loadFits, clear_only s g e hv hm, before_only _ e hv]
  simp only [State.intoFlight, h3, rename_only s g e hv hm, goOn_only s g e he hv hm hs hq hp, runTo_only s g e ho, hl, Bool.not_true,
    Bool.and_false, Bool.false_eq_true, if_false]
  cases h : s.runVector g e e.vl with
  | wait t => exact absurd h (hw t)
  | trap r => rfl
  | done t => rfl

/-- What an entry that is alone and reads no memory comes to when it is advanced and its run does not wait. -/
theorem advanceVector_only (s : State) (g : Nat) (e : Entry) (he : s.eager = true) (hv : (s.hart g).vq = [e])
    (hm : (s.hart g).mq = []) (ho : (s.hart g).old = []) (ha : e.admitted = false) (hp : qIsVmem e.op = false) (hs : e.eidx = 0)
    (hq : qAsks e.op = false) (hw : ∀ t, s.runVector g e e.vl ≠ .wait t) :
    s.advanceVector g e e.vl =
      match s.runVector g e e.vl with
      | .wait t => .wait t
      | .trap r => .trap r
      | .done t => .done (t.setHart g ((t.hart g).dropVector e.seq)) := by
  simp only [State.advanceVector, hp, Bool.not_false, Bool.true_or, if_true, ha, Bool.false_eq_true, if_false,
    mayAdmit_only s g e hv hm ha, admit_only s g e he hv hm ho hs hq (by simp [hp]) hw]

/-- A vector memory instruction that is alone is probed first, on the registers as they stand. -/
theorem probeEntry_only (s : State) (g : Nat) (e : Entry) (hv : (s.hart g).vq = [e]) (hm : (s.hart g).mq = [])
    (ho : (s.hart g).old = []) :
    s.probeEntry g e = match (s.setHart g (s.hart g)).probeVector g e with
      | .error r => .error r
      | .ok ps => .ok (some ps) := by
  have h : (s.hart g).asSeen e.seq = s.hart g := by simp [Hart.asSeen, ho]
  simp only [State.probeEntry, before_only _ e hv, earlier_only _ e hv hm, State.loadBlocks, hm, h, List.any_nil, Bool.or_self,
    Bool.false_eq_true, if_false]
  all_goals (cases (s.setHart g (s.hart g)).probeVector g e <;> rfl)

/-- The state in which a probed entry goes on, and the entry itself. -/
def State.probedAt (s : State) (g : Nat) (e : Entry) (ps : List Piece) : State := s.setHart g ((s.hart g).withProbe e.seq ps)
def Entry.found (e : Entry) (ps : List Piece) : Entry := { e with probed := true, pieces := ps }

theorem withProbe_only (h : Hart) (e : Entry) (ps : List Piece) (hv : h.vq = [e]) : (h.withProbe e.seq ps).vq = [e.found ps] := by
  simp [Hart.withProbe, Hart.updateVector, hv, Entry.found]

/-- A vector memory instruction that is alone, when its probe has passed and its run does not wait. -/
theorem advanceVector_probed (s : State) (g : Nat) (e : Entry) (ps : List Piece) (he : s.eager = true) (hv : (s.hart g).vq = [e])
    (hm : (s.hart g).mq = []) (ho : (s.hart g).old = []) (ha : e.admitted = false) (hp : qIsVmem e.op = true)
    (hn : e.probed = false) (hs : e.eidx = 0) (hk : (s.setHart g (s.hart g)).probeVector g e = .ok ps)
    (hw : ∀ t, (s.probedAt g e ps).runVector g (e.found ps) e.vl ≠ .wait t) :
    s.advanceVector g e e.vl =
      match (s.probedAt g e ps).runVector g (e.found ps) e.vl with
      | .wait t => .wait t
      | .trap r => .trap r
      | .done t => .done (t.setHart g ((t.hart g).dropVector e.seq)) := by
  have hv' : ((s.probedAt g e ps).hart g).vq = [e.found ps] := by
    simp only [State.probedAt, State.hart_setHart_same]
    exact withProbe_only _ e ps hv
  have hm' : ((s.probedAt g e ps).hart g).mq = [] := by
    simp only [State.probedAt, State.hart_setHart_same]
    exact hm
  have ho' : ((s.probedAt g e ps).hart g).old = [] := by
    simp only [State.probedAt, State.hart_setHart_same]
    exact ho
  have hq : qAsks (e.found ps).op = false := by
    cases h : e.op <;> first | (simp [Entry.found, h, qAsks]; done) | simp [h, qIsVmem] at hp
  have ha' : (e.found ps).admitted = false := ha
  have h1 := mayAdmit_only (s.probedAt g e ps) g (e.found ps) hv' hm' ha'
  have h2 := admit_only (s.probedAt g e ps) g (e.found ps) he hv' hm' ho' hs hq (fun _ => rfl) hw
  simp only [State.advanceVector, hp, hn, he, probeEntry_only s g e hv hm ho, hk, Bool.not_true, Bool.or_self, Bool.false_eq_true,
    if_false]
  change (if (e.found ps).admitted = true then _ else if (s.probedAt g e ps).mayAdmit g (e.found ps) = true then
    (s.probedAt g e ps).intoFlight g (e.found ps) e.vl else _) = _
  simp only [ha', h1, Bool.false_eq_true, if_false, if_true]
  exact h2

theorem setHart_hart_posted (s : State) (q : QOp) : (s.posted q).setHart s.turn (s.cur.enqueue q) = s.posted q :=
  State.setHart_setHart _ _ _ _

/-- One operation posted to idle queues of a hart with no trap due: what follows is its own run at the head. -/
theorem drain_posted (s : State) (q : QOp) (n : Nat) (he : s.eager = true) (hv : s.cur.vq = []) (hm : s.cur.mq = [])
    (ht : s.cur.trapDue = none) (ho : s.cur.level = .pl0 ∨ s.cur.old = []) (hq : qIsMatrix q = false) (hk : qAsks q = false)
    (hp : qIsVmem q = false) (hw : ∀ t, (s.posted q).runVector s.turn (s.cur.entryOf q) s.cur.vl.toNat ≠ .wait t) :
    (s.posted q).drain s.turn (n + 1) =
      match (s.posted q).runVector s.turn (s.cur.entryOf q) s.cur.vl.toNat with
      | .wait t => t
      | .trap r => (s.posted q).queueFault s.turn r
      | .done t => (t.setHart s.turn ((t.hart s.turn).dropVector s.cur.posted)).drain s.turn n := by
  have h1 : ((s.posted q).hart s.turn).trapDue = none := by rw [hart_posted, enqueue_trapDue, ht]
  have hv' : ((s.posted q).hart s.turn).vq = [s.cur.entryOf q] := by rw [hart_posted, enqueue_vq _ _ hv hq]
  have hm' : ((s.posted q).hart s.turn).mq = [] := by rw [hart_posted, enqueue_mq _ _ hm hq]
  have ho' : ((s.posted q).hart s.turn).old = [] := by rw [hart_posted, enqueue_old _ _ hv hm ho]
  have hn : (s.posted q).nextMatrix s.turn = none := by
    simp only [State.nextMatrix, hm']
    split <;> rfl
  have h2 : (s.posted q).heads s.turn = [s.cur.entryOf q] := by
    simp only [State.heads, hv', hn]
    rfl
  have h3 : qIsMatrix (s.cur.entryOf q).op = false := hq
  have h5 := advanceVector_only (s.posted q) s.turn (s.cur.entryOf q) he hv' hm' ho' rfl hp rfl hk hw
  have h6 : (s.cur.entryOf q).vl = s.cur.vl.toNat := rfl
  have h7 : (s.cur.entryOf q).seq = s.cur.posted := rfl
  rw [h6, h7] at h5
  rw [State.drain]
  simp only [h1, h2, Option.isSome_none, Bool.false_eq_true, if_false, State.runHead, h3, h6, h5]
  cases h : (s.posted q).runVector s.turn (s.cur.entryOf q) s.cur.vl.toNat with
  | wait t => exact absurd h (hw t)
  | trap r => rfl
  | done t => rfl

/-- Nothing left to run. -/
theorem drain_empty (s : State) (g n : Nat) (hv : (s.hart g).vq = []) (hm : (s.hart g).mq = []) : s.drain g n = s := by
  cases n with
  | zero => rfl
  | succ n =>
    have hn : s.nextMatrix g = none := by simp [State.nextMatrix, hm]
    have h : s.heads g = [] := by simp [State.heads, hv, hn]
    rw [State.drain]
    cases (s.hart g).trapDue with
    | none => simp [h]
    | some r => simp

/-- An entry whose place no other has leaves its queue empty. -/
theorem dropVector_only (h : Hart) (e : Entry) (hv : h.vq = [e]) : (h.dropVector e.seq).vq = [] := by
  simp [Hart.dropVector, hv]

/-- Posting to idle queues under eager work, when the run is done and has left the queue with that entry alone: the entry
leaves it. -/
theorem post_done (s t : State) (q : QOp) (he : s.eager = true) (hv : s.cur.vq = []) (hm : s.cur.mq = [])
    (ht : s.cur.trapDue = none) (hl : s.cur.late = []) (ho : s.cur.level = .pl0 ∨ s.cur.old = [])
    (hc : (qNeedsConfig q && vcIll s.cur.vconf) = false) (hi : s.qIllegal s.turn q = false) (hq : qIsMatrix q = false)
    (hk : qAsks q = false) (hp : qIsVmem q = false)
    (hr : (s.posted q).runVector s.turn (s.cur.entryOf q) s.cur.vl.toNat = .done t)
    (tv : (t.hart s.turn).vq = [s.cur.entryOf q]) (tm : (t.hart s.turn).mq = []) :
    s.post q = .next (t.setHart s.turn ((t.hart s.turn).dropVector s.cur.posted)) := by
  rw [post_idle s q hv hm hl hc hi]
  have h1 : (s.posted q).eager = true := he
  simp only [State.drainEager, h1, if_true]
  rw [drain_posted s q 96 he hv hm ht ho hq hk hp (by rw [hr]; simp), hr]
  simp only
  rw [drain_empty]
  · rw [State.hart_setHart_same]
    exact dropVector_only _ (s.cur.entryOf q) tv
  · rw [State.hart_setHart_same]
    exact tm

end Sys2Proof.Machine
end

