-- ==== Sys2Proof/Tests/Slice0.lean ====
section
/-! SUPPORT. Tests: words of the manual against the decoder, ill-formed terms refused, single steps against the manual's
examples, and for each statement states that meet its hypotheses. -/

namespace Sys2Proof.Tests

-- Proofs one after another: evaluated side by side they need more threads than memory holds stacks for.
set_option Elab.async false

open Sys2Proof Sys2Proof.Machine

/-! ### States -/

/-- Hart 0 of context 1 at PL0 and virtual address 0, with one page of 64 KiB at 0x2000000. -/
def demo : State := State.reset.placeProgram []

/-- The same with the current hart's registers. -/
def withX (x : Tab Word) : State := demo.setCur { demo.cur with x := x }

/-- The same at PL1, where no address is translated (log entry 6). -/
def priv (x : Tab Word) : State := demo.setCur { demo.cur with x := x, level := .pl1 }

/-- Four elements of EW 32: a count in v1, its double in v2, and a mask of elements 0 and 2 in m1. -/
def vec (x : Tab Word) : State := demo.setCur { demo.cur with
  x := x, vl := 4, lshare := 1, vconf := 0x818
  vregs := [(1, 0x00000004000000030000000200000001), (2, 0x00000008000000060000000400000002)], masks := [(1, 5)] }

/-- A queue entry of hart 0. -/
def entry (q : QOp) (vl : Nat) : Entry := { pc := 0, op := q, ops := [], vl := vl, vconf := 0x818, rm := 0, seq := 0 }

theorem ok_of {ε α : Type} {e : Except ε α} {a : α} (h : e.toOption = some a) : e = .ok a := by
  cases e with
  | error _ => cases h
  | ok _ => exact congrArg Except.ok (Option.some.inj h)

/-! ### Words of the manual

Each word is written out from the fields of Tables 1-1 to 1-5; most stand in the manual's own encoding tables. -/

theorem test_word_sub : decodeTableWord 32 0x00B16A05 = some (.sub 10 11 12) := by decide
theorem test_word_divu : decodeTableWord 32 0x0B1CC505 = some (.divu 5 6 7) := by decide
theorem test_word_clz : decodeTableWord 32 0x0C810705 = some (.clz 7 8) := by decide
theorem test_word_addi : decodeTableWord 32 0xFFFCA509 = some (.addi 5 5 0x3FFF) := by decide
theorem test_word_slli : decodeTableWord 32 0x0034C521 = some (.slli 5 6 13) := by decide
theorem test_word_srai : decodeTableWord 32 0x02FCA521 = some (.srai 5 5 63) := by decide
theorem test_word_lui : decodeTableWord 32 0x2468A525 = some (.lui 5 0x12345) := by decide
theorem test_word_addpc : decodeTableWord 32 0x00034529 = some (.addpc 5 26) := by decide
theorem test_word_lix : decodeTableWord 64 0x3F8000000000092E = some (.lix 9 0x3F800000) := by decide
theorem test_word_lixh : decodeTableWord 64 0x000000011000092E = some (.lixh 9 1) := by decide
theorem test_word_beq : decodeTableWord 32 0x0080E65D = some (.beq 6 7 4) := by decide
theorem test_word_bltu : decodeTableWord 32 0xFFD0C55D = some (.bltu 5 6 0x7FE) := by decide
theorem test_word_j : decodeTableWord 32 0x00004061 = some (.j 0x40) := by decide
theorem test_word_jl : decodeTableWord 32 0xFFFFFF65 = some (.jl 0xFFFFFF) := by decide
theorem test_word_jlr : decodeTableWord 32 0x0000C169 = some (.jlr 1 6 0) := by decide
theorem test_word_ld : decodeTableWord 32 0x0020C53D = some (.ld 5 6 8) := by decide
theorem test_word_sd : decodeTableWord 32 0xFFE0C759 = some (.sd 6 7 0x3FF8) := by decide
theorem test_word_amoadd : decodeTableWord 32 0x009CC56D = some (.amoadd 5 6 7 0) := by decide
theorem test_word_faddF : decodeTableWord 32 0x001CC571 = some (.faddF 5 6 7 0) := by decide
theorem test_word_fdivF : decodeTableWord 32 0xE19CC571 = some (.fdivF 5 6 7 7) := by decide
theorem test_word_fcvtWF : decodeTableWord 32 0x25812871 = some (.fcvtWF 8 9 1) := by decide
theorem test_word_fmaddF : decodeTableWord 64 0x00000008001CC576 = some (.fmaddF 5 6 7 8 0) := by decide
theorem test_word_waitany : decodeTableWord 32 0x0280C579 = some (.waitany 5 6) := by decide
theorem test_word_bar : decodeTableWord 32 0x0480C579 = some (.bar 5 6) := by decide
theorem test_word_sigdec : decodeTableWord 32 0x0680C579 = some (.sigdec 5 6) := by decide
theorem test_word_wfe : decodeTableWord 32 0x07800079 = some .wfe := by decide
theorem test_word_yield : decodeTableWord 32 0x08000079 = some .yield := by decide
theorem test_word_csrr : decodeTableWord 32 0x0044057D = some (.csrr 5 0x011) := by decide
theorem test_word_csrc : decodeTableWord 32 0xC044C07D = some (.csrc 0 6 0x011) := by decide
theorem test_word_trapi : decodeTableWord 32 0x0004A081 = some (.trapi 37) := by decide
theorem test_word_eret : decodeTableWord 32 0x00800081 = some .eret := by decide
theorem test_word_brk : decodeTableWord 32 0x01000081 = some .brk := by decide
theorem test_word_halt : decodeTableWord 32 0x01800081 = some .halt := by decide
theorem test_word_tlbinv : decodeTableWord 32 0x0218A081 = some (.tlbinv 5 6) := by decide
theorem test_word_vcfg : decodeTableWord 64 0x0000090800000486 = some (.vcfg 4 0 2 16 0 1) := by decide
theorem test_word_vsetl : decodeTableWord 32 0x00016A89 = some (.vsetl 10 11) := by decide
theorem test_word_vfadd : decodeTableWord 32 0x08400891 = some (.vfaddVV 8 0 4 2) := by decide
theorem test_word_vfmax : decodeTableWord 32 0xA0908395 = some (.vfmaxVX 3 2 9 0) := by decide
theorem test_word_vfma : decodeTableWord 32 0x0C504299 = some (.vfmaVV 2 1 5 3) := by decide
theorem test_word_vfclt : decodeTableWord 32 0xA060C299 = some (.vfcltVV 2 3 6 0) := by decide
theorem test_word_vfexpf : decodeTableWord 32 0x003146A1 = some (.vfexpf 6 5 0) := by decide
theorem test_word_vfcvtWF : decodeTableWord 32 0x208087A1 = some (.vfcvtWF 7 2 1 0) := by decide
theorem test_word_vfscale : decodeTableWord 32 0x209187A5 = some (.vfscaleVX 7 6 9 0) := by decide
theorem test_word_vsra : decodeTableWord 32 0x404209B5 = some (.vsraVX 9 8 4 0) := by decide
theorem test_word_vclt : decodeTableWord 32 0xE0B281B1 = some (.vcltVV 1 10 11 0) := by decide
theorem test_word_vmand : decodeTableWord 32 0x002043B9 = some (.vmand 3 1 2 0) := by decide
theorem test_word_vmpopc : decodeTableWord 32 0xC00085B9 = some (.vmpopc 5 2 0) := by decide
theorem test_word_vmerge : decodeTableWord 32 0xA840C5BD = some (.vmerge 5 3 4 2) := by decide
theorem test_word_vextract : decodeTableWord 32 0xE07085BD = some (.vextract 5 2 7) := by decide
theorem test_word_vseq : decodeTableWord 64 0x00010000000003C6 = some (.vseq 0 3 0 1) := by decide
theorem test_word_vrand : decodeTableWord 64 0x00010007309003C6 = some (.vrand 0 9 3 7 1) := by decide
theorem test_word_vld : decodeTableWord 32 0x0000C8C9 = some (.vld 8 3 0) := by decide
theorem test_word_vst : decodeTableWord 32 0x480109C9 = some (.vst 9 4 2) := by decide
theorem test_word_vldx : decodeTableWord 32 0x20C044C9 = some (.vldx 4 12 1 0) := by decide
theorem test_word_sdesc : decodeTableWord 32 0x0028C0D1 = some (.sdesc 10 3) := by decide
theorem test_word_hold : decodeTableWord 32 0x0000C5D5 = some (.hold 5 6) := by decide
theorem test_word_copy : decodeTableWord 64 0x00018521000144DA = some (.copy 4 10 0 1 2 5 3) := by decide
theorem test_word_lease : decodeTableWord 32 0x00028CDD = some (.lease 12 20) := by decide
theorem test_word_cbadv : decodeTableWord 32 0x029940DD = some (.cbadv 10 6) := by decide
theorem test_word_eop : decodeTableWord 32 0x045D8DDD = some (.eop 13 12 23) := by decide
theorem test_word_mldb : decodeTableWord 64 0x002810010018A0E2 = some (.mldb 5 6 1 16 40 0) := by decide
theorem test_word_mma : decodeTableWord 64 0x06281018200110E2 = some (.mma 4 16 24 16 40 1 1) := by decide
theorem test_word_mchk : decodeTableWord 64 0x00000001500008E2 = some (.mchk 8 1) := by decide
theorem test_word_mrun : decodeTableWord 32 0x00A005E5 = some (.mrun 5 10) := by decide
theorem test_word_mdrain : decodeTableWord 32 0x60C020E5 = some (.mdrain 32 12) := by decide
theorem test_word_mlah : decodeTableWord 32 0x800048E5 = some (.mlah 8 1) := by decide
theorem test_word_send : decodeTableWord 32 0x009100E9 = some (.send 4 9) := by decide
theorem test_word_recv : decodeTableWord 32 0x207188E9 = some (.recv 6 8 7) := by decide
theorem test_word_launch : decodeTableWord 32 0x002D45ED = some (.launch 5 10 11) := by decide
theorem test_word_pktemit : decodeTableWord 32 0x015AA7ED = some (.pktemit 7 21 22) := by decide

/-! ### Terms and words that are refused -/

theorem test_ill_formed_fields : (Instr.faddF 5 6 7 5).wf = false ∧ (Instr.vfsqrt 1 2 6 0).wf = false ∧ (Instr.vrand 0 5 1 0 2).wf = false ∧
    (Instr.mlah 5 5).wf = false ∧ (Instr.mma 1 2 4 4 0 0 0).wf = false ∧ (Instr.mma 1 2 4 4 257 0 0).wf = false ∧
    (Instr.mldb 6 7 7 4 4 0).wf = false ∧ (Instr.mldb 6 7 5 33 4 0).wf = false := by decide

/-- R93: BAR and DEP both, a signal register without SIG, a third register without BAR or DEP. -/
theorem test_ill_formed_copies : (Instr.copy 5 6 7 1 2 3 12).wf = false ∧ (Instr.copy 5 6 0 1 2 3 1).wf = false ∧
    (Instr.copyf 5 0 7 2 3 1).wf = false ∧ (Instr.copy 4 10 0 1 2 5 3).wf = true := by decide

theorem test_ill_formed_events : (Instr.vectorProbe 512).wf = false ∧ (Instr.streamPrefetch 0 16).wf = false ∧
    (Instr.laneAllocatorServe 128).wf = false ∧ (Instr.parityRebuild 0 16 false).wf = false ∧ (Instr.arrayAdmission 64).wf = false ∧
    (Instr.mldbRowArrival 0 2).wf = false ∧ (Instr.leaseQueueAdvance 4 0).wf = false ∧ (Instr.leaseQueueAdvance 0 3).wf = false ∧
    (Instr.engineZeroingComplete 0 24).wf = false ∧ (Instr.engineOpFire 0 0 64).wf = false ∧ (Instr.engineOpFire 65536 0 0).wf = false ∧
    (Instr.receiveSlotGrant 0 16).wf = false ∧ (Instr.braidPortUp 6).wf = false ∧ (Instr.refreshWindowClose 8192).wf = false ∧
    (Instr.scrub (2 ^ 33) .clean).wf = false ∧ (Instr.errorBankClear 148).wf = false ∧ (Instr.ethernetLinkError 2 false 0).wf = false ∧
    (Instr.packetIntake 4096 .absent).wf = false := by decide

/-- R7, R13, R14: a length field of 00 or 11, a reserved major, reserved selectors, nonzero reserved fields. -/
theorem test_words_refused : decodeTableWord 32 0 = none ∧ decodeTableWord 32 0xFFFFFFFF = none ∧ decodeTableWord 32 0x000000FD = none ∧
    decodeTableWord 32 0x0098E65D = none ∧ decodeTableWord 32 0x10000005 = none ∧ decodeTableWord 32 0x0C850705 = none ∧
    decodeTableWord 32 0x07800179 = none ∧ decodeTableWord 32 0xA01CC571 = none := by decide

/-! ### Witnesses: what the statements about scalar and vector results assume -/

theorem witness_alu : (withX [(6, 1 <<< 63), (7, BitVec.allOnes 64)]).cur.anyPending [5, 6, 7] = false ∧
    (withX [(6, 1 <<< 63)]).cur.getX 6 = BitVec.intMin 64 ∧ (withX [(7, BitVec.allOnes 64)]).cur.getX 7 = BitVec.allOnes 64 ∧
    (withX []).cur.getX 7 = 0 := by and_intros <;> first | decide +kernel | exact ok_of (by decide +kernel) | rfl

theorem witness_immediate : demo.cur.anyPending [5, 6] = false ∧ demo.cur.anyPending [5] = false := by and_intros <;> first | decide +kernel | exact ok_of (by decide +kernel) | rfl

theorem witness_branch : demo.cur.anyPending [5, 6] = false ∧ demo.cur.pc.toNat % 4 = 0 := by and_intros <;> first | decide +kernel | exact ok_of (by decide +kernel) | rfl

theorem witness_jump : demo.cur.anyPending [1] = false ∧ demo.cur.anyPending [1, 6] = false ∧
    ((withX [(6, 8)]).cur.getX 6 + (0 : BitVec 14).signExtend 64).toNat % 4 = 0 ∧
    ((withX [(6, 8)]).cur.getX 6 + (2 : BitVec 14).signExtend 64).toNat % 4 ≠ 0 := by and_intros <;> first | decide +kernel | exact ok_of (by decide +kernel) | rfl

/-- A count of mask bits is on its way to x5. -/
def pending : State := demo.setCur { demo.cur with vq := [entry (.maskPopc 5 1 0) 4] }

theorem witness_pending : pending.cur.anyPending [5, 6, 7] = true ∧ pending.cur.anyPending [5, 6] = true ∧
    pending.cur.anyPending [5] = true ∧ pending.cur.anyPending [5, 6, 7, 8] = true := by and_intros <;> first | decide +kernel | exact ok_of (by decide +kernel) | rfl

theorem witness_posting :
    (∃ q, decodeQueued 0x08400891 0 = .ok q ∧ ¬ Claims.overlapping q ∧ qNeedsConfig q = true ∧
      (vec []).qIllegal 0 q = false ∧ (vec []).cur.anyPending (qSources q) = false ∧ (vec []).cur.crossPending q = false ∧
      (vec []).cur.vq.length < 32) ∧
    vcIll (0x8000000000000818 : Word) = true ∧ Claims.overlapping (.slideUp 1 1 0 0) ∧
    (∃ q, decodeQueued 0x08400891 0 = .ok q ∧ (demo.setCur { demo.cur with vconf := 0x810 }).qIllegal 0 q = true ∧
      ∃ r ∈ qVregs q, vcNr (0x810 : Word) ≤ r.toNat) := by
  refine ⟨⟨_, rfl, fun h => h, by decide, by decide, by decide, by decide, by decide⟩, by decide, rfl,
    ⟨_, rfl, by decide, 8, by decide, by decide⟩⟩

theorem vec_idle : Claims.idle (vec []) := ⟨rfl, rfl, rfl, rfl, rfl, .inl rfl⟩

theorem vec_configured : Claims.configured (vec []) [1, 2, 3] := ⟨by decide, by decide⟩

theorem witness_vector : Claims.idle (vec []) ∧ Claims.configured (vec []) [3, 1, 2] ∧ Claims.configured (vec []) [3, 1] ∧
    Claims.configured (vec []) [] ∧ (3 : VReg) ≠ 1 ∧ (3 : VReg) ≠ 2 ∧ (1 : MReg) ≠ 0 ∧ Claims.vl (vec []) ≠ 0 ∧ Claims.vl demo = 0 ∧
    Claims.idle demo :=
  ⟨vec_idle, ⟨by decide, by decide⟩, ⟨by decide, by decide⟩, ⟨by decide, by decide⟩, by decide, by decide, by decide,
    by decide, by decide, ⟨rfl, rfl, rfl, rfl, rfl, .inl rfl⟩⟩

theorem witness_reduction_width : vcEw (vec []).cur.vconf = 32 := by and_intros <;> first | decide +kernel | exact ok_of (by decide +kernel) | rfl

theorem witness_rounding : (0 : Int) < 1 ∧ (roundUnits 0 false 3 0 1).2 = true ∧ (roundUnits 0 false 2 0 1).2 = false := by and_intros <;> first | decide +kernel | exact ok_of (by decide +kernel) | rfl

/-! ### Witnesses: scalar memory -/

/-- What hart 0 reaches at a virtual address of its page. -/
def reach (a : Nat) : Reach := ⟨0x2000000 + a, some ⟨0x200001D, 0x1003000, 0, 65536⟩, false, none⟩

theorem witness_load : (withX [(6, 0x1000)]).cur.anyPending [5, 6] = false ∧
    ((withX [(6, 0x1000)]).cur.getX 6 + (8 : BitVec 14).signExtend 64).toNat % 8 = 0 ∧
    (withX [(6, 0x1000)]).probe ((withX [(6, 0x1000)]).space 0) .read 0x1008 = .ok (reach 0x1008) ∧
    (withX []).migqOn = false := by and_intros <;> first | decide +kernel | exact ok_of (by decide +kernel) | rfl

theorem witness_store : (withX [(6, 0x1000)]).cur.anyPending [6, 7] = false ∧
    (withX [(6, 0x1000)]).probe ((withX [(6, 0x1000)]).space 0) .write 0x1008 = .ok (reach 0x1008) ∧
    (withX []).shadowPlace (reach 0x1008).pa = none := by and_intros <;> first | decide +kernel | exact ok_of (by decide +kernel) | rfl

theorem witness_off_entry : Claims.offEntry (reach 0x1008) 0x2001008 := by
  intro l hl; cases hl; exact ⟨by decide, by decide⟩

theorem witness_atomic : (withX [(6, 0x1000)]).cur.anyPending [5, 6, 7] = false ∧ ((withX [(6, 0x1000)]).cur.getX 6).toNat % 8 = 0 ∧
    (withX [(6, 0x1000)]).probe ((withX [(6, 0x1000)]).space 0) .atomic 0x1000 = .ok (reach 0x1000) := by and_intros <;> first | decide +kernel | exact ok_of (by decide +kernel) | rfl

theorem witness_access_traps : ((withX [(6, 0x1001)]).cur.getX 6).toNat % 2 ≠ 0 ∧
    (demo.probe (demo.space 0) .read 0x10000).isOk = false ∧ (demo.probe (demo.space 0) .write 0x10000).isOk = false ∧
    (demo.probe (demo.space 0) .atomic 0x10000).isOk = false := by and_intros <;> first | decide +kernel | exact ok_of (by decide +kernel) | rfl

theorem witness_walk : (demo.hart 0).level = .pl0 ∧ demo.leafOf (demo.space 0) 0x10000 = .absent ∧
    demo.leafOf (demo.space 0) 0 = .found ⟨0x200001D, 0x1003000, 0, 65536⟩ ∧ placeOf (ptePA 0x200001D) = .hbm ∧
    pteR 0x200001D = true ∧ pteW 0x200001D = true ∧ pteX 0x200001D = true := by and_intros <;> first | decide +kernel | exact ok_of (by decide +kernel) | rfl

/-- The same with the page's leaf replaced. -/
def withLeaf (e : Nat) : State := { demo with mem := writeNat demo.mem 0x1003000 8 e }

theorem witness_walk_refused :
    (withLeaf 0x2000005).leafOf ((withLeaf 0x2000005).space 0) 0 = .found ⟨0x2000005, 0x1003000, 0, 65536⟩ ∧
    pteW 0x2000005 = false ∧ pteX 0x2000005 = false ∧
    (withLeaf 0x2000003).leafOf ((withLeaf 0x2000003).space 0) 0 = .malformed ∧
    placeOf 0xE0000000000 = .hole ∧ placeOf 0xF0000000000 = .device := by and_intros <;> first | decide +kernel | exact ok_of (by decide +kernel) | rfl

theorem witness_zero_on_assign : pteV 0x200041D = true ∧ pteZA 0x200041D = 1 ∧ pteZA 0x200001D ≠ 1 ∧
    ptePA 0x200041D = 0x2000000 := by and_intros <;> first | decide +kernel | exact ok_of (by decide +kernel) | rfl

theorem witness_page_bits : demo.migqOn = false ∧ readNat demo.mem 0x1003000 8 = 0x200001D ∧ pteV 0x200001D = true ∧
    pteV (readNat demo.mem 0x1003008 8) = false := by and_intros <;> first | decide +kernel | exact ok_of (by decide +kernel) | rfl

theorem witness_scalar_float : (withX [(6, 0x3F800000)]).cur.anyPending [5, 6, 7, 8] = false ∧
    (withX [(6, 0x3F800000)]).cur.anyPending [5, 6] = false := by and_intros <;> first | decide +kernel | exact ok_of (by decide +kernel) | rfl

/-! ### Witnesses: waiting, tags, signals, barriers -/

/-- A load waits in hart 0's queue, and a copy in the other state's. -/
def loading : State := demo.setCur { demo.cur with vq := [entry (.ld 1 0 0) 4] }
def copying : State := demo.setCur { demo.cur with vq := [entry (.copyf 5 0 0 1 0 0) 4] }

theorem witness_fences : (∀ e ∈ demo.cur.vq ++ demo.cur.mq, qMakesEvent e.op = false) ∧
    (∃ e ∈ loading.cur.vq ++ loading.cur.mq, qMakesEvent e.op = true) ∧
    demo.cur.latch = false ∧ (demo.setCur { demo.cur with latch := true }).cur.latch = true ∧
    ((demo.setCore 0 { demo.core 0 with dcache := [(0, [(Config.farBase, true)])] }).core 0).dirtyLines = [Config.farBase] := by
  and_intros <;> first | decide +kernel | exact ok_of (by decide +kernel) | rfl

/-- Tags 0 and 1 are hart 0's, and a copy has arrived on tag 1; x6 to x9 hold masks. -/
def tagged : State :=
  let s := demo.setCur { demo.cur with tagown := 3, x := [(6, 3), (7, 2), (8, 1), (9, 4)] }
  s.setCore 0 { s.core 0 with arrive := 2 }

theorem witness_arrival_waits : tagged.cur.anyPending [5, 6] = false ∧ (∃ e ∈ copying.cur.vq, qIsCopy e.op = true) ∧
    (∀ e ∈ tagged.cur.vq, qIsCopy e.op = false) ∧ tagged.cur.getX 9 &&& ~~~tagged.cur.tagown ≠ 0 ∧
    tagged.cur.getX 6 &&& ~~~tagged.cur.tagown = 0 ∧
    (tagged.core 0).arrive &&& tagged.cur.getX 6 ≠ 0 ∧ (tagged.core 0).arrive &&& tagged.cur.getX 6 ≠ tagged.cur.getX 6 ∧
    (tagged.core 0).arrive &&& tagged.cur.getX 7 = tagged.cur.getX 7 ∧
    ((tagged.core 0).arrive &&& tagged.cur.getX 8 = 0 ∧ tagged.cur.getX 8 ≠ 0) ∧ tagged.cur.getX 10 = 0 ∧
    ((tagged.core 0).arrive &&& tagged.cur.getX 6).getLsbD 1 = true ∧
    ∀ j, j < 1 → ((tagged.core 0).arrive &&& tagged.cur.getX 6).getLsbD j = false := by
  and_intros <;> first | decide +kernel | exact ok_of (by decide +kernel) | rfl

/-- A signal word of 1 at virtual address 0x1000, with a mirror registered for it; x7 holds 1. -/
def signalled : State :=
  let s := withX [(6, 0x1000), (7, 1), (8, 0x1004)]
  { s with mem := writeNat s.mem 0x2001000 8 1, mirrors := [{ sig := 0x2001000, record := 0x3000 }] }

theorem witness_signals : signalled.cur.anyPending [5, 6, 7] = false ∧ (signalled.cur.getX 8).toNat % 8 ≠ 0 ∧
    (signalled.cur.getX 6).toNat % 8 = 0 ∧
    signalled.signalAt (signalled.space 0) .atomic 0x1000 = .ok (reach 0x1000) ∧
    signalled.signalAt (signalled.space 0) .read 0x1000 = .ok (reach 0x1000) ∧
    (BitVec.ofNat 64 (readNat signalled.mem 0x2001000 8)).toInt ≤ (signalled.cur.getX 7).toInt ∧
    (signalled.cur.getX 9).toInt < (BitVec.ofNat 64 (readNat signalled.mem 0x2001000 8)).toInt ∧
    signalled.mirrors.find? (fun x => x.sig == 0x2001000) = some { sig := 0x2001000, record := 0x3000 } ∧
    BitVec.ofNat 64 (readNat signalled.mem 0x2001000 8) = 1 ∧ demo.mirrors = [] := by
  and_intros <;> first | decide +kernel | exact ok_of (by decide +kernel) | rfl

/-- Hart 0 at PL1 before a barrier record of cluster 0's SRAM, whose address x6 holds: members, arrived, pending with ERR, phase. -/
def barrier (members arrived pending phase : Nat) (wait : Option (Word × Word)) : State :=
  let s := priv [(6, BitVec.ofNat 64 Config.sramBase), (7, 1), (8, 0xFFFFFFFFFF), (9, 0x1000)]
  let s := s.setCur { s.cur with barWait := wait }
  { s with mem := writeNat (writeNat (writeNat (writeNat s.mem Config.sramBase 4 members) (Config.sramBase + 4) 4 arrived)
      (Config.sramBase + 8) 8 pending) (Config.sramBase + 16) 8 phase }

theorem witness_barrier_place :
    Claims.barPlace (barrier 2 0 0 3 none) ((barrier 2 0 0 3 none).cur.getX 6) Config.sramBase none ∧
    Claims.barPlace (barrier 1 0 0 3 none) ((barrier 1 0 0 3 none).cur.getX 6) Config.sramBase none :=
  ⟨⟨by decide, rfl, by decide, by decide, by decide, by decide, fun _ _ _ h => by cases h⟩,
    ⟨by decide, rfl, by decide, by decide, by decide, by decide, fun _ _ _ h => by cases h⟩⟩

theorem witness_barrier : (barrier 2 0 0 3 none).cur.anyPending [5, 6, 7] = false ∧ (barrier 2 0 0 3 none).cur.copiesIssued = true ∧
    (barrier 2 0 0 3 none).cur.eventsDone = true ∧ (barrier 2 0 0 3 none).barRead Config.sramBase = ⟨2, 0, 0, false, 3⟩ ∧
    Claims.barValid ⟨2, 0, 0, false, 3⟩ ∧ ((barrier 2 0 0 3 none).cur.getX 7).toNat < 3 ∧
    3 ≤ ((barrier 2 0 0 3 none).cur.getX 8).toNat ∧ 2 ^ 40 ≤ 1 + ((barrier 2 0 1 3 none).cur.getX 8).toNat ∧
    (barrier 2 0 1 3 none).barRead Config.sramBase = ⟨2, 0, 1, false, 3⟩ :=
  ⟨by decide, by decide, by decide, by decide, ⟨by decide, by decide, rfl⟩, by decide, by decide, by decide, by decide⟩

theorem witness_barrier_traps : (barrier 0 0 0 0 none).barRead Config.sramBase = ⟨0, 0, 0, false, 0⟩ ∧
    (barrier 2 0 (2 ^ 63) 0 none).barRead Config.sramBase = ⟨2, 0, 0, true, 0⟩ ∧
    (barrier 2 2 0 0 none).barRead Config.sramBase = ⟨2, 2, 0, false, 0⟩ ∧ (1 : Word).toNat % 32 ≠ 0 ∧
    placeOf 0x1000 ≠ .sram 0 ∧ ((barrier 2 0 0 0 none).cur.getX 9).toNat % 32 = 0 ∧
    (barrier 2 0 0 0 none).translate ((barrier 2 0 0 0 none).space 0) .atomic 0x1000 = .ok (0x1000, none) := by
  and_intros <;> first | decide +kernel | exact ok_of (by decide +kernel) | rfl

theorem witness_bar : (barrier 1 0 0 3 none).cur.barWait = none ∧ (barrier 1 0 0 3 none).cur.level = .pl1 ∧
    (barrier 1 0 0 3 none).barRead Config.sramBase = ⟨1, 0, 0, false, 3⟩ ∧
    (barrier 2 0 0 3 (some (3, BitVec.ofNat 64 Config.sramBase))).cur.barWait = some (3, BitVec.ofNat 64 Config.sramBase) ∧
    (barrier 2 0 0 3 (some (2, BitVec.ofNat 64 Config.sramBase))).barRead Config.sramBase = ⟨2, 0, 0, false, 3⟩ := by
  and_intros <;> first | decide +kernel | exact ok_of (by decide +kernel) | rfl

/-! ### Witnesses: state registers, traps -/

theorem witness_register_rights : 0x200 ∉ Claims.roBoth ++ Claims.rwAtPl1 ++ Claims.rwBoth ++ Claims.pl1Only ∧
    0x003 ∈ Claims.roBoth ∧ 0x042 ∈ Claims.roBoth ∧ 0x000 ∈ Claims.rwAtPl1 ∧ 0x121 ∈ Claims.pl1Only ∧ demo.cur.level = .pl0 := by decide

theorem witness_register_reads : demo.cur.anyPending [5] = false ∧ (priv []).cur.level = .pl1 ∧ Claims.csrReady (priv []) 0x000 true ∧
    Claims.csrReady demo 0x020 false ∧ demo.turn < 512 ∧ (demo.ctx 1).holdQuota < 2 ^ 16 ∧ (demo.ctx 1).leaseCount < 2 ^ 16 := by
  refine ⟨by decide, rfl, ⟨fun _ => ⟨rfl, rfl⟩, fun h => ?_⟩, ⟨fun _ => ⟨rfl, rfl⟩, fun _ => ?_⟩, by decide, by decide, by decide⟩
  · exact absurd h (by decide)
  · decide

theorem witness_register_writes : (priv [(6, 0x99)]).cur.anyPending [5, 6] = false ∧ (priv [(6, 0x99)]).imageOk = true ∧
    ({ priv [] with posbase := 0xF00000000000 } : State).imageOk = false ∧ Claims.csrReady (priv []) 0x010 true ∧ loading.cur.vq ≠ [] ∧
    loading.cur.level = .pl0 :=
  ⟨by decide, by decide, by decide, ⟨fun _ => ⟨rfl, rfl⟩, fun h => absurd h (by decide)⟩, by decide, rfl⟩

theorem witness_entry : Claims.canEnter demo 0 ∧ (priv []).cur.level = .pl1 ∧ (priv []).imageOk = true ∧
    ((priv []).hart 0).trapDue = none ∧ Claims.nothingInFlight loading 0 := by
  refine ⟨⟨?_, ?_, ?_, ?_⟩, ?_, ?_, ?_, ?_, ?_⟩ <;> first | decide +kernel | (show ∀ e ∈ _, _; decide +kernel)

/-- Hart 0 as a BRK leaves it. -/
def trapped : State := match demo.takeTrap 0 { cause := causeBrk, pc := 0 } with
  | .next t => t
  | _ => demo

theorem witness_return : trapped.cur.level = .pl1 ∧ trapped.imageOk = true ∧ (trapped.hartOfImage 0).isSome = true ∧
    trapped.turn < Config.harts ∧ trapped.cur.vq = [] ∧ trapped.cur.mq = [] ∧
    ((priv []).setCur { (priv []).cur with vq := [entry (.ld 1 0 0) 4] }).cur.vq ≠ [] ∧ (priv []).hartOfImage 0 = none ∧ bit (readNat (priv []).mem ((priv []).imageAt 0 + 8) 8) 0 = false := by
  and_intros <;> first | decide +kernel | exact ok_of (by decide +kernel) | rfl

theorem witness_tlb_invalidation : (priv []).cur.anyPending [6, 7] = false ∧
    (((priv []).setCur { (priv []).cur with vq := [{ entry (.ld 1 0 0) 4 with probed := true }] }).hart 0).probing 1 = true := by
  and_intros <;> first | decide +kernel | exact ok_of (by decide +kernel) | rfl

theorem witness_tlb_free (g : Nat) : let s : State := { harts := [(0, { level := .pl1 })] }
    s.cur.level = .pl1 ∧ s.cur.anyPending [6, 7] = false ∧ (s.hart g).probing s.cur.asid.toNat = false ∧ (s.hart g).late = [] := by
  refine ⟨rfl, by decide, ?_⟩
  by_cases h : 0 = g <;> simp [Hart.probing, State.hart, tget, h]

/-- Hart 0 runs the one gang of a launch. -/
def ganged (preempted : Bool) : State :=
  let s := demo.setCur { demo.cur with task := some (0, 0) }
  { s with tasks := [{ id := 0, queue := 0, pos := 0, asid := 1, order := 0, st := .ready, next := 1,
                       gangs := [{ idx := 0, cores := [0], harts := [0], preempted := preempted }] }] }

theorem witness_halt : demo.cur.vq = [] ∧ demo.cur.mq = [] ∧ loading.cur.vq ≠ [] ∧ (priv []).gangOf 0 = none ∧
    ((ganged true).gangOf 0).isSome = true ∧ ((ganged false).gangOf 0).map (fun p => p.2.preempted) = some false ∧
    ((ganged true).gangOf 0).all (fun p => (ganged true).gangMills p.1 p.2 == [] && !((ganged true).setCur { (ganged true).cur with run := .idle }).onGang p.1 p.2 0) = true := by
  and_intros <;> first | decide +kernel | exact ok_of (by decide +kernel) | rfl

/-! ### Witnesses: configuration, holds, streams -/

theorem witness_vcfg : demo.cur.anyPending [5] = false ∧ (demo.core 0).vrb = 32 ∧ demo.cur.laneReq = none ∧ (demo.core 0).laneQ = [] ∧
    demo.laneReleasing 0 = false ∧ Claims.granted demo 16 = 16 ∧
    ¬ (2 ≤ 0 ∨ 16 < 16 ∨ 8 * 2 ^ 2 / 8 < 2 ^ 2 ∨ (demo.core 0).vrb * 65536 / (1024 * (8 * 2 ^ 2)) < 1) ∧
    vcIll (demo.setCur { demo.cur with vconf := 0x8000000000000808 }).cur.vconf = true ∧ vcIll demo.cur.vconf = false := by
  and_intros <;> first | decide +kernel | exact ok_of (by decide +kernel) | rfl

/-- Hart 0 at PL1 with x6 at a row of HBM and room for one hold. -/
def holder (quota count : Nat) (holds : Tab HoldSlot) : State :=
  let s := priv [(6, 0x1000), (7, BitVec.ofNat 64 Config.sramBase)]
  { s.setCtx 1 { s.ctx 1 with holdQuota := quota, holdCount := count, lost := [0x1005] } with holds := holds }

theorem witness_hold : let s := holder 1 0 []
    s.cur.anyPending [5, 6] = false ∧ s.probe (s.space 0) .read 0x1000 = .ok ⟨0x1000, none, false, none⟩ ∧
    s.probe (s.space 0) .read Config.sramBase = .ok ⟨Config.sramBase, none, false, none⟩ ∧ placeOf 0x1000 = .hbm ∧
    placeOf Config.sramBase ≠ .hbm ∧ bit s.holdctl.toNat (pchOfRow (rowOf 0x1000) / 64) = true ∧ s.degraded = [] ∧
    (∀ i, i < 8 → (s.holdSlot (8 * pchOfRow (rowOf 0x1000) + i)).held = none) ∧ (s.ctx 1).holdCount < (s.ctx 1).holdQuota ∧
    holdFits (s.heldIn (pchOfRow (rowOf 0x1000))) 1 (rowOf 0x1000) = true ∧
    ((holder 0 0 []).ctx 1).holdQuota ≤ ((holder 0 0 []).ctx 1).holdCount ∧
    bit (0xFE : Word).toNat 0 = false := by
  and_intros <;> first | decide +kernel | exact ok_of (by decide +kernel) | rfl

theorem witness_hold_taken : let row := rowOf 0x1000
    let key := 8 * pchOfRow row
    let s := holder 2 1 [(key, { gen := 1, held := some (1, row) })]
    (s.holdSlot key).held = some (1, row) ∧ holdFits (s.heldIn (pchOfRow row)) 2 row = false ∧
    s.holdHandle key = BitVec.ofNat 64 (4096 + key) ∧ (0x1005 : Word) ∈ (s.ctx 1).lost ∧ (0x1006 : Word) ∉ (s.ctx 1).lost := by
  and_intros <;> first | decide +kernel | exact ok_of (by decide +kernel) | rfl

theorem witness_holdctl : (0xFE : Word).getLsbD 0 = false ∧ (0xFE : Word).getLsbD (4095 / 512) = true := by decide

/-- A descriptor of 8 FP32 elements one after another. -/
def row32 (base : Word) (kind : Byte) : Desc :=
  { base := base, fmt := 0, kind := kind, fill := 0x3F800000, count := ⟨8, 1, 1, 1⟩, stride := ⟨4, 0, 0, 0⟩, bound := ⟨8, 1, 1, 1⟩ }

/-- The state of `vec` with stream 0 to load from 0x1000, streams 1 and 2 to store to 0x2000 and 0x3000; x6 to x9 hold addresses. -/
def streaming : State :=
  let s := vec [(6, 4), (7, 9), (8, 0x1000), (9, 0x1002)]
  s.setCur { s.cur with streams := [(0, { bound := true, desc := row32 0x1000 0 }), (1, { bound := true, desc := row32 0x2000 1 }),
    (2, { bound := true, desc := row32 0x3000 1 })] }

theorem witness_stream_position : Claims.idle streaming ∧ (Claims.stream streaming 0).bound = true ∧
    (Claims.stream streaming 3).bound = false ∧ (streaming.cur.getX 6).toNat ≤ (Claims.stream streaming 0).desc.total ∧
    (Claims.stream streaming 0).desc.total < (streaming.cur.getX 7).toNat ∧
    strideOk (Claims.stream streaming 0).desc (streaming.cur.getX 8) = true ∧
    strideOk (Claims.stream streaming 0).desc (streaming.cur.getX 9) = false := by
  refine ⟨⟨?_, ?_, ?_, ?_, ?_, .inl ?_⟩, ?_, ?_, ?_, ?_, ?_, ?_⟩ <;> decide +kernel

theorem witness_stream_descriptor : (streaming.cur.getX 9).toNat % 64 ≠ 0 ∧ (streaming.cur.getX 8).toNat % 128 = 0 ∧
    (let s := Claims.atHead streaming (.sdesc 8 0)
     s.probe (s.space 0) .read 0x1000 = .ok (reach 0x1000) ∧ s.reachWaits (reach 0x1000) = false ∧
      descFault (descOf (readBytes (s.assignPage (reach 0x1000).leaf).mem 0x2001000 64)) = none) ∧
    (let s := Claims.atHead streaming (.ssave 8 0)
     s.probe (s.space 0) .write 0x1000 = .ok (reach 0x1000) ∧ s.reachWaits (reach 0x1000) = false) ∧
    descFault (descOf (List.replicate 8 0 ++ [11])) = some 1 := by
  and_intros <;> first | decide +kernel | exact ok_of (by decide +kernel) | rfl

theorem witness_stream_address : (row32 0x1000 2).blocky = false ∧ 7 < (row32 0x1000 2).count.d0.toNat ∧
    0 < (row32 0x1000 2).count.d3.toNat ∧ (row32 0x1000 2).clips = true := by decide

theorem witness_descriptor_checks : descFault (row32 0x1000 1) = none ∧ descFault { row32 0x1000 1 with fmt := 10 } = none ∧
    descFault { row32 0x1000 1 with fmt := 11 } = some 1 ∧ descFault (row32 0x1000 32) = some 2 ∧ descFault (row32 0x1002 1) = some 3 := by
  decide

theorem witness_vector_load : Claims.configured streaming [3, 1] ∧ Claims.streamOk streaming 0 false true ∧ Claims.vl streaming ≠ 0 ∧
    (let s := Claims.atHead streaming (.ld 3 0 0)
     let p := s.probeAll (s.space 0) .read (touches s.cur (Claims.stream streaming 0) (Claims.captured streaming) 0 .none false)
     p.1 = [] ∧ Claims.wayOpen s p.2) ∧
    (let s := Claims.atHead streaming (.ldx 3 1 0 0)
     let p := s.probeAll (s.space 0) .read (touches s.cur (Claims.stream streaming 0) (Claims.captured streaming) 0 (.index 1) false)
     p.1 = [] ∧ Claims.wayOpen s p.2) := by
  refine ⟨⟨?_, ?_⟩, ⟨?_, ?_, ?_, fun _ => ?_, fun h => ?_, ?_⟩, ?_, ⟨?_, ?_⟩, ⟨?_, ?_⟩⟩ <;> first | decide +kernel | (show ∀ y ∈ _, _; decide +kernel)

theorem witness_vector_store : Claims.streamOk streaming 1 true true ∧ Claims.streamOk streaming 2 true false ∧ (1 : SReg) ≠ 2 ∧
    (Claims.stream streaming 1).desc.base.toNat % 8 = 0 ∧
    (let s := Claims.atHead streaming (.stp 1 2 1 0)
     let p := s.probeAll (s.space 0) .write (touches s.cur (Claims.stream streaming 1) (Claims.captured streaming) 0 .none false)
     let q := s.probeAll (s.space 0) .write (touches s.cur (Claims.stream streaming 2) (Claims.captured streaming) 0 .none true)
     p.1 = [] ∧ q.1 = [] ∧ Claims.wayOpen s (p.2 ++ q.2)) ∧
    (let s := Claims.atHead streaming (.stn 1 1 0)
     let p := s.probeAll (s.space 0) .write (touches s.cur (Claims.stream streaming 1) (Claims.captured streaming) 0 .none false)
     p.1 = [] ∧ Claims.wayOpen s p.2 ∧ s.probe (s.space 0) .write 0x1FF8 = .ok (reach 0x1FF8) ∧ s.reachWaits (reach 0x1FF8) = false) := by
  refine ⟨⟨?_, ?_, ?_, fun _ => ?_, fun _ h => ?_, ?_⟩, ⟨?_, ?_, ?_, fun h => ?_, fun _ h => ?_, ?_⟩, ?_, ?_, ⟨?_, ?_, ?_⟩, ?_, ?_, ?_, ?_⟩ <;>
    first | decide +kernel | exact ok_of (by decide +kernel) | (show ∀ y ∈ _, _; decide +kernel) | cases h

theorem witness_strip : (row32 0x2000 1).blocky = false ∧
    (let s := Claims.atHead streaming (.st 1 1 0)
     let ts := touches s.cur (Claims.stream streaming 1) (Claims.captured streaming) 0 .none false
     let ps := (s.probeAll (s.space 0) .write ts).2
     (ts.map (fun y => y.i)) = [0, 1, 2, 3] ∧ ps.all (fun q => !q.reach.void && decide (q.len = 4)) = true ∧
     (ps.filter (fun q => q.i == 0)).length = 1 ∧ s.shadowPlace 0x2002000 = none) := by
  and_intros <;> first | decide +kernel | exact ok_of (by decide +kernel) | rfl

theorem witness_scatter : Claims.configured streaming [1, 2] ∧ (Claims.stream streaming 1).desc.fmtCode = 0 ∧
    (Claims.stream streaming 1).desc.fmtCode ≠ 10 ∧
    (let s := Claims.atHead streaming (.amo .addF 1 2 1 0)
     let p := s.probeAll (s.space 0) .atomic (touches s.cur (Claims.stream streaming 1) (Claims.captured streaming) 0 (.index 2) false)
     p.1 = [] ∧ Claims.wayOpen s p.2) := by
  refine ⟨⟨?_, ?_⟩, ?_, ?_, ?_, ?_⟩ <;> first | decide +kernel | (show ∀ y ∈ _, _; decide +kernel)

theorem witness_update : (5 : Nat) < 2 ^ 32 ∧ (∀ x ∈ [1, 2 ^ 32 - 1], x < 2 ^ 32) ∧ [1, 2 ^ 32 - 1].Perm [2 ^ 32 - 1, 1] :=
  ⟨by decide, by decide, .swap _ _ _⟩

/-! ### Witnesses: copies and transfers -/

/-- The state of `streaming` with tag 3 its own. -/
def copier : State := streaming.setCur { streaming.cur with tagown := 8 }

theorem witness_copy : Claims.idle copier ∧ copier.cur.tagown.getLsbD 3 = true ∧ copier.cur.tagown.getLsbD 2 = false ∧
    Claims.copyGoes copier 0 (some 0) 1 0 0 3 1 ∧ Claims.copyGoes copier 0 none 1 0 0 3 1 := by
  refine ⟨⟨?_, ?_, ?_, ?_, ?_, .inl ?_⟩, ?_, ?_, ⟨⟨?_, ?_⟩, fun x h => ?_, fun h => ?_, fun h => ?_, fun c h => ?_⟩,
    ⟨⟨?_, ?_⟩, fun x h => ?_, fun h => ?_, fun h => ?_, fun c h => ?_⟩⟩ <;>
    first | decide +kernel | (cases h; decide +kernel) | (revert h; decide +kernel) | cases h

theorem witness_copy_issue : let e := { entry (.copyf 5 0 0 1 3 1) 4 with vconf := 0x818 }
    let s : State := { copier.setCur { copier.cur with vq := [e] } with eager := false }
    (s.hart 0).vq = [e] ∧ (s.hart 0).mq = [] ∧ (s.hart 0).old = [] ∧ s.queuesHeld 0 = false ∧ e.admitted = false ∧ s.eager = false ∧ (s.hart 0).tagown.getLsbD 3 = true ∧
    (Claims.newCopy s 0 none 1 0 0 3 1).declared ≠ 0 := by
  and_intros <;> first | decide +kernel | exact ok_of (by decide +kernel) | rfl

/-- A fill under way from position 0, and one that is through. -/
def fill : Copy :=
  { core := 0, asid := 1, ptbase := BitVec.ofNat 64 tableBase, tag := 3, flags := 1, sigAddr := 0, barAddr := 0, depTask := 0
    sr := none, dst := row32 0x2000 1, declared := 32 }

theorem witness_copy_unit : let s : State := { demo with copies := [(0, fill), (1, { fill with pos := 8 })] }
    fill.partIn 0 0x80 = (0, 4) ∧ fill.dst.addr 0 0 + 0 = 0x2000 ∧ s.probe fill.space .write 0x2000 = .ok (reach 0x2000) ∧
    (row32 0x1000 0).clipped 0 0 = false ∧ s.unitPieces fill.space .read 0x1000 4 = .ok [⟨0, 0x1000, 4, reach 0x1000, false⟩] ∧
    tfind s.copies 0 = some fill ∧ s.thermal = .normal ∧ fill.through = false ∧ s.copyHeld fill = false ∧
    fill.handled fill.pos = false ∧ (fill.blocksOf fill.pos).find? (fun b => !fill.written.contains b) = some 0x80 ∧
    (s.copyStep 0 fill).toOption.isSome = true ∧
    (s.copyPart { fill with sr := some (row32 0x1000 0) } 0x80 0).toOption.map (fun r => r.2.2.map (fun y => y.len)) = some [4] ∧
    tfind s.copies 1 = some { fill with pos := 8 } ∧ fill.dst.total ≤ 8 ∧ fill.flags &&& 14 = 0 ∧
    ({ s with thermal := .gated } : State).thermal ≠ .normal := by
  and_intros <;> first | decide +kernel | exact ok_of (by decide +kernel) | rfl

/-- The state of `vec` with hart 1 in the same context; x6 names slot 2 of hart 1, x7 slot 2 of a hart of another device, x8 slot 3. -/
def sender (slot : RecvSlot) : State :=
  let s := vec [(6, 0x2012), (7, 0x0012), (8, 3), (9, 16)]
  (s.setHart 1 { (s.hart 1) with run := .running, asid := 1, recv := [(2, slot)] }).setCur
    { s.cur with recv := [(3, { st := .full ⟨32, 2, 0x0000000500000004⟩ })] }

theorem witness_send : let s := sender {}
    Claims.idle s ∧ Claims.localDest s 0x2012 ∧ sendHart 0x2012 = 1 ∧ ((s.hart 1).slot 2).st = .free ∧ ((s.hart 1).slot 2).waiters = [] ∧
    (((sender { st := .granted (.hart 2) }).hart 1).slot 2).st ≠ .free ∧ bit 0x0012 13 = false ∧ s.sendRefused 1 0x0012 = true ∧
    (s.cur.slot 3).st = .full ⟨32, 2, 0x0000000500000004⟩ ∧ (s.cur.slot 2).st = .free ∧ 15 < (s.cur.getX 9).toNat := by
  refine ⟨⟨?_, ?_, ?_, ?_, ?_, .inl ?_⟩, ⟨?_, ?_, ?_, ?_⟩, ?_, ?_, ?_, ?_, ?_, ?_, ?_, ?_, ?_⟩ <;> decide +kernel

theorem witness_remote_signal : let s := Claims.atHead signalled (.rsig 6)
    s.translate (s.space 0) .atomic 0x1000 = .ok (0x2001000, (reach 0).leaf) ∧ placeOf 0x2001000 = .hbm ∧
    (((sender { waiters := [.hart 3] }).hart 1).slot 2).waiters = [.hart 3] ∧
    (((sender { st := .granted (.peer 5 7) }).hart 1).slot 2).st = .granted (.peer 5 7) ∧ demo.stopped 1 = false ∧
    demo.thermal = .normal ∧ ({ demo with thermal := .gated } : State).stopped 1 = true := by
  and_intros <;> first | decide +kernel | exact ok_of (by decide +kernel) | rfl

/-! ### Witnesses: leases, engines, buffers -/

/-- A lease of context 1 in cluster 0 on engine 0 that is READY. -/
def held : Lease := { gen := 1, kind := 0, live := true, st := .ready, word := 0x640000 }

/-- Room for some leases; x6 holds a request for a SIFT engine that may wait 100 µs, x7 the handle of entry 0, x8 a kind that is reserved. -/
def leaser (quota : Nat) (leases : Tab Lease) (engines : Tab Engine) : State :=
  let s := withX [(6, 0x640000), (7, 0x1000000), (8, 3), (9, 0x1100000), (10, 0x1000)]
  let s := s.setCtx 1 { s.ctx 1 with leaseQuota := quota, leases := leases }
  s.setCluster 0 { s.cluster 0 with engines := engines }

theorem witness_lease : let s := leaser 1 [] []
    s.cur.anyPending [5, 6] = false ∧ ¬ Claims.leaseWordOk (s.cur.getX 8) ∧ Claims.leaseWordOk (s.cur.getX 6) ∧
    (s.ctx 1).leaseCount < (s.ctx 1).leaseQuota ∧ ((s.ctx 1).lease 0).live = false ∧
    (s.cluster 0).working 0 = true ∧ (s.cluster 0).heads 0 (wordPrio (s.cur.getX 6)) = true ∧ (s.tryWake 0 0 1 0).isSome = true := by
  refine ⟨?_, fun h => absurd h.1 ?_, ⟨?_, ?_, ?_, ?_⟩, ?_, ?_, ?_, ?_, ?_⟩ <;> decide +kernel

theorem witness_lease_placed (v : Int) : let s := leaser 1 [] []
    ¬ Claims.requestRefused s 0 (s.cur.getX 6) v := by
  intro s h
  rcases h with ⟨h, -⟩ | ⟨-, h, -⟩
  · exact absurd h (by decide +kernel)
  · exact h ⟨by decide +kernel, by decide +kernel⟩

theorem witness_lease_refused : let s := leaser 1 [] ((List.range 8).map (fun n => (n, { st := .retired })))
    Claims.requestRefused s 0 (s.cur.getX 6) (-4) ∧ ((leaser 0 [] []).ctx 1).leaseQuota ≤ ((leaser 0 [] []).ctx 1).leaseCount := by
  refine ⟨Or.inl ⟨?_, rfl⟩, ?_⟩ <;> decide +kernel

theorem witness_handle : let s := leaser 1 [(0, held)] [(0, { st := .leased, lease := some (1, 0) })]
    s.cur.anyPending [5, 7] = false ∧ s.handleFault 0 (s.cur.getX 7) = none ∧ (s.lease 1 0).st = .ready ∧
    tfind (s.ctx 1).leases 0 = some held ∧ bits (s.cur.getX 7).toNat 63 32 = 0 ∧ bits (s.cur.getX 7).toNat 21 20 = held.kind ∧
    bits (s.cur.getX 7).toNat 31 24 = held.gen ∧ bits (s.cur.getX 9).toNat 21 20 ≠ held.kind ∧ tfind (s.ctx 1).leases 1 = none ∧
    ((s.cluster 0).engine 0).st = .leased ∧
    ((leaser 1 [(0, { held with st := .evicted })] []).lease 1 0).st = .evicted ∧
    (leaser 1 [(0, { held with st := .evicted })] []).handleFault 0 0x1000000 = none := by
  and_intros <;> first | decide +kernel | exact ok_of (by decide +kernel) | rfl

theorem witness_handle_engine (j : Nat) : let s := leaser 1 [(0, held)] [(0, { st := .leased, lease := some (1, 0) })]
    ((s.cluster 0).engine j).lease = some (1, 0) ↔ j = 0 := by
  have h : ((leaser 1 [(0, held)] [(0, { st := .leased, lease := some (1, 0) })]).cluster 0).engines =
      [(0, { st := .leased, lease := some (1, 0) })] := by decide +kernel
  rcases Nat.eq_zero_or_pos j with rfl | hj
  · decide +kernel
  · simp [Cluster.engine, h, tget, Nat.ne_of_lt hj, Nat.ne_of_gt hj]

theorem witness_engine_events : let s := leaser 1 [(0, { held with st := .waking }), (1, held), (3, { held with st := .pending })] [(0, ⟨.waking, some (1, 0)⟩), (1, ⟨.zeroing, some (1, 1)⟩), (2, ⟨.unleased, none⟩)]
    let q := s.setCluster 0 ((s.cluster 0).setQueue 0 [⟨1, 3, 0⟩])
    (s.cluster 0).engine 0 = ⟨.waking, some (1, 0)⟩ ∧ (s.cluster 0).engine 1 = ⟨.zeroing, some (1, 1)⟩ ∧
    ((s.cluster 0).engine 2).st = .unleased ∧ ((s.cluster 0).engine (engineNo (0 / 8) 3)).st ≠ .retired ∧ engineNo (0 / 8) 3 ≠ 0 ∧
    (q.cluster 0).queueOf 0 = [⟨1, 3, 0⟩] ∧ (q.cluster 0).firstFree 0 = some 2 ∧ s.thermal = .normal ∧ (q.lease 1 3).moved = false ∧
    ({ q with time := 100000 }.lease 1 3).live = true ∧ ({ q with time := 100000 }.lease 1 3).st = .pending ∧
    (q.lease 1 3).askedAt + 1000 * wordWait held.word ≤ ({ q with time := 100000 } : State).timer := by
  and_intros <;> first | decide +kernel | exact ok_of (by decide +kernel) | rfl

/-- Two bound buffers of context 1, an input that holds 4 entries and an output with room, and a sort of those 4. -/
def inputBuf : CircBuf := { base := BitVec.ofNat 64 0x8000, entries := 8, esize := 4, output := false, pages := [], leaves := [], prod := 4 }
def outputBuf : CircBuf := { base := BitVec.ofNat 64 0x9000, entries := 8, esize := 4, output := true, pages := [], leaves := [] }
def sortDesc : OpDesc :=
  { opcode := 1, vfmt := 10, flags := 0, inBuf := 0, in2 := 0xFF, outBuf := 1, count := 4, param := 0, donesig := 0, record := 0
    gid := 0, rank := 0, size := 0, fbase := 0, flen := 0, fright := 0 }
def sortOp : EngineOp := { seq := 0, desc := sortDesc, order := 0, run := 1 }

/-- Descriptors of a sort and of a buffer in memory, at 0x1000 and 0x1040. -/
def buffered (ops : List EngineOp) : State :=
  let s := leaser 1 [(0, { held with ops := ops })] []
  let s := s.setCtx 1 { s.ctx 1 with bufs := [(0, inputBuf), (1, outputBuf)] }
  let m := writeBytes s.mem 0x2001000 ([1, 10, 0, 0, 0xFF, 1] ++ zeros 2 ++ [4])
  { s with mem := writeBytes m 0x2001040 (leBytes 8 0x8000 ++ leBytes 4 8 ++ leBytes 2 4) }

theorem witness_buffers : let s := buffered []
    s.cur.anyPending [5, 6, 7] = false ∧ Claims.quiet s ∧ s.buf 1 0 0 = some inputBuf ∧ s.buf 1 0 1 = some outputBuf ∧
    s.buf 1 0 63 = none ∧ (s.ctx 1).liveOps 0 = [] ∧ (((buffered [sortOp]).ctx 1).liveOps 0).any (fun o => o.desc.ids.contains 1) = true := by
  refine ⟨?_, ?_, ?_, ?_, ?_, ?_, ?_⟩ <;> first | decide +kernel | (show ∀ e ∈ _, _; decide +kernel)

theorem witness_cbdef : let s := buffered []
    s.probe (s.space 0) .read 0x1040 = .ok (reach 0x1040) ∧ s.reachWaits (reach 0x1040) = false ∧ 0x1040 % 32 = 0 ∧
    (Claims.recordRead s 0x1040 (reach 0x1040) 32).bufOf { (Claims.recordRead s 0x1040 (reach 0x1040) 32).space 0 with cluster := 0 }
      (Claims.descAt s (reach 0x1040) 32) = none := by
  and_intros <;> first | decide +kernel | exact ok_of (by decide +kernel) | rfl

theorem witness_eop : let s := buffered []
    s.handleFault 0 (s.cur.getX 7) = none ∧ (s.cur.getX 10).toNat % 64 = 0 ∧ s.probe (s.space 0) .read 0x1000 = .ok (reach 0x1000) ∧
    (s.ctx 1).queued 0 < 8 ∧ opDescOf (Claims.descAt s (reach 0x1000) 64) = sortDesc ∧
    s.badOp 1 0 0 sortDesc (Claims.descAt s (reach 0x1000) 64) = false ∧
    s.badOp 1 0 1 sortDesc (Claims.descAt s (reach 0x1000) 64) = true := by
  and_intros <;> first | decide +kernel | exact ok_of (by decide +kernel) | rfl

theorem witness_fire : Claims.mayFire (buffered [sortOp]) 1 0 0 sortOp := by
  refine ⟨by decide +kernel, rfl, (by decide +kernel : ∀ e ∈ ((buffered [sortOp]).ctx 1).opEnds, leaseKey e.cluster e.entry = 0 → e.gen ≠ held.gen), fun id h => ?_, fun p h hp => ?_⟩
  · have : id = 0 ∨ id = 1 := by
      have : sortOp.desc.ids = [0, 1] := by decide
      rw [this] at h; simpa using h
    rcases this with rfl | rfl
    · exact ⟨inputBuf, by decide +kernel, by decide, by decide⟩
    · exact ⟨outputBuf, by decide +kernel, by decide, by decide⟩
  · exact absurd hp (Nat.not_lt_zero _)

theorem witness_op_complete : let o := { sortOp with fired := true, start := [0, 0, 0] }
    ((buffered [o]).lease 1 0).ops = [o] ∧ (opKind sortDesc.opcode).isSome = true ∧ sortDesc.isReduce = false ∧
    sortDesc.inBuf ≠ sortDesc.outBuf ∧ ((buffered [o]).ctx 1).opEnds = [] := by
  and_intros <;> first | decide +kernel | exact ok_of (by decide +kernel) | rfl

/-! ### Witnesses: the matrix array and the millrace -/

/-- The state of `vec` with a B tile of one row and a declaration that has ended; x6 and x7 hold the tile's address and pitch. -/
def arrayed : State := vec [(6, 0x1000), (7, 512), (8, 0x1001), (9, 0x20000)]

theorem witness_array : Claims.idle arrayed ∧ Claims.configured arrayed [] ∧ Claims.arrayIdle arrayed ∧
    bMisaligned 1 (arrayed.cur.getX 6) (arrayed.cur.getX 7) = none ∧
    bMisaligned 1 (arrayed.cur.getX 8) (arrayed.cur.getX 7) = some 0x1001 ∧
    (Claims.bRows arrayed (.mldb true 6 7 1 8 2 0) 6 7 1 8 2).2 = [] ∧
    Claims.wayOpen (Claims.atHead arrayed (.mldb true 6 7 1 8 2 0)) (Claims.bRows arrayed (.mldb true 6 7 1 8 2 0) 6 7 1 8 2).1 ∧
    ((Claims.bRows arrayed (.mldb true 9 7 1 8 2 0) 9 7 1 8 2).2.map (fun y => y.i)) = [0] ∧
    ((Claims.bRows arrayed (.mldb true 6 9 1 8 2 0) 6 9 1 8 2).2.map (fun y => y.i)) = [1] := by
  refine ⟨⟨?_, ?_, ?_, ?_, ?_, .inl ?_⟩, ⟨?_, ?_⟩, ⟨?_, ?_, ?_⟩, ?_, ?_, ?_, ?_, ?_, ?_⟩ <;>
    first | decide +kernel | (show ∀ y ∈ _, _; decide +kernel)

theorem witness_multiply : mmaIllegal (arrayed.groupOf 0 arrayed.cur.vconf) (vcNr arrayed.cur.vconf) 8 16 (dim256 4) (dim256 8) = false := by
  first | decide +kernel | exact ok_of (by decide +kernel) | rfl

/-- An MMA of hart 0 in its queue, not yet admitted, or in the array. -/
def mmaEntry : Entry := { entry (.mma 8 16 4 8 8 0 0) 0 with vconf := 0x818 }
def multiplying (inside redone : Bool) : State :=
  let s := arrayed.setCur { arrayed.cur with mq := [mmaEntry] }
  s.setPair 0 { s.pair 0 with admitted := if inside then [⟨0, 0, 0, false, redone⟩] else [] }

theorem witness_matrix_events : ((multiplying false false).hart 0).mq = [mmaEntry] ∧ ((multiplying false false).pair 0).rr = 0 ∧
    (∀ j, j < 8 → 8 * 0 + j ≠ 0 → ((multiplying false false).hart (8 * 0 + j)).mq = []) ∧ ((multiplying false false).pair 0).mill.ended = true ∧
    ((multiplying true false).pair 0).admitted = [⟨0, mmaEntry.seq, 0, false, false⟩] ∧
    ((multiplying true false).hart 0).mq.find? (fun f => f.seq == mmaEntry.seq) = some mmaEntry ∧
    mmaIllegal ((multiplying true false).groupOf 0 mmaEntry.vconf) 32 8 16 (dim256 4) (dim256 8) = false ∧ mmaEntry.eidx + 1 < dim256 4 ∧
    ((multiplying true true).pair 0).admitted = [⟨0, mmaEntry.seq, 0, false, true⟩] ∧ ((multiplying true true).hart 0).run = .running ∧
    (multiplying false false).islandStopped 0 = false ∧ (multiplying false false).queuesHeld 0 = false ∧
    ((multiplying true false).hart 0).earlier mmaEntry.seq = [] ∧ ((multiplying true false).hart 0).old = [] ∧ ((multiplying true false).hart 0).imprecise = none := by
  and_intros <;> first | decide +kernel | exact ok_of (by decide +kernel) | rfl

theorem witness_row_arrival : let b : LoadBuf := { hart := 0, seq := 0, reach := 2, tile := 7, flags := [], fault := none }
    let s := arrayed.setPair 0 { arrayed.pair 0 with loads := [(1, b)] }
    tfind (s.pair 0).loads 1 = some b ∧ (entry (.mldb false 6 7 1 8 2 1) 0).eidx + 1 < b.reach := by
  and_intros <;> first | decide +kernel | exact ok_of (by decide +kernel) | rfl

/-- A declaration of two beats by harts 0 and 1, running or ended. -/
def decl : Decl := { bbase := 0x4000, bstride := 0, period := 256, mb := 2, nb := 1, kb := 1, bfmt := 1, lookahead := 1, feeder := 0, drainer := 1 }
def milling (m : Mill) : State :=
  let s := arrayed.setMill 0 m
  (s.setHart 1 { s.hart 1 with run := .running, asid := 1 }).setCur { s.cur with events := [⟨1, 0, 0⟩] }
def running : Mill := { status := 1, decl := decl, asid := 1, ptbase := BitVec.ofNat 64 tableBase, ended := false }

theorem witness_millrace : Claims.idle (milling {}) ∧ Claims.configured (milling {}) [] ∧ ((milling {}).mill 0).ended = true ∧
    ((milling running).mill 0).ended = false ∧ ((milling running).mill 0).status = 1 ∧ ((milling {}).cur.getX 8).toNat % 64 ≠ 0 ∧
    ((milling {}).cur.getX 6).toNat % 64 = 0 ∧ ((milling {}).pair 0).admitted = [] ∧ ((milling {}).pair 0).loads = [] ∧ decl.bad 0 = false ∧ { decl with period := 255 }.bad 0 = true ∧
    ((milling {}).hart (feederHart 0 1)).run = .running ∧
    (milling {}).cur.events.find? (fun y => bit 1 (y.kind - 1)) = some ⟨1, 0, 0⟩ ∧
    (milling {}).cur.events.find? (fun y => bit 4 (y.kind - 1)) = none := by
  refine ⟨⟨?_, ?_, ?_, ?_, ?_, .inl ?_⟩, ⟨?_, ?_⟩, ?_, ?_, ?_, ?_, ?_, ?_, ?_, ?_, ?_, ?_, ?_, ?_⟩ <;> decide +kernel

theorem witness_feed : feedIllegal ((milling running).groupOf 0 0x818) 32 8 = false ∧ feederHart 0 decl.feeder = 0 ∧
    feederHart 0 decl.drainer = 1 ∧ (milling running).queuesHeld 0 = false ∧ (milling running).queuesHeld 1 = false ∧
    ((milling running).hart 1).old = [] ∧
    ({ running with blocks := [{ first := 0, raised := true }] }).blocks = { first := 0, raised := true } :: [] ∧
    running.tiles = [] ∧ ({ running with nextOperand := 1 }).nextBeat < ({ running with nextOperand := 1 }).nextOperand := by
  and_intros <;> first | decide +kernel | exact ok_of (by decide +kernel) | rfl

/-- A beat that has started, with its rows in or not. -/
def beat (entered : Bool) : RunBeat := { beat := 0, start := 256, aTile := 0, bTile := 0, entered := entered }

theorem witness_mill_events : let t : ATile := ⟨0, 256, 0⟩
    let m := { running with nextOperand := 2, tick := 256, tiles := [t], bBeat := 1 }
    let going := { m with nextBeat := 1, tick := 512, blocks := [{ first := 0 }] }
    (milling running).islandStopped 0 = false ∧ running.operandDue = some 0 ∧ running.inTurn 0 true = true ∧
    ((milling running).hart 0).demands < 16 ∧ m.atBoundary = true ∧ m.endsWith = none ∧ m.tileReady = some t ∧ m.nextBeat < m.bBeat ∧
    { m with tiles := [] }.tileReady = none ∧ { going with runs := [beat false] }.entering = true ∧ running.bBeat < decl.beats ∧
    running.bBeat ≤ running.nextBeat ∧
    ((milling running).probeRows running.space 0x4000 0 (bRowBytes 1 256) 0 256 []).2 = [] ∧
    Claims.wayOpen (milling running) ((milling running).probeRows running.space 0x4000 0 (bRowBytes 1 256) 0 256 []).1 ∧
    ((milling running).probeRows running.space 0x20000 512 (bRowBytes 1 256) 0 256 []).2 ≠ [] ∧
    { going with runs := [beat true], tick := 1000, nextOperand := 2 }.inTurn (beat true).due false = true ∧
    { going with runs := [beat true] }.rowFree (beat true) = true ∧
    going.blocks.find? (fun y => y.first == 0 - decl.kOf 0) = some { first := 0 } ∧
    { running with status := 2 }.closing = true ∧ running.endStage = 0 ∧ decl.endsig = 0 ∧ (milling running).gangOf 0 = none := by
  refine ⟨?_, ?_, ?_, ?_, ?_, ?_, ?_, ?_, ?_, ?_, ?_, ?_, ?_, ?_, ?_, ?_, ?_, ?_, ?_, ?_, ?_, ?_⟩ <;>
    first | decide +kernel | (show ∀ y ∈ _, _; decide +kernel)
/-! ### Witnesses: packets, queues, cascades -/

/-- A work queue of context 1 with its control block at 0x4000, its ring at 0x8000 and n packets posted, the first one at hand. -/
def queued (n : Nat) (pkt : List Byte) : State :=
  let s := demo.setCur { demo.cur with x := [(6, 0x1000), (7, 0)] }
  let m := writeBytes (writeNat (writeNat s.mem 0x4000 8 n) 0x4010 8 0x8000) 0x4018 (leBytes 4 16 ++ leBytes 2 1 ++ zeros 15 ++ [1])
  { s with mem := writeBytes (writeBytes m 0x2001000 pkt) 0x8000 pkt, intakeOpen := true
           queues := [(0, { live := true, asid := 1, ctl := 0x4000, ring := 0x8000, size := 16, quantum := 64, posted := n })]
           tasks := if n = 0 then [] else [{ id := 0, queue := 0, pos := 0, asid := 1, order := 0 }] }

/-- A wait packet, and a launch of one gang of two cores with one hart each. -/
def waitPacket : List Byte := zeros 0x7C ++ leBytes 4 2
def launchPacket : List Byte := leBytes 8 0x100 ++ leBytes 8 7 ++ leBytes 4 1 ++ [2, 1, 4] ++ zeros (128 - 23)

theorem witness_launch : let s := queued 0 waitPacket
    s.cur.anyPending [5, 6, 7] = false ∧ Claims.quiet s ∧ Claims.canRead s (s.cur.getX 6) 128 (reach 0x1000) ∧
    (let u := Claims.recordRead s (s.cur.getX 6) (reach 0x1000) 128
     Claims.postable u 0 ∧ ¬ Claims.postable u 4096 ∧ packetReason (s.ctx 1) 32 (Claims.descAt s (reach 0x1000) 128) = none ∧
      u.queueDepth (u.queue 0) < (u.queue 0).size ∧ (u.queue 0).ctl + 64 ≤ (u.queue 0).slot (u.queueTail (u.queue 0))) ∧
    (packetReason (s.ctx 1) 32 (waitPacket.map (fun _ => 1))).isSome = true := by
  refine ⟨?_, ?_, ⟨?_, ?_, ?_⟩, ⟨⟨?_, ?_, ?_, ?_, ?_⟩, fun h => absurd h.1 ?_, ?_, ?_, ?_⟩, ?_⟩ <;>
    first | decide +kernel | exact ok_of (by decide +kernel) | (show ∀ e ∈ _, _; decide +kernel)

/-- Hart 0 serves stage 0 of a cascade of two stages, whose packet 5 it has taken; packet 6 waits. -/
def stage (cap : Nat) : Stage := { shape := [], cap := cap, ming := 0, maxg := 2, thresh := 0 }
def packet64 : List Byte := zeros 8 ++ [1, 1] ++ zeros 54
def cascading (queue : List (Nat × List Byte)) (withdrawn : Option Nat) : State :=
  let s := demo.setCur { demo.cur with task := some (0, 0), x := [(6, 0x1000), (7, 1), (8, 5)] }
  { s with
    mem := writeBytes s.mem 0x2001000 packet64
    tasks := [{ id := 0, queue := 0, pos := 0, asid := 1, order := 0, st := .ready, typ := 3
                stages := [{ stage 4 with queue := queue }, stage 4]
                gangs := [{ idx := 0, cores := [0], harts := [0], stage := some 0, taken := [5], withdrawn := withdrawn }] }] }

theorem witness_cascade : let s := cascading [(6, packet64)] none
    Claims.quiet s ∧ demo.stageOf 0 = none ∧ (s.stageOf 0).map (fun p => p.2.2) = some 0 ∧ 6 ∉ [5] ∧
    (s.stageOf 0).all (fun p => p.2.1.withdrawn == none && (p.1.stages[0]?).all (fun y => y.queue == [(6, packet64)])) = true ∧
    ((cascading [] (some 1)).stageOf 0).all (fun p => p.2.1.withdrawn != none) = true ∧ packet64.length = 64 ∧
    (s.cur.getX 6).toNat % 64 = 0 ∧ s.probe (s.space 0) .write 0x1000 = .ok (reach 0x1000) ∧
    s.probe (s.space 0) .read 0x1000 = .ok (reach 0x1000) ∧ Claims.descAt s (reach 0x1000) 64 = packet64 ∧
    Claims.packetKept packet64 ∧ (stage 4).closed = false ∧ (stage 4).load < (stage 4).cap := by
  refine ⟨?_, ?_, ?_, ?_, ?_, ?_, ?_, ?_, ?_, ?_, ?_, ⟨?_, ?_, ?_, ?_, ?_⟩, ?_, ?_⟩ <;>
    first | decide +kernel | exact ok_of (by decide +kernel) | (show ∀ e ∈ _, _; decide +kernel)

/-- A load of hart 0 that is not probed, a lane request that is granted, and a bound stream. -/
theorem witness_pipe : let e := { entry (.ld 3 0 0) 4 with vconf := 0x818 }
    let s := streaming.setCur { streaming.cur with vq := [e], laneReq := some ⟨5, 0, 2, 1, 0, true, some 1⟩ }
    let t := s.setCore 0 { s.core 0 with laneQ := [0] }
    (s.hart 0).placed = true ∧ (s.hart 0).vq = [e] ∧ qIsVmem e.op = true ∧ e.probed = false ∧ qIsLoad e.op = true ∧
    ((s.hart 0).stream 0).bound = true ∧ ((s.hart 0).stream 3).bound = false ∧ (s.core 0).laneQ = [] ∧ (t.core 0).laneQ = [0] ∧
    t.laneReleasing 0 = false ∧ bits (s.hart 0).vconf.toNat 3 0 = 0 + 4 * 2 := by
  and_intros <;> first | decide +kernel | exact ok_of (by decide +kernel) | rfl

/-! ### Witnesses: errors, power, registers of the device -/

theorem witness_banks : (demo.bank 0).v = false ∧ (({ demo with banks := [(0, { v := true })] } : State).bank 0).v = true ∧
    (demo.hart 0).run = .running ∧ (demo.ctx 1).ending = none ∧ (demo.hart 0).imprecise = none ∧ (demo.hart 0).asid.toNat = 1 := by
  and_intros <;> first | decide +kernel | exact ok_of (by decide +kernel) | rfl

theorem witness_thermal : ({ demo with thermal := .gated } : State).thermal = .gated ∧ demo.thermal ≠ .gated ∧ demo.agenda = [] ∧
    (demo.setCore 0 { demo.core 0 with sweep := true, health := .testing }).core 0 = { demo.core 0 with sweep := true, health := .testing } ∧
    (demo.core 0).sweep = false ∧ (demo.core 0).health ≠ .testing ∧ 0 < demo.spares.toNat / 4 ^ (0 / 32) % 4 := by
  and_intros <;> first | decide +kernel | exact ok_of (by decide +kernel) | rfl

theorem witness_device_registers : ((demo.setPair 0 { demo.pair 0 with busy := true }).pair 0).busy = true ∧ (demo.pair 0).busy = false ∧
    0xF0000010000 ≤ 0xF0000020000 ∧ 0xF0000090000 ≤ 0xFFFFFFFFFF8 ∧ 0xFFFFFFFFFF8 < Config.physEnd := by
  and_intros <;> first | decide +kernel | exact ok_of (by decide +kernel) | rfl

/-! ### Witnesses: tasks and placement -/

theorem readied_ready (s : State) (h : ∀ t ∈ s.tasks, t.st ≠ .waiting) : Claims.readied s = s := by
  have key : (Claims.readied s).tasks = s.tasks :=
    (List.map_congr_left (g := fun t => t) fun t ht => if_neg fun hc => h t ht hc.1).trans (List.map_id' _)
  calc Claims.readied s = { s with tasks := (Claims.readied s).tasks } := rfl
    _ = s := by rw [key]

theorem witness_intake : let s := queued 1 waitPacket
    let u := s.notePosts
    u = s ∧ u.intakeOpen = true ∧ (u.queue 0).live = true ∧ u.queueErr (u.queue 0) = false ∧ (u.ctx 1).live = true ∧
    u.tasks.find? (fun t => t.queue == 0 && t.st == .posted) = some { id := 0, queue := 0, pos := 0, asid := 1, order := 0 } ∧
    readBytes u.mem ((u.queue 0).slot 0) 128 = waitPacket ∧ u.thermal = .normal ∧ (u.queue 0).closing = false ∧ packetReason (u.ctx 1) u.workingCores waitPacket = none ∧
    field waitPacket 0x7C 4 = 2 ∧ field waitPacket 0x48 8 = 0 ∧ u.poisoned ((u.queue 0).slot 0) 128 = false ∧
    (packetReason (u.ctx 1) u.workingCores (waitPacket.map (fun _ => 1))).isSome = true := by
  and_intros <;> first | decide +kernel | exact ok_of (by decide +kernel) | rfl

/-- One ready task. -/
def readyTask (typ : Nat) (pkt : List Byte) : Machine.Task :=
  { id := 0, queue := 0, pos := 0, asid := 1, order := 0, st := .ready, typ := typ, pkt := pkt }
def withTask (t : Machine.Task) : State :=
  { queued 0 waitPacket with tasks := [t], harts := [], lastCluster := 3, time := 5000000 }

theorem witness_task : Claims.isTask (Claims.readied (withTask (readyTask 2 waitPacket))) 0 (readyTask 2 waitPacket) ∧
    (readyTask 0 launchPacket).offers = true ∧ (readyTask 2 waitPacket).offers = false := by
  rw [readied_ready _ (by decide +kernel)]
  exact ⟨by show _ = _; decide +kernel, by decide +kernel, by decide +kernel⟩

theorem witness_wait_task : let s := withTask (readyTask 2 (leBytes 8 0x1000 ++ leBytes 8 3 ++ waitPacket.drop 16))
    s.signalAt (s.taskSpace 1) .read 0x1000 = .ok (reach 0x1000) ∧ s.signalAt (s.taskSpace 1) .atomic 0x1000 = .ok (reach 0x1000) ∧
    s.taskOver (readyTask 2 []) = false ∧ s.taskOver { readyTask 2 [] with st := .done } = true := by
  and_intros <;> first | decide +kernel | exact ok_of (by decide +kernel) | rfl

theorem witness_copy_task : let s := withTask (readyTask 1 (leBytes 8 0x1000 ++ leBytes 8 0x1040 ++ zeros 0x6C ++ leBytes 4 1))
    (s.copyDescs (readyTask 1 (leBytes 8 0x1000 ++ leBytes 8 0x1040))).isOk = true ∧
    (copyStreamFault (some (boundTo (row32 0x1000 0))) (boundTo (row32 0x2000 1))).isSome = false ∧
    (copyStreamFault (some (boundTo (row32 0x1000 1))) (boundTo (row32 0x2000 1))).isSome = true ∧ (row32 0x2000 1).declared ≠ 0 := by
  and_intros <;> first | decide +kernel | exact ok_of (by decide +kernel) | rfl

theorem witness_placement : let t := readyTask 0 launchPacket
    let s := withTask t
    let o : Offer := ⟨t, none, none, t.next, t.level, t.pkt⟩
    s.tasks = [t] ∧ s.queues = [(0, { live := true, asid := 1, ctl := 0x4000, ring := 0x8000, size := 16, quantum := 64, posted := 0 })] ∧ s.reserved = none ∧
    t.next + 1 = field t.pkt 0x10 4 ∧ shapeCheck t.pkt < 2 ∧ shapeCores t.pkt ≤ (s.queue 0).share ∧ s.thermal = .normal ∧
    shapeCores t.pkt ≤ (s.fitCores o ((s.lastCluster + 1) % 4)).length ∧ s.eager = true ∧
    packetReason (s.ctx 1) 32 t.pkt = none := by
  and_intros <;> first | decide +kernel | exact ok_of (by decide +kernel) | rfl

theorem witness_no_offer (q l : Nat) : ({ demo with tasks := [] } : State).queueOffer q l = none := by
  simp [State.queueOffer]

theorem witness_preemption : let s := { ganged false with time := 5000000 }
    s.tasks.find? (fun t => t.id == 0) = s.tasks.head? ∧
    Claims.stoppable s (readyTask 0 []) { idx := 0, cores := [0], harts := [0] } := by
  refine ⟨by decide +kernel, rfl, by decide +kernel, by decide +kernel, by decide +kernel, rfl,
    fun ⟨n, hn, hx⟩ => absurd hx (by cases List.mem_singleton.mp hn; decide +kernel), fun g hg _ => ?_⟩
  cases List.mem_singleton.mp hg
  refine ⟨?_, ?_, ?_, ?_, ?_, ?_, ?_, ?_⟩ <;> first | decide +kernel | (show ∀ e ∈ _, _; decide +kernel)

/-- A candidate of all 32 cores of cluster 0 beside the gang of `ganged`. -/
def wideTask : Machine.Task :=
  { readyTask 0 (leBytes 8 0x100 ++ zeros 8 ++ leBytes 4 1 ++ [32, 1, 4] ++ zeros (128 - 23)) with asid := 2, order := 1, id := 1, level := 7 }
def reserving (since : Nat) : State :=
  { ganged false with
    tasks := (ganged false).tasks ++ [wideTask], time := 5000000
    reserved := some { task := 1, stage := none, level := 7, cluster := 0, since := since } }

theorem witness_reservation : let s := reserving 0
    Claims.readied s = s ∧ s.checkReserved = s ∧ s.reservedOffer.map (fun o => o.cores) = some 32 ∧
    (s.displaceable 0 7).map (fun p => p.2.harts) = [[0]] ∧
    s.reservedOffer.all (fun o => decide ((s.fitCores o 0).length < 32) && decide (32 ≤ ((s.without ((s.displaceable 0 7).map (·.2))).fitCores o 0).length)) = true ∧
    s.time - s.paused < 4999000 + 100000 ∧ ({ s with reserved := none } : State).checkReserved.reserved = none := by
  refine ⟨readied_ready _ (by decide +kernel), ?_, ?_, ?_, ?_, ?_, ?_⟩ <;> decide +kernel

theorem witness_cascade_tick : let t := { readyTask 3 [] with
      stages := [{ stage 4 with queue := [(0, []), (1, []), (2, [])] }, stage 4]
      gangs := [{ idx := 0, cores := [0], harts := [0], stage := some 1 }] }
    (5000000 - 0) / 10000 > t.flushedAt ∧ t.gainer.map (fun p => p.1) = some 0 ∧
    (t.donor (0, { stage 4 with queue := [(0, []), (1, []), (2, [])] })).map (fun p => p.1) = some 1 ∧ (t.lastGang 1).isSome = true ∧
    { t with gangs := [] }.donor (0, { stage 4 with queue := [(0, []), (1, []), (2, [])] }) = none ∧
    { t with stages := [] }.gainer = none ∧ (∀ x ∈ t.stages, x.closed = false) ∧
    ((demo.setCore 0 { demo.core 0 with health := .zeroing }).core 0).health = .zeroing := by
  and_intros <;> first | decide +kernel | exact ok_of (by decide +kernel) | rfl

/-! ### Witnesses: entries, the end of a context -/

theorem witness_due : Claims.dueAt demo.cur = none ∧ Claims.dueAt { demo.cur with budgetDue := true } = some { cause := causeBudget, pc := 0 } ∧
    Claims.canEnter (demo.setCur { demo.cur with budgetDue := true }) 0 ∧ ((demo.setCur { demo.cur with budgetDue := true }).hart 0).budgetDue = true := by
  refine ⟨?_, ?_, ⟨?_, ?_, ?_, ?_⟩, ?_⟩ <;> decide +kernel

theorem witness_budget : let h := { demo.cur with tbudget := 5 }
    h.run = .running ∧ h.level = .pl0 ∧ h.tbudget ≠ 0 ∧ 4 < h.tbudget.toNat ∧ h.tbudget.toNat ≤ 5 ∧ demo.cur.tbudget = 0 := by
  and_intros <;> first | decide +kernel | exact ok_of (by decide +kernel) | rfl

theorem witness_imprecise : causeUncorrectable ≤ causeSilentError ∧ causeSilentError ≤ causePairMismatch ∧
    causeRetentionLoss ≤ causePairMismatch ∧ causeUncorrectable ≤ causeRetentionLoss := by decide

theorem witness_context_end : let e : EndEvent := ⟨causeIllegal, false, false, 0, 0, 0, 0, 0, 0, 0⟩
    let s := demo.setCtx 1 { demo.ctx 1 with ending := some e }
    (s.ctx 1).live = true ∧ (s.ctx 1).ending = some e ∧ (s.ctx 1).endRec + 64 ≤ Config.hbmBytes ∧ (∀ p ∈ s.pairs, p.2.mill.ended = true) ∧
    (demo.ctx 1).ending = none := by
  and_intros <;> first | decide +kernel | exact ok_of (by decide +kernel) | rfl

theorem witness_latch_tick : ({ demo with time := 10000 } : State).time % 10000 = 0 ∧ ({ demo with time := 10001 } : State).time % 10000 ≠ 0 ∧
    demo.stopped demo.turn = false ∧ demo.cur.yielding = none ∧ ({ demo with thermal := .gated } : State).stopped 0 = true ∧
    (demo.setCur { demo.cur with yielding := some [] }).cur.yielding = some [] ∧
    ((demo.setHart 1 { demo.hart 1 with run := .running }).hart 1).run = .running ∧ (demo.hart 1).yielding = none ∧ coreOf 1 = coreOf demo.turn ∧
    (demo.hart 1).run ≠ .running := by and_intros <;> first | decide +kernel | exact ok_of (by decide +kernel) | rfl

/-! ### Witnesses: management, boot, Braid and Ethernet -/

/-- An open device with an authorised session. -/
def managed : State := { queued 0 waitPacket with trust := { stage := .open, sessions := [0], nextSession := 1, asking := some 0 } }

theorem witness_managing : Claims.managing managed ∧ ¬ Claims.managing demo ∧ (managed.ctxs.filter (fun p => p.2.live)).length < 64 ∧
    (managed.allUnits false 0 [1, 0, 0, 0]).isSome = true ∧ managed.allUnits false 0 [1025, 0, 0, 0] = none ∧ (managed.ctx 1).live = true ∧
    (managed.ctx 2).live = false := by
  refine ⟨⟨rfl, rfl⟩, fun h => absurd h.1 ?_, ?_, ?_, ?_, ?_, ?_⟩ <;> decide +kernel

theorem witness_create_queue : (managed.queue 1).live = false ∧ (managed.queue 0).live = true ∧ (managed.queue 0).closing = false ∧
    (∃ k, 4 ≤ k ∧ k ≤ 16 ∧ 16 = 2 ^ k) ∧ (0x8000 : Word).toNat % 128 = 0 ∧ managed.tasks = [] :=
  ⟨by decide +kernel, by decide +kernel, by decide +kernel, ⟨4, by decide⟩, by decide, by decide +kernel⟩

theorem witness_regions : (0x10000 : Word).toNat % 65536 = 0 ∧ (0x10000 : Word).toNat + 65536 ≤ 2 ^ 52 ∧ Claims.mirrorArgs 0x1000 0x2000 ∧
    managed.mirrors = [] ∧ tfind managed.regions 0 = none ∧ (signalled.mirrors.map (fun x => x.sig)) = [0x2001000] :=
  ⟨by decide, by decide, ⟨by decide, by decide, by decide, by decide⟩, rfl, rfl, rfl⟩

/-- Context 1 as rank 0 of group 7, with its page 0 mapped as aperture page 2. -/
def grouped : State := { managed.setCtx 1 { managed.ctx 1 with members := [⟨7, 0, 2⟩], apertures := [(2, 0)] } with mirrors := [] }

theorem witness_groups : (∀ m ∈ (managed.ctx 1).members, m.gid = 7 → m.size = 2) ∧ (∃ m ∈ (grouped.ctx 1).members, m.gid = 7) ∧
    managed.translate (managed.taskSpace 1) .read 0 = .ok (0x2000000, (reach 0).leaf) ∧ tfind (grouped.ctx 1).apertures 2 = some 0 := by
  refine ⟨?_, ?_, ok_of ?_, ?_⟩ <;> decide +kernel

/-- An operation of group 7 that writes a record, posted on lease 0 of context 1. -/
def reducing : State := grouped.setCtx 1 { grouped.ctx 1 with
  leases := [(0, { ops := [{ sortOp with desc := { sortDesc with opcode := 0x20, gid := 7, size := 2, record := 64 }, fired := true }] })] }

theorem witness_leave_group : (∃ m ∈ (reducing.ctx 1).members, m.gid = 7) ∧ ∃ p ∈ (reducing.ctx 1).leases, ∃ o ∈ p.2.ops,
    o.desc.isReduce = true ∧ o.desc.gid = 7 ∧ (o.desc.record ≠ 0 ∨ o.desc.donesig ≠ 0) := by
  refine ⟨?_, ?_⟩ <;> decide +kernel

theorem witness_health : managed.trust.stage = .open ∧ demo.trust.stage = .rom ∧ demo.engRetired < 256 := by decide +kernel

/-- Flash with both images, a record and a configuration block. -/
def image : Image := ⟨1, 3, true, true⟩
def flashed : Trust :=
  { rotA := some image, schedA := some image, config := some ⟨2, 1, 0, 9, [7], [1], 0x11, true⟩, recA := some ⟨1, 1, 0, 9⟩ }

theorem witness_boot : Claims.recordInForce flashed.commit ⟨1, 1, 0, 9⟩ ∧ Claims.runs 0 flashed.commit.rotA ∧ flashed.commit.config = some ⟨2, 1, 0, 9, [7], [1], 0x11, true⟩ ∧
    ¬ Claims.runs 4 flashed.commit.rotA ∧ ({} : Trust).commit.recA = none ∧ Claims.runs 0 flashed.commit.schedA := by
  refine ⟨Or.inl ⟨rfl, fun b h => ?_⟩, ⟨image, rfl, rfl, by decide⟩, rfl, ?_, rfl, ⟨image, rfl, rfl, by decide⟩⟩
  · cases h
  · rintro ⟨x, h, -, hx⟩
    cases h
    exact absurd hx (by decide)

theorem witness_power_loss : ({ flashed with writing := some (.record ⟨2, 1, 0, 9⟩ true) } : Trust).recA = some ⟨1, 1, 0, 9⟩ ∧
    ({ flashed with recA := none, recB := some ⟨1, 1, 0, 9⟩, writing := some (.record ⟨2, 1, 0, 9⟩ false) } : Trust).recB = some ⟨1, 1, 0, 9⟩ := ⟨rfl, rfl⟩

/-- An open device that booted from slot A, and one whose update waits for its heartbeat. -/
def booted : State := { demo with trust := { flashed with stage := .open, sessions := [0], nextSession := 1, asking := some 0, rotBooted := some false } }
def updating : State := { booted with trust := { booted.trust with updating := some image } }

theorem witness_update_request : Claims.serving booted ∧ (Claims.settled booted).trust.updating = none ∧
    (Claims.settled updating).trust.updating = some image ∧ (Claims.settled booted).trust.minimum ≤ image.version ∧
    (Claims.settled booted).trust.rotBooted = some false ∧ Claims.recordInForce (Claims.settled booted).trust ⟨1, 1, 0, 9⟩ ∧
    (updating.hart 0).level = .pl0 ∧ ¬ Claims.serving demo := by
  refine ⟨⟨Or.inl rfl, rfl⟩, rfl, rfl, ?_, rfl, Or.inl ⟨rfl, fun b h => ?_⟩, ?_, fun h => absurd h.2 ?_⟩ <;> first | decide +kernel | cases h

theorem witness_session : booted.trust.identity = true ∧ booted.trust.recBroken = false ∧
    ({ demo with trust := { stage := .recovery } } : State).trust.stage = .recovery ∧ ({} : Trust).recA = none := by decide +kernel

theorem witness_ports : (demo.port 0).st = .up ∧ (({ demo with ports := [(0, { st := .retraining }), (1, { st := .down })] } : State).port 0).st = .retraining ∧
    (({ demo with ports := [(0, { st := .retraining }), (1, { st := .down })] } : State).port 1).st = .down ∧ (demo.port 0).fails < 15 ∧
    ¬ (({ demo with ports := [(0, { fails := 15 })] } : State).port 0).fails < 15 := by decide +kernel

theorem witness_route : (∀ p, p < 6 → (({ demo with braidpos := 0x300 } : State).port p).st = .up) ∧ bits 0x300 27 24 < bits 0x300 11 8 + 1 ∧
    bits 0x300 11 8 < bits 0x300 11 8 + 1 ∧ bits 0x300 23 20 = bits 0x300 7 4 ∧ bits 0x300 19 16 = bits 0x300 3 0 := by decide +kernel

theorem witness_aperture : grouped.thermal = .normal ∧ grouped.apertureAt 7 0x20000 = some (1, 0) ∧ grouped.apertureAt 7 0 = none ∧
    grouped.apertureAt 8 0x20000 = none ∧ grouped.translate (grouped.taskSpace 1) .read 0 = .ok (0x2000000, (reach 0).leaf) ∧
    grouped.translate (grouped.taskSpace 1) .atomic 0 = .ok (0x2000000, (reach 0).leaf) ∧ placeOf 0x2000000 = .hbm ∧ grouped.migqOn = false := by
  and_intros <;> first | decide +kernel | exact ok_of (by decide +kernel) | rfl

/-- Context 1's first page exposed as region 0. -/
def exposed : State := { managed with regions := [(0, ⟨1, 0, 65536, true, true⟩)], queues := [] }

theorem witness_rdma : Claims.rdmaServes exposed 0 ∧ Claims.rdmaLands exposed 0 0x1000 8 .read ⟨1, 0, 65536, true, true⟩ (reach 0x1000) ∧
    Claims.rdmaLands exposed 0 0x1000 8 .write ⟨1, 0, 65536, true, true⟩ (reach 0x1000) ∧
    Claims.rdmaLands exposed 0 0x1000 8 .atomic ⟨1, 0, 65536, true, true⟩ (reach 0x1000) ∧
    Claims.rdmaBarred exposed 1 0x1000 8 true ∧ placeOf (reach 0x1000).pa = .hbm ∧ exposed.migqOn = false := by
  have off : ∀ j, j < 8 → Claims.offEntry (reach 0x1000) ((reach 0x1000).pa + j) := fun j hj l hl => by
    cases hl
    exact ⟨Or.inr (by simp only [reach]; omega), by decide⟩
  refine ⟨⟨?_, ?_, ?_, ?_, ?_⟩, ⟨⟨?_, ?_, ?_, fun _ => ?_, fun _ => ?_⟩, ?_, ?_, ok_of ?_, ?_, ?_, off⟩,
    ⟨⟨?_, ?_, ?_, fun _ => ?_, fun _ => ?_⟩, ?_, ?_, ok_of ?_, ?_, ?_, off⟩,
    ⟨⟨?_, ?_, ?_, fun _ => ?_, fun _ => ?_⟩, ?_, ?_, ok_of ?_, ?_, ?_, off⟩, fun r h => ?_, ?_, ?_⟩ <;>
    first | decide +kernel | cases h | (show ∀ x ∈ _, _; decide +kernel)

/-- A write of 8 bytes on queue pair 0 whose word is still to come. -/
def arriving : Incoming :=
  { qp := 0, rkey := 0, asid := 1, read := false, pieces := [⟨0, 0x1000, 8, reach 0x1000, false⟩], va := 0x1000, data := leBytes 8 5, left := [0] }

theorem witness_rdma_shut : let s : State := { exposed with intakeOpen := false }
    Claims.rdmaTakes s 0 ∧ s.intakeOpen = false ∧ s.trust.updating = none ∧ Claims.rdmaTakes exposed 0 ∧
    exposed.intakeOpen = true := by
  refine ⟨⟨rfl, by decide, by decide +kernel, fun x h => ?_⟩, rfl, rfl, ⟨rfl, by decide, by decide +kernel, fun x h => ?_⟩, rfl⟩ <;> cases h

theorem witness_rdma_words : let s : State := { exposed with incoming := [arriving] }
    s.thermal = .normal ∧ s.incoming.find? (fun y => y.qp == 0) = some arriving ∧ arriving.left.head? = some 0 ∧
    0 < (arriving.va % 8 + arriving.data.length + 7) / 8 ∧ arriving.data ≠ [] ∧ s.migqOn = false ∧
    arriving.pieces = [⟨0, arriving.va, arriving.data.length, reach 0x1000, false⟩] ∧ (reach 0x1000).void = false ∧
    (reach 0x1000).pa + arriving.data.length ≤ Config.hbmBytes ∧ ({ exposed with qpErrors := [3] } : State).qpErrors = [3] ∧
    exposed.translate (exposed.taskSpace 1) .atomic 0x1000 = .ok (0x2001000, (reach 0).leaf) ∧ exposed.poisoned 0x2001000 8 = false ∧
    exposed.eager = true ∧ ({ exposed with eager := false } : State).eager = false ∧ (∃ x ∈ s.incoming, x.rkey = 0) ∧
    ∀ x ∈ s.incoming, x.rkey ≠ 1 := by
  refine ⟨?_, ?_, ?_, ?_, ?_, ?_, ?_, ?_, ?_, ?_, ok_of ?_, ?_, ?_, ?_, ?_, ?_⟩ <;> decide +kernel

/-- Context 1 in group 7 with a peer across port 0 that maps aperture page 2 for it, and page 0 mapped there; x6 holds an address of the page, x7 a
destination in the peer, slot 2 of its hart 1. -/
def peer : Peer := { pos := 0x100, groups := [(7, [2])], harts := [1], granted := [(0, 1, 2)] }
def braided (st : PortState) : State :=
  let s := vec [(6, 0x1000), (7, 0x1000012), (8, 0x12)]
  let s := s.setCtx 1 { s.ctx 1 with members := [⟨7, 0, 2⟩] }
  { s with mem := writeNat s.mem 0x1003000 8 0x3100002001D, braidpos := 0x100, peers := [peer], ports := [(0, { st := st })] }

/-- What hart 0 reaches at an address of that page. -/
def far (a : Nat) : Reach := ⟨windowAt 7 (0x31000020000 + a), some ⟨0x3100002001D, 0x1003000, 0, 65536⟩, false, none⟩

theorem witness_ways : let s := braided .retraining
    let t := braided .up
    s.probe (s.space 0) .read 0x1000 = .ok (far 0x1000) ∧ s.reachWaits (far 0x1000) = true ∧
    s.probe (s.space 0) .write 0x1000 = .ok (far 0x1000) ∧ (s.cur.getX 6).toNat = 0x1000 ∧
    t.probe (t.space 0) .read 0x1000 = .ok (far 0x1000) ∧ t.reachWaits (far 0x1000) = false ∧
    (s.route 0x100).head? = some 0 ∧ (t.route 0x100).head? = some 0 ∧ (t.port 0).st = .up ∧ (t.port 0).held = [] ∧
    (s.port 0).st = .retraining ∧ t.peerAt 0x100 = some peer ∧ peer.cut = false ∧
    { peer with cut := true }.cut = true := by
  and_intros <;> first | decide +kernel | exact ok_of (by decide +kernel) | rfl

theorem witness_links : Claims.linkFree (braided .up) 0x100 := by
  intro q h
  have e : ((braided .up).route 0x100).head? = some 0 := by decide +kernel
  cases e.symm.trans h
  exact ⟨by decide +kernel, by decide +kernel⟩

theorem witness_peers : let s := braided .up
    let a := Claims.atHead s (.rsig 6)
    let w := (s.cur.getX 7).toNat
    Claims.idle s ∧ bit w 13 = false ∧ s.hasGrant 0 w = true ∧ sendPeer w = 0x100 ∧ sendHart w = 1 ∧ sendSlot w = 2 ∧
    ({ s with peers := [{ peer with granted := [] }] } : State).hasGrant 0 w = false ∧
    ({ s with peers := [{ peer with granted := [] }] } : State).sendRefused 1 w = false ∧ s.sendRefused 1 0x2000012 = true ∧
    a.translate (a.space 0) .atomic 0x1000 = .ok (0x31000021000, (far 0).leaf) ∧ placeOf 0x31000021000 = .braid ∧
    s.braidGroup 1 0x31000021000 = some 7 ∧ ({ s with peers := [] } : State).braidGroup 1 0x31000021000 = none := by
  refine ⟨⟨?_, ?_, ?_, ?_, ?_, .inl ?_⟩, ?_, ?_, ?_, ?_, ?_, ?_, ?_, ?_, ok_of ?_, ?_, ?_, ?_⟩ <;> decide +kernel

theorem witness_tail : let s := { queued 2 waitPacket with queues := [(0, { live := true, asid := 1, ctl := 0x4000, ring := 0x8000, size := 16, quantum := 64, posted := 1 })] }
    let w := s.queue 0
    (s.queueTail w + 2 ^ 64 - w.posted) % 2 ^ 64 = 1 ∧ s.queueDepth w ≤ w.size ∧ 1 ≤ s.queueDepth w ∧ s.queueErr w = false ∧
    (let t := queued 17 waitPacket
     (t.queue 0).size < t.queueDepth (t.queue 0)) := by
  and_intros <;> first | decide +kernel | exact ok_of (by decide +kernel) | rfl

/-! ### Witnesses: structure -/

theorem witness_invariants : demo.memInv ∧ demo.imageOk = true ∧ (Instr.sub 10 11 12).wf = true ∧ (Instr.sub 10 11 12).bytes ≠ 0 := by
  refine ⟨?_, ?_, ?_, ?_⟩ <;> first | decide +kernel | exact ⟨by decide +kernel, by decide +kernel⟩

theorem witness_step : let s := State.reset.withFetchWord 32 0x00B16A05
    s.agenda = [] ∧ s.cur.run = .running ∧ s.stopped s.turn = false ∧ s.cur.yielding = none ∧ s.cur.vq = [] ∧ s.cur.mq = [] ∧
    s.cur.ibuf = [] ∧ s.cur.late = [] ∧ (s.cur.level = .pl1 → s.cur.imprecise = none) ∧ s.turnSeen.boundary s.turn = none ∧ s.cur.codeFar = [] ∧ isFar (reach 0).pa = false ∧
    (s.assignPage (reach 0).leaf).poisoned (reach 0).pa 4 = false ∧ (reach 0).taint = none ∧
    s.probe (s.space s.turn) .fetch s.cur.pc.toNat = .ok (reach 0) ∧
    decode ((s.assignPage (reach 0).leaf).load (reach 0) 4) = .ok (.sub 10 11 12, []) := by
  and_intros <;> first | decide +kernel | exact ok_of (by decide +kernel) | rfl

theorem witness_long_step : let s := State.reset.withFetchWord 64 0x3F8000000000092E
    ofLe ((s.assignPage (reach 0).leaf).load (reach 0) 4) % 4 = 2 ∧ s.probe (s.space s.turn) .fetch (s.cur.pc.toNat + 4) = .ok (reach 4) ∧
    decode ((s.assignPage (reach 0).leaf).load (reach 0) 8) = .ok (.lix 9 0x3F800000, []) := by
  and_intros <;> first | decide +kernel | exact ok_of (by decide +kernel) | rfl


/-! ### Single steps -/

/-- State s with n bytes of value v at virtual address a of its page. -/
def poke (s : State) (a n v : Nat) : State := { s with mem := writeNat s.mem (0x2000000 + a) n v }

/-- What f tells of the state an instruction leaves. -/
def after {α : Type} (o : Out) (f : State → α) : Option α :=
  match o with
  | .next s => some (f s)
  | _ => none

/-- Register d of the current hart after instruction i. -/
def xAfter (i : Instr) (s : State) (d : XReg) : Option Word := after (exec i s) (fun t => t.cur.getX d)

/-- The first four elements of EW 32 of register d after instruction i. -/
def vAfter (i : Instr) (s : State) (d : VReg) : Option (List Nat) :=
  after (exec i s) (fun t => (List.range 4).map (fun j => bits (t.cur.vreg d.toNat) (32 * j + 31) (32 * j)))

/-! R306 to R312 and the worked example of Table 1-8. -/

theorem test_add_wraps : xAfter (.addi 5 6 16383) (withX []) 5 = some (BitVec.allOnes 64) := by decide +kernel
theorem test_sub_order : xAfter (.sub 5 6 7) (withX [(6, 3), (7, 5)]) 5 = some (-2) := by decide +kernel
theorem test_x0_discards : xAfter (.addi 0 0 5) (withX []) 0 = some 0 := by decide +kernel
theorem test_div_overflow : xAfter (.div 5 6 7) (withX [(6, 1 <<< 63), (7, -1)]) 5 = some (1 <<< 63) := by decide +kernel
theorem test_rem_sign : xAfter (.rem 5 6 7) (withX [(6, -7), (7, 2)]) 5 = some (-1) := by decide +kernel
theorem test_mulh_sign : xAfter (.mulh 5 6 7) (withX [(6, -1), (7, 2)]) 5 = some (-1) ∧
    xAfter (.mulhu 5 6 7) (withX [(6, -1), (7, 2)]) 5 = some 1 := by decide +kernel
theorem test_shift_takes_six_bits : xAfter (.sll 5 6 7) (withX [(6, 1), (7, 65)]) 5 = some 2 := by decide +kernel
theorem test_sltiu_extends : xAfter (.sltiu 5 6 16383) (withX [(6, 7)]) 5 = some 1 := by decide +kernel
theorem test_lui_sign : xAfter (.lui 5 0x40000) demo 5 = some 0xFFFFFFFF80000000 := by decide +kernel
theorem test_addpc : xAfter (.addpc 5 26) (demo.setCur { demo.cur with pc := 0x400000002010 }) 5 = some 0x400000036000 := by decide +kernel
theorem test_lixh_keeps_low : xAfter (.lixh 5 0x80000001) (withX [(5, 0xFFFFFFFF00000002)]) 5 = some 0x8000000100000002 := by decide +kernel
theorem test_branch_back : after (exec (.bltu 6 7 2046) ((withX [(6, 1), (7, -1)]).setCur { (withX [(6, 1), (7, -1)]).cur with pc := 64 }))
    (fun t => t.cur.pc) = some 56 := by decide +kernel
theorem test_blt_signed : after (exec (.blt 6 7 4) (withX [(6, 1), (7, -1)])) (fun t => t.cur.pc) = some 4 := by decide +kernel
theorem test_jump_link : after (exec (.jl 0xFFFFFF) (demo.setCur { demo.cur with pc := 64 })) (fun t => (t.cur.pc, t.cur.getX 1)) =
    some (60, 68) := by decide +kernel
theorem test_jlr_reads_first : after (exec (.jlr 6 6 0) (withX [(6, 0x100)])) (fun t => (t.cur.pc, t.cur.getX 6)) = some (0x100, 4) := by
  decide +kernel
/-- R312: a target that is no multiple of 4 takes the trap at the jump. -/
theorem test_jlr_misaligned : after (exec (.jlr 5 6 0) (withX [(6, 0x102)])) (fun t => (t.cur.level, t.cur.trappc, t.cur.getX 5)) =
    some (.pl1, 0, 0) := by decide +kernel

/-! Memory, atomics and waiting. -/

theorem test_store_load : xAfter (.lb 5 6 16383) (withX [(6, 0x1001)]) 5 = some 0 ∧
    (after (exec (.sw 6 7 0) (withX [(6, 0x1000), (7, 0x1122334480)])) (fun t =>
      (readNat t.mem 0x2001000 8, xAfter (.lb 5 6 0) t 5, xAfter (.lhu 5 6 2) t 5))) =
      some (0x22334480, some (-128), some 0x2233) := by decide +kernel
theorem test_misaligned_load : after (exec (.lw 5 6 0) (withX [(6, 0x1002)])) (fun t => (t.cur.level, t.cur.trapcause, t.cur.trapaddr)) =
    some (.pl1, 4, 0x1002) := by decide +kernel
theorem test_amoadd : after (exec (.amoadd 5 6 7 1) (poke (withX [(6, 0x1000), (7, 3)]) 0x1000 8 5))
    (fun t => (t.cur.getX 5, readNat t.mem 0x2001000 8)) = some (5, 8) := by decide +kernel
theorem test_amo_word_sign : xAfter (.amomin 5 6 7 0) (poke (withX [(6, 0x1000), (7, 3)]) 0x1000 4 0x80000000) 5 =
    some 0xFFFFFFFF80000000 := by decide +kernel
theorem test_sigdec : after (exec (.sigdec 5 6) (poke (withX [(6, 0x1000)]) 0x1000 8 1))
    (fun t => (t.cur.getX 5, readNat t.mem 0x2001000 8)) = some (1, 0) := by decide +kernel
theorem test_ffr_empty : xAfter (.ffr 5 6) tagged 5 = some 1 := by decide +kernel
theorem test_barrier_token : after (exec (.bararr 5 6) (barrier 2 0 0 3 none)) (fun t => (t.cur.getX 5, readNat t.mem (Config.sramBase + 4) 4)) =
    some (3, 1) := by decide +kernel

/-! Scalar floating point: 1 + 1, a tie to even, 1 / 0, a comparison with a quiet NaN, a saturated conversion. -/

theorem test_fadd : xAfter (.faddF 5 6 7 0) (withX [(6, 0x3F800000), (7, 0x3F800000)]) 5 = some 0x40000000 := by decide +kernel
theorem test_fadd_tie : after (exec (.faddF 5 6 7 0) (withX [(6, 0x3F800000), (7, 0x33800000)])) (fun t => (t.cur.getX 5, t.cur.fpstat)) =
    some (0x3F800000, 1) := by decide +kernel
theorem test_fdiv_zero : after (exec (.fdivF 5 6 7 0) (withX [(6, 0x3F800000)])) (fun t => (t.cur.getX 5, t.cur.fpstat)) =
    some (0x7F800000, 8) := by decide +kernel
theorem test_fle_nan : after (exec (.fleF 5 6 7) (withX [(6, 0x7FC00000)])) (fun t => (t.cur.getX 5, t.cur.fpstat)) = some (0, 0) := by
  decide +kernel
theorem test_fcvt_saturates : xAfter (.fcvtWF 5 6 0) (withX [(6, 0xCF800000)]) 5 = some 0xFFFFFFFF80000000 := by decide +kernel
theorem test_fmadd_once : xAfter (.fmsubF 5 6 6 7 0) (withX [(6, 0x3F800001), (7, 0x3F800002)]) 5 = some 0x28800000 := by decide +kernel

/-! Vectors: v1 holds 1 2 3 4, v2 2 4 6 8, m1 elements 0 and 2. -/

theorem test_vadd : vAfter (.vaddVV 3 1 2 0) (vec []) 3 = some [3, 6, 9, 12] := by decide +kernel
theorem test_vsub_masked : vAfter (.vsubVX 2 2 6 1) (vec [(6, 1)]) 2 = some [1, 4, 5, 8] := by decide +kernel
theorem test_vfrint : vAfter (.vfrint 3 1 3 0) ((vec []).setCur { (vec []).cur with vregs := [(1, 0x000000000000000000000000BE99999A)] }) 3 =
    some [0x80000000, 0, 0, 0] := by decide +kernel
theorem test_vfcvt_ties : vAfter (.vfcvtFW 3 1 0 0) ((vec []).setCur { (vec []).cur with vregs := [(1, 16777217)] }) 3 =
    some [0x4B800000, 0, 0, 0] := by decide +kernel
theorem test_vfnma_sign : vAfter (.vfnmaVV 3 1 2 0) ((vec []).setCur { (vec []).cur with vl := 1, vregs := [] }) 3 = some [0x80000000, 0, 0, 0] := by
  decide +kernel
theorem test_vclt : after (exec (.vcltVX 2 1 6 0) (vec [(6, 3)])) (fun t => t.cur.mreg 2) = some 3 := by decide +kernel
theorem test_vmpopc : xAfter (.vmpopc 5 1 0) (vec []) 5 = some 2 := by decide +kernel
theorem test_slide : vAfter (.vslideup 3 1 6 0) (vec [(6, 3)]) 3 = some [0, 0, 0, 1] ∧
    vAfter (.vslidedn 3 1 6 0) (vec [(6, 3)]) 3 = some [4, 0, 0, 0] := by decide +kernel
theorem test_compress : vAfter (.vcompress 3 1 1) (vec []) 3 = some [1, 3, 0, 0] ∧ vAfter (.vexpand 3 2 1) (vec []) 3 = some [2, 0, 4, 0] := by
  decide +kernel
theorem test_redsum : vAfter (.vredsum 3 1 2 0) (vec []) 3 = some [12, 0, 0, 0] := by decide +kernel
theorem test_vseq : vAfter (.vseq 0 3 5 0xFFFE) (vec []) 3 = some [5, 3, 1, 0xFFFFFFFF] := by decide +kernel

/-! Traps, status registers, holds, streams and leases. -/

theorem test_trapi : after (exec (.trapi 9) (demo.setCur { demo.cur with pc := 64, trapvec := 0x8000 }))
    (fun t => (t.cur.level, t.cur.trappc, t.cur.trapcause, t.cur.trapinfo)) = some (.pl1, 64, 0x0B, 9) := by decide +kernel
theorem test_privileged : after (exec .eret demo) (fun t => (t.cur.level, t.cur.trapcause)) = some (.pl1, 3) := by decide +kernel
theorem test_hold_quota : xAfter (.hold 5 6) (holder 0 0 []) 5 = some (-2) := by decide +kernel
theorem test_hold_norow : xAfter (.hold 5 7) (holder 1 0 []) 5 = some (-3) := by decide +kernel
theorem test_spos_unbound : xAfter (.spos 5 3) streaming 5 = some (-1) := by decide +kernel
theorem test_vector_load : vAfter (.vld 3 0 0) (poke streaming 0x1000 8 0x0000000900000007) 3 = some [7, 9, 0, 0] := by
  decide +kernel
theorem test_lease_handle : xAfter (.lease 5 6) (leaser 1 [] []) 5 = some 0x1000000 := by decide +kernel
theorem test_copystat : xAfter (.copystat 5 2) tagged 5 = some 0 := by decide +kernel

/-- R38's worked address: row 0x84D4 of stack 6, pseudo-channel 7, bank group 2, bank 3. -/
theorem test_row : rowOf 0x00426A5C3E80 = 0x84D4 * 2 ^ 14 + (4 * 3 + 2) * 512 + 6 * 64 + 7 := by decide +kernel

/-- A step from reset with ADDI x5, x0, 7 where it fetches. -/
theorem test_step : after (step (State.reset.withFetchWord 32 0x0000000D)) (fun t => t.cur.pc) = some 4 := by decide +kernel

/-- A request of a session, one of no session, a load to be probed, and what else the statements about events assume. -/
theorem witness_events : (Instr.sessionKeyExchange ⟨9, true⟩).wf = true ∧ (Instr.sessionKeyExchange ⟨9, true⟩).bytes = 0 ∧
    (Instr.sub 1 2 3).bytes ≠ 0 ∧ { managed with trust := { stage := .open } }.trust.inSession = false ∧
    (∀ r ∈ managed.incoming, r.rkey ≠ 0) ∧ demo.refreshOf 5 ≠ .opened ∧
    ({ demo with refresh := [(5, .opened)] } : State).refreshOf 5 = .opened ∧
    3 ≤ symbolsApart (leBytes 64 0x100010001) (readBytes demo.mem 0 64) ∧ (leBytes 64 0x100010001).length = 64 ∧
    { demo.cur with checkmode := 1 }.checkmode = 1 ∧ { demo.cur with checkmode := 2 }.checkmode = 2 ∧
    (∀ g ∈ demo.hartsOfCtx 1, (demo.hart g).late = []) ∧ demo.islandStopped 0 = false := by
  and_intros <;> first | decide +kernel | exact ok_of (by decide +kernel) | rfl

theorem witness_probe : let e := { entry (.ld 3 0 0) 4 with vconf := 0x818 }
    let s := streaming.setCur { streaming.cur with vq := [e] }
    s.queuesHeld 0 = false ∧ (s.hart 0).mq = [] ∧ ((s.setHart 0 ((s.hart 0).asSeen e.seq)).probeVector 0 e).toOption.isSome = true ∧
    (match (demo.setHart 0 ((demo.hart 0).asSeen e.seq)).probeVector 0 e with
     | .ok _ => false
     | .error _ => true) = true := by
  and_intros <;> first | decide +kernel | exact ok_of (by decide +kernel) | rfl

theorem witness_wait_word : let s := withTask (readyTask 2 (leBytes 8 0x1000 ++ leBytes 8 3 ++ waitPacket.drop 16))
    (reach 0x1000).void = false ∧ (reach 0x1000).taint = none ∧ (s.assignPage (reach 0x1000).leaf).poisoned (reach 0x1000).pa 8 = false ∧
    s.migqOn = false := by
  and_intros <;> first | decide +kernel | rfl

theorem witness_destroyed : let t : Machine.Task := { id := 0, queue := 0, pos := 0, asid := 1, order := 0, st := .waiting }
    let s : State := { managed with tasks := [t] }
    Claims.managing s ∧ (∃ w ∈ s.tasks, w.queue = 0 ∧ w.st ≠ .posted) ∧ (∀ v ∈ s.tasks, v.order = t.order → v = t) ∧
    ({ managed with queues := [(0, { live := true, closing := true, asked := true })] } : State).queue 0 =
      { live := true, closing := true, asked := true } := by
  refine ⟨⟨rfl, by decide +kernel⟩, ⟨_, List.mem_singleton.mpr rfl, by decide, by decide⟩, ?_, rfl⟩
  intro v hv _
  exact List.mem_singleton.mp hv

theorem witness_poisoned_aperture : ({ grouped with poison := [0x80000] } : State).poisoned 0x2000000 8 = true ∧
    grouped.poisoned 0x2000000 8 = false ∧ (0x10000, 16) ∈ granuleParts 0xFFF0 32 ∧ grouped.apertureAt 7 0x10000 = none ∧
    (∀ p ∈ grouped.ctxs, p.2.live = true → ∀ m ∈ p.2.members, m.gid ≠ 8) := by
  refine ⟨?_, ?_, ?_, ?_, ?_⟩ <;> decide +kernel

theorem witness_barrier_checks : let s := barrier 0 0 0 0 none
    (s.assignPage none).poisoned Config.sramBase 24 = false ∧ s.walkTaint (s.space s.turn) (s.cur.getX 6).toNat = none := by
  and_intros <;> first | decide +kernel | rfl

/-! ### Tools: Tables 1-8 and 1-9, and what the statements about tools assume -/

theorem test_la_words : ((Pseudo.la 5 0x40035A7C).expand 0x40002010).map (fun l => l.flatMap encodeWords) =
    some [0x00034529, 0xE9F0A509] := by decide +kernel
theorem test_li_words : ((Pseudo.li 9 0x3F800000).expand 0).map (fun l => l.flatMap encodeWords) = some [0x0000092E, 0x3F800000] ∧
    ((Pseudo.li 5 (-1)).expand 0).map (fun l => l.length) = some 1 ∧
    ((Pseudo.li 5 0x80000000).expand 0).map (fun l => l.length) = some 2 := by decide +kernel
theorem test_branch_back_word : Reloc.br11.apply 0x0004055D 0x100 0 0x10C 0 = some 0xFFA4055D := by decide +kernel
theorem test_reloc_reach : Reloc.br11.apply 0x0004055D 0x1102 0 0x100 0 = none ∧ Reloc.br11.apply 0x0004055D 0x1100 0 0x100 0 = none ∧
    Reloc.br11.apply 0x0004055D 0x10FC 0 0x100 0 ≠ none := by decide +kernel
theorem test_lo_hi : loPart 0x40035A7C = -1412 ∧ pcPart 0x40002010 0x40035A7C = 26 ∧ hiPart 0x40035A7C = 0x2001B := by decide +kernel
theorem test_float_imm : floatImm fp32 false 75 (-2) = 0x3F400000 ∧ floatImm fp32 true 1 2 = 0xC2C80000 ∧
    floatImm bf16 false 1 (-1) = 0x3DCD := by decide +kernel
theorem test_align : (alignBytes 16 4 true).map (·.length) = some 12 ∧ alignBytes 8 5 false = some [0, 0, 0] := by decide +kernel
theorem test_disassemble : (match disassemble [0x05, 0xC5, 0x1C, 0x00, 9] with
    | (.inl (.add 5 6 7), [9]) => true
    | _ => false) = true := by decide +kernel

theorem witness_pseudo : (∃ is, Pseudo.nop.expand demo.cur.pc = some is) ∧ (∃ is, (Pseudo.mv 5 6).expand demo.cur.pc = some is) ∧
    demo.cur.anyPending [5, 6] = false ∧ demo.cur.anyPending [5] = false ∧ demo.cur.anyPending [1] = false ∧
    (∃ is, (Pseudo.li 5 7).expand demo.cur.pc = some is) ∧ (∃ is, (Pseudo.la 5 0x1000).expand demo.cur.pc = some is) ∧
    (∃ is, Pseudo.ret.expand demo.cur.pc = some is) ∧ (demo.cur.getX 1).toNat % 4 = 0 :=
  ⟨⟨_, rfl⟩, ⟨_, rfl⟩, by decide, by decide, by decide, ⟨_, rfl⟩, ⟨_, rfl⟩, ⟨_, rfl⟩, by decide⟩

theorem witness_relocations : encodeWords (.lui 5 0) = [0x00000525] ∧
    Reloc.hi19.apply 0x00000525 0x40035A7C 0 0 0 = some 0x40036525 ∧
    (decode (bytesOfWord 0x40036525) = .ok (.lui 5 (BitVec.ofInt 19 (hiPart 0x40035A7C).toInt), [])) ∧
    encodeWords (.addpc 5 0) = [0x00000529] ∧ (Reloc.pc19.apply 0x00000529 0x40035A7C 0 0x40002010 0).isSome = true ∧
    (Reloc.linkPc19.apply 0x00000529 0 0 0x40002010 0x40035A7C).isSome = true ∧
    encodeWords (.addi 5 5 0) = [0x0000A509] ∧ (Reloc.lo14.apply 0x0000A509 0x40035A7C 0 0 0).isSome = true ∧
    (Reloc.linkLo14.apply 0x0000A509 0 0 0 0x40035A7C).isSome = true ∧
    encodeWords (.beq 6 7 0) = [0x0000E65D] ∧ Reloc.br11.apply 0x0000E65D 0x10 0 0 0 = some 0x0080E65D ∧
    encodeWords (.j 0) = [0x00000061] ∧ Reloc.jp24.apply 0x00000061 0x10 0 0 0 = some 0x00000461 ∧
    (Reloc.jp24.apply 0x00000061 0x12 0 0 0).isNone = true := by
  and_intros <;> first | decide +kernel | exact ok_of (by decide +kernel) | rfl

/-- Lines of a launch block and of a declaration whose values fit their fields, and operands of a stream. -/
def launchLines : List (String × List Word) :=
  [("entry", [0x1000]), ("cores", [2]), ("lanes", [8, 4, 2, 0]), ("tags", [1, 2, 3, 4]), ("harts", [-1]), ("handler", [0x80])]
def declLines : List (String × List Word) := [("bbase", [0x4000]), ("period", [256]), ("mb", [2]), ("drainer", [1])]
def streamOps : List Word := [0x1000, 5, 1, 0, 0, 4, 2, 1, 1, 4, 8, 0, 0, 0, 0, 0, 0]

/-- R27: values at the offsets of Tables 15-5, 11-1 and 3-4; a repeated keyword, an unknown one, a wrong number of values and a value too
large are errors. -/
theorem test_blocks : ((blockBytes launchRows launchLines).map (fun bs =>
      (bs.length, field bs 0 8, field bs 0x14 1, field bs 0x15 1, field bs 0x16 4, field bs 0x50 8)))
        = some (128, 0x1000, 2, 255, 0x00020408, 0x80) ∧
    ((blockBytes declRows declLines).map (fun bs => (bs.length, field bs 0 8, field bs 0x28 4, field bs 0x2C 2, field bs 0x37 1)))
        = some (64, 0x4000, 256, 2, 1) ∧
    ((streamBytes streamOps).map (fun bs => (bs.length, field bs 0 8, field bs 8 1, field bs 0x10 4, field bs 0x14 4)))
        = some (64, 0x1000, 5, 4, 2) ∧
    blockBytes declRows (declLines ++ [("mb", [2])]) = none ∧ blockBytes declRows [("nobase", [0])] = none ∧
    blockBytes launchRows [("lanes", [8, 4])] = none ∧ blockBytes declRows [("mb", [65536])] = none ∧ streamBytes [] = none := by
  and_intros <;> decide +kernel

theorem witness_launch_block : (launchLines.map (fun l => l.1)).Nodup ∧
    ∀ l ∈ launchLines, ∃ p ∈ Claims.launchPlaces, p.key = l.1 ∧ l.2.length = p.count ∧ ∀ v ∈ l.2, Claims.fits p.size v := by
  refine ⟨by decide, ?_⟩
  simp only [launchLines, Claims.launchPlaces, List.forall_mem_cons, Claims.fits]
  simp

theorem witness_decl_block : (declLines.map (fun l => l.1)).Nodup ∧
    (∀ l ∈ declLines, ∃ p ∈ Claims.declPlaces, p.key = l.1 ∧ l.2.length = p.count ∧ ∀ v ∈ l.2, Claims.fits p.size v) ∧
    streamOps.length = 17 := by
  refine ⟨by decide, ?_, rfl⟩
  simp only [declLines, Claims.declPlaces, List.forall_mem_cons, Claims.fits]
  simp

/-- The loader writes the page-table entry that maps a page readable and executable (R438). -/
theorem test_loader : after (step { demo with agenda := [.loaded 0x1003008 (leBytes 8 (0x2010000 + (pageRights true false true).getD 0 + 1))] })
    (fun t => (t.probe (t.space 0) .fetch 0x10000).toOption.map (fun r => r.pa)) = some (some 0x2010000) := by
  decide +kernel

/-! ### Witnesses: ways that wait, images with entries, sums and estimates -/

/-- A load of hart 0 in flight, from a page of a peer. -/
def loadingFar (st : PortState) : State :=
  let s := braided st
  s.setCur { s.cur with vq := [{ entry (.ld 1 0 0) 4 with
    admitted := true, probed := true, landed := true, pieces := [⟨0, 0x1000, 4, far 0x1000, false⟩] }] }

/-- A state of hart 0 after its hart took a trap, with a load that has not been admitted. -/
def trappedLoading : State := match loading.takeTrap 0 { cause := causeTrapi, pc := 0 } with
  | .next t => t
  | _ => demo

theorem witness_runs_out : let r : TrapRec := { cause := causeTrapi, pc := 0 }
    let s := loadingFar .retraining
    (demo.ranOut 0 r).runsStill 0 = false ∧ demo.cur.late = [] ∧ demo.cur.vq = [] ∧ (s.ranOut 0 r).runsStill 0 = true ∧
    (0 < Config.harts ∧ (s.hart 0).level = .pl0 ∧ s.trust.updating = none ∧ s.imageOk = true) ∧
    trappedLoading.cur.level = .pl1 ∧ trappedLoading.imageOk = true ∧ (trappedLoading.hartOfImage 0).isSome = true ∧
    readNat trappedLoading.mem (trappedLoading.imageAt 0 + 0x20) 4 = 1 ∧ demo.performLate 0 = demo := by
  and_intros <;> first | decide +kernel | exact ok_of (by decide +kernel) | rfl

/-- The entry that a trap wrote comes back (R372, Table 17-5). -/
theorem test_image_entry : after (exec .eret trappedLoading) (fun t => t.cur.vq.map (fun e => (e.op, e.vl, e.seq)))
    = some [(.ld 1 0 0, 4, 0)] := by
  decide +kernel

theorem witness_bank_fits : Claims.bankFits (holder 1 0 []) (pchOfRow (rowOf 0x1000)) (rowOf 0x1000) := by
  refine ⟨fun i j r q h _ => ?_, fun i r h => ?_⟩ <;>
  · obtain ⟨-, ⟨a, ha⟩, -⟩ := h
    cases ha

theorem witness_bank_full : let row := rowOf 0x1000
    let p := 8 * pchOfRow row
    ¬ Claims.bankFits (holder 1 0 [(p, { held := some (1, row + 1) }), (p + 1, { held := some (2, row + 1) })]) (pchOfRow row) row := by
  intro row p h
  have := h.2 0 (row + 1) ⟨by decide, ⟨1, by decide +kernel⟩, by decide +kernel⟩
  exact this (by decide +kernel)

theorem witness_holds_go : let s := holder 1 1 [(5, { held := some (1, 7) })]
    (∀ key, 4096 ≤ key → (s.holdSlot key).held = none) ∧ (0xFE : Word).getLsbD (5 / 512) = false ∧
    ((s.holdSlot 5).held.map (·.1)) = some 1 ∧ (s.ctx 1).lost.length + 4096 ≤ 65535 ∧
    (1 : Word) ∉ List.replicate 65535 (0 : Word) ∧ (List.replicate 65535 (0 : Word)).length = 65535 := by
  refine ⟨fun key h => ?_, by decide, by decide +kernel, by decide +kernel, ?_, List.length_replicate⟩
  · have : key ≠ 5 := by omega
    simp [holder, State.holdSlot, tget, Ne.symm this]
  · rw [List.mem_replicate]
    exact fun h => absurd h.2 (by decide)

theorem witness_sums : let c : Cap := { ew := 32, vl := 4, vlmax := 8, lanes := 1, lam := false, rm := 0, ops := [] }
    (c.ew = 32 ∨ c.ew = 16) ∧ 0 < c.lanes ∧ c.lanes ≤ 16 ∧ ¬ (∀ i, i < c.vl → (fun _ => true) i = false) := by
  refine ⟨.inl rfl, by decide, by decide, fun h => absurd (h 0 (by decide)) (by decide)⟩

theorem witness_estimates : (∃ m e, fp32.value 0x40400000 = .fin false m e) ∧ (∃ m e, fp32.value 0xC0400000 = .fin true m e) ∧
    (0x00800000 ≤ (recipElem 32 0x40400000).1 % 2 ^ 31 ∧ (recipElem 32 0x40400000).1 % 2 ^ 31 < 0x7F800000) ∧
    (0x00800000 ≤ (rsqElem 32 0x40400000).1 % 2 ^ 31 ∧ (rsqElem 32 0x40400000).1 % 2 ^ 31 < 0x7F800000) ∧
    (expElem 32 0x40400000).1 < 0x7F800000 ∧
    [(0 : Int), 127, -126, -147, -148, 128].map (fun n => (fp32.round 0 (FVal.ofInt n)).1)
      = [0, 0x42FE0000, 0xC2FC0000, 0xC3130000, 0xC3140000, 0x43000000] ∧
    fp32.value 0 = .zero false ∧ fp32.value 0x80000000 = .zero true ∧ fp32.value 0x7F800000 = .inf false ∧
    fp32.value 0xFF800000 = .inf true := by
  refine ⟨⟨_, _, rfl⟩, ⟨_, _, rfl⟩, ?_⟩
  and_intros <;> decide +kernel

theorem witness_exact_sum : (∀ v ∈ [fp32.value 0x3F800000], ∃ z, v = .zero z ∨ ∃ m e, v = .fin z m e ∧ -200 ≤ e) ∧
    (∀ v ∈ [fp32.value 0x3F800000], v.isNan = false) := by
  refine ⟨fun v h => ?_, by decide +kernel⟩
  cases List.mem_singleton.mp h
  exact ⟨false, .inr ⟨_, _, rfl, by decide⟩⟩

/-! ### Witnesses: vector memory traps, copies, strips -/

/-- A stream 0 to store of a format, at a place and position. -/
def storing (fmt : Byte) (base : Word) (pos : BitVec 48) : State :=
  streaming.setCur { streaming.cur with streams := [(0, { bound := true, desc := { row32 base 1 with fmt := fmt }, pos := pos })] }

theorem witness_stream_codes :
    (Claims.stream streaming 3).bound = false ∧ (Claims.stream streaming 0).desc.isStore ≠ true ∧
    widenRefused 10 16 = true ∧ (Claims.stream (storing 5 0x1000 0) 0).desc.blocky = true ∧
    (Claims.stream (storing 5 0x1000 0) 0).pos.toNat % 32 = 0 ∧ Claims.vl streaming % 32 ≠ 0 ∧
    (Claims.stream (storing 0 0x1000 6) 0).desc.total < (Claims.stream (storing 0 0x1000 6) 0).pos.toNat + Claims.vl streaming ∧
    (Claims.stream (storing 0 0x1004 0) 0).desc.base.toNat % 8 ≠ 0 ∧
    (let s := Claims.atHead (storing 0 0x20000 0) (.st 1 0 0)
     (s.probeAll (s.space 0) .write (touches s.cur (s.cur.stream 0) (Claims.captured streaming) 0 .none false)).1.map (fun t => t.i)) = [0, 1, 2, 3] := by
  and_intros <;> decide +kernel

theorem witness_copy_faults : let s : State := { withLeaf 0x2000005 with copies := [(0, fill)] }
    (match s.copyStep 0 fill with
     | .error (.transfer f _ _) => f.cause == causePerm
     | _ => false) = true ∧
    (let b : State := { braided .retraining with copies := [(0, fill)] }
     b.copyHeld fill = true ∧ b.thermal = .normal) := by
  and_intros <;> decide +kernel

theorem witness_transfers : (let s := sender {}
      (0x2002 < 2 ^ 14 ∧ 2 ^ 13 ≤ 0x2002 ∧ (s.hart (sendHart 0x2002)).run = .running ∧ (s.hart (sendHart 0x2002)).asid = s.cur.asid) ∧
      sendHart 0x2002 = s.turn ∧ (s.cur.slot (sendSlot 0x2002)).st = .free ∧ (s.cur.slot (sendSlot 0x2002)).waiters = [] ∧
      (s.cur.slot 3).st ≠ .free) ∧
    (let s := braided .retraining
     s.pathWaits (braidPeer 0x31000021000) = true ∧ s.braidGroup 1 0x31000021000 = some 7) ∧
    (let s := braided .up
     s.pathWaits (braidPeer 0x31000021000) = false ∧ s.hasRefusal 0 0x1000012 = false ∧
     ({ s with peers := [{ peer with refused := [(0, 1, 2)] }] } : State).hasRefusal 0 0x1000012 = true) := by
  and_intros <;> decide +kernel

/-! ### Witnesses: the feeder, entering beats, packets of a cascade -/

theorem witness_feed_entry (c : Word) : let e : Entry := { entry (.mfeed 8 6) 0 with ops := [c] }
    let s := { (milling { running with nextOperand := 1 }) with eager := false }
    let s := s.setCur { s.cur with vq := [e] }
    (s.hart 0).vq = [e] ∧ (s.hart 0).mq = [] ∧ s.queuesHeld 0 = false ∧ (s.mill 0).ended = false ∧ (s.mill 0).tiles = [] := by
  and_intros <;> rfl

theorem witness_entering : let m := { running with nextOperand := 2, tick := 512, bBeat := 1, nextBeat := 1, blocks := [{ first := 0 }], runs := [beat false] }
    m.entering = true ∧ (∀ r ∈ m.runs, r.entered = true ∨ m.inTurn (r.start + 256) false = true) ∧
    (let w := { m with nextOperand := 0 }
     w.entering = true ∧ ∃ r ∈ w.runs, r.entered = false ∧ w.inTurn (r.start + 256) false = false) ∧
    (milling m).tasks = [] ∧ (milling m).islandStopped 0 = false := by
  and_intros <;> decide +kernel

theorem witness_emits : let s := cascading [(6, packet64)] none
    let dense : Stage := stage 4
    (s.stageOf 0).isSome = true ∧ ({ dense with closed := true } : Stage).closed = true ∧ (stage 0).cap ≤ (stage 0).load ∧
    dense.load < dense.cap ∧ dense.thresh = 0 ∧
    ({ dense with thresh := 8 } : Stage).thresh ≠ 0 ∧ 8 * popc 8 (pktMask ([0, 0, 0, 0, 0, 0, 0, 0, 1, 2] ++ zeros 54)) <
      ({ dense with thresh := 8 } : Stage).thresh * pktCount ([0, 0, 0, 0, 0, 0, 0, 0, 1, 2] ++ zeros 54) ∧
    ¬ Claims.packetKept (zeros 64) ∧ s.task 0 = s.tasks.head? ∧ s.tasks.head?.isSome = true ∧
    (∀ t ∈ s.tasks, t.asid = s.cur.asid.toNat ∧ t.st = .ready ∧ t.typ = 3 ∧ t.stages ≠ []) ∧
    (readyTask 2 []).typ ≠ 3 := by
  refine ⟨?_, ?_, ?_, ?_, ?_, ?_, ?_, fun h => absurd h.1 ?_, ?_, ?_, ?_, ?_⟩ <;> decide +kernel

/-! ### Witnesses: packets that name memory -/

/-- A launch with a footprint card, a copy task and a cascade of one stage, and the records that they name. -/
def cardPacket (card : Nat) : List Byte := writeField (launchPacket) 0x48 card
where writeField (p : List Byte) (off v : Nat) : List Byte := p.take off ++ leBytes 8 v ++ p.drop (off + 8)
def copyPacket : List Byte := leBytes 8 0x1000 ++ leBytes 8 0x1040 ++ zeros 108 ++ leBytes 4 1
def cascadePacket : List Byte := leBytes 8 0x1100 ++ leBytes 4 1 ++ zeros 112 ++ leBytes 4 3

theorem witness_named_memory : let s := queued 1 (cardPacket 0x1100)
    (s.notePosts = s ∧ s.intakeOpen = true ∧ (s.queue 0).live = true ∧ s.queueErr (s.queue 0) = false ∧ (s.ctx 1).live = true) ∧
    readBytes s.mem ((s.queue 0).slot 0) 128 = cardPacket 0x1100 ∧ packetReason (s.ctx 1) s.workingCores (cardPacket 0x1100) = none ∧
    field (cardPacket 0x1100) 0x7C 4 = 0 ∧ field (cardPacket 0x1100) 0x48 8 = 0x1100 ∧ field (cardPacket 0x1100) 0x1C 2 / 8 % 2 = 0 ∧
    ((s.readVirtual 1 0x1100 128).toOption.map (fun r => r.2.length)) = some 128 ∧
    (match s.readVirtual 1 0x20000 128 with
     | .error f => f.absent
     | .ok _ => false) = true ∧
    packetReason (s.ctx 1) s.workingCores copyPacket = none ∧ field copyPacket 0x7C 4 = 1 ∧
    ((s.readVirtual 1 0x1000 64).toOption.isSome && (s.readVirtual 1 0x1040 64).toOption.isSome) = true ∧
    packetReason (s.ctx 1) s.workingCores cascadePacket = none ∧ field cascadePacket 0x7C 4 = 3 ∧ field cascadePacket 0x48 8 = 0 ∧
    field cascadePacket 8 1 = 1 ∧ launchReason (s.ctx 1) s.workingCores launchPacket true = none := by
  and_intros <;> first | decide +kernel | rfl

/-! ### Witnesses: imprecise causes, apertures -/

theorem witness_causes : (let h := { demo.cur with checkmode := 1, vq := [{ entry (.bin .fadd 3 1 (.vec 2) 0) 4 with admitted := true }] }
      h.checkmode = 1 ∧ ∃ e ∈ h.vq, e.admitted = true ∧ qInLanes e.op = true) ∧
    demo.cur.checkmode ≠ 1 ∧ ({ priv [] with agenda := [] } : State).cur.level = .pl1 ∧ demo.stopped 0 = false ∧
    demo.probe (demo.space 0) .read 0x1000 = .ok (reach 0x1000) ∧ (demo.ctx 1).ending = none := by
  refine ⟨⟨rfl, ?_⟩, ?_, ?_, ?_, ok_of ?_, ?_⟩ <;> decide +kernel

theorem witness_tainted_aperture : grouped.walkTaint (grouped.taskSpace 1) 0 = none ∧
    (({ grouped with poison := [0x1003000 / 64] } : State).walkTaint (grouped.taskSpace 1) 0).isSome = true ∧
    Claims.standsStill { ganged false with thermal := .gated } { idx := 0, cores := [0], harts := [0] } := by
  refine ⟨by decide +kernel, by decide +kernel, 0, by decide, .inl (by decide)⟩

/-! ### Witnesses and tests: admission of vector entries -/

/-- An addition of 16 elements, alone in the queue of hart 0, which is not eager. -/
def adding : State :=
  let s := { vec [] with eager := false }
  s.setCur { s.cur with vl := 16, vq := [{ entry (.bin .add 3 1 (.vec 2) 0) 16 with vconf := 0x818 }] }

theorem witness_admission : adding.queuesHeld 0 = false ∧ adding.cur.mq = [] ∧ adding.cur.old = [] ∧
    Claims.stopsAt (adding.cur.vq.headD (entry (.bin .add 3 1 (.vec 2) 0) 16)) 10 = 8 ∧
    Claims.stopsAt (adding.cur.vq.headD (entry (.bin .add 3 1 (.vec 2) 0) 16)) 16 = 16 ∧
    Claims.stopsAt (adding.cur.vq.headD (entry (.bin .add 3 1 (.vec 2) 0) 16)) 7 = 0 := by
  and_intros <;> decide +kernel

/-- R378: an admission up to element 10 stops at 8, a boundary of an element group, and the next ends the instruction. -/
theorem test_admission : after (exec (.vectorAdmission 0 0 10) adding) (fun t =>
      (t.cur.vq.map (fun e => (e.eidx, e.admitted)), elem (t.cur.vreg 3) 32 3)) = some ([(8, true)], 12) ∧
    after (exec (.vectorAdmission 0 0 16) ((after (exec (.vectorAdmission 0 0 10) adding) id).getD demo)) (fun t =>
      (t.cur.vq, elem (t.cur.vreg 3) 32 2)) = some ([], 9) ∧
    after (exec (.vectorAdmission 0 0 16) ((after (exec (.vectorAdmission 0 0 10) adding) id).getD demo)) id =
      after (exec (.vectorAdmission 0 0 16) adding) id := by
  and_intros <;> decide +kernel

theorem witness_posted_load : let s := { streaming with eager := false }
    decodeQueued (encodeWords (.vld 3 0 0)).head! 0 = .ok (.ld 3 0 0) ∧ s.cur.vq = [] ∧ s.cur.late = [] ∧ s.cur.level = .pl0 ∧
    after (exec (.vld 3 0 0) s) (fun t => (t.cur.vq.length, t.queuesHeld 0)) = some (1, false) ∧
    after (exec (.vld 3 0 0) streaming) (fun t => t.cur.vq) = some [] := by
  refine ⟨ok_of ?_, ?_, ?_, ?_, ?_, ?_⟩ <;> decide +kernel

/-! ### Objects -/

/-- The object of R426 in short: a call through the linkage entry of solve, a launch block, a kernel and a resolver. -/
def lazyCall : List (Option String × Option AsmStmt) := [
  (none, some (.extern "solve")), (none, some (.select ".link" (some (true, true, false)))), (none, some (.link "solve")),
  (none, some (.select ".data" none)), (none, some (.align 8)), (some "tgt", some (.data 8 [.num 0])), (some "done_w", some (.data 8 [.num 1])),
  (none, some (.select ".rodata" none)), (some "x", some (.data 1 [.num 3])),
  (some "desc", some (.launch [("entry", [.sym "caller"]), ("cores", [.num 2]), ("lanes", [.num 1, .num 2, .num 3, .num 4]), ("done", [.sym "done_w"])])),
  (none, some (.select ".text" none)), (none, some (.kernel "caller")),
  (some "caller", some (.instr (.addpc 5 0) [⟨0, .linkPc19, "solve", 0⟩])), (none, some (.instr (.ld 6 5 0) [⟨0, .linkLo14, "solve", 0⟩])),
  (none, some (.instr (.jlr 1 6 0) [])), (none, some .kend), (none, some (.global "solve.resolve")),
  (some "solve.resolve", some (.instr (.trapi 1) []))]
def bases : List (String × Word) :=
  [(".text", 0x2000000000), (".link", 0x2000010000), (".data", 0x2000020000), (".rodata", 0x2000030000), (".kloca.kernels", 0x2000040000)]

/-- R26, R29, R426: the sections and their lengths; the launch block stands at 128. -/
theorem test_sections : (assemble lazyCall {}).map (fun o => (o.sections.map (fun s => (s.name, s.bytes.length, s.align)), (o.syms.find? (fun p => p.1 == "desc")).map (·.2)))
    = some ([(".link", 8, 8), (".data", 16, 8), (".rodata", 256, 128), (".text", 16, 1), (".kloca.kernels", 32, 8)], some (.place ".rodata" 128)) := by
  decide +kernel

/-- R31, R426: the linkage entry holds the resolver's address until solve is loaded, and its address then. -/
theorem test_load : ((assemble lazyCall {}).bind (fun o => (o.load bases []).map (fun l => (l.map (fun x => ofLe (x.2.1.take 8))).head?))) = some (some 0x200000000C) ∧
    ((assemble lazyCall {}).bind (fun o => (o.load bases [("solve", 0x5000)]).map (fun l => (l.map (fun x => ofLe (x.2.1.take 8))).head?))) = some (some 0x5000) ∧
    ((assemble (lazyCall.take 16) {}).bind (fun o => o.load bases [])) = none := by
  and_intros <;> decide +kernel

/-- R204, R32: a slide onto its own source is ILLEGAL, and prints as a word. -/
theorem test_disassembly : disassemble (encode (.vslideup 1 1 5 0)) = (.inr (encode (.vslideup 1 1 5 0)), []) ∧
    disassemble (encode (.vslideup 2 1 5 0)) = (.inl (.vslideup 2 1 5 0), []) := by
  and_intros <;> decide +kernel

end Sys2Proof.Tests
end

/-! The scalar stream: results of the ALU, immediate and shift members, constants, branches and jumps (R306 to R312). -/

namespace Sys2Proof.Machine

open Sys2Proof Sys2Proof.Claims

/-! ### The operations of Table 14-4 as bit-vector operations -/

theorem wordOfBool_slt (x y : Word) : wordOfBool (x.slt y) = if x.toInt < y.toInt then 1 else 0 := by
  simp [wordOfBool, BitVec.slt_eq_decide]

theorem wordOfBool_ult (x y : Word) : wordOfBool (x.ult y) = if x.toNat < y.toNat then 1 else 0 := by
  simp [wordOfBool, BitVec.ult_eq_decide]

theorem shiftRightArith_eq_sshiftRight (x : Word) (n : Nat) : shiftRightArith x n = x.sshiftRight n := by
  rw [shiftRightArith, BitVec.sshiftRight, Int.shiftRight_eq_div_pow]

theorem rotateLeft_eq (x : Word) {n : Nat} (h : n < 64) : rotateLeft x n = x.rotateLeft n :=
  (BitVec.rotateLeft_eq_rotateLeftAux_of_lt h).symm

theorem rotateRight_eq (x : Word) {n : Nat} (h : n < 64) : rotateRight x n = x.rotateRight n :=
  (BitVec.rotateRight_eq_rotateRightAux_of_lt h).symm

theorem signedMin_eq (x y : Word) : (if y.slt x then y else x) = BitVec.ofInt 64 (min x.toInt y.toInt) := by
  rw [min_comm, min_def_lt, apply_ite (BitVec.ofInt 64), BitVec.ofInt_toInt, BitVec.ofInt_toInt]
  simp only [BitVec.slt_iff_toInt_lt]

theorem signedMax_eq (x y : Word) : (if x.slt y then y else x) = BitVec.ofInt 64 (max x.toInt y.toInt) := by
  rw [max_def_lt, apply_ite (BitVec.ofInt 64), BitVec.ofInt_toInt, BitVec.ofInt_toInt]
  simp only [BitVec.slt_iff_toInt_lt]

theorem unsignedMin_eq (x y : Word) : (if y.ult x then y else x) = BitVec.ofNat 64 (min x.toNat y.toNat) := by
  rw [min_comm, min_def_lt, apply_ite (BitVec.ofNat 64), BitVec.ofNat_toNat, BitVec.ofNat_toNat]
  simp only [BitVec.ult_iff_toNat_lt, BitVec.setWidth_eq]

theorem unsignedMax_eq (x y : Word) : (if x.ult y then y else x) = BitVec.ofNat 64 (max x.toNat y.toNat) := by
  rw [max_def_lt, apply_ite (BitVec.ofNat 64), BitVec.ofNat_toNat, BitVec.ofNat_toNat]
  simp only [BitVec.ult_iff_toNat_lt, BitVec.setWidth_eq]

theorem not_slt_eq_decide (x y : Word) : (!x.slt y) = decide (y.toInt ≤ x.toInt) := by
  rw [BitVec.slt_eq_decide, ← decide_not, decide_eq_decide, not_lt]

theorem not_ult_eq_decide (x y : Word) : (!x.ult y) = decide (y.toNat ≤ x.toNat) := by
  rw [BitVec.ult_eq_decide, ← decide_not, decide_eq_decide, not_lt]

theorem mul_eq_ofNat (x y : Word) : x * y = BitVec.ofNat 64 (x.toNat * y.toNat) :=
  BitVec.eq_of_toNat_eq (by simp)

theorem mulHighUnsigned_eq (x y : Word) :
    mulHighUnsigned x y = ((x.setWidth 128 * y.setWidth 128) >>> 64).setWidth 64 := by
  have hlt : x.toNat * y.toNat < 2 ^ 128 := (Nat.mul_lt_mul'' x.isLt y.isLt).trans_eq (by norm_num)
  have hx : x.toNat % 2 ^ 128 = x.toNat := Nat.mod_eq_of_lt (x.isLt.trans (by decide))
  have hy : y.toNat % 2 ^ 128 = y.toNat := Nat.mod_eq_of_lt (y.isLt.trans (by decide))
  apply BitVec.eq_of_toNat_eq
  simp only [mulHighUnsigned, BitVec.toNat_ofNat, BitVec.toNat_setWidth, BitVec.toNat_ushiftRight, BitVec.toNat_mul,
    hx, hy, Nat.mod_eq_of_lt hlt, Nat.shiftRight_eq_div_pow]

/-- Bits [127:64] of a 128-bit number read as signed are its quotient by 2^64, rounded down. -/
theorem setWidth_ushiftRight_eq_ofInt (z : BitVec 128) :
    (z >>> 64).setWidth 64 = BitVec.ofInt 64 (z.toInt / ((2 ^ 64 : Nat) : Int)) := by
  apply BitVec.eq_of_toNat_eq
  have := z.isLt
  simp only [BitVec.toNat_setWidth, BitVec.toNat_ushiftRight, BitVec.toNat_ofInt, Nat.shiftRight_eq_div_pow,
    BitVec.toInt_eq_toNat_cond]
  split <;> omega

theorem toInt_signExtend_mul (x y : Word) : (x.signExtend 128 * y.signExtend 128).toInt = x.toInt * y.toInt := by
  have hle := BitVec.toInt_mul_toInt_le (x := x) (y := y)
  have hge := BitVec.le_toInt_mul_toInt (x := x) (y := y)
  rw [BitVec.toInt_mul, BitVec.toInt_signExtend_of_le (by decide), BitVec.toInt_signExtend_of_le (by decide)]
  exact Int.bmod_eq_of_le (by omega) (by omega)

theorem mulHighSigned_eq (x y : Word) :
    mulHighSigned x y = ((x.signExtend 128 * y.signExtend 128) >>> 64).setWidth 64 := by
  rw [setWidth_ushiftRight_eq_ofInt, toInt_signExtend_mul, mulHighSigned]

theorem divUnsigned_eq (x y : Word) : divUnsigned x y = if y = 0 then BitVec.allOnes 64 else x / y := by
  rw [divUnsigned, BitVec.udiv_def]

theorem remUnsigned_eq (x y : Word) : remUnsigned x y = if y = 0 then x else x % y := by
  rw [remUnsigned, BitVec.umod_def]

theorem divSigned_eq (x y : Word) : divSigned x y = if y = 0 then BitVec.allOnes 64 else x.sdiv y := by
  have key : BitVec.ofInt 64 (x.toInt.tdiv y.toInt) = x.sdiv y :=
    BitVec.eq_of_toInt_eq (by rw [BitVec.toInt_sdiv, BitVec.toInt_ofInt])
  rw [divSigned, key]

theorem remSigned_eq (x y : Word) : remSigned x y = if y = 0 then x else x.srem y := by
  have key : BitVec.ofInt 64 (x.toInt.tmod y.toInt) = x.srem y := by
    rw [← BitVec.toInt_srem, BitVec.ofInt_toInt]
  rw [remSigned, key]

theorem divSigned_intMin_allOnes : divSigned (BitVec.intMin 64) (BitVec.allOnes 64) = BitVec.intMin 64 := by decide

theorem remSigned_intMin_allOnes : remSigned (BitVec.intMin 64) (BitVec.allOnes 64) = 0 := by decide

theorem signed_eq_toInt (n v : Nat) : signed n v = (BitVec.ofNat n v).toInt := by
  have half : 2 * (v % 2 ^ n) < 2 ^ n ↔ v % 2 ^ n < 2 ^ (n - 1) := by
    cases n with
    | zero => simp [Nat.mod_one]
    | succ n => rw [Nat.pow_succ, Nat.add_sub_cancel]; omega
  simp only [signed, BitVec.toInt_eq_toNat_cond, BitVec.toNat_ofNat, half]

theorem sext_eq_signExtend (n : Nat) (x : Word) : sext n x.toNat = (x.setWidth n).signExtend 64 := by
  have cut : BitVec.ofNat 64 (wrap 64 (signed n x.toNat)) = BitVec.ofInt 64 (signed n x.toNat) :=
    BitVec.eq_of_toNat_eq (by simp [wrap, BitVec.toNat_ofInt]; omega)
  rw [sext, cut, signed_eq_toInt, BitVec.ofNat_toNat, BitVec.signExtend]

theorem zext_eq_setWidth (n : Nat) (x : Word) : zext n x.toNat = (x.setWidth n).setWidth 64 :=
  BitVec.eq_of_toNat_eq (by simp [zext])

/-! ### Counting bits -/

/-- Below 2^n the count leaves the place of the highest set bit. -/
theorem leadingZeros_spec (v n : Nat) (h : v < 2 ^ n) :
    leadingZeros v n ≤ n ∧ v < 2 ^ (n - leadingZeros v n) ∧
      (leadingZeros v n < n → 2 ^ (n - 1 - leadingZeros v n) ≤ v) := by
  induction n with
  | zero => simpa [leadingZeros] using h
  | succ n ih =>
    cases hb : bit v n with
    | true => simpa [leadingZeros, hb] using ⟨h, Nat.ge_two_pow_of_testBit hb⟩
    | false =>
      have hv : v < 2 ^ n := Nat.lt_pow_two_of_testBit v fun i hi => by
        rcases hi.eq_or_lt with rfl | hi
        · exact hb
        · exact Nat.testBit_lt_two_pow (h.trans_le (Nat.pow_le_pow_right (by decide) hi))
      obtain ⟨hle, hlt, hge⟩ := ih hv
      simp only [leadingZeros, hb, Bool.false_eq_true, if_false]
      refine ⟨by omega, ?_, fun hn => ?_⟩
      · rwa [Nat.add_sub_add_right]
      · rw [show n + 1 - 1 - (leadingZeros v n + 1) = n - 1 - leadingZeros v n by omega]
        exact hge (by omega)

/-- The place found by the search from i, which is i + n when no bit is set, ends a row of zero bits. -/
theorem lowestBit_spec (v n i : Nat) :
    i ≤ (lowestBit v n i).getD (i + n) ∧ (lowestBit v n i).getD (i + n) ≤ i + n ∧
      (∀ j, i ≤ j → j < (lowestBit v n i).getD (i + n) → bit v j = false) ∧
      ((lowestBit v n i).getD (i + n) < i + n → bit v ((lowestBit v n i).getD (i + n)) = true) := by
  induction n generalizing i with
  | zero => simp [lowestBit]; omega
  | succ n ih =>
    cases hb : bit v i with
    | true => simp [lowestBit, hb]; omega
    | false =>
      obtain ⟨hge, hle, hzero, hset⟩ := ih (i + 1)
      simp only [lowestBit, hb, Bool.false_eq_true, if_false, show i + (n + 1) = i + 1 + n by omega]
      refine ⟨by omega, hle, fun j hij hj => ?_, hset⟩
      rcases hij.eq_or_lt with rfl | hij
      · exact hb
      · exact hzero j hij hj

theorem trailingZeros_spec (v : Nat) :
    trailingZeros v ≤ 64 ∧ (∀ i, i < trailingZeros v → bit v i = false) ∧
      (trailingZeros v < 64 → bit v (trailingZeros v) = true) := by
  obtain ⟨-, hle, hzero, hset⟩ := lowestBit_spec v 64 0
  exact ⟨hle, fun i => hzero i (Nat.zero_le i), hset⟩

theorem popc_eq_length (n v : Nat) : popc n v = ((List.range n).filter (bit v)).length := by
  induction n with
  | zero => rfl
  | succ n ih => cases hb : bit v n <;> simp [popc, List.range_succ, hb, ih, Nat.add_comm]

/-! ### The frame of the scalar stream -/

theorem State.whenReady_ready {s : State} {rs : List XReg} (h : s.cur.anyPending rs = false) (o : Out) :
    s.whenReady rs o = o := if_neg (by simp [h])

theorem State.whenReady_pending {s : State} {rs : List XReg} (h : s.cur.anyPending rs = true) (o : Out) :
    s.whenReady rs o = .next s := if_pos h

/-- What a ready instruction of n bytes that finishes with a value writes. -/
theorem whenReady_finish {s : State} {rs : List XReg} (h : s.cur.anyPending rs = false) {d : XReg} {v w : Word} {n : Nat}
    (e : v = w) : s.whenReady rs (s.finish d v n) = .next (wrote s d w n) := by
  rw [State.whenReady_ready h, e]; rfl

theorem shiftOf_lt (y : Word) : shiftOf y < 64 := Nat.mod_lt _ (by decide)

/-! ### Constants and targets -/

theorem lixhWord_eq_append (e : BitVec 32) (x : Word) :
    (e.setWidth 64 <<< 32) ||| zext 32 x.toNat = e ++ x.setWidth 32 := by
  rw [zext_eq_setWidth, BitVec.append_def, BitVec.shiftLeftZeroExtend_eq, BitVec.setWidth'_eq]

theorem mul_four_signExtend {n : Nat} (o : BitVec n) :
    o.signExtend 64 * 4 = BitVec.ofInt 64 (4 * o.toInt) := by
  rw [BitVec.ofInt_mul, BitVec.mul_comm, BitVec.signExtend]; rfl

/-- An address reached from an aligned one in steps of 4 is aligned. -/
theorem aligned_add_mul_four {p : Word} (h : p.toNat % 4 = 0) (y : Word) : (p + y * 4).toNat % 4 = 0 := by
  have four : (y * 4).toNat = y.toNat * 4 % 2 ^ 64 := BitVec.toNat_mul y 4
  rw [BitVec.toNat_add, four]
  omega

theorem State.jumpTo_aligned (s : State) (h : Hart) {t : Word} (ht : t.toNat % 4 = 0) :
    s.jumpTo h t = .next (s.setCur (h.setPc t)) := if_pos ht

theorem State.jumpTo_misaligned (s : State) (h : Hart) {t : Word} (ht : t.toNat % 4 ≠ 0) :
    s.jumpTo h t = s.trap causeMisalign t := if_neg ht

/-- A jump by a signed number of words from an aligned instruction. -/
theorem State.jumpTo_offset (s : State) (h : Hart) {n : Nat} (o : BitVec n) (hp : s.cur.pc.toNat % 4 = 0) :
    s.jumpTo h (s.cur.pc + o.signExtend 64 * 4) =
      .next (s.setCur (h.setPc (s.cur.pc + BitVec.ofInt 64 (4 * o.toInt)))) := by
  rw [s.jumpTo_aligned h (aligned_add_mul_four hp _), mul_four_signExtend]

theorem branch_continues {s : State} {rs : List XReg} (ready : s.cur.anyPending rs = false)
    (hp : s.cur.pc.toNat % 4 = 0) {o : BitVec 11} {taken : Bool} {p : Prop} [Decidable p] (e : taken = decide p) :
    s.whenReady rs (if taken then s.jumpTo s.cur (s.cur.pc + o.signExtend 64 * 4) else s.doneWith s.cur 4) =
      .next (s.setCur (s.cur.setPc (if p then s.cur.pc + BitVec.ofInt 64 (4 * o.toInt) else s.cur.pc + 4))) := by
  rw [State.whenReady_ready ready, e, s.jumpTo_offset s.cur o hp]
  by_cases h : p
  · simp only [h, decide_true, if_true]
  · simp only [h, decide_false, Bool.false_eq_true, if_false]; rfl

/-! ### Words of the encoder -/

/-- A word whose base holds the major and, above the place of its third field, k. -/
theorem words_selected {base major x y z k : Nat} (h : base = 1 + major * 2 ^ 2 + k * 2 ^ 18) :
    [wd3 base x 8 y 13 z 18] = [1 + major * 2 ^ 2 + x * 2 ^ 8 + y * 2 ^ 13 + (z + k) * 2 ^ 18] := by
  simp only [wd3, wd2, wd1, List.cons.injEq, and_true]; omega

theorem words_immediate {base major x y z : Nat} (h : base = 1 + major * 2 ^ 2) :
    [wd3 base x 8 y 13 z 18] = [1 + major * 2 ^ 2 + x * 2 ^ 8 + y * 2 ^ 13 + z * 2 ^ 18] := by
  rw [h]; rfl

theorem words_unary {base major x y k : Nat} (h : base = 1 + major * 2 ^ 2 + k * 2 ^ 18) :
    [wd2 base x 8 y 13] = [1 + major * 2 ^ 2 + x * 2 ^ 8 + y * 2 ^ 13 + k * 2 ^ 18] := by
  simp only [wd2, wd1, List.cons.injEq, and_true]; omega

theorem words_branch {base x y cond o : Nat} (h : base = 1 + 0x17 * 2 ^ 2 + cond * 2 ^ 18) :
    [wd3 base x 8 y 13 o 21] = [1 + 0x17 * 2 ^ 2 + x * 2 ^ 8 + y * 2 ^ 13 + cond * 2 ^ 18 + o * 2 ^ 21] := by
  simp only [wd3, wd2, wd1, List.cons.injEq, and_true]; omega

theorem major_wd1 (base x : Nat) : fld (wd1 base x 8) 7 2 = fld base 7 2 := by
  simp only [fld, wd1]; omega

theorem major_wd2 (base x y : Nat) : fld (wd2 base x 8 y 13) 7 2 = fld base 7 2 := by
  simp only [fld, wd2, wd1]; omega

/-- An instruction of two words with the immediate as its second. -/
theorem longWords {base x imm : Nat} :
    [wd1 base x 8, wd1 0 imm 0].map (fun w => fld w 7 2) = [fld base 7 2, fld imm 7 2] ∧
      [wd1 base x 8, wd1 0 imm 0].drop 1 = [imm] := by
  have second : wd1 0 imm 0 = imm := by simp [wd1]
  simp [major_wd1, second]

/-! ### The ALU, immediate and shift members -/

theorem integerRegisterResults : IntegerRegisterResults := by
  intro d a b s ready
  have writes : ∀ {v w : Word}, v = w → s.whenReady [d, a, b] (s.finish d v 4) = .next (wrote s d w 4) :=
    whenReady_finish ready
  have sh : shiftOf (s.cur.getX b) < 64 := shiftOf_lt _
  exact ⟨writes rfl, writes rfl, writes rfl, writes rfl, writes rfl, writes rfl, writes rfl, writes rfl, writes rfl,
    writes (shiftRightArith_eq_sshiftRight _ _), writes (rotateLeft_eq _ sh), writes (rotateRight_eq _ sh),
    writes (wordOfBool_slt _ _), writes (wordOfBool_ult _ _), writes (signedMin_eq _ _), writes (signedMax_eq _ _),
    writes (unsignedMin_eq _ _), writes (unsignedMax_eq _ _), writes (mul_eq_ofNat _ _), writes (mulHighSigned_eq _ _),
    writes (mulHighUnsigned_eq _ _)⟩

theorem divideAndRemainderResults : DivideAndRemainderResults := by
  intro d a b s ready
  have writes : ∀ {v w : Word}, v = w → s.whenReady [d, a, b] (s.finish d v 4) = .next (wrote s d w 4) :=
    whenReady_finish ready
  refine ⟨writes (divSigned_eq _ _), writes (divUnsigned_eq _ _), writes (remSigned_eq _ _),
    writes (remUnsigned_eq _ _), fun hx hy => ⟨writes ?_, writes ?_⟩⟩
  · rw [hx, hy, divSigned_intMin_allOnes]
  · rw [hx, hy, remSigned_intMin_allOnes]

theorem unaryResults : UnaryResults := by
  intro d a s ready
  have writes : ∀ {v w : Word}, v = w → s.whenReady [d, a] (s.finish d v 4) = .next (wrote s d w 4) :=
    whenReady_finish ready
  exact ⟨⟨_, writes rfl, leadingZeros_spec _ 64 (s.cur.getX a).isLt⟩, ⟨_, writes rfl, trailingZeros_spec _⟩,
    writes (congrArg _ (popc_eq_length 64 _)), writes (sext_eq_signExtend 8 _), writes (sext_eq_signExtend 16 _),
    writes (sext_eq_signExtend 32 _), writes (zext_eq_setWidth 32 _)⟩

theorem immediateAndShiftResults : ImmediateAndShiftResults := by
  intro d a i h s ready
  have writes : ∀ {v w : Word}, v = w → s.whenReady [d, a] (s.finish d v 4) = .next (wrote s d w 4) :=
    whenReady_finish ready
  exact ⟨writes rfl, writes rfl, writes rfl, writes rfl, writes (wordOfBool_slt _ _), writes (wordOfBool_ult _ _),
    writes rfl, writes rfl, writes (shiftRightArith_eq_sshiftRight _ _), writes (rotateRight_eq _ h.isLt)⟩

theorem arithmeticEncodings : ArithmeticEncodings := by
  intro d a b i h word alu un sh
  exact ⟨words_selected rfl, words_selected rfl, words_selected rfl, words_selected rfl, words_selected rfl,
    words_selected rfl, words_selected rfl, words_selected rfl, words_selected rfl, words_selected rfl,
    words_selected rfl, words_selected rfl, words_selected rfl, words_selected rfl, words_selected rfl,
    words_selected rfl, words_selected rfl, words_selected rfl, words_selected rfl, words_selected rfl,
    words_selected rfl, words_selected rfl, words_selected rfl, words_selected rfl, words_selected rfl,
    words_unary rfl, words_unary rfl, words_unary rfl, words_unary rfl, words_unary rfl, words_unary rfl,
    words_unary rfl, words_immediate rfl, words_immediate rfl, words_immediate rfl, words_immediate rfl,
    words_immediate rfl, words_immediate rfl, words_selected rfl, words_selected rfl, words_selected rfl,
    words_selected rfl⟩

/-- Settles O1: every member is the shared frame (`whenReady_finish`) around its operation of Table 14-4 as a
bit-vector operation, and its word is the base of its selector plus its fields. -/
theorem integerArithmeticResults : Obligations.IntegerArithmeticResults :=
  ⟨integerRegisterResults, divideAndRemainderResults, unaryResults, immediateAndShiftResults, arithmeticEncodings⟩

/-! ### Constants -/

theorem upperImmediates : UpperImmediates :=
  fun _ _ _ => ⟨congrArg (fun m => [m]) (major_wd2 _ _ _), congrArg (fun m => [m]) (major_wd2 _ _ _),
    fun ready => ⟨whenReady_finish ready rfl, whenReady_finish ready rfl⟩⟩

theorem longImmediates : LongImmediates := by
  intro d e s
  obtain ⟨lixMajor, lixSecond⟩ := longWords (base := 0x0000002E) (x := d.toNat) (imm := e.toNat)
  obtain ⟨lixhMajor, lixhSecond⟩ := longWords (base := 0x1000002E) (x := d.toNat) (imm := e.toNat)
  exact ⟨lixMajor, lixSecond, lixhMajor, lixhSecond, fun pending => State.whenReady_pending pending _,
    fun ready => ⟨whenReady_finish ready rfl, whenReady_finish ready (lixhWord_eq_append _ _)⟩⟩

/-- Settles O2: the constants are the frame around their value, and LIXH's value is an append. -/
theorem upperAndLongImmediates : Obligations.UpperAndLongImmediates := ⟨upperImmediates, longImmediates⟩

/-! ### Branches and jumps -/

theorem branchesContinue : BranchesContinue := by
  intro a b o s ready hp
  exact ⟨branch_continues ready hp (beq_eq_decide _ _), branch_continues ready hp (by simp [bne, beq_eq_decide]),
    branch_continues ready hp BitVec.slt_eq_decide, branch_continues ready hp (not_slt_eq_decide _ _),
    branch_continues ready hp BitVec.ult_eq_decide, branch_continues ready hp (not_ult_eq_decide _ _)⟩

theorem branchEncodings : BranchEncodings :=
  fun _ _ _ => ⟨words_branch rfl, words_branch rfl, words_branch rfl, words_branch rfl, words_branch rfl, words_branch rfl⟩

theorem jumpsContinue : JumpsContinue := by
  intro d a o i s hp
  refine ⟨s.jumpTo_offset _ o hp, fun ready => ?_, fun ready => ⟨fun ht => ?_, fun ht => ?_⟩⟩
  · exact (State.whenReady_ready ready _).trans (s.jumpTo_offset _ o hp)
  · exact (State.whenReady_ready ready _).trans (s.jumpTo_aligned _ ht)
  · exact (State.whenReady_ready ready _).trans (s.jumpTo_misaligned _ ht)

/-- Settles O3: an offset counts words, so it never leaves the aligned addresses, and only JLR can trap. -/
theorem branchesAndJumpsContinue : Obligations.BranchesAndJumpsContinue :=
  ⟨branchesContinue, branchEncodings, jumpsContinue⟩

end Sys2Proof.Machine
